-- ==== Sys2Proof/Word.lean ====
section
/-! DEFINITION. The two word types of the core: the byte of a port memory and the 32-bit host register
(spec/00_scope.md R9, R10: every register of the host interface is 32 bits wide). -/

namespace Sys2Proof

/-- One byte of a port memory (R12). -/
abbrev Byte := BitVec 8

/-- One host register (R20). -/
abbrev Word := BitVec 32

end Sys2Proof
end

