-- ==== Sys2Proof/Config.lean ====
section
/-! DEFINITION. What an implementation fixes (the parameters of spec/00_scope.md R9) and the free values: the
draws that spec/93_implementation_defined.md lists as "any value" (U1, U2, U3). A free value is an opaque
constant: nothing in Lean can evaluate it, so a claim that holds of it holds whatever the hardware gives. -/

namespace Sys2Proof

/-- R9, R263: the two values of `EOCD_SCAN_CAP`. -/
inductive ScanCap where
  /-- At most 65535 comment bytes are looked past. -/
  | formatMax
  /-- The scan goes down to offset 0. -/
  | full
  deriving DecidableEq, Repr

/-- R9: the parameters the source leaves to the implementation. They stand in `State` as plain data that no step
writes, so that a claim about every state is a claim about every value of them (assumption 1). -/
structure Params where
  /-- `IN_CAP`: bytes of the IN port memory. -/
  inCap : Nat
  /-- `OUT_CAP`: bytes of the OUT port memory. -/
  outCap : Nat
  /-- `NAME_CAP`: bytes of the NAME port memory. -/
  nameCap : Nat
  /-- `MAX_ENTRIES`: records of the file table. -/
  maxEntries : Nat
  /-- `EOCD_SCAN_CAP`. -/
  scanCap : ScanCap
  /-- `ACCEPT_HLIT_OVER_286`. -/
  acceptHlitOver286 : Bool
  deriving DecidableEq, Repr

/-- R9's "constraint" column. -/
def Params.ok (p : Params) : Bool :=
  decide (22 ≤ p.inCap) && decide (p.inCap ≤ 2 ^ 32 - 1) && decide (p.outCap ≤ 2 ^ 32 - 1)
    && decide (p.nameCap ≤ 65535) && decide (p.maxEntries ≤ 65535)

/-- R9's "default" column. `IN_CAP` and `OUT_CAP` have no default there: the largest value the constraint allows
stands for them (assumption 1, DESIGN CHOICE). -/
def Params.default : Params :=
  { inCap := 2 ^ 32 - 1
    outCap := 2 ^ 32 - 1
    nameCap := 65535
    maxEntries := 65535
    scanCap := .formatMax
    acceptHlitOver286 := true }

/-- R70, R380, U3: what byte `a` of IN holds while nothing has written it since reset number `epoch`. -/
opaque Config.freeIn (epoch a : Nat) : Byte

/-- R71, R380, U3: what byte `a` of NAME holds while nothing has written it since reset number `epoch`. -/
opaque Config.freeName (epoch a : Nat) : Byte

/-- R74, R347, R380, U1, U3: what byte `a` of OUT holds while the core has not written it since the `epoch`-th
event (a reset or a failed command) that left OUT unspecified. -/
opaque Config.freeOut (epoch a : Nat) : Byte

/-- R86, R391, U2: what the `n`-th host read of OUT or of a result register while BUSY returns. -/
opaque Config.freeRead (n : Nat) : Word

end Sys2Proof
end

