-- ==== Sys2Proof/Machine/State.lean ====
section
/-! DEFINITION. The state of the core: everything spec/10_state.md and spec/20_memory.md give it, and the few fields
of the model's own that stand for the host (the second agent of R18) and for the draws. It is plain data. -/

namespace Sys2Proof.Machine

/-- A port memory: (address, byte) pairs, addresses strictly rising (`Memory.wf`, Machine/Ops.lean). An address that
is not listed has not been written; what it reads as is a free value (R380, R347; assumption 3). -/
abbrev Memory := List Host.Cell

/-- What a BUSY core does next. The spec's bodies are sequential pseudocode; this is the place reached in them. -/
inductive Activity where
  /-- R300: a command has been accepted and its body is about to run. -/
  | command
  /-- R262: OPEN tests the candidate offset `scanPos` for the EOCD signature. -/
  | scanEocd
  /-- R272: OPEN is about to process the central-directory record at `cdCursor`. -/
  | walkCdh
  /-- R275: OPEN is about to process the local header at `lfhPos` of that record. -/
  | checkLfh
  /-- R191: an inflate is about to read a block header. -/
  | blockHeader
  /-- R202: an inflate is about to decode a code-length symbol. -/
  | codeLength
  /-- R198: an inflate is about to decode a literal/length symbol. -/
  | litLen
  /-- R207: an inflate is about to decode the distance symbol of a match. -/
  | distance
  /-- R306, R312, R260's last line: the body's last steps, before R301. -/
  | finish
  deriving DecidableEq, Repr

/-- R22: STATUS.STATE. While BUSY the core is at some place of a command body. -/
inductive RunState where
  /-- 0: no command has run since reset. -/
  | idle
  /-- 1. -/
  | busy (a : Activity)
  /-- 2: the last command succeeded. -/
  | done
  /-- 3: the last command failed. -/
  | fail
  deriving DecidableEq, Repr

/-- R35: the stream state machine. -/
inductive Phase where
  | awaitBlockHeader
  | stored
  | fixed
  | dynamic
  | done
  | failed
  deriving DecidableEq, Repr

/-- R36: a Huffman tree. `none` is EMPTY. -/
structure Tree where
  /-- `count[0..15]`. -/
  count : List Nat
  /-- `sym[0..287]`. -/
  sym : List (Option Nat)
  deriving DecidableEq, Repr

/-- R40: a record of the file table. Offsets and lengths are exact numbers (R10, R45; assumption 6). -/
structure Entry where
  nameOff : Nat
  nameLen : Nat
  commentOff : Nat
  commentLen : Nat
  method : Nat
  csize : Nat
  usize : Nat
  crc : Nat
  dosTime : Nat
  dosDate : Nat
  dataOff : Nat
  deriving DecidableEq, Repr

/-- R20-R28: the host registers but for the nine ENT registers. STATUS.STATE stands in `State.run`. -/
structure Regs where
  /-- CMD.OP, the last accepted OP (R21). -/
  cmdOp : BitVec 4
  /-- STATUS.OPEN_VALID (R22, R42). -/
  openValid : Bool
  /-- STATUS.IGNORED (R22). -/
  ignored : Bool
  /-- STATUS.IRQ_PENDING (R22, R350). -/
  irqPending : Bool
  /-- CTRL.IE (R23). -/
  ie : Bool
  /-- ERR (R24). -/
  err : Word
  /-- ERR_POS (R24). -/
  errPos : Word
  /-- IN_LEN (R25). -/
  inLen : Word
  /-- NAME_LEN (R25). -/
  nameLen : Word
  /-- ARG0 (R26). -/
  arg0 : Word
  /-- ARG1 (R26). -/
  arg1 : Word
  /-- ARG2 (R26). -/
  arg2 : Word
  /-- OUT_LEN (R27). -/
  outLen : Word
  /-- RES_CRC (R27). -/
  resCrc : Word
  /-- ENTRY_COUNT (R28). -/
  entryCount : Word
  /-- COMMENT_OFF (R28). -/
  commentOff : Word
  /-- COMMENT_LEN (R28). -/
  commentLen : Word
  deriving DecidableEq, Repr

/-- R29: the nine ENT registers. -/
structure EntRegs where
  index : Word
  method : Word
  csize : Word
  usize : Word
  crc : Word
  dosdt : Word
  dataOff : Word
  commentOff : Word
  commentLen : Word
  deriving DecidableEq, Repr

/-- R31-R38: the working state of an inflate. -/
structure Inflator where
  /-- R31: the bit position of the next unconsumed bit. -/
  bitpos : Nat
  /-- R32. -/
  regionStart : Nat
  /-- R32. -/
  regionEnd : Nat
  /-- R33: bytes written to OUT. -/
  destLen : Nat
  /-- R33. -/
  destCap : Nat
  /-- R35. -/
  phase : Phase
  /-- R35. -/
  bfinal : Bool
  /-- R35. -/
  btype : BitVec 2
  /-- R37. -/
  ltDyn : Tree
  /-- R37. -/
  dtDyn : Tree
  /-- R37: the code-length tree. -/
  clt : Tree
  /-- R38: the code lengths this header has produced so far; `num` of R202 is their number. -/
  lengths : List Nat
  /-- R38, R200. -/
  hlit : Nat
  /-- R38, R200. -/
  hdist : Nat
  /-- R38, R200. -/
  hclen : Nat
  /-- R38, R201: `cl[0..18]`. -/
  cl : List Nat
  /-- R207: `length`, between the length symbol and the distance symbol of a match. -/
  matchLen : Nat
  deriving DecidableEq, Repr

/-- R43, R262, R271, R275: the cursors of the ZIP parser. -/
structure Parser where
  /-- R262: the candidate offset `i` of the scan. -/
  scanPos : Nat
  /-- R43, R266. -/
  eocdPos : Nat
  /-- R43, R278. -/
  cdCursor : Nat
  /-- R271: records still to process. -/
  cdLeft : Nat
  /-- R275: `h`, the local header offset of the record at `cdCursor`. -/
  lfhPos : Nat
  deriving DecidableEq, Repr

/-- The width of a host access to the register space (R73). -/
inductive Width where
  | w8
  | w16
  | w32
  | w64
  deriving DecidableEq, Repr

/-- R18, R86: one move of the host, the second agent. A list of them is the host's side of an interleaving: `pass`
lets the core take a step between two accesses. -/
inductive HostOp where
  /-- A write to the register space (R73). -/
  | writeReg (off : BitVec 8) (width : Width) (value : Word)
  /-- A read of the register space (R73). -/
  | readReg (off : BitVec 8) (width : Width)
  /-- A write of one byte of IN (R70). -/
  | writeIn (a : Nat) (v : Byte)
  /-- A write of one byte of NAME (R71). -/
  | writeName (a : Nat) (v : Byte)
  /-- A write of one byte of OUT (R74). -/
  | writeOut (a : Nat) (v : Byte)
  /-- A read of one byte of IN. -/
  | readIn (a : Nat)
  /-- A read of one byte of NAME. -/
  | readName (a : Nat)
  /-- A read of one byte of OUT (R74, R86). -/
  | readOut (a : Nat)
  /-- The reset input, or power-on (R380, R382). -/
  | reset
  /-- No access: the core moves. -/
  | pass
  /-- R120 `WAIT`: no access until the core is not BUSY. -/
  | wait
  deriving DecidableEq, Repr

/-- The state of the core and of its host. -/
structure State where
  /-- R9; no step writes it. -/
  params : Params
  /-- R22: STATUS.STATE. -/
  run : RunState
  /-- R20-R28. -/
  regs : Regs
  /-- R29. -/
  ent : EntRegs
  /-- R70. -/
  inMem : Memory
  /-- R71. -/
  nameMem : Memory
  /-- R74. -/
  outMem : Memory
  /-- R31-R38. -/
  inf : Inflator
  /-- R39: the CRC accumulator. -/
  crc : Word
  /-- R43. -/
  zip : Parser
  /-- R40, R41: the valid records `FT[0 .. FT_COUNT-1]`, in order. -/
  ft : List Entry
  /-- The host's pending moves, oldest first (the model's own). -/
  hostOps : List HostOp
  /-- What the last host read returned (the model's own). -/
  hostData : Word
  /-- Resets so far: which draws IN and NAME hold where unwritten (the model's own). -/
  memEpoch : Nat
  /-- Resets and failures so far: which draws OUT holds where unwritten (the model's own). -/
  outEpoch : Nat
  /-- Host reads so far that returned a draw (the model's own). -/
  readDraws : Nat
  deriving DecidableEq, Repr

/-- Which port memory an access names. -/
inductive Port where
  | inPort
  | namePort
  | outPort
  deriving DecidableEq, Repr

/-- What stops the machine. No instruction raises one: the failures the spec describes are next states. -/
inductive Fault where
  /-- Raised by a host access to a byte of a port memory at or beyond its capacity, an address the spec gives no
  byte (R70, R71, R74). Safe: the model stops where a platform would decode the access elsewhere. -/
  | noSuchByte (p : Port) (a : Nat)
  /-- Raised when the symbol decoder selects an EMPTY slot. R176 says it never does; no state a run reaches raises
  it. Safe. -/
  | emptySymbol
  /-- Raised when a decoded symbol is outside its alphabet. R176 says none is; no state a run reaches raises it.
  Safe. -/
  | noSuchSymbol (v : Nat)
  deriving DecidableEq, Repr

/-- Why an instruction has no meaning in this model. -/
inductive Refusal where
  /-- Raised by `exec` for an instruction not modelled yet. Safe. -/
  | notModelled (mnemonic : String)
  deriving DecidableEq, Repr

/-- U4: a tree before any BuildTree. The spec leaves it unspecified and never reads it. -/
def Tree.initial : Tree := { count := List.replicate 16 0, sym := List.replicate 288 none }

/-- R380: every host register is 0. -/
def Regs.initial : Regs :=
  { cmdOp := 0, openValid := false, ignored := false, irqPending := false, ie := false, err := 0, errPos := 0
    inLen := 0, nameLen := 0, arg0 := 0, arg1 := 0, arg2 := 0, outLen := 0, resCrc := 0
    entryCount := 0, commentOff := 0, commentLen := 0 }

/-- R380, R300: the ENT registers after reset and after the acceptance of any command. -/
def EntRegs.zero : EntRegs :=
  { index := 0, method := 0, csize := 0, usize := 0, crc := 0, dosdt := 0, dataOff := 0
    commentOff := 0, commentLen := 0 }

/-- R380, U4: unspecified and never read before written; 0 stands for it (assumption 5). -/
def Inflator.initial : Inflator :=
  { bitpos := 0, regionStart := 0, regionEnd := 0, destLen := 0, destCap := 0, phase := .awaitBlockHeader
    bfinal := false, btype := 0, ltDyn := Tree.initial, dtDyn := Tree.initial, clt := Tree.initial
    lengths := [], hlit := 0, hdist := 0, hclen := 0, cl := List.replicate 19 0, matchLen := 0 }

/-- R380, U4: unspecified and never read before written; 0 stands for it (assumption 5). -/
def Parser.initial : Parser := { scanPos := 0, eocdPos := 0, cdCursor := 0, cdLeft := 0, lfhPos := 0 }

/-- R380: the state after reset, with no host move pending. -/
def State.reset : State :=
  { params := Params.default
    run := .idle
    regs := Regs.initial
    ent := EntRegs.zero
    inMem := []
    nameMem := []
    outMem := []
    inf := Inflator.initial
    crc := 0
    zip := Parser.initial
    ft := []
    hostOps := []
    hostData := 0
    memEpoch := 0
    outEpoch := 0
    readDraws := 0 }

end Sys2Proof.Machine
end

