-- ==== Sys2Proof/Machine/Ops.lean ====
section
/-! DEFINITION. The named operations over memory and registers: the port memories, the fields of ZIP records, the
failure completion (the core's only exception, R346), the successful completion (R301), the acceptance of a command
(R300) and the append of an output byte (R193). -/

namespace Sys2Proof.Machine

/-! ## Port memories (R12, R70-R74) -/

/-- The byte written last at `a`, if any was. -/
def Memory.get? : Memory → Nat → Option Byte
  | [], _ => none
  | (b, v) :: m, a => if b = a then some v else Memory.get? m a

/-- Write one byte, keeping the addresses strictly rising. -/
def Memory.set : Memory → Nat → Byte → Memory
  | [], a, v => [(a, v)]
  | (b, w) :: m, a, v =>
    if a < b then (a, v) :: (b, w) :: m
    else if a = b then (a, v) :: m
    else (b, w) :: Memory.set m a v

/-- The addresses of `m` rise strictly and are at least `lo`. -/
def Memory.risingFrom : Nat → Memory → Bool
  | _, [] => true
  | lo, (a, _) :: m => decide (lo ≤ a) && Memory.risingFrom (a + 1) m

/-- The canonical form of a port memory: addresses strictly rising. An unlisted address has no value of its own, so
no entry can repeat one. -/
def Memory.wf (m : Memory) : Bool := Memory.risingFrom 0 m

/-- `IN8(a)` (R12). -/
def inByte (s : State) (a : Nat) : Byte := (s.inMem.get? a).getD (Config.freeIn s.memEpoch a)

/-- `MemRead(NAME, a, 1)` (R12). -/
def nameByte (s : State) (a : Nat) : Byte := (s.nameMem.get? a).getD (Config.freeName s.memEpoch a)

/-- `MemRead(OUT, a, 1)` (R12). -/
def outByte (s : State) (a : Nat) : Byte := (s.outMem.get? a).getD (Config.freeOut s.outEpoch a)

/-- `LE16(a)` (R12, R77). -/
def le16 (s : State) (a : Nat) : Nat := (inByte s a).toNat + 2 ^ 8 * (inByte s (a + 1)).toNat

/-- `LE32(a)` (R12, R77). -/
def le32 (s : State) (a : Nat) : Nat :=
  (inByte s a).toNat + 2 ^ 8 * (inByte s (a + 1)).toNat + 2 ^ 16 * (inByte s (a + 2)).toNat
    + 2 ^ 24 * (inByte s (a + 3)).toNat

/-- `IN_LEN` as the number every bound is compared with (R10). -/
def inLen (s : State) : Nat := s.regs.inLen.toNat

/-- STATUS.STATE = BUSY (R22). -/
def busy (s : State) : Bool :=
  match s.run with
  | .busy _ => true
  | _ => false

/-- FT_COUNT (R41). -/
def ftCount (s : State) : Nat := s.ft.length

/-! ## Failure (R340, R341, R346) -/

/-- R341: the causes. -/
inductive Cause where
  | bufferTooShort
  | eocdNotFound
  | multiDisk
  | entryCountMismatch
  | eocdCommentOob
  | cdhOob
  | cdhBadSignature
  | cdhFieldsOob
  | lfhOob
  | lfhBadSignature
  | contentOob
  | versionTooHigh
  | encrypted
  | badMethod
  | tooManyEntries
  | outputTooLarge
  | badBlockType
  | storedLenMismatch
  | invalidCode
  | invalidLitlenSymbol
  | invalidDistSymbol
  | distTooFar
  | repeatNoPrevious
  | repeatOverflow
  | inputOverrun
  | outputOverrun
  | outputShort
  | storedSizeMismatch
  | hlitRange
  | crcMismatch
  | nameNotFound
  | unknownOp
  | notOpen
  | argRange
  deriving DecidableEq, Repr

/-- R341: ERR.CAUSE. -/
def Cause.code : Cause → Nat
  | .bufferTooShort => 0x10
  | .eocdNotFound => 0x11
  | .multiDisk => 0x12
  | .entryCountMismatch => 0x13
  | .eocdCommentOob => 0x14
  | .cdhOob => 0x15
  | .cdhBadSignature => 0x16
  | .cdhFieldsOob => 0x17
  | .lfhOob => 0x18
  | .lfhBadSignature => 0x19
  | .contentOob => 0x1A
  | .versionTooHigh => 0x20
  | .encrypted => 0x21
  | .badMethod => 0x22
  | .tooManyEntries => 0x23
  | .outputTooLarge => 0x24
  | .badBlockType => 0x30
  | .storedLenMismatch => 0x31
  | .invalidCode => 0x32
  | .invalidLitlenSymbol => 0x33
  | .invalidDistSymbol => 0x34
  | .distTooFar => 0x35
  | .repeatNoPrevious => 0x36
  | .repeatOverflow => 0x37
  | .inputOverrun => 0x38
  | .outputOverrun => 0x39
  | .outputShort => 0x3A
  | .storedSizeMismatch => 0x3B
  | .hlitRange => 0x3C
  | .crcMismatch => 0x40
  | .nameNotFound => 0x50
  | .unknownOp => 0x60
  | .notOpen => 0x61
  | .argRange => 0x62

/-- R340, R341: ERR.CLASS. 1 Malformed, 2 Unsupported, 3 DataError, 4 Integrity, 5 NotFound, 6 BadCommand. -/
def Cause.classCode : Cause → Nat
  | .bufferTooShort => 1
  | .eocdNotFound => 1
  | .multiDisk => 1
  | .entryCountMismatch => 1
  | .eocdCommentOob => 1
  | .cdhOob => 1
  | .cdhBadSignature => 1
  | .cdhFieldsOob => 1
  | .lfhOob => 1
  | .lfhBadSignature => 1
  | .contentOob => 1
  | .versionTooHigh => 2
  | .encrypted => 2
  | .badMethod => 2
  | .tooManyEntries => 2
  | .outputTooLarge => 2
  | .badBlockType => 3
  | .storedLenMismatch => 3
  | .invalidCode => 3
  | .invalidLitlenSymbol => 3
  | .invalidDistSymbol => 3
  | .distTooFar => 3
  | .repeatNoPrevious => 3
  | .repeatOverflow => 3
  | .inputOverrun => 3
  | .outputOverrun => 3
  | .outputShort => 3
  | .storedSizeMismatch => 3
  | .hlitRange => 3
  | .crcMismatch => 4
  | .nameNotFound => 5
  | .unknownOp => 6
  | .notOpen => 6
  | .argRange => 6

/-- R346, R24: the ERR word. -/
def errWord (c : Cause) (bit : Nat) : Word :=
  (BitVec.ofNat 32 bit <<< 12) ||| (BitVec.ofNat 32 c.classCode <<< 8) ||| BitVec.ofNat 32 c.code

/-- R346: the failure completion, the one way a command fails. `pos` and `bit` are what R341 gives for the cause.
OUT's bytes are unspecified afterwards: none is listed, and a new epoch gives each of them a fresh draw (R347). -/
def fail (c : Cause) (pos bit : Nat) (s : State) : State :=
  { s with
    run := .fail
    regs := { s.regs with
      err := errWord c bit
      errPos := BitVec.ofNat 32 pos
      outLen := 0
      irqPending := true }
    outMem := []
    outEpoch := s.outEpoch + 1 }

/-- R346, R211: a raise inside an inflate. The position is that of the bit reader, and `phase` becomes FAILED. -/
def failInflate (c : Cause) (s : State) : State :=
  fail c (s.inf.bitpos / 8) (s.inf.bitpos % 8) { s with inf := { s.inf with phase := .failed } }

/-- What a part of a command body answers: a result, or the state after the failure completion of a raise (R14: no
statement after a raise executes). -/
abbrev Res (α : Type) := Except State α

/-- `raise` of a cause that names no bit position (R14, R341). -/
def raise {α : Type} (c : Cause) (pos : Nat) (s : State) : Res α := .error (fail c pos 0 s)

/-- `raise` inside an inflate (R14, R341). -/
def raiseInflate {α : Type} (c : Cause) (s : State) : Res α := .error (failInflate c s)

/-- The outcome of an instruction: the state its body reached, or the state its raise left. -/
def settle : Res State → Host.Outcome State Fault Refusal
  | .ok s => .next s
  | .error s => .next s

/-! ## Success and acceptance (R300, R301) -/

/-- R301: successful completion. -/
def complete (s : State) : State :=
  { s with run := .done, regs := { s.regs with irqPending := true } }

/-- R300: what the acceptance of an OPEN clears besides. -/
def clearHandle (s : State) : State :=
  { s with
    regs := { s.regs with openValid := false, entryCount := 0, commentOff := 0, commentLen := 0 }
    ft := [] }

/-- R300: what the acceptance of a write of `w` to CMD does for every OP. -/
def beginCommand (w : Word) (s : State) : State :=
  { s with
    run := .busy .command
    regs := { s.regs with cmdOp := w.extractLsb' 0 4, err := 0, errPos := 0, outLen := 0, resCrc := 0 }
    ent := EntRegs.zero }

/-- R300: the acceptance of a write of `w` to CMD. The body is what the next steps of the core run. -/
def acceptCommand (w : Word) (s : State) : State :=
  if w.extractLsb' 0 4 = 1 then clearHandle (beginCommand w s) else beginCommand w s

/-- The core goes on at another place of the running body. -/
def goTo (a : Activity) (s : State) : State := { s with run := .busy a }

/-! ## Output (R193) -/

/-- R193: append one byte to the destination. -/
def putByte (v : Byte) (s : State) : Res State :=
  if s.inf.destLen = s.inf.destCap then raiseInflate .outputOverrun s
  else .ok { s with
    outMem := s.outMem.set s.inf.destLen v
    inf := { s.inf with destLen := s.inf.destLen + 1 } }

end Sys2Proof.Machine
end

