-- ==== Sys2Proof/Machine/Flags.lean ====
section
/-! DEFINITION. The flags: the STATUS, CTRL and CMD words the host sees (spec/10_state.md R21-R23), the interrupt
output (R350), the write-one-to-clear bits, and the stream state machine of the inflator (R35, R192). -/

namespace Sys2Proof.Machine

/-- R22: the code of STATUS.STATE. -/
def RunState.code : RunState → Nat
  | .idle => 0
  | .busy _ => 1
  | .done => 2
  | .fail => 3

/-- R22: the STATUS word, with `openValid` as bit 2. -/
def statusWord (s : State) (openValid : Bool) : Word :=
  BitVec.ofNat 32 (s.run.code + 4 * openValid.toNat + 8 * s.regs.ignored.toNat + 16 * s.regs.irqPending.toNat)

/-- R21: CMD reads back the last accepted OP. -/
def cmdWord (s : State) : Word := s.regs.cmdOp.setWidth 32

/-- R23: the CTRL word. -/
def ctrlWord (s : State) : Word := BitVec.ofNat 32 s.regs.ie.toNat

/-- R350: the interrupt output. -/
def irq (s : State) : Bool := s.regs.irqPending && s.regs.ie

/-- R22: a host write to STATUS. Only bits 3 and 4 are writable, and a 1 clears. -/
def writeStatus (v : Word) (s : State) : State :=
  { s with regs := { s.regs with
      ignored := s.regs.ignored && !v.getLsbD 3
      irqPending := s.regs.irqPending && !v.getLsbD 4 } }

/-- R23: a host write to CTRL. -/
def writeCtrl (v : Word) (s : State) : State := { s with regs := { s.regs with ie := v.getLsbD 0 } }

/-- R20, R21, R70, R71, R351: a host write dropped because the core is BUSY. -/
def markIgnored (s : State) : State := { s with regs := { s.regs with ignored := true } }

/-- R35: the flags a block header writes (R191) and the phase the dispatcher enters (R192). -/
def enterBlock (final : Bool) (type : BitVec 2) (p : Phase) (s : State) : State :=
  { s with inf := { s.inf with bfinal := final, btype := type, phase := p } }

/-- R192's last line and R190's loop test: the block is over. After the final one the phase is DONE and the command
finishes (R210); after any other the next block header follows at the next bit (R199). -/
def endBlock (s : State) : State :=
  if s.inf.bfinal then goTo .finish { s with inf := { s.inf with phase := .done } }
  else goTo .blockHeader { s with inf := { s.inf with phase := .awaitBlockHeader } }

end Sys2Proof.Machine
end

