-- ==== Sys2Proof/Machine/Operands.lean ====
section
/-! DEFINITION. The operand forms: the bit reader (spec/40_bitreader.md) and the base and extra-bit tables of the
length, distance and code-length alphabets (spec/30_encoding.md R107, R108, R111, R112). -/

namespace Sys2Proof.Machine

/-! ## Bit reader (R150-R155) -/

/-- R150: `Bit(p)`. -/
def bitAt (s : State) (p : Nat) : Nat := ((inByte s (p / 8)).toNat >>> (p % 8)) % 2

/-- R152: `Σ_{k<n} Bit(p+k) << k`, the field of `n` bits at `p`, first bit least significant (R78). -/
def bitField (s : State) : (p : Nat) → (n : Nat) → Nat
  | _, 0 => 0
  | p, n + 1 => bitAt s p + 2 * bitField s (p + 1) n

/-- `bitpos <- target` (R14). -/
def setBitpos (p : Nat) (s : State) : State := { s with inf := { s.inf with bitpos := p } }

/-- R151: `ReadBit()`. -/
def readBit (s : State) : Res (Nat × State) :=
  if s.inf.bitpos + 1 > 8 * s.inf.regionEnd then raiseInflate .inputOverrun s
  else .ok (bitAt s s.inf.bitpos, setBitpos (s.inf.bitpos + 1) s)

/-- R152: `ReadBits(n)`. The whole field is checked before a bit is consumed. -/
def readBits (n : Nat) (s : State) : Res (Nat × State) :=
  if n = 0 then .ok (0, s)
  else if s.inf.bitpos + n > 8 * s.inf.regionEnd then raiseInflate .inputOverrun s
  else .ok (bitField s s.inf.bitpos n, setBitpos (s.inf.bitpos + n) s)

/-- R153: `AlignToByte()`. -/
def alignToByte (s : State) : State := setBitpos ((s.inf.bitpos + 7) / 8 * 8) s

/-- R155: `BitReaderInit(start, end)`. -/
def bitReaderInit (start stop : Nat) (s : State) : State :=
  { s with inf := { s.inf with regionStart := start, regionEnd := stop, bitpos := 8 * start } }

/-! ## Tables -/

/-- R107: `LEN_BASE`, by length index. -/
def lenBase : List Nat :=
  [3, 4, 5, 6, 7, 8, 9, 10, 11, 13, 15, 17, 19, 23, 27, 31, 35, 43, 51, 59, 67, 83, 99, 115, 131, 163, 195, 227, 258]

/-- R107: `LEN_EXTRA`, by length index. -/
def lenExtra : List Nat :=
  [0, 0, 0, 0, 0, 0, 0, 0, 1, 1, 1, 1, 2, 2, 2, 2, 3, 3, 3, 3, 4, 4, 4, 4, 5, 5, 5, 5, 0]

/-- R108: `DIST_BASE`, by symbol. -/
def distBase : List Nat :=
  [1, 2, 3, 4, 5, 7, 9, 13, 17, 25, 33, 49, 65, 97, 129, 193, 257, 385, 513, 769, 1025, 1537, 2049, 3073, 4097, 6145,
   8193, 12289, 16385, 24577]

/-- R108: `DIST_EXTRA`, by symbol. -/
def distExtra : List Nat :=
  [0, 0, 0, 0, 1, 1, 2, 2, 3, 3, 4, 4, 5, 5, 6, 6, 7, 7, 8, 8, 9, 9, 10, 10, 11, 11, 12, 12, 13, 13]

/-- R111: `CL_ORDER`. -/
def clOrder : List Nat := [16, 17, 18, 0, 8, 7, 9, 6, 10, 5, 11, 4, 12, 3, 13, 2, 14, 1, 15]

end Sys2Proof.Machine
end

