-- ==== Sys2Proof/Machine/Huffman.lean ====
section
/-! DEFINITION. The Huffman tree builder and the symbol decoder (spec/41_huffman.md). -/

namespace Sys2Proof.Machine

/-! ## Tree builder (R170-R174) -/

/-- The symbols whose code length is `l`, in increasing order; `lens` gives the length of symbol 0, 1, …. -/
def symbolsOfLength (lens : List Nat) (l : Nat) : List Nat :=
  lens.zipIdx.filterMap fun (len, i) => if len = l then some i else none

/-- R36, R170: the used symbols in canonical order, sorted by (length, symbol index). -/
def canonicalOrder (lens : List Nat) : List Nat :=
  (List.range' 1 15).flatMap (symbolsOfLength lens)

/-- R171: `T.count`, with index 0 forced to 0. -/
def countTable (lens : List Nat) : List Nat :=
  0 :: (List.range' 1 15).map fun l => lens.count l

/-- R171: `BuildTree(T, lens, off, num)` on the slice `lens[off .. off+num-1]`. The symbol table is given in closed
form; `buildTreeBySteps` is the rule's own loop. -/
def buildTree (lens : List Nat) : Tree :=
  let placed := canonicalOrder lens
  { count := countTable lens
    sym := placed.map some ++ List.replicate (288 - placed.length) none }

/-- R171: the prefix sums `offs[L]` of a count table, for L = 0, 1, …. -/
def offsets : (s : Nat) → (count : List Nat) → List Nat
  | _, [] => []
  | s, c :: cs => s :: offsets (s + c) cs

/-- R171: the placement loop from symbol `i` on. -/
def placeSymbols : (i : Nat) → (lens : List Nat) → (offs : List Nat) → (sym : List (Option Nat)) → List (Option Nat)
  | _, [], _, sym => sym
  | i, 0 :: lens, offs, sym => placeSymbols (i + 1) lens offs sym
  | i, (l + 1) :: lens, offs, sym =>
    let o := offs.getD (l + 1) 0
    placeSymbols (i + 1) lens (offs.set (l + 1) (o + 1)) (sym.set o (some i))

/-- R171: the histogram loop. -/
def countSymbols : (lens : List Nat) → (count : List Nat) → List Nat
  | [], count => count
  | l :: lens, count => countSymbols lens (count.set l (count.getD l 0 + 1))

/-- R171's pseudocode step by step: the histogram, index 0 forced to 0, the offsets, the placement. -/
def buildTreeBySteps (lens : List Nat) : Tree :=
  let count := (countSymbols lens (List.replicate 16 0)).set 0 0
  { count := count
    sym := placeSymbols 0 lens (offsets 0 count) (List.replicate 288 none) }

/-- R172: the fixed literal/length code lengths. -/
def fixedLitLenLengths : List Nat :=
  List.replicate 144 8 ++ List.replicate 112 9 ++ List.replicate 24 7 ++ List.replicate 8 8

/-- R172: the fixed distance code lengths. -/
def fixedDistLengths : List Nat := List.replicate 32 5

/-- R172: `LT_FIXED`, the ROM contents as the rule lists them. -/
def ltFixed : Tree :=
  { count := [0, 0, 0, 0, 0, 0, 0, 24, 152, 112, 0, 0, 0, 0, 0, 0]
    sym := (List.range' 256 24 ++ List.range' 0 144 ++ List.range' 280 8 ++ List.range' 144 112).map some }

/-- R172: `DT_FIXED`, the ROM contents as the rule lists them. -/
def dtFixed : Tree :=
  { count := [0, 0, 0, 0, 0, 32, 0, 0, 0, 0, 0, 0, 0, 0, 0, 0]
    sym := (List.range' 0 32).map some ++ List.replicate 256 none }

/-! ## Symbol decoder (R175-R178) -/

/-- R175: the loop of `DecodeSym`, with `fuel` codeword bits left of the 15. The slot it selects may be EMPTY only if
the tree was not built (R176). -/
def decodeSymLoop (t : Tree) :
    (fuel : Nat) → (len sum : Nat) → (cur : Int) → (s : State) → Res (Option Nat × State)
  | 0, _, _, _, s => raiseInflate .invalidCode s
  | fuel + 1, len, sum, cur, s => do
    let (b, s) ← readBit s
    let n := t.count.getD (len + 1) 0
    let cur' := 2 * cur + (b : Int) - (n : Int)
    if cur' < 0 then
      .ok (t.sym.getD ((sum : Int) + (n : Int) + cur').toNat none, s)
    else decodeSymLoop t fuel (len + 1) (sum + n) cur' s

/-- R175: `DecodeSym(T)`. -/
def decodeSym (t : Tree) (s : State) : Res (Option Nat × State) := decodeSymLoop t 15 0 0 0 s

/-- R178: the literal/length tree of the block being decoded. -/
def litLenTree (s : State) : Tree :=
  match s.inf.phase with
  | .fixed => ltFixed
  | _ => s.inf.ltDyn

/-- R178: the distance tree of the block being decoded. -/
def distTree (s : State) : Tree :=
  match s.inf.phase with
  | .fixed => dtFixed
  | _ => s.inf.dtDyn

end Sys2Proof.Machine
end

