-- ==== Sys2Proof/Machine/Inflate.lean ====
section
/-! DEFINITION. What the block, literal/length, distance and code-length instructions share: the start of an inflate,
the stored copy, the back-reference copier and the dynamic header (spec/42_inflate.md). -/

namespace Sys2Proof.Machine

/-- R190: the start of `Inflate(start, end, cap)`. -/
def startInflate (start stop cap : Nat) (s : State) : State :=
  let s := bitReaderInit start stop s
  goTo .blockHeader { s with inf := { s.inf with destLen := 0, destCap := cap, phase := .awaitBlockHeader } }

/-- R195: `repeat n times: PutByte(ReadBits(8))`. -/
def copyStored : (n : Nat) → State → Res State
  | 0, s => .ok s
  | n + 1, s => do
    let (b, s) ← readBits 8 s
    let s ← putByte (BitVec.ofNat 8 b) s
    copyStored n s

/-- R208: `Copy(length, dist)`, byte by byte in increasing order, each read seeing the writes before it. -/
def copyBack (dist : Nat) : (length : Nat) → State → Res State
  | 0, s => .ok s
  | n + 1, s => do
    let s ← putByte (outByte s (s.inf.destLen - dist)) s
    copyBack dist n s

/-- R207: the part of a match that a length symbol of index `i` stands for. -/
def matchLength (i : Nat) (s : State) : Res State := do
  let (extra, s) ← readBits (lenExtra.getD i 0) s
  .ok (goTo .distance { s with inf := { s.inf with matchLen := lenBase.getD i 0 + extra } })

/-- R207, R208: the part of a match that distance symbol `d`, 0..29, stands for. -/
def matchDistance (d : Nat) (s : State) : Res State := do
  let (extra, s) ← readBits (distExtra.getD d 0) s
  let dist := distBase.getD d 0 + extra
  if dist > s.inf.destLen then raiseInflate .distTooFar s
  else do
    let s ← copyBack dist s.inf.matchLen s
    .ok (goTo .litLen s)

/-- R201: `cl[c] <- v`. -/
def putCl (c v : Nat) (s : State) : State := { s with inf := { s.inf with cl := s.inf.cl.set c v } }

/-- R201: `cl[CL_ORDER[k]] <- ReadBits(3)` for the symbols of `order`. -/
def readCodeLengths : (order : List Nat) → State → Res State
  | [], s => .ok s
  | c :: order, s => do
    let (v, s) ← readBits 3 s
    readCodeLengths order (putCl c v s)

/-- R200: the decoded counts. -/
def putCounts (hlit hdist hclen : Nat) (s : State) : State :=
  { s with inf := { s.inf with hlit := hlit, hdist := hdist, hclen := hclen } }

/-- R201: `for s in 0..18: cl[s] <- 0`. -/
def clearCl (s : State) : State := { s with inf := { s.inf with cl := List.replicate 19 0 } }

/-- R201, R202: `BuildTree(CLT, cl, 0, 19)` and `num <- 0`. -/
def buildClt (s : State) : State := { s with inf := { s.inf with clt := buildTree s.inf.cl, lengths := [] } }

/-- R200: the three counts of the header. -/
def readCounts (s : State) : Res State := do
  let (hlit, s) ← readBits 5 s
  let (hdist, s) ← readBits 5 s
  let (hclen, s) ← readBits 4 s
  .ok (putCounts (hlit + 257) (hdist + 1) (hclen + 4) s)

/-- R200: HLIT 287 and 288 are rejected when the parameter says so. -/
def checkHlit (s : State) : Res State :=
  if s.inf.hlit > 286 ∧ s.params.acceptHlitOver286 = false then raiseInflate .hlitRange s else .ok s

/-- R200, R201: `DynamicHeader()` up to the code-length sequence, which follows symbol by symbol (R202). -/
def dynamicHeader (s : State) : Res State := do
  let s ← readCounts s
  let s ← checkHlit s
  let s ← readCodeLengths (clOrder.take s.inf.hclen) (clearCl s)
  .ok (goTo .codeLength (buildClt s))

/-- R202: `total`. -/
def totalLengths (s : State) : Nat := s.inf.hlit + s.inf.hdist

/-- R202-R205: `lengths[num] <- …; num <- num + 1` for the lengths `new`. -/
def pushLengths (new : List Nat) (s : State) : State :=
  { s with inf := { s.inf with lengths := s.inf.lengths ++ new } }

/-- R206: split the lengths and build both trees. -/
def buildTrees (s : State) : State :=
  { s with inf := { s.inf with
    ltDyn := buildTree (s.inf.lengths.take s.inf.hlit)
    dtDyn := buildTree ((s.inf.lengths.drop s.inf.hlit).take s.inf.hdist) } }

/-- R202's loop test, and R206 after the loop. -/
def nextLength (s : State) : State :=
  if s.inf.lengths.length < totalLengths s then goTo .codeLength s else goTo .litLen (buildTrees s)

/-- R202, R206: append code lengths; when the sequence is complete, build the trees. -/
def appendLengths (new : List Nat) (s : State) : State := nextLength (pushLengths new s)

/-- R203, R204, R205: a run of `base` plus `bits` extra bits of the length `v`. -/
def appendRun (v base bits : Nat) (s : State) : Res State := do
  let (extra, s) ← readBits bits s
  if s.inf.lengths.length + (base + extra) > totalLengths s then raiseInflate .repeatOverflow s
  else .ok (appendLengths (List.replicate (base + extra) v) s)

end Sys2Proof.Machine
end

