-- ==== Sys2Proof/Machine/Blocks.lean ====
section
/-! DEFINITION. The block header instructions (format BLOCK_HDR): R191, R192, R194-R197. -/

namespace Sys2Proof.Machine

/-- R195: `StoredBlock()`, the whole block: alignment, LEN, NLEN and the data. -/
def storedBody (s : State) : Res State := do
  let (len, s) ← readBits 16 (alignToByte s)
  let (nlen, s) ← readBits 16 s
  if len ≠ (~~~ BitVec.ofNat 16 nlen).toNat then raiseInflate .storedLenMismatch s
  else do
    let s ← copyStored len s
    .ok (endBlock s)

/-- STORED_BLOCK (R195). -/
def execStoredBlock (final : Bool) (s : State) : Host.Outcome State Fault Refusal :=
  settle (storedBody (enterBlock final 0 .stored s))

/-- FIXED_BLOCK (R196): its body follows symbol by symbol (R198). -/
def execFixedBlock (final : Bool) (s : State) : Host.Outcome State Fault Refusal :=
  .next (goTo .litLen (enterBlock final 1 .fixed s))

/-- DYNAMIC_BLOCK (R197, R200, R201): its code-length sequence and then its body follow symbol by symbol. -/
def execDynamicBlock (final : Bool) (s : State) : Host.Outcome State Fault Refusal :=
  settle (dynamicHeader (enterBlock final 2 .dynamic s))

/-- RESERVED_BLOCK (R194). -/
def execReservedBlock (final : Bool) (s : State) : Host.Outcome State Fault Refusal :=
  .next (failInflate .badBlockType (enterBlock final 3 s.inf.phase s))

end Sys2Proof.Machine
end

