-- ==== Sys2Proof/Machine/CodeLen.lean ====
section
/-! DEFINITION. The code-length instructions (format CL_SYM): R202-R206. -/

namespace Sys2Proof.Machine

/-- CL_LEN (R202). -/
def execClLen (length : Nat) (s : State) : Host.Outcome State Fault Refusal := .next (appendLengths [length] s)

/-- CL_REPEAT (R203): REPEAT_NO_PREVIOUS comes before the extra bits, REPEAT_OVERFLOW after. -/
def execClRepeat (s : State) : Host.Outcome State Fault Refusal :=
  match s.inf.lengths.getLast? with
  | none => .next (failInflate .repeatNoPrevious s)
  | some v => settle (appendRun v 3 2 s)

/-- CL_ZEROS_SHORT (R204). -/
def execClZerosShort (s : State) : Host.Outcome State Fault Refusal := settle (appendRun 0 3 3 s)

/-- CL_ZEROS_LONG (R205). -/
def execClZerosLong (s : State) : Host.Outcome State Fault Refusal := settle (appendRun 0 11 7 s)

end Sys2Proof.Machine
end

