-- ==== Sys2Proof/Machine/Crc.lean ====
section
/-! DEFINITION. The CRC-32 engine (spec/43_crc32.md). -/

namespace Sys2Proof.Machine

/-- R240: one single-bit shift of the table construction. -/
def crcShift (c : Word) : Word :=
  if c.getLsbD 0 then 0xEDB88320 ^^^ (c >>> 1) else c >>> 1

/-- R240: `repeat k times`. -/
def crcShifts : (k : Nat) → Word → Word
  | 0, c => c
  | k + 1, c => crcShifts k (crcShift c)

/-- R240: `CRC_TABLE[n]`, ROM. -/
def crcTable (n : Nat) : Word := crcShifts 8 (BitVec.ofNat 32 n)

/-- R241: the loop body. -/
def crcStep (crc : Word) (b : Byte) : Word :=
  crcTable ((crc ^^^ b.setWidth 32) &&& 0xFF).toNat ^^^ (crc >>> 8)

/-- R241: the accumulator after the `n` bytes that `read` gives from `a` on. -/
def crcRun (read : Nat → Byte) : (a : Nat) → (n : Nat) → Word → Word
  | _, 0, crc => crc
  | a, n + 1, crc => crcRun read (a + 1) n (crcStep crc (read a))

/-- R241: the accumulator of `Crc32(S, a, n)` before the final complement. -/
def crcAcc (read : Nat → Byte) (a n : Nat) : Word := crcRun read a n 0xFFFFFFFF

/-- R241: `Crc32(S, a, n)`. -/
def crc32 (read : Nat → Byte) (a n : Nat) : Word := ~~~ crcAcc read a n

/-- R39, R306, R312, R313: a CRC step leaves the accumulator and RES_CRC. -/
def putCrc (read : Nat → Byte) (a n : Nat) (s : State) : State :=
  { s with crc := crcAcc read a n, regs := { s.regs with resCrc := crc32 read a n } }

end Sys2Proof.Machine
end

