-- ==== Sys2Proof/Machine/Commands.lean ====
section
/-! DEFINITION. The host commands (format CMD): spec/45_commands.md. Acceptance (R300, `acceptCommand`) has run when
a command's meaning starts. -/

namespace Sys2Proof.Machine

/-! ## OPEN (R310) -/

/-- R310, R260, R261: the start of OPEN. The scan and the walk follow record by record. -/
def openBody (s : State) : Res State :=
  if inLen s > s.params.inCap then raise .argRange 0 s
  else if inLen s < 22 then raise .bufferTooShort 0 s
  else .ok (goTo .scanEocd { s with zip := { s.zip with scanPos := inLen s - 22 } })

/-- OPEN (R310). -/
def execCmdOpen (s : State) : Host.Outcome State Fault Refusal := settle (openBody s)

/-- R260's last line and R310: the end of a successful OPEN. -/
def finishOpen (s : State) : State :=
  complete { s with regs := { s.regs with
    entryCount := BitVec.ofNat 32 (le16 s (s.zip.eocdPos + 10))
    commentOff := BitVec.ofNat 32 (s.zip.eocdPos + 22)
    commentLen := BitVec.ofNat 32 (le16 s (s.zip.eocdPos + 20))
    openValid := true } }

/-! ## READ (R302-R306, R311) -/

/-- R279: `IN[nameOff + j] = NAME[j]` for the `n` values of j from `j` on. -/
def bytesMatch (s : State) (nameOff : Nat) : (j : Nat) → (n : Nat) → Bool
  | _, 0 => true
  | j, n + 1 => decide (inByte s (nameOff + j) = nameByte s j) && bytesMatch s nameOff (j + 1) n

/-- R279: the record has the name NAME[0 .. NAME_LEN-1]. -/
def nameMatches (s : State) (e : Entry) : Bool :=
  decide (e.nameLen = s.regs.nameLen.toNat) && bytesMatch s e.nameOff 0 e.nameLen

/-- R279: the largest index, counted from `k`, of a matching record of `es`. -/
def lookupFrom (s : State) : (k : Nat) → (es : List Entry) → Option (Nat × Entry)
  | _, [] => none
  | k, e :: es =>
    match lookupFrom s (k + 1) es with
    | some r => some r
    | none => if nameMatches s e then some (k, e) else none

/-- R279: `Lookup(NAME, NAME_LEN)`. -/
def lookup (s : State) : Option (Nat × Entry) := lookupFrom s 0 s.ft

/-- R303: the ENT registers of record `k`. -/
def entRegsOf (k : Nat) (e : Entry) : EntRegs :=
  { index := BitVec.ofNat 32 k
    method := BitVec.ofNat 32 e.method
    csize := BitVec.ofNat 32 e.csize
    usize := BitVec.ofNat 32 e.usize
    crc := BitVec.ofNat 32 e.crc
    dosdt := BitVec.ofNat 32 e.dosTime ||| (BitVec.ofNat 32 e.dosDate <<< 16)
    dataOff := BitVec.ofNat 32 e.dataOff
    commentOff := BitVec.ofNat 32 e.commentOff
    commentLen := BitVec.ofNat 32 e.commentLen }

/-- R304: `PutByte(IN8(a))` for the `n` bytes from `a` on. -/
def copyIn : (a : Nat) → (n : Nat) → State → Res State
  | _, 0, s => .ok s
  | a, n + 1, s => do
    let s ← putByte (inByte s a) s
    copyIn (a + 1) n s

/-- R304, for the record `e`: the start of the inflate of a deflated entry, or the whole copy of a stored one. -/
def produce (e : Entry) (s : State) : Res State :=
  if e.usize > s.params.outCap then raise .outputTooLarge 0 s
  else if e.method = 8 then .ok (startInflate e.dataOff (e.dataOff + e.csize) e.usize s)
  else if e.csize ≠ e.usize then raise .storedSizeMismatch e.dataOff s
  else do
    let s ← copyIn e.dataOff e.usize { s with inf := { s.inf with destLen := 0, destCap := e.usize } }
    .ok (goTo .finish s)

/-- R302, R303, R304: READ up to the CRC step. -/
def readBody (s : State) : Res State :=
  if s.regs.openValid = false then raise .notOpen 0 s
  else if s.regs.nameLen.toNat > s.params.nameCap then raise .argRange 0 s
  else match lookup s with
    | none => raise .nameNotFound 0 s
    | some (k, e) => produce e { s with ent := entRegsOf k e }

/-- READ (R311). -/
def execCmdRead (s : State) : Host.Outcome State Fault Refusal := settle (readBody s)

/-- R27, R306, R312: the number of result bytes. -/
def putOutLen (n : Nat) (s : State) : State := { s with regs := { s.regs with outLen := BitVec.ofNat 32 n } }

/-- R306, R245: the comparison with the stored CRC. -/
def checkCrc (s : State) : State :=
  if s.regs.resCrc ≠ s.ent.crc then fail .crcMismatch 0 0 s else complete (putOutLen s.inf.destLen s)

/-- R304's size check and R306, on the ENT registers of the record (R303): the end of READ. -/
def finishRead (s : State) : State :=
  if s.ent.method = 8 ∧ s.inf.destLen ≠ s.ent.usize.toNat then
    fail .outputShort (s.inf.bitpos / 8) (s.inf.bitpos % 8) s
  else checkCrc (putCrc (outByte s) 0 s.inf.destLen s)

/-! ## INFLATE (R312) -/

/-- R312 up to the decoding, which follows element by element. -/
def inflateBody (s : State) : Res State :=
  if inLen s > s.params.inCap ∨ s.regs.arg0.toNat + s.regs.arg1.toNat > inLen s ∨ s.regs.arg2.toNat > s.params.outCap
  then raise .argRange 0 s
  else .ok (startInflate s.regs.arg0.toNat (s.regs.arg0.toNat + s.regs.arg1.toNat) s.regs.arg2.toNat s)

/-- INFLATE (R312). -/
def execCmdInflate (s : State) : Host.Outcome State Fault Refusal := settle (inflateBody s)

/-- R312's last two lines: the end of INFLATE. -/
def finishInflate (s : State) : State :=
  complete (putOutLen s.inf.destLen (putCrc (outByte s) 0 s.inf.destLen s))

/-! ## CRC32 (R313) -/

/-- R313. -/
def crc32Body (s : State) : Res State :=
  if inLen s > s.params.inCap ∨ s.regs.arg0.toNat + s.regs.arg1.toNat > inLen s then raise .argRange 0 s
  else .ok (complete (putCrc (inByte s) s.regs.arg0.toNat s.regs.arg1.toNat s))

/-- CRC32 (R313). -/
def execCmdCrc32 (s : State) : Host.Outcome State Fault Refusal := settle (crc32Body s)

/-! ## Reserved commands (R314) -/

/-- R314: `raise BadCommand(UNKNOWN_OP)`. -/
def unknownOp (s : State) : State := fail .unknownOp 0 0 s

/-- RESERVED_OP_0 (R314). -/
def execReservedOp0 (s : State) : Host.Outcome State Fault Refusal := .next (unknownOp s)

/-- RESERVED_OP_5 (R314). -/
def execReservedOp5 (s : State) : Host.Outcome State Fault Refusal := .next (unknownOp s)

/-- RESERVED_OP_6 (R314). -/
def execReservedOp6 (s : State) : Host.Outcome State Fault Refusal := .next (unknownOp s)

/-- RESERVED_OP_7 (R314). -/
def execReservedOp7 (s : State) : Host.Outcome State Fault Refusal := .next (unknownOp s)

/-- RESERVED_OP_8 (R314). -/
def execReservedOp8 (s : State) : Host.Outcome State Fault Refusal := .next (unknownOp s)

/-- RESERVED_OP_9 (R314). -/
def execReservedOp9 (s : State) : Host.Outcome State Fault Refusal := .next (unknownOp s)

/-- RESERVED_OP_A (R314). -/
def execReservedOpA (s : State) : Host.Outcome State Fault Refusal := .next (unknownOp s)

/-- RESERVED_OP_B (R314). -/
def execReservedOpB (s : State) : Host.Outcome State Fault Refusal := .next (unknownOp s)

/-- RESERVED_OP_C (R314). -/
def execReservedOpC (s : State) : Host.Outcome State Fault Refusal := .next (unknownOp s)

/-- RESERVED_OP_D (R314). -/
def execReservedOpD (s : State) : Host.Outcome State Fault Refusal := .next (unknownOp s)

/-- RESERVED_OP_E (R314). -/
def execReservedOpE (s : State) : Host.Outcome State Fault Refusal := .next (unknownOp s)

/-- RESERVED_OP_F (R314). -/
def execReservedOpF (s : State) : Host.Outcome State Fault Refusal := .next (unknownOp s)

/-! ## The end of a body -/

/-- The last steps of the running command's body, when they follow its records or its stream. Only OPEN, READ and
INFLATE have any. -/
def finishCommand (s : State) : State :=
  match s.regs.cmdOp.toNat with
  | 1 => finishOpen s
  | 2 => finishRead s
  | 3 => finishInflate s
  | _ => complete s

end Sys2Proof.Machine
end

