-- ==== Sys2Proof/Machine/Dist.lean ====
section
/-! DEFINITION. The distance instructions (format DIST_SYM): R207, R208. -/

namespace Sys2Proof.Machine

/-- DIST_0 (R207, R108). -/
def execDist0 (s : State) : Host.Outcome State Fault Refusal := settle (matchDistance 0 s)

/-- DIST_1 (R207, R108). -/
def execDist1 (s : State) : Host.Outcome State Fault Refusal := settle (matchDistance 1 s)

/-- DIST_2 (R207, R108). -/
def execDist2 (s : State) : Host.Outcome State Fault Refusal := settle (matchDistance 2 s)

/-- DIST_3 (R207, R108). -/
def execDist3 (s : State) : Host.Outcome State Fault Refusal := settle (matchDistance 3 s)

/-- DIST_4 (R207, R108). -/
def execDist4 (s : State) : Host.Outcome State Fault Refusal := settle (matchDistance 4 s)

/-- DIST_5 (R207, R108). -/
def execDist5 (s : State) : Host.Outcome State Fault Refusal := settle (matchDistance 5 s)

/-- DIST_6 (R207, R108). -/
def execDist6 (s : State) : Host.Outcome State Fault Refusal := settle (matchDistance 6 s)

/-- DIST_7 (R207, R108). -/
def execDist7 (s : State) : Host.Outcome State Fault Refusal := settle (matchDistance 7 s)

/-- DIST_8 (R207, R108). -/
def execDist8 (s : State) : Host.Outcome State Fault Refusal := settle (matchDistance 8 s)

/-- DIST_9 (R207, R108). -/
def execDist9 (s : State) : Host.Outcome State Fault Refusal := settle (matchDistance 9 s)

/-- DIST_10 (R207, R108). -/
def execDist10 (s : State) : Host.Outcome State Fault Refusal := settle (matchDistance 10 s)

/-- DIST_11 (R207, R108). -/
def execDist11 (s : State) : Host.Outcome State Fault Refusal := settle (matchDistance 11 s)

/-- DIST_12 (R207, R108). -/
def execDist12 (s : State) : Host.Outcome State Fault Refusal := settle (matchDistance 12 s)

/-- DIST_13 (R207, R108). -/
def execDist13 (s : State) : Host.Outcome State Fault Refusal := settle (matchDistance 13 s)

/-- DIST_14 (R207, R108). -/
def execDist14 (s : State) : Host.Outcome State Fault Refusal := settle (matchDistance 14 s)

/-- DIST_15 (R207, R108). -/
def execDist15 (s : State) : Host.Outcome State Fault Refusal := settle (matchDistance 15 s)

/-- DIST_16 (R207, R108). -/
def execDist16 (s : State) : Host.Outcome State Fault Refusal := settle (matchDistance 16 s)

/-- DIST_17 (R207, R108). -/
def execDist17 (s : State) : Host.Outcome State Fault Refusal := settle (matchDistance 17 s)

/-- DIST_18 (R207, R108). -/
def execDist18 (s : State) : Host.Outcome State Fault Refusal := settle (matchDistance 18 s)

/-- DIST_19 (R207, R108). -/
def execDist19 (s : State) : Host.Outcome State Fault Refusal := settle (matchDistance 19 s)

/-- DIST_20 (R207, R108). -/
def execDist20 (s : State) : Host.Outcome State Fault Refusal := settle (matchDistance 20 s)

/-- DIST_21 (R207, R108). -/
def execDist21 (s : State) : Host.Outcome State Fault Refusal := settle (matchDistance 21 s)

/-- DIST_22 (R207, R108). -/
def execDist22 (s : State) : Host.Outcome State Fault Refusal := settle (matchDistance 22 s)

/-- DIST_23 (R207, R108). -/
def execDist23 (s : State) : Host.Outcome State Fault Refusal := settle (matchDistance 23 s)

/-- DIST_24 (R207, R108). -/
def execDist24 (s : State) : Host.Outcome State Fault Refusal := settle (matchDistance 24 s)

/-- DIST_25 (R207, R108). -/
def execDist25 (s : State) : Host.Outcome State Fault Refusal := settle (matchDistance 25 s)

/-- DIST_26 (R207, R108). -/
def execDist26 (s : State) : Host.Outcome State Fault Refusal := settle (matchDistance 26 s)

/-- DIST_27 (R207, R108). -/
def execDist27 (s : State) : Host.Outcome State Fault Refusal := settle (matchDistance 27 s)

/-- DIST_28 (R207, R108). -/
def execDist28 (s : State) : Host.Outcome State Fault Refusal := settle (matchDistance 28 s)

/-- DIST_29 (R207, R108). -/
def execDist29 (s : State) : Host.Outcome State Fault Refusal := settle (matchDistance 29 s)

/-- INVALID_DIST_30 (R207). -/
def execInvalidDist30 (s : State) : Host.Outcome State Fault Refusal := .next (failInflate .invalidDistSymbol s)

/-- INVALID_DIST_31 (R207). -/
def execInvalidDist31 (s : State) : Host.Outcome State Fault Refusal := .next (failInflate .invalidDistSymbol s)

end Sys2Proof.Machine
end

