-- ==== Sys2Proof/Machine/LitLen.lean ====
section
/-! DEFINITION. The literal/length instructions (format LITLEN_SYM): R198, R199, R207, R209. -/

namespace Sys2Proof.Machine

/-- LIT (R198). -/
def execLit (byte : Nat) (s : State) : Host.Outcome State Fault Refusal :=
  settle (do
    let s ← putByte (BitVec.ofNat 8 byte) s
    .ok (goTo .litLen s))

/-- EOB (R199). -/
def execEob (s : State) : Host.Outcome State Fault Refusal := .next (endBlock s)

/-- LEN_257 (R207, R107): length index 0. -/
def execLen257 (s : State) : Host.Outcome State Fault Refusal := settle (matchLength 0 s)

/-- LEN_258 (R207, R107): length index 1. -/
def execLen258 (s : State) : Host.Outcome State Fault Refusal := settle (matchLength 1 s)

/-- LEN_259 (R207, R107): length index 2. -/
def execLen259 (s : State) : Host.Outcome State Fault Refusal := settle (matchLength 2 s)

/-- LEN_260 (R207, R107): length index 3. -/
def execLen260 (s : State) : Host.Outcome State Fault Refusal := settle (matchLength 3 s)

/-- LEN_261 (R207, R107): length index 4. -/
def execLen261 (s : State) : Host.Outcome State Fault Refusal := settle (matchLength 4 s)

/-- LEN_262 (R207, R107): length index 5. -/
def execLen262 (s : State) : Host.Outcome State Fault Refusal := settle (matchLength 5 s)

/-- LEN_263 (R207, R107): length index 6. -/
def execLen263 (s : State) : Host.Outcome State Fault Refusal := settle (matchLength 6 s)

/-- LEN_264 (R207, R107): length index 7. -/
def execLen264 (s : State) : Host.Outcome State Fault Refusal := settle (matchLength 7 s)

/-- LEN_265 (R207, R107): length index 8. -/
def execLen265 (s : State) : Host.Outcome State Fault Refusal := settle (matchLength 8 s)

/-- LEN_266 (R207, R107): length index 9. -/
def execLen266 (s : State) : Host.Outcome State Fault Refusal := settle (matchLength 9 s)

/-- LEN_267 (R207, R107): length index 10. -/
def execLen267 (s : State) : Host.Outcome State Fault Refusal := settle (matchLength 10 s)

/-- LEN_268 (R207, R107): length index 11. -/
def execLen268 (s : State) : Host.Outcome State Fault Refusal := settle (matchLength 11 s)

/-- LEN_269 (R207, R107): length index 12. -/
def execLen269 (s : State) : Host.Outcome State Fault Refusal := settle (matchLength 12 s)

/-- LEN_270 (R207, R107): length index 13. -/
def execLen270 (s : State) : Host.Outcome State Fault Refusal := settle (matchLength 13 s)

/-- LEN_271 (R207, R107): length index 14. -/
def execLen271 (s : State) : Host.Outcome State Fault Refusal := settle (matchLength 14 s)

/-- LEN_272 (R207, R107): length index 15. -/
def execLen272 (s : State) : Host.Outcome State Fault Refusal := settle (matchLength 15 s)

/-- LEN_273 (R207, R107): length index 16. -/
def execLen273 (s : State) : Host.Outcome State Fault Refusal := settle (matchLength 16 s)

/-- LEN_274 (R207, R107): length index 17. -/
def execLen274 (s : State) : Host.Outcome State Fault Refusal := settle (matchLength 17 s)

/-- LEN_275 (R207, R107): length index 18. -/
def execLen275 (s : State) : Host.Outcome State Fault Refusal := settle (matchLength 18 s)

/-- LEN_276 (R207, R107): length index 19. -/
def execLen276 (s : State) : Host.Outcome State Fault Refusal := settle (matchLength 19 s)

/-- LEN_277 (R207, R107): length index 20. -/
def execLen277 (s : State) : Host.Outcome State Fault Refusal := settle (matchLength 20 s)

/-- LEN_278 (R207, R107): length index 21. -/
def execLen278 (s : State) : Host.Outcome State Fault Refusal := settle (matchLength 21 s)

/-- LEN_279 (R207, R107): length index 22. -/
def execLen279 (s : State) : Host.Outcome State Fault Refusal := settle (matchLength 22 s)

/-- LEN_280 (R207, R107): length index 23. -/
def execLen280 (s : State) : Host.Outcome State Fault Refusal := settle (matchLength 23 s)

/-- LEN_281 (R207, R107): length index 24. -/
def execLen281 (s : State) : Host.Outcome State Fault Refusal := settle (matchLength 24 s)

/-- LEN_282 (R207, R107): length index 25. -/
def execLen282 (s : State) : Host.Outcome State Fault Refusal := settle (matchLength 25 s)

/-- LEN_283 (R207, R107): length index 26. -/
def execLen283 (s : State) : Host.Outcome State Fault Refusal := settle (matchLength 26 s)

/-- LEN_284 (R207, R107): length index 27. -/
def execLen284 (s : State) : Host.Outcome State Fault Refusal := settle (matchLength 27 s)

/-- LEN_285 (R207, R107): length index 28. -/
def execLen285 (s : State) : Host.Outcome State Fault Refusal := settle (matchLength 28 s)

/-- INVALID_LITLEN_286 (R209). -/
def execInvalidLitLen286 (s : State) : Host.Outcome State Fault Refusal := .next (failInflate .invalidLitlenSymbol s)

/-- INVALID_LITLEN_287 (R209). -/
def execInvalidLitLen287 (s : State) : Host.Outcome State Fault Refusal := .next (failInflate .invalidLitlenSymbol s)

end Sys2Proof.Machine
end

