-- ==== Sys2Proof/Machine/Zip.lean ====
section
/-! DEFINITION. The ZIP record instructions (formats EOCD, CDH, LFH), the body of OPEN: spec/44_zip.md. -/

namespace Sys2Proof.Machine

/-- R262, R263: the lowest candidate offset of the scan. -/
def scanFloor (s : State) : Nat :=
  match s.params.scanCap with
  | .formatMax => inLen s - 22 - 65535
  | .full => 0

/-- R267-R270, for the record at `e`. -/
def eocdBody (e : Nat) (s : State) : Res State :=
  if le16 s (e + 4) ≠ 0 ∨ le16 s (e + 6) ≠ 0 then raise .multiDisk e s
  else if le16 s (e + 8) ≠ le16 s (e + 10) then raise .entryCountMismatch e s
  else if e + 22 + le16 s (e + 20) > inLen s then raise .eocdCommentOob e s
  else if le16 s (e + 10) > s.params.maxEntries then raise .tooManyEntries e s
  else .ok (goTo (if le16 s (e + 10) = 0 then .finish else .walkCdh)
    { s with ft := [], zip := { s.zip with cdCursor := le32 s (e + 16), cdLeft := le16 s (e + 10) } })

/-- EOCD (R262, R266, R260): the record found at `scanPos`. -/
def execEocd (s : State) : Host.Outcome State Fault Refusal :=
  settle (eocdBody s.zip.scanPos { s with zip := { s.zip with eocdPos := s.zip.scanPos } })

/-- R273, R274, for the record at `p`. -/
def cdhBody (p : Nat) (s : State) : Res State :=
  if le16 s (p + 6) > 20 then raise .versionTooHigh p s
  else if le16 s (p + 8) % 2 = 1 then raise .encrypted p s
  else if le16 s (p + 10) ≠ 0 ∧ le16 s (p + 10) ≠ 8 then raise .badMethod p s
  else if p + 46 + le16 s (p + 28) + le16 s (p + 30) + le16 s (p + 32) > inLen s then raise .cdhFieldsOob p s
  else .ok (goTo .checkLfh { s with zip := { s.zip with lfhPos := le32 s (p + 42) } })

/-- CDH (R272-R274): the record at `cdCursor`. -/
def execCdh (s : State) : Host.Outcome State Fault Refusal := settle (cdhBody s.zip.cdCursor s)

/-- R276: the content start of the local header at `h`. -/
def contentStart (h : Nat) (s : State) : Nat := h + 30 + le16 s (h + 26) + le16 s (h + 28)

/-- R277: the record of the CDH at `p` whose local header is at `h`. -/
def entryAt (p h : Nat) (s : State) : Entry :=
  { nameOff := p + 46
    nameLen := le16 s (p + 28)
    commentOff := p + 46 + le16 s (p + 28) + le16 s (p + 30)
    commentLen := le16 s (p + 32)
    method := le16 s (p + 10)
    csize := le32 s (p + 20)
    usize := le32 s (p + 24)
    crc := le32 s (p + 16)
    dosTime := le16 s (p + 12)
    dosDate := le16 s (p + 14)
    dataOff := contentStart h s }

/-- R278: the offset of the record after the one at `p`. -/
def nextCdh (p : Nat) (s : State) : Nat :=
  p + 46 + le16 s (p + 28) + le16 s (p + 30) + le16 s (p + 32)

/-- R276-R278, for the local header at `h` of the record at `p`. -/
def lfhBody (p h : Nat) (s : State) : Res State :=
  if contentStart h s + le32 s (p + 20) > inLen s then raise .contentOob h s
  else .ok (goTo (if s.zip.cdLeft ≤ 1 then .finish else .walkCdh)
    { s with
      ft := s.ft ++ [entryAt p h s]
      zip := { s.zip with cdCursor := nextCdh p s, cdLeft := s.zip.cdLeft - 1 } })

/-- LFH (R275-R278): the local header at `lfhPos` of the record at `cdCursor`. -/
def execLfh (s : State) : Host.Outcome State Fault Refusal := settle (lfhBody s.zip.cdCursor s.zip.lfhPos s)

end Sys2Proof.Machine
end

