-- ==== Sys2Proof/Syntax.lean ====
section
/-! DEFINITION. The instructions: one constructor per row of spec/opcode_table.json, in the table's order. A row is
a host command (format CMD, R100), a DEFLATE block header (BLOCK_HDR, R103), a decoded symbol of one of the three
alphabets (LITLEN_SYM R106, DIST_SYM R108, CL_SYM R112) or a ZIP record, named by its signature (R116-R118).
Extra bits, stored lengths and record fields are no operands here: the instruction's meaning reads them from IN. -/

namespace Sys2Proof

inductive Instr where
  /-- R314: reserved command word, OP 0x0. -/
  | reservedOp0
  /-- R310: open the archive in IN. -/
  | cmdOpen
  /-- R311: read the entry named in NAME. -/
  | cmdRead
  /-- R312: decode a raw DEFLATE stream. -/
  | cmdInflate
  /-- R313: checksum a range of IN. -/
  | cmdCrc32
  /-- R314: reserved command word, OP 0x5. -/
  | reservedOp5
  /-- R314: reserved command word, OP 0x6. -/
  | reservedOp6
  /-- R314: reserved command word, OP 0x7. -/
  | reservedOp7
  /-- R314: reserved command word, OP 0x8. -/
  | reservedOp8
  /-- R314: reserved command word, OP 0x9. -/
  | reservedOp9
  /-- R314: reserved command word, OP 0xA. -/
  | reservedOpA
  /-- R314: reserved command word, OP 0xB. -/
  | reservedOpB
  /-- R314: reserved command word, OP 0xC. -/
  | reservedOpC
  /-- R314: reserved command word, OP 0xD. -/
  | reservedOpD
  /-- R314: reserved command word, OP 0xE. -/
  | reservedOpE
  /-- R314: reserved command word, OP 0xF. -/
  | reservedOpF
  /-- R195: a stored block; `final` is BFINAL. -/
  | storedBlock (final : Bool)
  /-- R196: a block coded with the fixed trees. -/
  | fixedBlock (final : Bool)
  /-- R197: a block that carries its own trees. -/
  | dynamicBlock (final : Bool)
  /-- R194: BTYPE 3. -/
  | reservedBlock (final : Bool)
  /-- R198: literal byte; the symbol is 0..255. -/
  | lit (byte : Nat)
  /-- R199: end of block, symbol 256. -/
  | eob
  /-- R207, R107: length symbol 257. -/
  | len257
  /-- R207, R107: length symbol 258. -/
  | len258
  /-- R207, R107: length symbol 259. -/
  | len259
  /-- R207, R107: length symbol 260. -/
  | len260
  /-- R207, R107: length symbol 261. -/
  | len261
  /-- R207, R107: length symbol 262. -/
  | len262
  /-- R207, R107: length symbol 263. -/
  | len263
  /-- R207, R107: length symbol 264. -/
  | len264
  /-- R207, R107: length symbol 265. -/
  | len265
  /-- R207, R107: length symbol 266. -/
  | len266
  /-- R207, R107: length symbol 267. -/
  | len267
  /-- R207, R107: length symbol 268. -/
  | len268
  /-- R207, R107: length symbol 269. -/
  | len269
  /-- R207, R107: length symbol 270. -/
  | len270
  /-- R207, R107: length symbol 271. -/
  | len271
  /-- R207, R107: length symbol 272. -/
  | len272
  /-- R207, R107: length symbol 273. -/
  | len273
  /-- R207, R107: length symbol 274. -/
  | len274
  /-- R207, R107: length symbol 275. -/
  | len275
  /-- R207, R107: length symbol 276. -/
  | len276
  /-- R207, R107: length symbol 277. -/
  | len277
  /-- R207, R107: length symbol 278. -/
  | len278
  /-- R207, R107: length symbol 279. -/
  | len279
  /-- R207, R107: length symbol 280. -/
  | len280
  /-- R207, R107: length symbol 281. -/
  | len281
  /-- R207, R107: length symbol 282. -/
  | len282
  /-- R207, R107: length symbol 283. -/
  | len283
  /-- R207, R107: length symbol 284. -/
  | len284
  /-- R207, R107: length symbol 285. -/
  | len285
  /-- R209: literal/length symbol 286. -/
  | invalidLitLen286
  /-- R209: literal/length symbol 287. -/
  | invalidLitLen287
  /-- R207, R108: distance symbol 0. -/
  | dist0
  /-- R207, R108: distance symbol 1. -/
  | dist1
  /-- R207, R108: distance symbol 2. -/
  | dist2
  /-- R207, R108: distance symbol 3. -/
  | dist3
  /-- R207, R108: distance symbol 4. -/
  | dist4
  /-- R207, R108: distance symbol 5. -/
  | dist5
  /-- R207, R108: distance symbol 6. -/
  | dist6
  /-- R207, R108: distance symbol 7. -/
  | dist7
  /-- R207, R108: distance symbol 8. -/
  | dist8
  /-- R207, R108: distance symbol 9. -/
  | dist9
  /-- R207, R108: distance symbol 10. -/
  | dist10
  /-- R207, R108: distance symbol 11. -/
  | dist11
  /-- R207, R108: distance symbol 12. -/
  | dist12
  /-- R207, R108: distance symbol 13. -/
  | dist13
  /-- R207, R108: distance symbol 14. -/
  | dist14
  /-- R207, R108: distance symbol 15. -/
  | dist15
  /-- R207, R108: distance symbol 16. -/
  | dist16
  /-- R207, R108: distance symbol 17. -/
  | dist17
  /-- R207, R108: distance symbol 18. -/
  | dist18
  /-- R207, R108: distance symbol 19. -/
  | dist19
  /-- R207, R108: distance symbol 20. -/
  | dist20
  /-- R207, R108: distance symbol 21. -/
  | dist21
  /-- R207, R108: distance symbol 22. -/
  | dist22
  /-- R207, R108: distance symbol 23. -/
  | dist23
  /-- R207, R108: distance symbol 24. -/
  | dist24
  /-- R207, R108: distance symbol 25. -/
  | dist25
  /-- R207, R108: distance symbol 26. -/
  | dist26
  /-- R207, R108: distance symbol 27. -/
  | dist27
  /-- R207, R108: distance symbol 28. -/
  | dist28
  /-- R207, R108: distance symbol 29. -/
  | dist29
  /-- R207: distance symbol 30. -/
  | invalidDist30
  /-- R207: distance symbol 31. -/
  | invalidDist31
  /-- R202: one code length, 0..15. -/
  | clLen (length : Nat)
  /-- R203: repeat the previous length. -/
  | clRepeat
  /-- R204: 3 to 10 zero lengths. -/
  | clZerosShort
  /-- R205: 11 to 138 zero lengths. -/
  | clZerosLong
  /-- R262: end-of-central-directory record. -/
  | eocd
  /-- R272: central-directory file header. -/
  | cdh
  /-- R275: local file header. -/
  | lfh
  deriving DecidableEq, Repr

end Sys2Proof
end

