-- ==== Sys2Proof/WellFormed.lean ====
section
/-! DEFINITION. Which instruction terms stand for a row of the opcode table: the operand of LIT is a symbol 0..255
(R106) and that of CL_LEN a code length 0..15 (R112). Every other row has no operand, or one bit. -/

namespace Sys2Proof

/-- The term names an instruction the encodings of spec/30_encoding.md can carry. -/
def Instr.wf : Instr → Bool
  | .lit b => decide (b < 256)
  | .clLen n => decide (n < 16)
  | _ => true

end Sys2Proof
end

