-- ==== Sys2Proof/Decode.lean ====
section
/-! DEFINITION. Decoding and encoding, from the encoding tables of spec/30_encoding.md. A number names an instruction
only together with the format the core is reading at that moment (R100, R103, R106, R108, R112, R116-R118): the same
number 0 is RESERVED_OP_0, STORED_BLOCK, LIT 0, DIST_0 and CL_LEN 0 in the five formats. `decode` is total: every
number of every format gives an instruction or a rejection by name. -/

namespace Sys2Proof

/-- The formats of spec/opcode_table.json; the three ZIP signatures are one 32-bit format. -/
inductive Format where
  /-- R100: the host command word. -/
  | cmd
  /-- R103: the 3 bits of a block header. -/
  | blockHdr
  /-- R106: a symbol of the literal/length alphabet. -/
  | litLen
  /-- R108: a symbol of the distance alphabet. -/
  | dist
  /-- R112: a symbol of the code-length alphabet. -/
  | codeLen
  /-- R116-R118: the signature of a ZIP record. -/
  | record
  deriving DecidableEq, Repr

/-- Why a number is no instruction of its format. -/
inductive DecodeError where
  /-- The number has more bits than the format. -/
  | tooWide
  /-- R106, R108, R112: no symbol of the alphabet. -/
  | noSuchSymbol
  /-- R116-R118: no signature of a record the core reads. -/
  | notASignature
  deriving DecidableEq, Repr

/-- R100, R101: bits 3:0 are OP, bits 31:4 are ignored. Every value of OP is an instruction. -/
def decodeCmd (w : Word) : Instr :=
  match (w.extractLsb' 0 4).toNat with
  | 0 => .reservedOp0
  | 1 => .cmdOpen
  | 2 => .cmdRead
  | 3 => .cmdInflate
  | 4 => .cmdCrc32
  | 5 => .reservedOp5
  | 6 => .reservedOp6
  | 7 => .reservedOp7
  | 8 => .reservedOp8
  | 9 => .reservedOp9
  | 10 => .reservedOpA
  | 11 => .reservedOpB
  | 12 => .reservedOpC
  | 13 => .reservedOpD
  | 14 => .reservedOpE
  | _ => .reservedOpF

/-- R103: the first stream bit is BFINAL, the next two are BTYPE, bit 0 first. -/
def decodeBlockHdr (h : BitVec 3) : Instr :=
  match (h.extractLsb' 1 2).toNat with
  | 0 => .storedBlock (h.getLsbD 0)
  | 1 => .fixedBlock (h.getLsbD 0)
  | 2 => .dynamicBlock (h.getLsbD 0)
  | _ => .reservedBlock (h.getLsbD 0)

/-- R107: the 29 length symbols, by length index. -/
def lengthInstrs : List Instr :=
  [.len257, .len258, .len259, .len260, .len261, .len262, .len263, .len264, .len265, .len266, .len267, .len268,
   .len269, .len270, .len271, .len272, .len273, .len274, .len275, .len276, .len277, .len278, .len279, .len280, .len281,
   .len282, .len283, .len284, .len285]

/-- R108: the 32 distance symbols; 30 and 31 are invalid as distances, but they are symbols of the fixed tree. -/
def distInstrs : List Instr :=
  [.dist0, .dist1, .dist2, .dist3, .dist4, .dist5, .dist6, .dist7, .dist8, .dist9, .dist10, .dist11, .dist12, .dist13,
   .dist14, .dist15, .dist16, .dist17, .dist18, .dist19, .dist20, .dist21, .dist22, .dist23, .dist24, .dist25, .dist26,
   .dist27, .dist28, .dist29, .invalidDist30, .invalidDist31]

/-- R106: the literal/length alphabet, symbols 0..287. -/
def decodeLitLen (sym : Nat) : Except DecodeError Instr :=
  if sym < 256 then .ok (.lit sym)
  else if sym = 256 then .ok .eob
  else if sym = 286 then .ok .invalidLitLen286
  else if sym = 287 then .ok .invalidLitLen287
  else match lengthInstrs[sym - 257]? with
    | some i => .ok i
    | none => .error .noSuchSymbol

/-- R108: the distance alphabet, symbols 0..31. -/
def decodeDist (sym : Nat) : Except DecodeError Instr :=
  match distInstrs[sym]? with
  | some i => .ok i
  | none => .error .noSuchSymbol

/-- R112: the code-length alphabet, symbols 0..18. -/
def decodeCodeLen (sym : Nat) : Except DecodeError Instr :=
  if sym < 16 then .ok (.clLen sym)
  else if sym = 16 then .ok .clRepeat
  else if sym = 17 then .ok .clZerosShort
  else if sym = 18 then .ok .clZerosLong
  else .error .noSuchSymbol

/-- R116: `EOCD` signature. -/
def eocdSignature : Nat := 0x06054B50
/-- R117: `CDH` signature. -/
def cdhSignature : Nat := 0x02014B50
/-- R118: `LFH` signature. -/
def lfhSignature : Nat := 0x04034B50

/-- R116-R118: the record a 32-bit little-endian signature names. -/
def decodeRecord (sig : Nat) : Except DecodeError Instr :=
  if sig = eocdSignature then .ok .eocd
  else if sig = cdhSignature then .ok .cdh
  else if sig = lfhSignature then .ok .lfh
  else .error .notASignature

/-- The instruction a number names in a format, or why it names none. -/
def decode (f : Format) (v : Nat) : Except DecodeError Instr :=
  match f with
  | .cmd => if v < 2 ^ 32 then .ok (decodeCmd (BitVec.ofNat 32 v)) else .error .tooWide
  | .blockHdr => if v < 8 then .ok (decodeBlockHdr (BitVec.ofNat 3 v)) else .error .tooWide
  | .litLen => decodeLitLen v
  | .dist => decodeDist v
  | .codeLen => decodeCodeLen v
  | .record => decodeRecord v

/-- The word of a block header (R103). -/
def blockHdrWord (final : Bool) (type : Nat) : Nat := final.toNat + 2 * type

/-- The format and the number that name an instruction (R100, R103, R106, R108, R112, R116-R118). -/
def encode : Instr → Format × Nat
  | .reservedOp0 => (.cmd, 0)
  | .cmdOpen => (.cmd, 1)
  | .cmdRead => (.cmd, 2)
  | .cmdInflate => (.cmd, 3)
  | .cmdCrc32 => (.cmd, 4)
  | .reservedOp5 => (.cmd, 5)
  | .reservedOp6 => (.cmd, 6)
  | .reservedOp7 => (.cmd, 7)
  | .reservedOp8 => (.cmd, 8)
  | .reservedOp9 => (.cmd, 9)
  | .reservedOpA => (.cmd, 10)
  | .reservedOpB => (.cmd, 11)
  | .reservedOpC => (.cmd, 12)
  | .reservedOpD => (.cmd, 13)
  | .reservedOpE => (.cmd, 14)
  | .reservedOpF => (.cmd, 15)
  | .storedBlock f => (.blockHdr, blockHdrWord f 0)
  | .fixedBlock f => (.blockHdr, blockHdrWord f 1)
  | .dynamicBlock f => (.blockHdr, blockHdrWord f 2)
  | .reservedBlock f => (.blockHdr, blockHdrWord f 3)
  | .lit b => (.litLen, b)
  | .eob => (.litLen, 256)
  | .len257 => (.litLen, 257)
  | .len258 => (.litLen, 258)
  | .len259 => (.litLen, 259)
  | .len260 => (.litLen, 260)
  | .len261 => (.litLen, 261)
  | .len262 => (.litLen, 262)
  | .len263 => (.litLen, 263)
  | .len264 => (.litLen, 264)
  | .len265 => (.litLen, 265)
  | .len266 => (.litLen, 266)
  | .len267 => (.litLen, 267)
  | .len268 => (.litLen, 268)
  | .len269 => (.litLen, 269)
  | .len270 => (.litLen, 270)
  | .len271 => (.litLen, 271)
  | .len272 => (.litLen, 272)
  | .len273 => (.litLen, 273)
  | .len274 => (.litLen, 274)
  | .len275 => (.litLen, 275)
  | .len276 => (.litLen, 276)
  | .len277 => (.litLen, 277)
  | .len278 => (.litLen, 278)
  | .len279 => (.litLen, 279)
  | .len280 => (.litLen, 280)
  | .len281 => (.litLen, 281)
  | .len282 => (.litLen, 282)
  | .len283 => (.litLen, 283)
  | .len284 => (.litLen, 284)
  | .len285 => (.litLen, 285)
  | .invalidLitLen286 => (.litLen, 286)
  | .invalidLitLen287 => (.litLen, 287)
  | .dist0 => (.dist, 0)
  | .dist1 => (.dist, 1)
  | .dist2 => (.dist, 2)
  | .dist3 => (.dist, 3)
  | .dist4 => (.dist, 4)
  | .dist5 => (.dist, 5)
  | .dist6 => (.dist, 6)
  | .dist7 => (.dist, 7)
  | .dist8 => (.dist, 8)
  | .dist9 => (.dist, 9)
  | .dist10 => (.dist, 10)
  | .dist11 => (.dist, 11)
  | .dist12 => (.dist, 12)
  | .dist13 => (.dist, 13)
  | .dist14 => (.dist, 14)
  | .dist15 => (.dist, 15)
  | .dist16 => (.dist, 16)
  | .dist17 => (.dist, 17)
  | .dist18 => (.dist, 18)
  | .dist19 => (.dist, 19)
  | .dist20 => (.dist, 20)
  | .dist21 => (.dist, 21)
  | .dist22 => (.dist, 22)
  | .dist23 => (.dist, 23)
  | .dist24 => (.dist, 24)
  | .dist25 => (.dist, 25)
  | .dist26 => (.dist, 26)
  | .dist27 => (.dist, 27)
  | .dist28 => (.dist, 28)
  | .dist29 => (.dist, 29)
  | .invalidDist30 => (.dist, 30)
  | .invalidDist31 => (.dist, 31)
  | .clLen n => (.codeLen, n)
  | .clRepeat => (.codeLen, 16)
  | .clZerosShort => (.codeLen, 17)
  | .clZerosLong => (.codeLen, 18)
  | .eocd => (.record, eocdSignature)
  | .cdh => (.record, cdhSignature)
  | .lfh => (.record, lfhSignature)

/-- A code of `n` bits, most significant bit first, which is the order the stream carries it (R79). -/
def codeBits : (n : Nat) → (code : Nat) → List Bool
  | 0, _ => []
  | n + 1, code => code.testBit n :: codeBits n code

/-- R109: the fixed code of a literal/length symbol, in stream order. -/
def fixedLitLenCode (sym : Nat) : List Bool :=
  if sym < 144 then codeBits 8 (0x30 + sym)
  else if sym < 256 then codeBits 9 (0x190 + (sym - 144))
  else if sym < 280 then codeBits 7 (sym - 256)
  else codeBits 8 (0xC0 + (sym - 280))

/-- R109: the fixed code of a distance symbol is its 5-bit number. -/
def fixedDistCode (sym : Nat) : List Bool := codeBits 5 sym

/-- The bits of an instruction as the stream carries it in a fixed block: a block header bit by bit, bit 0 first
(R103, R78), a literal/length or distance symbol by its fixed code (R109). No other instruction has a code that
does not depend on a tree of the stream's own. -/
def fixedStreamBits (i : Instr) : List Bool :=
  match encode i with
  | (.blockHdr, v) => [v.testBit 0, v.testBit 1, v.testBit 2]
  | (.litLen, v) => fixedLitLenCode v
  | (.dist, v) => fixedDistCode v
  | _ => []

/-- Which format a table word is read in, when only its width and its bits are given (assumption 2, DESIGN CHOICE).
The table gives rows of several formats the same bits; the core itself never has to choose, because what it is
reading fixes the format. The choice here: within 8 bits, values 0..15 are command words, a value whose low five
bits are 18 is the code-length symbol CL_ZEROS_LONG, and other values are distance symbols; within 16 bits,
18..29 and values of ten bits or more are distance symbols (the table draws those rows wider than 8 bits) and
other values literal/length symbols; beyond, a known signature is a record and any other word a command. -/
def tableFormat (nbits w : Nat) : Format :=
  if nbits ≤ 8 then
    if w < 16 then .cmd else if w % 32 = 18 then .codeLen else .dist
  else if nbits ≤ 16 then
    if (18 ≤ w ∧ w ≤ 29) ∨ 512 ≤ w then .dist else .litLen
  else if w = eocdSignature ∨ w = cdhSignature ∨ w = lfhSignature then .record else .cmd

/-- The bits of a table word that its format reads. -/
def tableValue (f : Format) (w : Nat) : Nat :=
  match f with
  | .cmd => w % 2 ^ 32
  | .blockHdr => w % 8
  | .litLen => w % 512
  | .dist => w % 32
  | .codeLen => w % 32
  | .record => w % 2 ^ 32

/-- The instruction the decoder reads from a table word (the host's question about one row). -/
def decodeTableWord (nbits w : Nat) : Option Instr :=
  (decode (tableFormat nbits w) (tableValue (tableFormat nbits w) w)).toOption

end Sys2Proof
end

