-- ==== Sys2Proof/Machine/Fetch.lean ====
section
/-! DEFINITION. How the core comes by its next instruction: the command word in CMD (R300), the bits of the stream
(R191, R175) or the signature of a ZIP record (R262, R272, R275). What it reads fixes the format. -/

namespace Sys2Proof.Machine

/-- What a BUSY core's next step is. -/
inductive Fetched where
  /-- It runs `i` in `s`, the state in which `i` has been read. -/
  | run (i : Instr) (s : State)
  /-- It runs no instruction and leaves `s`. -/
  | internal (s : State)
  /-- It stops. -/
  | stop (f : Fault)
  deriving DecidableEq, Repr

/-- The instruction a decoded symbol names. -/
def fetchSymbol (f : Format) : Res (Option Nat × State) → Fetched
  | .error s => .internal s
  | .ok (none, _) => .stop .emptySymbol
  | .ok (some v, s) =>
    match decode f v with
    | .ok i => .run i s
    | .error _ => .stop (.noSuchSymbol v)

/-- R300: the accepted command. -/
def fetchCommand (s : State) : Fetched := .run (decodeCmd (cmdWord s)) s

/-- R191: `bfinal <- ReadBits(1)`. -/
def readBfinal (s : State) : Res State := do
  let (f, s) ← readBits 1 s
  .ok { s with inf := { s.inf with bfinal := decide (f = 1) } }

/-- R191: `BlockHeader()`: the header's three bits, BFINAL first. -/
def readBlockHdr (s : State) : Res (BitVec 3 × State) := do
  let s ← readBfinal s
  let (t, s) ← readBits 2 s
  let s := { s with inf := { s.inf with btype := BitVec.ofNat 2 t } }
  .ok (BitVec.ofNat 3 (s.inf.bfinal.toNat + 2 * t), s)

/-- R191, R192. -/
def fetchBlockHdr (s : State) : Fetched :=
  match readBlockHdr s with
  | .error s => .internal s
  | .ok (h, s) => .run (decodeBlockHdr h) s

/-- R262, R263: one candidate offset of the scan. -/
def fetchEocd (s : State) : Fetched :=
  match decodeRecord (le32 s s.zip.scanPos) with
  | .ok .eocd => .run .eocd s
  | _ =>
    if s.zip.scanPos ≤ scanFloor s then .internal (fail .eocdNotFound (inLen s - 22) 0 s)
    else .internal { s with zip := { s.zip with scanPos := s.zip.scanPos - 1 } }

/-- R272: the record at `cdCursor`. -/
def fetchCdh (s : State) : Fetched :=
  if s.zip.cdCursor + 46 > inLen s then .internal (fail .cdhOob s.zip.cdCursor 0 s)
  else match decodeRecord (le32 s s.zip.cdCursor) with
    | .ok .cdh => .run .cdh s
    | _ => .internal (fail .cdhBadSignature s.zip.cdCursor 0 s)

/-- R275: the local header at `lfhPos`. -/
def fetchLfh (s : State) : Fetched :=
  if s.zip.lfhPos + 30 > inLen s then .internal (fail .lfhOob s.zip.lfhPos 0 s)
  else match decodeRecord (le32 s s.zip.lfhPos) with
    | .ok .lfh => .run .lfh s
    | _ => .internal (fail .lfhBadSignature s.zip.lfhPos 0 s)

/-- The next step of a core that is BUSY at place `a`. -/
def fetch (a : Activity) (s : State) : Fetched :=
  match a with
  | .command => fetchCommand s
  | .scanEocd => fetchEocd s
  | .walkCdh => fetchCdh s
  | .checkLfh => fetchLfh s
  | .blockHeader => fetchBlockHdr s
  | .codeLength => fetchSymbol .codeLen (decodeSym s.inf.clt s)
  | .litLen => fetchSymbol .litLen (decodeSym (litLenTree s) s)
  | .distance => fetchSymbol .dist (decodeSym (distTree s) s)
  | .finish => .internal (finishCommand s)

/-! ## Placing an instruction where the next step reads it -/

/-- The byte of eight stream bits, the first one least significant (R78). -/
def packByte : List Bool → Nat
  | [] => 0
  | b :: bs => b.toNat + 2 * packByte bs

/-- The bytes of a bit sequence (R78), padded with zero bits to `n` bytes. -/
def packBits : (n : Nat) → List Bool → List Byte
  | 0, _ => []
  | n + 1, bs => BitVec.ofNat 8 (packByte (bs.take 8)) :: packBits n (bs.drop 8)

/-- The memory that holds `bs` from address `a` on and nothing else. -/
def memoryOf : (a : Nat) → List Byte → Memory
  | _, [] => []
  | a, b :: bs => (a, b) :: memoryOf (a + 1) bs

/-- A 32-bit value as its four bytes, the lowest first (R77). -/
def bytesOf32 (w : Nat) : List Byte :=
  [BitVec.ofNat 8 w, BitVec.ofNat 8 (w / 2 ^ 8), BitVec.ofNat 8 (w / 2 ^ 16), BitVec.ofNat 8 (w / 2 ^ 24)]

/-- IN holds `bs` from offset 0 on, and IN_LEN is their number. -/
def loadIn (bs : List Byte) (s : State) : State :=
  { s with inMem := memoryOf 0 bs, regs := { s.regs with inLen := BitVec.ofNat 32 bs.length } }

/-- A running INFLATE that is at place `a` in phase `p`, reads the stream `bits` followed by zero bits, has 32768
bytes behind it in OUT and room for as many more. -/
def placeStream (a : Activity) (p : Phase) (bits : List Bool) (s : State) : State :=
  let s := loadIn (packBits 64 bits) s
  goTo a { s with
    regs := { s.regs with cmdOp := 3 }
    inf := { s.inf with
      bitpos := 0, regionStart := 0, regionEnd := 64, destLen := 32768, destCap := 65536, phase := p, matchLen := 3 } }

/-- A running OPEN that is at place `a` and finds the record `bs`, followed by zero bytes, at offset 0. -/
def placeRecord (a : Activity) (sig : Nat) (s : State) : State :=
  let s := loadIn (bytesOf32 sig ++ List.replicate 60 0) s
  goTo a { s with
    regs := { s.regs with cmdOp := 1 }
    zip := { scanPos := 0, eocdPos := 0, cdCursor := 0, cdLeft := 1, lfhPos := 0 } }

/-- The state whose next step reads number `v` in format `f`. A code-length symbol is given a tree in which the code
of each of the 19 symbols is its 5-bit number, and one length (0) before it. -/
def place (f : Format) (v : Nat) (s : State) : State :=
  let s := { s with hostOps := [] }
  match f with
  | .cmd => acceptCommand (BitVec.ofNat 32 v) s
  | .blockHdr => placeStream .blockHeader .awaitBlockHeader [v.testBit 0, v.testBit 1, v.testBit 2] s
  | .litLen => placeStream .litLen .fixed (fixedLitLenCode v) s
  | .dist => placeStream .distance .fixed (fixedDistCode v) s
  | .codeLen =>
    let s := placeStream .codeLength .dynamic (codeBits 5 v) s
    { s with inf := { s.inf with
      clt := buildTree (List.replicate 19 5), lengths := [0], hlit := 257, hdist := 1 } }
  | .record =>
    placeRecord (if v = eocdSignature then .scanEocd else if v = cdhSignature then .walkCdh else .checkLfh) v s

end Sys2Proof.Machine
end

