-- ==== Sys2Proof/Machine/HostAccess.lean ====
section
/-! DEFINITION. The host's accesses: the register space (spec/10_state.md R20-R29, spec/20_memory.md R73), the port
memories (R70-R74), the drops while BUSY (R390) and the draws it reads then (R86, R391), and reset (R380, R382). -/

namespace Sys2Proof.Machine

/-- R73: the access is performed, being 32 bits wide and naturally aligned. -/
def aligned (off : BitVec 8) (width : Width) : Bool := decide (width = .w32) && decide (off.toNat % 4 = 0)

/-- R86: the registers a command writes its results to, OPEN_VALID apart. -/
def isResult (off : Nat) : Bool :=
  decide (off = 0x0C) || decide (off = 0x10) || (decide (0x28 ≤ off) && decide (off ≤ 0x5C))

/-- R20: the register at a word offset while the core is not BUSY. Reserved offsets read 0. -/
def regWord (s : State) (off : Nat) : Word :=
  match off with
  | 0x00 => cmdWord s
  | 0x04 => statusWord s s.regs.openValid
  | 0x08 => ctrlWord s
  | 0x0C => s.regs.err
  | 0x10 => s.regs.errPos
  | 0x14 => s.regs.inLen
  | 0x18 => s.regs.nameLen
  | 0x1C => s.regs.arg0
  | 0x20 => s.regs.arg1
  | 0x24 => s.regs.arg2
  | 0x28 => s.regs.outLen
  | 0x2C => s.regs.resCrc
  | 0x30 => s.regs.entryCount
  | 0x34 => s.regs.commentOff
  | 0x38 => s.regs.commentLen
  | 0x3C => s.ent.index
  | 0x40 => s.ent.method
  | 0x44 => s.ent.csize
  | 0x48 => s.ent.usize
  | 0x4C => s.ent.crc
  | 0x50 => s.ent.dosdt
  | 0x54 => s.ent.dataOff
  | 0x58 => s.ent.commentOff
  | 0x5C => s.ent.commentLen
  | _ => 0

/-- The host has read `v`. -/
def hostGets (v : Word) (s : State) : State := { s with hostData := v }

/-- R86, U2: the host has read a value that used up a draw. -/
def hostDraws (v : Word) (s : State) : State := { s with hostData := v, readDraws := s.readDraws + 1 }

/-- R20, R73, R86: a host read of the register space. While BUSY a result register, and the OPEN_VALID bit of STATUS
(assumption 8), read as a draw. -/
def hostReadReg (off : BitVec 8) (width : Width) (s : State) : State :=
  if aligned off width = false then hostGets 0 s
  else if busy s = false then hostGets (regWord s off.toNat) s
  else if isResult off.toNat then hostDraws (Config.freeRead s.readDraws) s
  else if off.toNat = 0x04 then hostDraws (statusWord s ((Config.freeRead s.readDraws).getLsbD 0)) s
  else hostGets (regWord s off.toNat) s

/-- R25, R42, R72: a write to IN or IN_LEN that is not dropped. -/
def invalidate (s : State) : State := { s with regs := { s.regs with openValid := false } }

/-- R20, R21, R25, R26: a host write to a register other than STATUS and CTRL while the core is not BUSY. Writes to
read-only registers and reserved offsets are dropped. -/
def writeIdleReg (off : Nat) (v : Word) (s : State) : State :=
  match off with
  | 0x00 => acceptCommand v s
  | 0x14 => invalidate { s with regs := { s.regs with inLen := v } }
  | 0x18 => { s with regs := { s.regs with nameLen := v } }
  | 0x1C => { s with regs := { s.regs with arg0 := v } }
  | 0x20 => { s with regs := { s.regs with arg1 := v } }
  | 0x24 => { s with regs := { s.regs with arg2 := v } }
  | _ => s

/-- R390, U11: CMD, IN_LEN, NAME_LEN and ARG0-ARG2, the registers whose writes BUSY drops. -/
def isInput (off : Nat) : Bool := decide (off = 0x00) || (decide (0x14 ≤ off) && decide (off ≤ 0x24))

/-- R20, R390: a host write to a register other than STATUS and CTRL while BUSY. A write to a read-only register or a
reserved offset has no effect, as at any other time (U9, U12; assumption 10). -/
def writeBusyReg (off : Nat) (s : State) : State := if isInput off then markIgnored s else s

/-- R20, R73, R351, R390: a host write to the register space. -/
def hostWriteReg (off : BitVec 8) (width : Width) (v : Word) (s : State) : State :=
  if aligned off width = false then s
  else if off.toNat = 0x04 then writeStatus v s
  else if off.toNat = 0x08 then writeCtrl v s
  else if busy s then writeBusyReg off.toNat s
  else writeIdleReg off.toNat v s

/-- R70, R72: a host write of a byte of IN. -/
def hostWriteIn (a : Nat) (v : Byte) (s : State) : State :=
  if busy s then markIgnored s else invalidate { s with inMem := s.inMem.set a v }

/-- R71: a host write of a byte of NAME. -/
def hostWriteName (a : Nat) (v : Byte) (s : State) : State :=
  if busy s then markIgnored s else { s with nameMem := s.nameMem.set a v }

/-- R74, R86: a host read of a byte of OUT. -/
def hostReadOut (a : Nat) (s : State) : State :=
  if busy s then hostDraws ((Config.freeRead s.readDraws).setWidth 8 |>.setWidth 32) s
  else hostGets ((outByte s a).setWidth 32) s

/-- R380, R382: reset. The parameters and the host stay; every unwritten byte of the port memories is a fresh draw. -/
def hardReset (s : State) : State :=
  { State.reset with
    params := s.params
    hostOps := s.hostOps
    hostData := s.hostData
    memEpoch := s.memEpoch + 1
    outEpoch := s.outEpoch + 1
    readDraws := s.readDraws }

/-- The capacity of a port memory (R9). -/
def capacity (p : Port) (s : State) : Nat :=
  match p with
  | .inPort => s.params.inCap
  | .namePort => s.params.nameCap
  | .outPort => s.params.outCap

/-- An access to byte `a` of a port memory: the byte exists, or the machine stops. -/
def portAccess (p : Port) (a : Nat) (s t : State) : Host.Outcome State Fault Refusal :=
  if a < capacity p s then .next t else .fault (.noSuchByte p a)

/-- One access of the host. `pass` and `wait` are no accesses. -/
def hostAccess (op : HostOp) (s : State) : Host.Outcome State Fault Refusal :=
  match op with
  | .writeReg off width v => .next (hostWriteReg off width v s)
  | .readReg off width => .next (hostReadReg off width s)
  | .writeIn a v => portAccess .inPort a s (hostWriteIn a v s)
  | .writeName a v => portAccess .namePort a s (hostWriteName a v s)
  | .writeOut a _ => portAccess .outPort a s s
  | .readIn a => portAccess .inPort a s (hostGets ((inByte s a).setWidth 32) s)
  | .readName a => portAccess .namePort a s (hostGets ((nameByte s a).setWidth 32) s)
  | .readOut a => portAccess .outPort a s (hostReadOut a s)
  | .reset => .next (hardReset s)
  | .pass => .next s
  | .wait => .next s

end Sys2Proof.Machine
end

