-- ==== Sys2Proof/Machine/Sequencer.lean ====
section
/-! DEFINITION. One step of the core, and one step of the two agents (R18, R84, R86, R358). -/

namespace Sys2Proof.Machine

/-- One step of the core. When it is not BUSY it does nothing (R358). -/
def coreStep (s : State) : Host.Outcome State Fault Refusal :=
  match s.run with
  | .busy a =>
    match fetch a s with
    | .run i s' => exec i s'
    | .internal s' => .next s'
    | .stop f => .fault f
  | _ => .next s

/-- R86: the next move of the two agents: the host's next access, or a step of the core when the host makes none. -/
def nextMove (s : State) : Host.Outcome State Fault Refusal :=
  match s.hostOps with
  | [] => coreStep s
  | .pass :: ops => coreStep { s with hostOps := ops }
  | .wait :: ops => if busy s then coreStep s else .next { s with hostOps := ops }
  | op :: ops => hostAccess op { s with hostOps := ops }

end Sys2Proof.Machine
end

