-- ==== Sys2Proof/Machine/Step.lean ====
section
/-! DEFINITION. The step of the machine, and where the host's question about one table row puts its word. -/

namespace Sys2Proof.Machine

/-- One step: a move of the host or of the core (`nextMove`). -/
def step (s : State) : Host.Outcome State Fault Refusal := nextMove s

/-- `s` with a table word where the next step reads its instruction (assumption 2): a running command that is at
the place where the word's format is read. -/
def State.withFetchWord (s : State) (nbits w : Nat) : State :=
  place (tableFormat nbits w) (tableValue (tableFormat nbits w) w) s

end Sys2Proof.Machine
end

