-- ==== Sys2Proof/Machine/Assembler.lean ====
section
/-! DEFINITION. The notation of spec/30_encoding.md R120 and R121: host statements as host moves, and the
pseudo-instructions MATCH, ZEROS and REPEAT as symbols with their extra-bit values. -/

namespace Sys2Proof.Machine

/-! ## Host statements (R120) -/

/-- `WR <reg>, <value>`. -/
def wr (off : BitVec 8) (value : Word) : HostOp := .writeReg off .w32 value

/-- `LOAD IN, <offset>, <bytes>`. -/
def hostLoadIn : (a : Nat) → List Byte → List HostOp
  | _, [] => []
  | a, b :: bs => .writeIn a b :: hostLoadIn (a + 1) bs

/-- `LOAD NAME, <offset>, <bytes>`. -/
def hostLoadName : (a : Nat) → List Byte → List HostOp
  | _, [] => []
  | a, b :: bs => .writeName a b :: hostLoadName (a + 1) bs

/-- `OPEN`, `READ`, `INFLATE`, `CRC32`: `WR CMD, <OP>`. -/
def cmd (op : Word) : HostOp := wr 0x00 op

/-! ## Pseudo-instructions (R121) -/

/-- A symbol with its extra-bit value. -/
structure Element where
  symbol : Nat
  extra : Nat
  deriving DecidableEq, Repr

/-- The largest index `i < n` whose base is at most `v`. -/
def largestBase (base : List Nat) (v : Nat) : (n : Nat) → Option Nat
  | 0 => none
  | n + 1 => if base.getD n 0 ≤ v then some n else largestBase base v n

/-- R121: the length symbol and extra of `length`; 258 is always symbol 285. -/
def lengthElement (length : Nat) : Option Element :=
  if 258 < length then none
  else (largestBase lenBase length 29).map fun i => { symbol := 257 + i, extra := length - lenBase.getD i 0 }

/-- R121: the distance symbol and extra of `dist`. -/
def distElement (dist : Nat) : Option Element :=
  if 32768 < dist then none
  else (largestBase distBase dist 30).map fun i => { symbol := i, extra := dist - distBase.getD i 0 }

/-- R121: `MATCH <length>, <distance>`. -/
def matchElements (length dist : Nat) : Option (Element × Element) :=
  match lengthElement length, distElement dist with
  | some l, some d => some (l, d)
  | _, _ => none

/-- R121: `ZEROS <n>`. -/
def zerosElement (n : Nat) : Option Element :=
  if 3 ≤ n ∧ n ≤ 10 then some { symbol := 17, extra := n - 3 }
  else if 11 ≤ n ∧ n ≤ 138 then some { symbol := 18, extra := n - 11 }
  else none

/-- R121: `REPEAT <n>`. -/
def repeatElement (n : Nat) : Option Element :=
  if 3 ≤ n ∧ n ≤ 6 then some { symbol := 16, extra := n - 3 } else none

end Sys2Proof.Machine
end

