-- ==== Sys2Proof/Safety.lean ====
section
/-! DEFINITION. What counts as a sound state, in the terms the claims use: the invariant `State.Inv` that reset meets
and that every step keeps. It says what each rule states about the whole machine: the bounds discipline (R76), the
ranges of the datapath (R31-R41), the handle (R42, R280), the error registers (R24, R346) and the results (R27, R306,
R312). -/

namespace Sys2Proof.Machine

/-- `m` is in canonical form and lists no address at or beyond `cap`. -/
def Memory.Below (cap : Nat) (m : Memory) : Prop := m.wf = true ∧ ∀ c ∈ m, c.1 < cap

/-- R70, R71, R74: the three port memories. -/
structure PortsOk (s : State) : Prop where
  inPort : Memory.Below s.params.inCap s.inMem
  namePort : Memory.Below s.params.nameCap s.nameMem
  outPort : Memory.Below s.params.outCap s.outMem

/-- R40, R274, R276: a record of the file table, its fields in their widths and its ranges inside IN. -/
structure EntryOk (s : State) (e : Entry) : Prop where
  name : e.nameOff + e.nameLen ≤ inLen s
  comment : e.commentOff + e.commentLen ≤ inLen s
  content : e.dataOff + e.csize ≤ inLen s
  method : e.method = 0 ∨ e.method = 8
  nameLen : e.nameLen < 2 ^ 16
  commentLen : e.commentLen < 2 ^ 16
  csize : e.csize < 2 ^ 32
  usize : e.usize < 2 ^ 32
  crc : e.crc < 2 ^ 32
  dosTime : e.dosTime < 2 ^ 16
  dosDate : e.dosDate < 2 ^ 16

/-- Every record of the file table is sound. -/
def TableOk (s : State) : Prop := ∀ e ∈ s.ft, EntryOk s e

/-- R300, R310: ENTRY_COUNT, COMMENT_OFF, COMMENT_LEN and OPEN_VALID are 0. -/
structure HandleClear (s : State) : Prop where
  openValid : s.regs.openValid = false
  entryCount : s.regs.entryCount = 0
  commentOff : s.regs.commentOff = 0
  commentLen : s.regs.commentLen = 0

/-- R42, R280: a valid handle describes IN as it is. -/
structure HandleValid (s : State) : Prop where
  fits : inLen s ≤ s.params.inCap
  table : TableOk s
  count : s.regs.entryCount.toNat = s.ft.length
  comment : s.regs.commentOff.toNat + s.regs.commentLen.toNat ≤ inLen s

/-- The handle is never partially valid. -/
structure HandleOk (s : State) : Prop where
  capacity : s.ft.length ≤ s.params.maxEntries
  valid : s.regs.openValid = true → HandleValid s
  /-- R280: a failed OPEN leaves no handle. -/
  failedOpen : s.run = .fail → s.regs.cmdOp = 1 → HandleClear s
  /-- R300: a running OPEN has cleared it. -/
  runningOpen : busy s = true → s.regs.cmdOp = 1 → HandleClear s

/-- R24, R27, R300, R346: the error registers and the result registers. -/
structure ResultRegsOk (s : State) : Prop where
  /-- R24: only a failure writes ERR and ERR_POS. -/
  noError : s.run ≠ .fail → s.regs.err = 0 ∧ s.regs.errPos = 0
  /-- R346: after a failure ERR names one cause of R341 and OUT_LEN is 0. -/
  failed : s.run = .fail → s.regs.outLen = 0 ∧ ∃ (c : Cause) (bit : Nat), bit < 8 ∧ s.regs.err = errWord c bit
  /-- R300: both are 0 while a command runs. -/
  running : busy s = true → s.regs.outLen = 0 ∧ s.regs.resCrc = 0
  /-- R22, R380: nothing has run since reset. -/
  fresh : s.run = .idle → s.regs.cmdOp = 0 ∧ s.regs.outLen = 0 ∧ s.regs.resCrc = 0 ∧ s.ent = EntRegs.zero ∧
    s.ft = [] ∧ HandleClear s

/-- R193: every byte below destLen has been written. -/
def OutputWritten (n : Nat) (s : State) : Prop := ∀ a, a < n → (s.outMem.get? a).isSome = true

/-- R260: OPEN is past the EOCD record; `cdLeft` records remain. -/
structure WalkOk (s : State) : Prop where
  open_ : s.regs.cmdOp = 1
  fits : inLen s ≤ s.params.inCap
  table : TableOk s
  comment : s.zip.eocdPos + 22 + le16 s (s.zip.eocdPos + 20) ≤ inLen s
  count : s.ft.length + s.zip.cdLeft = le16 s (s.zip.eocdPos + 10)
  capacity : le16 s (s.zip.eocdPos + 10) ≤ s.params.maxEntries

/-- R275: the record at `cdCursor` has passed its checks. -/
structure RecordOk (s : State) : Prop where
  method : le16 s (s.zip.cdCursor + 10) = 0 ∨ le16 s (s.zip.cdCursor + 10) = 8
  fields : nextCdh s.zip.cdCursor s ≤ inLen s
  header : s.zip.lfhPos = le32 s (s.zip.cdCursor + 42)

/-- R32, R33, R190: the operands of the running inflate. -/
def InflateSource (s : State) : Prop :=
  (s.regs.cmdOp = 3 ∧ s.inf.regionStart = s.regs.arg0.toNat ∧
    s.inf.regionEnd = s.regs.arg0.toNat + s.regs.arg1.toNat ∧ s.inf.destCap = s.regs.arg2.toNat) ∨
  (s.regs.cmdOp = 2 ∧ s.regs.openValid = true ∧ s.ent.method = 8 ∧ s.inf.regionStart = s.ent.dataOff.toNat ∧
    s.inf.regionEnd = s.ent.dataOff.toNat + s.ent.csize.toNat ∧ s.inf.destCap = s.ent.usize.toNat)

/-- R31-R33, R76, R154: the bounds of the running inflate. -/
structure StreamOk (s : State) : Prop where
  source : InflateSource s
  start : 8 * s.inf.regionStart ≤ s.inf.bitpos
  stop : s.inf.bitpos ≤ 8 * s.inf.regionEnd
  region : s.inf.regionEnd ≤ inLen s
  fits : inLen s ≤ s.params.inCap
  room : s.inf.destLen ≤ s.inf.destCap
  capacity : s.inf.destCap ≤ s.params.outCap
  written : OutputWritten s.inf.destLen s

/-- R38, R200: the counts of the dynamic header. -/
structure CountsOk (s : State) : Prop where
  hlit : 257 ≤ s.inf.hlit ∧ s.inf.hlit ≤ 288
  hlitAccepted : s.params.acceptHlitOver286 = false → s.inf.hlit ≤ 286
  hdist : 1 ≤ s.inf.hdist ∧ s.inf.hdist ≤ 32
  hclen : 4 ≤ s.inf.hclen ∧ s.inf.hclen ≤ 19
  lengths : ∀ l ∈ s.inf.lengths, l ≤ 15

/-- R201, R202: the code-length sequence is being decoded. -/
structure CodeLengthOk (s : State) : Prop where
  phase : s.inf.phase = .dynamic
  counts : CountsOk s
  more : s.inf.lengths.length < totalLengths s
  cl : s.inf.cl.length = 19 ∧ ∀ l ∈ s.inf.cl, l ≤ 7
  clt : s.inf.clt = buildTree s.inf.cl

/-- R178, R206: the trees of the block being decoded. -/
def TreesOk (s : State) : Prop :=
  s.inf.phase = .fixed ∨
  (s.inf.phase = .dynamic ∧ CountsOk s ∧ s.inf.lengths.length = totalLengths s ∧
    s.inf.ltDyn = buildTree (s.inf.lengths.take s.inf.hlit) ∧
    s.inf.dtDyn = buildTree (s.inf.lengths.drop s.inf.hlit))

/-- R304: a stored entry has been copied. -/
structure StoredDone (s : State) : Prop where
  read : s.regs.cmdOp = 2
  opened : s.regs.openValid = true
  method : s.ent.method = 0
  destLen : s.inf.destLen = s.ent.usize.toNat
  capacity : s.inf.destLen ≤ s.params.outCap
  written : OutputWritten s.inf.destLen s

/-- What holds at each place of a command body. -/
def PlaceOk (s : State) : Activity → Prop
  | .command => True
  | .scanEocd => s.regs.cmdOp = 1 ∧ inLen s ≤ s.params.inCap ∧ s.zip.scanPos + 22 ≤ inLen s
  | .walkCdh => WalkOk s ∧ 0 < s.zip.cdLeft
  | .checkLfh => WalkOk s ∧ 0 < s.zip.cdLeft ∧ RecordOk s
  | .blockHeader => StreamOk s ∧ s.inf.phase = .awaitBlockHeader
  | .codeLength => StreamOk s ∧ CodeLengthOk s
  | .litLen => StreamOk s ∧ TreesOk s
  | .distance => StreamOk s ∧ TreesOk s ∧ 3 ≤ s.inf.matchLen ∧ s.inf.matchLen ≤ 258
  | .finish => (WalkOk s ∧ s.zip.cdLeft = 0) ∨ (StreamOk s ∧ s.inf.phase = .done) ∨ StoredDone s

/-- The invariant of the machine. -/
structure State.Inv (s : State) : Prop where
  params : s.params.ok = true
  ports : PortsOk s
  handle : HandleOk s
  results : ResultRegsOk s
  place : ∀ a, s.run = .busy a → PlaceOk s a

/-- R27, R301, R306, R310, R312, R313: what the result registers of a successful command mean. -/
structure DoneOk (s : State) : Prop where
  known : s.regs.cmdOp = 1 ∨ s.regs.cmdOp = 2 ∨ s.regs.cmdOp = 3 ∨ s.regs.cmdOp = 4
  /-- OPEN and CRC32 produce no bytes. -/
  none : s.regs.cmdOp = 1 ∨ s.regs.cmdOp = 4 → s.regs.outLen = 0
  /-- READ and INFLATE: OUT_LEN bytes of OUT, with their CRC. -/
  bytes : s.regs.cmdOp = 2 ∨ s.regs.cmdOp = 3 →
    s.regs.resCrc = crc32 (outByte s) 0 s.regs.outLen.toNat ∧ s.regs.outLen.toNat ≤ s.params.outCap ∧
      OutputWritten s.regs.outLen.toNat s
  /-- READ: the entry's declared size and its stored CRC. -/
  entry : s.regs.cmdOp = 2 → s.regs.outLen = s.ent.usize ∧ s.regs.resCrc = s.ent.crc

/-- Whenever STATE is DONE, the results are those of the last command. -/
def State.ResultsHold (s : State) : Prop := s.run = .done → DoneOk s

/-! ## The vocabulary of the claims -/

/-- The bits of IN from position `p` on begin with `bs` (R78, R79). -/
def StreamHas (s : State) : (p : Nat) → (bs : List Bool) → Prop
  | _, [] => True
  | p, b :: bs => bitAt s p = b.toNat ∧ StreamHas s (p + 1) bs

/-- R170: the canonical code of the first symbol of length `l`: codes are assigned in increasing order of (length,
symbol index), a longer code continuing after all the shorter ones. -/
def firstCode (lens : List Nat) : (l : Nat) → Nat
  | 0 => 0
  | 1 => 0
  | l + 2 => 2 * (firstCode lens (l + 1) + lens.count (l + 1))

/-- R170: the canonical code of symbol `i`. -/
def canonicalCode (lens : List Nat) (i : Nat) : Nat :=
  firstCode lens (lens.getD i 0) + (lens.take i).count (lens.getD i 0)

/-- R173: `Σ 2^−L` over the used symbols, in units of `2^−15`: less than `2^15` for an incomplete length set, `2^15`
for a complete one, more for an over-subscribed one. -/
def kraftSum (lens : List Nat) : Nat := (lens.map fun l => if l = 0 then 0 else 2 ^ (15 - l)).sum

/-- R202, R206: `t` is `s` after the code lengths `new` have been appended: the sequence goes on, or it is complete and
both trees are built. -/
def LengthsAppended (new : List Nat) (s t : State) : Prop :=
  (s.inf.lengths.length + new.length < s.inf.hlit + s.inf.hdist →
    t = { s with run := .busy .codeLength, inf := { s.inf with lengths := s.inf.lengths ++ new } }) ∧
  (s.inf.hlit + s.inf.hdist ≤ s.inf.lengths.length + new.length →
    t = { s with run := .busy .litLen, inf := { s.inf with
      lengths := s.inf.lengths ++ new
      ltDyn := buildTree ((s.inf.lengths ++ new).take s.inf.hlit)
      dtDyn := buildTree (((s.inf.lengths ++ new).drop s.inf.hlit).take s.inf.hdist) } })

/-- R279: record `e` has the name NAME[0 .. NAME_LEN-1]. -/
def HasName (s : State) (e : Entry) : Prop :=
  e.nameLen = s.regs.nameLen.toNat ∧ ∀ j, j < s.regs.nameLen.toNat → inByte s (e.nameOff + j) = nameByte s j

/-- `t` is `s` but for bytes of IN at or beyond IN_LEN. -/
def SameBelowInLen (s t : State) : Prop :=
  t = { s with inMem := t.inMem } ∧ ∀ a, a < inLen s → inByte t a = inByte s a

end Sys2Proof.Machine
end

