-- ==== Sys2Proof/Certificates/Slice0/Obligations.lean ====
section
/-! DEFINITION. The statements about the model, each from a rule of spec/ (OBLIGATIONS.json cites it). A statement about
an instruction gives the whole next state as an update of the state before, so that it states the frame too; where OUT
is written, it says what every byte of OUT reads as. A failing form is stated as the failure completion `fail`, whose
every field the statement FailureCompletion gives (for OUT's bytes the model's choice, assumptions 3 and 9). What one
step of the core takes in is the model's choice too (assumption 12): an element of a stream, an offset of the EOCD scan,
a record, or a command's start or end. -/

section
open Sys2Proof Sys2Proof.Machine

/-! ## Encodings -/

/-- R100, R103, R106, R108, R112, R116-R118: every well-formed instruction is what its own encoding decodes to, with
every operand at every value. -/
def Obligations.RoundTrip : Prop :=
  ∀ i : Instr, i.wf = true → decode (encode i).1 (encode i).2 = .ok i

/-- The other direction: what decodes is well formed and is encoded by the number it was decoded from, in the same
format; of a command word only OP (bits 3:0) is left. -/
def Obligations.DecodeSound : Prop :=
  ∀ (f : Format) (v : Nat) (i : Instr), decode f v = .ok i →
    i.wf = true ∧ (encode i).1 = f ∧
      ((f = .cmd ∧ v < 2 ^ 32 ∧ (encode i).2 = v % 16) ∨ (f ≠ .cmd ∧ (encode i).2 = v))

/-- Words written out from the encoding tables of R100, R103, R106, R108, R112 and R116-R118. -/
def Obligations.SpecWordsDecode : Prop :=
  decode .cmd 0x00000001 = .ok .cmdOpen ∧ decode .cmd 0x00000002 = .ok .cmdRead ∧
  decode .cmd 0x00000003 = .ok .cmdInflate ∧ decode .cmd 0x00000004 = .ok .cmdCrc32 ∧
  decode .cmd 0x00000007 = .ok .reservedOp7 ∧
  decode .blockHdr 0b011 = .ok (.fixedBlock true) ∧ decode .blockHdr 0b100 = .ok (.dynamicBlock false) ∧
  decode .blockHdr 0b001 = .ok (.storedBlock true) ∧ decode .blockHdr 0b111 = .ok (.reservedBlock true) ∧
  decode .litLen 0x041 = .ok (.lit 0x41) ∧ decode .litLen 0x100 = .ok .eob ∧
  decode .litLen 0x101 = .ok .len257 ∧ decode .litLen 0x11D = .ok .len285 ∧
  decode .litLen 0x11E = .ok .invalidLitLen286 ∧ decode .litLen 0x120 = .error .noSuchSymbol ∧
  decode .dist 0x00 = .ok .dist0 ∧ decode .dist 0x1D = .ok .dist29 ∧ decode .dist 0x1F = .ok .invalidDist31 ∧
  decode .codeLen 0x0F = .ok (.clLen 15) ∧ decode .codeLen 0x10 = .ok .clRepeat ∧
  decode .codeLen 0x11 = .ok .clZerosShort ∧ decode .codeLen 0x12 = .ok .clZerosLong ∧
  decode .codeLen 0x13 = .error .noSuchSymbol ∧
  decode .record 0x06054B50 = .ok .eocd ∧ decode .record 0x02014B50 = .ok .cdh ∧
  decode .record 0x04034B50 = .ok .lfh ∧ decode .record 0x02014B51 = .error .notASignature

/-- R100, R101, R21: only bits 3:0 of a command word count; CMD reads back as them. -/
def Obligations.CommandReservedBits : Prop :=
  ∀ (w w' : Word) (s : State), w.extractLsb' 0 4 = w'.extractLsb' 0 4 →
    decode .cmd w.toNat = decode .cmd w'.toNat ∧ acceptCommand w s = acceptCommand w' s ∧
      cmdWord (acceptCommand w s) = w &&& 0xF

/-- R121: MATCH, ZEROS and REPEAT expand to symbols that stand for the length, the distance and the count asked for,
with 258 written as symbol 285; outside their ranges they have no expansion. -/
def Obligations.PseudoInstructions : Prop :=
  (∀ length dist : Nat, 3 ≤ length → length ≤ 258 → 1 ≤ dist → dist ≤ 32768 →
    ∃ l d, matchElements length dist = some (l, d) ∧ 257 ≤ l.symbol ∧ l.symbol ≤ 285 ∧
      l.extra < 2 ^ lenExtra.getD (l.symbol - 257) 0 ∧ lenBase.getD (l.symbol - 257) 0 + l.extra = length ∧
      (length = 258 → l.symbol = 285) ∧ d.symbol ≤ 29 ∧ d.extra < 2 ^ distExtra.getD d.symbol 0 ∧
      distBase.getD d.symbol 0 + d.extra = dist) ∧
  (∀ length dist : Nat, length < 3 ∨ 258 < length ∨ dist = 0 ∨ 32768 < dist → matchElements length dist = none) ∧
  (∀ n : Nat, 3 ≤ n → n ≤ 10 → zerosElement n = some { symbol := 17, extra := n - 3 }) ∧
  (∀ n : Nat, 11 ≤ n → n ≤ 138 → zerosElement n = some { symbol := 18, extra := n - 11 }) ∧
  (∀ n : Nat, 3 ≤ n → n ≤ 6 → repeatElement n = some { symbol := 16, extra := n - 3 })

/-! ## Bit reader and Huffman unit -/

/-- R150-R153: ReadBit reads the next bit of the region, or raises INPUT_OVERRUN; ReadBits reads the next `n` bits of
the region least significant first, or raises INPUT_OVERRUN before it consumes any; AlignToByte moves to the next byte
boundary. -/
def Obligations.BitReader : Prop :=
  (∀ (s : State) (p : Nat), bitAt s p = ((inByte s (p / 8)).getLsbD (p % 8)).toNat) ∧
  (∀ s : State,
    (s.inf.bitpos < 8 * s.inf.regionEnd → readBit s =
      .ok (bitAt s s.inf.bitpos, { s with inf := { s.inf with bitpos := s.inf.bitpos + 1 } })) ∧
    (8 * s.inf.regionEnd ≤ s.inf.bitpos → readBit s = .error (failInflate .inputOverrun s))) ∧
  (∀ (n : Nat) (s : State), n ≤ 16 → n = 0 ∨ s.inf.bitpos + n ≤ 8 * s.inf.regionEnd →
    ∃ v, readBits n s = .ok (v, { s with inf := { s.inf with bitpos := s.inf.bitpos + n } }) ∧ v < 2 ^ n ∧
      ∀ k, k < n → v.testBit k = (inByte s ((s.inf.bitpos + k) / 8)).getLsbD ((s.inf.bitpos + k) % 8)) ∧
  (∀ (n : Nat) (s : State), n ≤ 16 → n ≠ 0 → 8 * s.inf.regionEnd < s.inf.bitpos + n →
    readBits n s = .error (failInflate .inputOverrun s)) ∧
  (∀ s : State, ∃ q, alignToByte s = { s with inf := { s.inf with bitpos := q } } ∧ q % 8 = 0 ∧
    s.inf.bitpos ≤ q ∧ q < s.inf.bitpos + 8)

/-- R171: the tree in closed form is the tree the rule's loops build. -/
def Obligations.BuildTreeFollowsTheLoops : Prop :=
  ∀ lens : List Nat, lens.length ≤ 288 → (∀ l ∈ lens, l ≤ 15) → buildTree lens = buildTreeBySteps lens

/-- R172: the ROM trees are BuildTree of the fixed length arrays, and have the contents the rule lists. -/
def Obligations.FixedTreesAreBuilt : Prop :=
  ltFixed = buildTree (List.replicate 144 8 ++ List.replicate 112 9 ++ List.replicate 24 7 ++ List.replicate 8 8) ∧
  ltFixed.count = [0, 0, 0, 0, 0, 0, 0, 24, 152, 112, 0, 0, 0, 0, 0, 0] ∧ ltFixed.sym.length = 288 ∧
  (∀ r, r < 24 → ltFixed.sym[r]? = some (some (256 + r))) ∧
  (∀ r, r < 144 → ltFixed.sym[24 + r]? = some (some r)) ∧
  (∀ r, r < 8 → ltFixed.sym[168 + r]? = some (some (280 + r))) ∧
  (∀ r, r < 112 → ltFixed.sym[176 + r]? = some (some (144 + r))) ∧
  dtFixed = buildTree (List.replicate 32 5) ∧
  dtFixed.count = [0, 0, 0, 0, 0, 32, 0, 0, 0, 0, 0, 0, 0, 0, 0, 0] ∧ dtFixed.sym.length = 288 ∧
  (∀ r, r < 32 → dtFixed.sym[r]? = some (some r)) ∧ (∀ r, r < 256 → dtFixed.sym[32 + r]? = some none)

/-- R176: what DecodeSym returns is a used symbol of the tree's alphabet, after as many bits as its code length. -/
def Obligations.DecodedSymbolIsPlaced : Prop :=
  ∀ (lens : List Nat) (s t : State) (o : Option Nat), decodeSym (buildTree lens) s = .ok (o, t) →
    ∃ i l, o = some i ∧ lens[i]? = some l ∧ 1 ≤ l ∧ l ≤ 15 ∧ s.inf.bitpos + l ≤ 8 * s.inf.regionEnd ∧
      t = { s with inf := { s.inf with bitpos := s.inf.bitpos + l } }

/-- R177, R170, R79: on a length set that is not over-subscribed, the canonical codeword of a used symbol, most
significant bit first, decodes to that symbol and nothing more is consumed. -/
def Obligations.CanonicalCodewordDecodes : Prop :=
  ∀ (lens : List Nat) (i l : Nat) (s : State), (∀ x ∈ lens, x ≤ 15) → kraftSum lens ≤ 2 ^ 15 →
    lens[i]? = some l → l ≠ 0 → s.inf.bitpos + l ≤ 8 * s.inf.regionEnd →
    StreamHas s s.inf.bitpos (codeBits l (canonicalCode lens i)) →
    decodeSym (buildTree lens) s = .ok (some i, { s with inf := { s.inf with bitpos := s.inf.bitpos + l } })

/-- R173, R175, R151, R154: a complete tree decodes whatever follows; an empty tree raises INVALID_CODE 15 bits on. On
the tree of any length array, while the bits that follow begin with no codeword, DecodeSym goes on: 15 of them raise
INVALID_CODE 15 bits on, and where the region ends before, INPUT_OVERRUN is raised at its end. -/
def Obligations.CompleteAndEmptyTrees : Prop :=
  (∀ (lens : List Nat) (s : State), (∀ x ∈ lens, x ≤ 15) → kraftSum lens = 2 ^ 15 →
    s.inf.bitpos + 15 ≤ 8 * s.inf.regionEnd → ∃ i t, decodeSym (buildTree lens) s = .ok (some i, t)) ∧
  (∀ (n : Nat) (s : State), s.inf.bitpos + 15 ≤ 8 * s.inf.regionEnd →
    decodeSym (buildTree (List.replicate n 0)) s =
      .error (failInflate .invalidCode { s with inf := { s.inf with bitpos := s.inf.bitpos + 15 } })) ∧
  (∀ (lens : List Nat) (n : Nat) (s : State), (∀ x ∈ lens, x ≤ 15) →
    (∀ i l, lens[i]? = some l → l ≠ 0 → l ≤ n →
      ¬ StreamHas s s.inf.bitpos (codeBits l (canonicalCode lens i))) →
    (n = 15 → s.inf.bitpos + 15 ≤ 8 * s.inf.regionEnd → decodeSym (buildTree lens) s =
      .error (failInflate .invalidCode { s with inf := { s.inf with bitpos := s.inf.bitpos + 15 } })) ∧
    (n < 15 → s.inf.bitpos + n = 8 * s.inf.regionEnd → decodeSym (buildTree lens) s =
      .error (failInflate .inputOverrun { s with inf := { s.inf with bitpos := 8 * s.inf.regionEnd } }))) ∧
  (∀ (t : Tree) (s : State), 8 * s.inf.regionEnd < s.inf.bitpos →
    decodeSym t s = .error (failInflate .inputOverrun s))

/-- R109: the fixed codes, as the stream carries them, decode to their symbols. -/
def Obligations.FixedCodesDecode : Prop :=
  (∀ (sym : Nat) (s : State), sym < 288 →
    StreamHas s s.inf.bitpos (fixedLitLenCode sym) →
    s.inf.bitpos + (fixedLitLenCode sym).length ≤ 8 * s.inf.regionEnd →
    decodeSym ltFixed s = .ok (some sym,
      { s with inf := { s.inf with bitpos := s.inf.bitpos + (fixedLitLenCode sym).length } })) ∧
  (∀ (sym : Nat) (s : State), sym < 32 →
    StreamHas s s.inf.bitpos (fixedDistCode sym) → s.inf.bitpos + 5 ≤ 8 * s.inf.regionEnd →
    decodeSym dtFixed s = .ok (some sym, { s with inf := { s.inf with bitpos := s.inf.bitpos + 5 } }))

/-! ## Failure, acceptance, steps -/

/-- R346, R24, R341: what a raise writes, and that it writes nothing else. OUT's bytes are unspecified afterwards
(R347). That the model then lists no byte of OUT and starts a new epoch of draws, after every failed command, is the
model's choice: assumptions 3 (DESIGN CHOICE) and 9 (DEDUCED). -/
def Obligations.FailureCompletion : Prop :=
  (∀ (c : Cause) (pos bit : Nat) (s : State),
    ∃ w, fail c pos bit s = { s with
        run := .fail
        regs := { s.regs with err := w, errPos := BitVec.ofNat 32 pos, outLen := 0, irqPending := true }
        outMem := []
        outEpoch := s.outEpoch + 1 } ∧
      (bit < 8 → w.toNat = bit * 2 ^ 12 + c.classCode * 2 ^ 8 + c.code)) ∧
  (∀ (c : Cause) (s : State), failInflate c s =
    fail c (s.inf.bitpos / 8) (s.inf.bitpos % 8) { s with inf := { s.inf with phase := .failed } })

/-- R341, R340: the code and the class of every cause. -/
def Obligations.CauseTable : Prop :=
  [Cause.bufferTooShort, .eocdNotFound, .multiDisk, .entryCountMismatch, .eocdCommentOob, .cdhOob, .cdhBadSignature,
    .cdhFieldsOob, .lfhOob, .lfhBadSignature, .contentOob].map (fun c => (c.code, c.classCode)) =
    [(0x10, 1), (0x11, 1), (0x12, 1), (0x13, 1), (0x14, 1), (0x15, 1), (0x16, 1), (0x17, 1), (0x18, 1), (0x19, 1),
      (0x1A, 1)] ∧
  [Cause.versionTooHigh, .encrypted, .badMethod, .tooManyEntries, .outputTooLarge].map
    (fun c => (c.code, c.classCode)) = [(0x20, 2), (0x21, 2), (0x22, 2), (0x23, 2), (0x24, 2)] ∧
  [Cause.badBlockType, .storedLenMismatch, .invalidCode, .invalidLitlenSymbol, .invalidDistSymbol, .distTooFar,
    .repeatNoPrevious, .repeatOverflow, .inputOverrun, .outputOverrun, .outputShort, .storedSizeMismatch,
    .hlitRange].map (fun c => (c.code, c.classCode)) =
    [(0x30, 3), (0x31, 3), (0x32, 3), (0x33, 3), (0x34, 3), (0x35, 3), (0x36, 3), (0x37, 3), (0x38, 3), (0x39, 3),
      (0x3A, 3), (0x3B, 3), (0x3C, 3)] ∧
  [Cause.crcMismatch, .nameNotFound, .unknownOp, .notOpen, .argRange].map (fun c => (c.code, c.classCode)) =
    [(0x40, 4), (0x50, 5), (0x60, 6), (0x61, 6), (0x62, 6)]

/-- R300: a write to CMD while the core is not BUSY is accepted, IGNORED and IRQ_PENDING staying as they are, and the
core's next step runs the command's body; while BUSY it is dropped and sets IGNORED (R21). That the body starts in one
step of its own, after the acceptance, is the model's choice: assumption 12 (DEDUCED). -/
def Obligations.Acceptance : Prop :=
  ∀ (w : Word) (s : State),
    (busy s = false → w.extractLsb' 0 4 ≠ 1 → hostAccess (.writeReg 0x00 .w32 w) s = .next { s with
      run := .busy .command
      regs := { s.regs with cmdOp := w.extractLsb' 0 4, err := 0, errPos := 0, outLen := 0, resCrc := 0 }
      ent := { index := 0, method := 0, csize := 0, usize := 0, crc := 0, dosdt := 0, dataOff := 0
               commentOff := 0, commentLen := 0 } }) ∧
    (busy s = false → w.extractLsb' 0 4 = 1 → hostAccess (.writeReg 0x00 .w32 w) s = .next { s with
      run := .busy .command
      regs := { s.regs with
        cmdOp := 1, err := 0, errPos := 0, outLen := 0, resCrc := 0
        openValid := false, entryCount := 0, commentOff := 0, commentLen := 0 }
      ent := { index := 0, method := 0, csize := 0, usize := 0, crc := 0, dosdt := 0, dataOff := 0
               commentOff := 0, commentLen := 0 }
      ft := [] }) ∧
    (∀ (i : Instr) (t : State), busy s = false → decode .cmd w.toNat = .ok i →
      hostAccess (.writeReg 0x00 .w32 w) s = .next t → coreStep t = exec i t) ∧
    (busy s = true → hostAccess (.writeReg 0x00 .w32 w) s = .next { s with regs := { s.regs with ignored := true } })

/-- R300, R191, R175, R178, R262, R272, R275: where the core reads an instruction, the step is the meaning of the
instruction decoded there, in the state in which its bits have been consumed; where the bits end or form no codeword,
the step is the failure. -/
def Obligations.StepRunsDecodedInstruction : Prop :=
  ∀ s : State, s.hostOps = [] →
    (∀ i, s.run = .busy .command → decode .cmd s.regs.cmdOp.toNat = .ok i → step s = exec i s) ∧
    (∀ i, s.run = .busy .blockHeader → s.inf.bitpos + 3 ≤ 8 * s.inf.regionEnd →
      decode .blockHdr (bitField s s.inf.bitpos 3) = .ok i →
      step s = exec i { s with inf := { s.inf with
        bitpos := s.inf.bitpos + 3
        bfinal := decide (bitAt s s.inf.bitpos = 1)
        btype := BitVec.ofNat 2 (bitField s (s.inf.bitpos + 1) 2) } }) ∧
    (s.run = .busy .blockHeader → 8 * s.inf.regionEnd < s.inf.bitpos + 1 →
      step s = .next (failInflate .inputOverrun s)) ∧
    (s.run = .busy .blockHeader → s.inf.bitpos + 1 ≤ 8 * s.inf.regionEnd → 8 * s.inf.regionEnd < s.inf.bitpos + 3 →
      step s = .next (failInflate .inputOverrun { s with inf := { s.inf with
        bitpos := s.inf.bitpos + 1, bfinal := decide (bitAt s s.inf.bitpos = 1) } })) ∧
    (∀ a f tree, (a = .codeLength ∧ f = .codeLen ∧ tree = s.inf.clt) ∨
        (a = .litLen ∧ f = .litLen ∧ tree = if s.inf.phase = .fixed then ltFixed else s.inf.ltDyn) ∨
        (a = .distance ∧ f = .dist ∧ tree = if s.inf.phase = .fixed then dtFixed else s.inf.dtDyn) →
      s.run = .busy a →
      (∀ v i t, decodeSym tree s = .ok (some v, t) → decode f v = .ok i → step s = exec i t) ∧
      (∀ t, decodeSym tree s = .error t → step s = .next t)) ∧
    (s.run = .busy .scanEocd → le32 s s.zip.scanPos = 0x06054B50 → step s = exec .eocd s) ∧
    (s.run = .busy .walkCdh → s.zip.cdCursor + 46 ≤ inLen s → le32 s s.zip.cdCursor = 0x02014B50 →
      step s = exec .cdh s) ∧
    (s.run = .busy .checkLfh → s.zip.lfhPos + 30 ≤ inLen s → le32 s s.zip.lfhPos = 0x04034B50 →
      step s = exec .lfh s)

/-- R86, R358, R120: the host's accesses and the core's steps take turns in the order of the script; a core that is not
BUSY does nothing. The script is the model's own (assumption 4). -/
def Obligations.HostAndCoreTakeTurns : Prop :=
  ∀ s : State,
    (s.hostOps = [] → step s = coreStep s) ∧
    (∀ ops, s.hostOps = .pass :: ops → step s = coreStep { s with hostOps := ops }) ∧
    (∀ ops, s.hostOps = .wait :: ops →
      step s = if busy s = true then coreStep s else .next { s with hostOps := ops }) ∧
    (∀ op ops, s.hostOps = op :: ops → op ≠ .pass → op ≠ .wait →
      step s = hostAccess op { s with hostOps := ops }) ∧
    (busy s = false → coreStep s = .next s)

/-! ## The host's side -/

/-- R20-R29: what each register reads as while the core is not BUSY. -/
def Obligations.RegisterReads : Prop :=
  ∀ s : State, busy s = false →
    (∃ v : Word, hostAccess (.readReg 0x04 .w32) s = .next { s with hostData := v } ∧
      (v.extractLsb' 0 2).toNat = (match s.run with | .idle => 0 | .busy _ => 1 | .done => 2 | .fail => 3) ∧
      v.getLsbD 2 = s.regs.openValid ∧ v.getLsbD 3 = s.regs.ignored ∧ v.getLsbD 4 = s.regs.irqPending ∧
      ∀ k, 5 ≤ k → v.getLsbD k = false) ∧
    (∀ p ∈ ([(0x00, s.regs.cmdOp.setWidth 32), (0x08, if s.regs.ie then 1 else 0), (0x0C, s.regs.err),
        (0x10, s.regs.errPos), (0x14, s.regs.inLen), (0x18, s.regs.nameLen), (0x1C, s.regs.arg0),
        (0x20, s.regs.arg1), (0x24, s.regs.arg2), (0x28, s.regs.outLen), (0x2C, s.regs.resCrc),
        (0x30, s.regs.entryCount), (0x34, s.regs.commentOff), (0x38, s.regs.commentLen), (0x3C, s.ent.index),
        (0x40, s.ent.method), (0x44, s.ent.csize), (0x48, s.ent.usize), (0x4C, s.ent.crc), (0x50, s.ent.dosdt),
        (0x54, s.ent.dataOff), (0x58, s.ent.commentOff), (0x5C, s.ent.commentLen)] : List (BitVec 8 × Word)),
      hostAccess (.readReg p.1 .w32) s = .next { s with hostData := p.2 }) ∧
    (∀ off : BitVec 8, 0x60 ≤ off.toNat → off.toNat % 4 = 0 →
      hostAccess (.readReg off .w32) s = .next { s with hostData := 0 })

/-- R20, R22, R23, R25, R26, R390: STATUS and CTRL take their writes at any time; the others only while the core is not
BUSY; read-only and reserved registers take none. -/
def Obligations.RegisterWrites : Prop :=
  ∀ (v : Word) (s : State),
    hostAccess (.writeReg 0x04 .w32 v) s = .next { s with regs := { s.regs with
      ignored := s.regs.ignored && !v.getLsbD 3, irqPending := s.regs.irqPending && !v.getLsbD 4 } } ∧
    hostAccess (.writeReg 0x08 .w32 v) s = .next { s with regs := { s.regs with ie := v.getLsbD 0 } } ∧
    (busy s = false →
      hostAccess (.writeReg 0x18 .w32 v) s = .next { s with regs := { s.regs with nameLen := v } } ∧
      hostAccess (.writeReg 0x1C .w32 v) s = .next { s with regs := { s.regs with arg0 := v } } ∧
      hostAccess (.writeReg 0x20 .w32 v) s = .next { s with regs := { s.regs with arg1 := v } } ∧
      hostAccess (.writeReg 0x24 .w32 v) s = .next { s with regs := { s.regs with arg2 := v } } ∧
      ∀ off : BitVec 8, off.toNat % 4 = 0 → off = 0x0C ∨ off = 0x10 ∨ 0x28 ≤ off.toNat →
        hostAccess (.writeReg off .w32 v) s = .next s)

/-- R73, R351: an access of another width or alignment is not performed, and sets no flag. -/
def Obligations.MisalignedAccess : Prop :=
  ∀ (off : BitVec 8) (width : Width) (v : Word) (s : State), width ≠ .w32 ∨ off.toNat % 4 ≠ 0 →
    hostAccess (.writeReg off width v) s = .next s ∧
    hostAccess (.readReg off width) s = .next { s with hostData := 0 }

/-- R390, R20, R21, R351, R70, R71: while BUSY a write to CMD, IN_LEN, NAME_LEN, ARG0-ARG2, IN or NAME is dropped and
sets IGNORED, and does nothing else. A write to a read-only register or to a reserved offset has no effect at all: that
U9, U12 and the vector C-RO (start "any") hold while BUSY too, against the widest reading of R20's "any other
register", is the model's reading: assumption 10 (DEDUCED). -/
def Obligations.BusyWritesDropped : Prop :=
  ∀ (op : HostOp) (s : State), busy s = true →
    ((∃ off v, op = .writeReg off .w32 v ∧
        off ∈ ([0x00, 0x14, 0x18, 0x1C, 0x20, 0x24] : List (BitVec 8))) ∨
        (∃ a v, op = .writeIn a v ∧ a < s.params.inCap) ∨ (∃ a v, op = .writeName a v ∧ a < s.params.nameCap) →
      hostAccess op s = .next { s with regs := { s.regs with ignored := true } }) ∧
    (∀ (off : BitVec 8) (v : Word), op = .writeReg off .w32 v → off.toNat % 4 = 0 →
      off = 0x0C ∨ off = 0x10 ∨ 0x28 ≤ off.toNat → hostAccess op s = .next s)

/-- R72: a write to a byte of IN or to IN_LEN that is not dropped clears OPEN_VALID, even when it changes nothing; one
that is dropped, the core being BUSY, changes IGNORED only. -/
def Obligations.HandleInvalidation : Prop :=
  ∀ (s : State) (a : Nat) (b : Byte) (v : Word), a < s.params.inCap →
    (busy s = false →
      hostAccess (.writeReg 0x14 .w32 v) s =
        .next { s with regs := { s.regs with inLen := v, openValid := false } } ∧
      ∃ t, hostAccess (.writeIn a b) s = .next t ∧
        t = { s with inMem := t.inMem, regs := { s.regs with openValid := false } } ∧ inByte t a = b ∧
        ∀ x, x ≠ a → inByte t x = inByte s x) ∧
    (busy s = true →
      hostAccess (.writeReg 0x14 .w32 v) s = .next { s with regs := { s.regs with ignored := true } } ∧
      hostAccess (.writeIn a b) s = .next { s with regs := { s.regs with ignored := true } })

/-- R70, R71, R74: the port memories, one byte at a time. A byte at or beyond the capacity does not exist: the access
stops the model (assumption 11). -/
def Obligations.PortAccesses : Prop :=
  ∀ (a : Nat) (v : Byte) (s : State),
    (busy s = false → a < s.params.nameCap → ∃ t, hostAccess (.writeName a v) s = .next t ∧
      t = { s with nameMem := t.nameMem } ∧ nameByte t a = v ∧ ∀ b, b ≠ a → nameByte t b = nameByte s b) ∧
    (a < s.params.outCap → hostAccess (.writeOut a v) s = .next s) ∧
    (a < s.params.inCap → hostAccess (.readIn a) s = .next { s with hostData := (inByte s a).setWidth 32 }) ∧
    (a < s.params.nameCap → hostAccess (.readName a) s = .next { s with hostData := (nameByte s a).setWidth 32 }) ∧
    (busy s = false → a < s.params.outCap →
      hostAccess (.readOut a) s = .next { s with hostData := (outByte s a).setWidth 32 }) ∧
    (s.params.inCap ≤ a → hostAccess (.writeIn a v) s = .fault (.noSuchByte .inPort a) ∧
      hostAccess (.readIn a) s = .fault (.noSuchByte .inPort a)) ∧
    (s.params.nameCap ≤ a → hostAccess (.writeName a v) s = .fault (.noSuchByte .namePort a) ∧
      hostAccess (.readName a) s = .fault (.noSuchByte .namePort a)) ∧
    (s.params.outCap ≤ a → hostAccess (.writeOut a v) s = .fault (.noSuchByte .outPort a) ∧
      hostAccess (.readOut a) s = .fault (.noSuchByte .outPort a))

/-- R86, R391, U2: while BUSY a read of a result register or of OUT returns a fresh draw, OUT its low byte; STATE,
IGNORED and IRQ_PENDING and the host's own registers read correctly, and reserved offsets read 0 (R20). The draws are the free values `Config.freeRead`,
numbered by the count of draws. That the OPEN_VALID bit of STATUS is a draw is the model's choice between R86 and R391:
assumption 8 (DESIGN CHOICE). -/
def Obligations.BusyReads : Prop :=
  ∀ s : State, busy s = true →
    (∀ off : BitVec 8, off.toNat % 4 = 0 → off = 0x0C ∨ off = 0x10 ∨ (0x28 ≤ off.toNat ∧ off.toNat ≤ 0x5C) →
      hostAccess (.readReg off .w32) s =
        .next { s with hostData := Config.freeRead s.readDraws, readDraws := s.readDraws + 1 }) ∧
    (∃ v : Word, hostAccess (.readReg 0x04 .w32) s =
        .next { s with hostData := v, readDraws := s.readDraws + 1 } ∧ (v.extractLsb' 0 2).toNat = 1 ∧
      v.getLsbD 2 = (Config.freeRead s.readDraws).getLsbD 0 ∧
      v.getLsbD 3 = s.regs.ignored ∧ v.getLsbD 4 = s.regs.irqPending ∧ ∀ k, 5 ≤ k → v.getLsbD k = false) ∧
    (∀ p ∈ ([(0x00, s.regs.cmdOp.setWidth 32), (0x08, if s.regs.ie then 1 else 0), (0x14, s.regs.inLen),
        (0x18, s.regs.nameLen), (0x1C, s.regs.arg0), (0x20, s.regs.arg1), (0x24, s.regs.arg2)]
        : List (BitVec 8 × Word)),
      hostAccess (.readReg p.1 .w32) s = .next { s with hostData := p.2 }) ∧
    (∀ off : BitVec 8, 0x60 ≤ off.toNat → off.toNat % 4 = 0 →
      hostAccess (.readReg off .w32) s = .next { s with hostData := 0 }) ∧
    (∀ a, a < s.params.outCap → hostAccess (.readOut a) s = .next { s with
      hostData := ((Config.freeRead s.readDraws).setWidth 8).setWidth 32, readDraws := s.readDraws + 1 })

/-- R350, R22, R23: irq is IRQ_PENDING and IE; every completion sets IRQ_PENDING and nothing else does; only a write of
1 to STATUS bit 4, or reset, clears it; only a write to CTRL, or reset, changes IE. -/
def Obligations.InterruptIsSticky : Prop :=
  ∀ s t : State, step s = .next t →
    irq s = (s.regs.irqPending && s.regs.ie) ∧
    (busy s = true → busy t = false → t.regs.irqPending = true ∨ ∃ ops, s.hostOps = .reset :: ops) ∧
    (s.regs.irqPending = false → t.regs.irqPending = true → busy s = true ∧ (t.run = .done ∨ t.run = .fail)) ∧
    (s.regs.irqPending = true → t.regs.irqPending = false →
      ∃ ops, s.hostOps = .reset :: ops ∨ ∃ v : Word, s.hostOps = .writeReg 0x04 .w32 v :: ops ∧
        v.getLsbD 4 = true) ∧
    (t.regs.ie ≠ s.regs.ie → ∃ ops, s.hostOps = .reset :: ops ∨ ∃ v : Word, s.hostOps = .writeReg 0x08 .w32 v :: ops)

/-- R22, R300, R301, R346, R382: how STATE moves. -/
def Obligations.StateMoves : Prop :=
  ∀ s t : State, step s = .next t →
    (busy s = false → busy t = true →
      ∃ w ops, s.hostOps = .writeReg 0x00 .w32 w :: ops ∧ t = acceptCommand w { s with hostOps := ops }) ∧
    (busy s = false → busy t = false → t.run = s.run ∨ ∃ ops, s.hostOps = .reset :: ops) ∧
    (busy s = true → busy t = false → t.run = .done ∨ t.run = .fail ∨ ∃ ops, s.hostOps = .reset :: ops) ∧
    (t.run = .idle → s.run = .idle ∨ ∃ ops, s.hostOps = .reset :: ops)

/-- R380, R382: what reset leaves, from any state, BUSY or not: every register 0, IDLE, no handle, no file table, and
every byte of the port memories a draw. -/
def Obligations.ResetState : Prop :=
  (∀ s : State, ∃ t, hostAccess .reset s = .next t ∧ t.run = .idle ∧
    t.regs = { cmdOp := 0, openValid := false, ignored := false, irqPending := false, ie := false, err := 0, errPos := 0
               inLen := 0, nameLen := 0, arg0 := 0, arg1 := 0, arg2 := 0, outLen := 0, resCrc := 0
               entryCount := 0, commentOff := 0, commentLen := 0 } ∧
    t.ent = { index := 0, method := 0, csize := 0, usize := 0, crc := 0, dosdt := 0, dataOff := 0
              commentOff := 0, commentLen := 0 } ∧
    t.ft = [] ∧ irq t = false ∧ t.params = s.params ∧
    ∀ a, inByte t a = Config.freeIn (s.memEpoch + 1) a ∧ nameByte t a = Config.freeName (s.memEpoch + 1) a ∧
      outByte t a = Config.freeOut (s.outEpoch + 1) a) ∧
  State.reset.run = .idle ∧ State.reset.regs = Regs.initial ∧ State.reset.ent = EntRegs.zero ∧ State.reset.ft = [] ∧
  irq State.reset = false ∧ State.reset.params.ok = true

/-- R70, R71, R85, R88, R390: a step of the core writes neither IN nor NAME nor a register that the host writes. -/
def Obligations.CoreKeepsInputs : Prop :=
  ∀ s t : State, coreStep s = .next t →
    t.params = s.params ∧ t.inMem = s.inMem ∧ t.nameMem = s.nameMem ∧ t.memEpoch = s.memEpoch ∧
    t.regs.inLen = s.regs.inLen ∧ t.regs.nameLen = s.regs.nameLen ∧ t.regs.arg0 = s.regs.arg0 ∧
    t.regs.arg1 = s.regs.arg1 ∧ t.regs.arg2 = s.regs.arg2 ∧ t.regs.ie = s.regs.ie ∧
    t.regs.ignored = s.regs.ignored ∧ t.regs.cmdOp = s.regs.cmdOp ∧ t.hostOps = s.hostOps ∧
    t.hostData = s.hostData ∧ t.readDraws = s.readDraws

/-- R31, R32, R33, R74, R212: at every element of a stream the bit position moves forward, the region and the capacity
stay, the destination only grows, and OUT changes only between the old end and the new one; or the inflate fails. -/
def Obligations.StreamMovesForward : Prop :=
  ∀ (s t : State) (a : Activity), a = .blockHeader ∨ a = .codeLength ∨ a = .litLen ∨ a = .distance →
    s.run = .busy a → coreStep s = .next t →
    s.inf.bitpos ≤ t.inf.bitpos ∧
    (t.run = .fail ∨
      (s.inf.bitpos < t.inf.bitpos ∧ t.inf.regionStart = s.inf.regionStart ∧ t.inf.regionEnd = s.inf.regionEnd ∧
        t.inf.destCap = s.inf.destCap ∧ s.inf.destLen ≤ t.inf.destLen ∧
        ∀ x, x < s.inf.destLen ∨ t.inf.destLen ≤ x → outByte t x = outByte s x))

/-! ## Commands -/

/-- R314, R101: a reserved command fails with UNKNOWN_OP and ERR_POS 0, whatever the state; seen from the write to CMD,
every result register is 0, ERR is 0x0660 and the handle is as before. -/
def Obligations.ReservedCommandsFail : Prop :=
  (∀ i ∈ [Instr.reservedOp0, .reservedOp5, .reservedOp6, .reservedOp7, .reservedOp8, .reservedOp9, .reservedOpA,
      .reservedOpB, .reservedOpC, .reservedOpD, .reservedOpE, .reservedOpF],
    ∀ s : State, exec i s = .next (fail .unknownOp 0 0 s)) ∧
  (∀ (w : Word) (s : State), busy s = false →
    (w.extractLsb' 0 4).toNat ∈ [0, 5, 6, 7, 8, 9, 10, 11, 12, 13, 14, 15] →
    ∃ u t, hostAccess (.writeReg 0x00 .w32 w) s = .next u ∧ coreStep u = .next t ∧ t.run = .fail ∧
      t.regs = { s.regs with
        cmdOp := w.extractLsb' 0 4, err := 0x0660, errPos := 0, outLen := 0, resCrc := 0, irqPending := true } ∧
      t.ent = EntRegs.zero ∧ t.ft = s.ft)

/-- R310, R260, R261: OPEN starts the backward scan at IN_LEN - 22, unless IN_LEN is out of range. -/
def Obligations.OpenStarts : Prop :=
  ∀ s : State,
    (s.regs.inLen.toNat ≤ s.params.inCap → 22 ≤ s.regs.inLen.toNat →
      exec .cmdOpen s = .next { s with
        run := .busy .scanEocd, zip := { s.zip with scanPos := s.regs.inLen.toNat - 22 } }) ∧
    (s.params.inCap < s.regs.inLen.toNat → exec .cmdOpen s = .next (fail .argRange 0 0 s)) ∧
    (s.regs.inLen.toNat ≤ s.params.inCap → s.regs.inLen.toNat < 22 →
      exec .cmdOpen s = .next (fail .bufferTooShort 0 0 s))

/-- R302, R303, R344: READ's checks before the lookup succeeds, in their order. -/
def Obligations.ReadChecks : Prop :=
  ∀ s : State,
    (s.regs.openValid = false → exec .cmdRead s = .next (fail .notOpen 0 0 s)) ∧
    (s.regs.openValid = true → s.params.nameCap < s.regs.nameLen.toNat →
      exec .cmdRead s = .next (fail .argRange 0 0 s)) ∧
    (s.regs.openValid = true → s.regs.nameLen.toNat ≤ s.params.nameCap → (∀ e ∈ s.ft, ¬ HasName s e) →
      exec .cmdRead s = .next (fail .nameNotFound 0 0 s))

/-- R279: the lookup finds the last record with the name, or none when no record has it. -/
def Obligations.LookupFindsTheLast : Prop :=
  ∀ s : State,
    (∀ k e, lookup s = some (k, e) ↔
      s.ft[k]? = some e ∧ HasName s e ∧ ∀ j e', k < j → s.ft[j]? = some e' → ¬ HasName s e') ∧
    (lookup s = none ↔ ∀ e ∈ s.ft, ¬ HasName s e)

/-- R303, R304: a READ whose lookup finds record `k` copies it to the ENT registers, and starts the inflate of a
deflated entry or copies the whole of a stored one; or it fails, and the ENT registers keep the record. -/
def Obligations.ReadProduces : Prop :=
  ∀ (s u : State) (k : Nat) (e : Entry), s.regs.openValid = true → s.regs.nameLen.toNat ≤ s.params.nameCap →
    lookup s = some (k, e) →
    u = { s with ent := {
      index := BitVec.ofNat 32 k, method := BitVec.ofNat 32 e.method, csize := BitVec.ofNat 32 e.csize
      usize := BitVec.ofNat 32 e.usize, crc := BitVec.ofNat 32 e.crc
      dosdt := BitVec.ofNat 32 e.dosTime ||| (BitVec.ofNat 32 e.dosDate <<< 16)
      dataOff := BitVec.ofNat 32 e.dataOff, commentOff := BitVec.ofNat 32 e.commentOff
      commentLen := BitVec.ofNat 32 e.commentLen } } →
    (s.params.outCap < e.usize → exec .cmdRead s = .next (fail .outputTooLarge 0 0 u)) ∧
    (e.usize ≤ s.params.outCap → e.method = 8 → exec .cmdRead s = .next { u with
      run := .busy .blockHeader
      inf := { s.inf with
        regionStart := e.dataOff, regionEnd := e.dataOff + e.csize, bitpos := 8 * e.dataOff
        destLen := 0, destCap := e.usize, phase := .awaitBlockHeader } }) ∧
    (e.usize ≤ s.params.outCap → e.method ≠ 8 → e.csize ≠ e.usize →
      exec .cmdRead s = .next (fail .storedSizeMismatch e.dataOff 0 u)) ∧
    (e.usize ≤ s.params.outCap → e.method ≠ 8 → e.csize = e.usize →
      ∃ t, exec .cmdRead s = .next t ∧
        t = { u with
          run := .busy .finish, outMem := t.outMem, inf := { s.inf with destLen := e.usize, destCap := e.usize } } ∧
        (∀ j, j < e.usize → outByte t j = inByte s (e.dataOff + j)) ∧
        ∀ a, e.usize ≤ a → outByte t a = outByte s a)

/-- R304, R306, R245, R301: the end of READ, of a deflated entry (method 8) and of a stored one. That phase stays as it
is at OUTPUT_SHORT and CRC_MISMATCH, the inflate having ended, is the model's choice: assumption 14 (DEDUCED). -/
def Obligations.ReadFinishes : Prop :=
  ∀ (s u : State) (c : Word), s.hostOps = [] → s.run = .busy .finish → s.regs.cmdOp = 2 →
    c = crc32 (outByte s) 0 s.inf.destLen →
    u = { s with crc := crcAcc (outByte s) 0 s.inf.destLen, regs := { s.regs with resCrc := c } } →
    (s.ent.method = 8 → s.inf.destLen ≠ s.ent.usize.toNat →
      step s = .next (fail .outputShort (s.inf.bitpos / 8) (s.inf.bitpos % 8) s)) ∧
    (s.ent.method ≠ 8 ∨ s.inf.destLen = s.ent.usize.toNat → c ≠ s.ent.crc →
      step s = .next (fail .crcMismatch 0 0 u)) ∧
    (s.ent.method ≠ 8 ∨ s.inf.destLen = s.ent.usize.toNat → c = s.ent.crc →
      step s = .next { u with
        run := .done
        regs := { u.regs with outLen := BitVec.ofNat 32 s.inf.destLen, irqPending := true } })

/-- R312, R190, R155, R301: INFLATE starts an inflate of its region, or fails with ARG_RANGE; when the stream has
ended, RES_CRC and OUT_LEN are those of the bytes produced. -/
def Obligations.InflateCommand : Prop :=
  (∀ s : State, s.regs.inLen.toNat ≤ s.params.inCap → s.regs.arg0.toNat + s.regs.arg1.toNat ≤ s.regs.inLen.toNat →
    s.regs.arg2.toNat ≤ s.params.outCap →
    exec .cmdInflate s = .next { s with
      run := .busy .blockHeader
      inf := { s.inf with
        regionStart := s.regs.arg0.toNat, regionEnd := s.regs.arg0.toNat + s.regs.arg1.toNat
        bitpos := 8 * s.regs.arg0.toNat, destLen := 0, destCap := s.regs.arg2.toNat, phase := .awaitBlockHeader } }) ∧
  (∀ s : State, s.params.inCap < s.regs.inLen.toNat ∨
      s.regs.inLen.toNat < s.regs.arg0.toNat + s.regs.arg1.toNat ∨ s.params.outCap < s.regs.arg2.toNat →
    exec .cmdInflate s = .next (fail .argRange 0 0 s)) ∧
  (∀ s : State, s.hostOps = [] → s.run = .busy .finish → s.regs.cmdOp = 3 →
    step s = .next { s with
      run := .done
      crc := crcAcc (outByte s) 0 s.inf.destLen
      regs := { s.regs with
        resCrc := crc32 (outByte s) 0 s.inf.destLen
        outLen := BitVec.ofNat 32 s.inf.destLen
        irqPending := true } })

/-- R313, R301: CRC32 checksums its range of IN and completes, or fails with ARG_RANGE. -/
def Obligations.Crc32Command : Prop :=
  ∀ s : State,
    (s.regs.inLen.toNat ≤ s.params.inCap → s.regs.arg0.toNat + s.regs.arg1.toNat ≤ s.regs.inLen.toNat →
      exec .cmdCrc32 s = .next { s with
        run := .done
        crc := crcAcc (inByte s) s.regs.arg0.toNat s.regs.arg1.toNat
        regs := { s.regs with
          resCrc := crc32 (inByte s) s.regs.arg0.toNat s.regs.arg1.toNat, irqPending := true } }) ∧
    (s.params.inCap < s.regs.inLen.toNat ∨ s.regs.inLen.toNat < s.regs.arg0.toNat + s.regs.arg1.toNat →
      exec .cmdCrc32 s = .next (fail .argRange 0 0 s))

/-- R242, R243: the spot values of the table and check values of the checksum. -/
def Obligations.CrcValues : Prop :=
  crcTable 0 = 0x00000000 ∧ crcTable 1 = 0x77073096 ∧ crcTable 2 = 0xEE0E612C ∧ crcTable 3 = 0x990951BA ∧
  crcTable 113 = 0x270241AA ∧ crcTable 128 = 0xEDB88320 ∧ crcTable 151 = 0x6E6B06E7 ∧ crcTable 255 = 0x2D02EF8D ∧
  crc32 (fun _ => 0x00) 0 0 = 0x00000000 ∧ crc32 (fun _ => 0x00) 0 1 = 0xD202EF8D ∧
  crc32 (fun _ => 0xFF) 0 1 = 0xFF000000 ∧
  crc32 (fun a => ([0x68, 0x69] : List Byte).getD a 0) 0 2 = 0xD8932AAC ∧
  crc32 (fun _ => 0x41) 0 4 = 0x9B0D08F1 ∧
  crc32 (fun a => ([0x31, 0x32, 0x33, 0x34, 0x35, 0x36, 0x37, 0x38, 0x39] : List Byte).getD a 0) 0 9 = 0xCBF43926

/-- R244, R241: the checksum depends only on the bytes, and can be computed piece by piece. -/
def Obligations.CrcConcatenation : Prop :=
  (∀ (read : Nat → Byte) (a m n : Nat),
    crc32 read a (m + n) = ~~~ crcRun read (a + m) n (crcRun read a m 0xFFFFFFFF)) ∧
  (∀ (read read' : Nat → Byte) (a a' n : Nat), (∀ k, k < n → read (a + k) = read' (a' + k)) →
    crc32 read a n = crc32 read' a' n) ∧
  (∀ (read : Nat → Byte) (a : Nat), crc32 read a 0 = 0)

/-- R244: a change of a single bit of the input changes the checksum. -/
def Obligations.CrcDetectsOneBit : Prop :=
  ∀ (read read' : Nat → Byte) (a n k b : Nat), k < n → b < 8 →
    read' (a + k) = read (a + k) ^^^ (1#8 <<< b) → (∀ j, j < n → j ≠ k → read' (a + j) = read (a + j)) →
    crc32 read a n ≠ crc32 read' a n

/-! ## Stream elements -/

/-- R195, R104, R80, R193: a stored block. After the alignment come LEN and NLEN, little-endian, and LEN bytes, which
are appended to OUT; each data byte is read before room for it is looked for. -/
def Obligations.StoredBlock : Prop :=
  ∀ (final : Bool) (s : State) (q len room avail : Nat),
    q = (s.inf.bitpos + 7) / 8 → len = le16 s q → s.inf.destLen ≤ s.inf.destCap →
    room = s.inf.destCap - s.inf.destLen → avail = s.inf.regionEnd - (q + 4) →
    (q + 4 ≤ s.inf.regionEnd → len + le16 s (q + 2) = 65535 → len ≤ avail → len ≤ room →
      ∃ t, exec (.storedBlock final) s = .next t ∧
        t = { s with
          run := .busy (if final then .finish else .blockHeader)
          outMem := t.outMem
          inf := { s.inf with
            bfinal := final, btype := 0, phase := if final then .done else .awaitBlockHeader
            bitpos := 8 * (q + 4 + len), destLen := s.inf.destLen + len } } ∧
        (∀ k, k < len → outByte t (s.inf.destLen + k) = inByte s (q + 4 + k)) ∧
        ∀ a, a < s.inf.destLen ∨ s.inf.destLen + len ≤ a → outByte t a = outByte s a) ∧
    (s.inf.regionEnd < q + 4 → ∀ p : Nat, p = (if s.inf.regionEnd < q + 2 then q else q + 2) →
      ∃ t, exec (.storedBlock final) s = .next t ∧
        t = { fail .inputOverrun p 0 s with inf := t.inf } ∧ t.inf.phase = .failed ∧ t.inf.bitpos = 8 * p) ∧
    (q + 4 ≤ s.inf.regionEnd → len + le16 s (q + 2) ≠ 65535 →
      exec (.storedBlock final) s = .next (failInflate .storedLenMismatch { s with inf := { s.inf with
        bfinal := final, btype := 0, phase := .stored, bitpos := 8 * (q + 4) } })) ∧
    (q + 4 ≤ s.inf.regionEnd → len + le16 s (q + 2) = 65535 → avail < len → avail ≤ room →
      ∃ t, exec (.storedBlock final) s = .next t ∧ t = { fail .inputOverrun s.inf.regionEnd 0 s with inf := t.inf } ∧
        t.inf.phase = .failed ∧ t.inf.bitpos = 8 * s.inf.regionEnd) ∧
    (q + 4 ≤ s.inf.regionEnd → len + le16 s (q + 2) = 65535 → room < len → room < avail →
      ∃ t, exec (.storedBlock final) s = .next t ∧
        t = { fail .outputOverrun (q + 4 + room + 1) 0 s with inf := t.inf } ∧
        t.inf.phase = .failed ∧ t.inf.bitpos = 8 * (q + 4 + room + 1))

/-- R196, R194, R192: a fixed block goes on with its symbols; BTYPE 3 fails. -/
def Obligations.FixedAndReservedBlocks : Prop :=
  ∀ (final : Bool) (s : State),
    exec (.fixedBlock final) s = .next { s with
      run := .busy .litLen, inf := { s.inf with bfinal := final, btype := 1, phase := .fixed } } ∧
    exec (.reservedBlock final) s = .next (failInflate .badBlockType { s with inf := { s.inf with
      bfinal := final, btype := 3 } })

/-- R197, R200, R201, R110, R111: a dynamic block reads its counts and its code-length code lengths, builds CLT and goes
on with the code-length sequence. A field that the region cuts off fails where it starts (R152, R341): the 5 bits of
HLIT, the 5 of HDIST, the 4 of HCLEN or, HLIT being accepted, the 3 of a code length. -/
def Obligations.DynamicBlock : Prop :=
  ∀ (final : Bool) (s : State) (b hlit hdist hclen : Nat), b = s.inf.bitpos →
    hlit = bitField s b 5 + 257 → hdist = bitField s (b + 5) 5 + 1 → hclen = bitField s (b + 10) 4 + 4 →
    (b + 14 + 3 * hclen ≤ 8 * s.inf.regionEnd → hlit ≤ 286 ∨ s.params.acceptHlitOver286 = true →
      ∃ cl : List Nat, cl.length = 19 ∧
        (∀ k sym, [16, 17, 18, 0, 8, 7, 9, 6, 10, 5, 11, 4, 12, 3, 13, 2, 14, 1, 15][k]? = some sym →
          cl[sym]? = some (if k < hclen then bitField s (b + 14 + 3 * k) 3 else 0)) ∧
        exec (.dynamicBlock final) s = .next { s with
          run := .busy .codeLength
          inf := { s.inf with
            bfinal := final, btype := 2, phase := .dynamic, bitpos := b + 14 + 3 * hclen
            hlit := hlit, hdist := hdist, hclen := hclen, cl := cl, clt := buildTree cl, lengths := [] } }) ∧
    (b + 14 ≤ 8 * s.inf.regionEnd → 286 < hlit → s.params.acceptHlitOver286 = false →
      exec (.dynamicBlock final) s = .next (failInflate .hlitRange { s with inf := { s.inf with
        bfinal := final, btype := 2, phase := .dynamic, bitpos := b + 14
        hlit := hlit, hdist := hdist, hclen := hclen } })) ∧
    (∀ p : Nat,
      (8 * s.inf.regionEnd < b + 5 ∧ p = b) ∨
        (b + 5 ≤ 8 * s.inf.regionEnd ∧ 8 * s.inf.regionEnd < b + 10 ∧ p = b + 5) ∨
        (b + 10 ≤ 8 * s.inf.regionEnd ∧ 8 * s.inf.regionEnd < b + 14 ∧ p = b + 10) ∨
        (∃ k, k < hclen ∧ p = b + 14 + 3 * k ∧ p ≤ 8 * s.inf.regionEnd ∧ 8 * s.inf.regionEnd < p + 3 ∧
          (hlit ≤ 286 ∨ s.params.acceptHlitOver286 = true)) →
      ∃ t, exec (.dynamicBlock final) s = .next t ∧
        t = { fail .inputOverrun (p / 8) (p % 8) s with inf := t.inf } ∧ t.inf.phase = .failed ∧ t.inf.bitpos = p)

/-- R198, R193, R199, R210: LIT appends its byte, or fails when the destination is full; EOB ends the block, and the
stream when the block is final. -/
def Obligations.LiteralAndEndOfBlock : Prop :=
  (∀ (byte : Nat) (s : State), byte < 256 → s.inf.destLen ≠ s.inf.destCap →
    ∃ t, exec (.lit byte) s = .next t ∧
      t = { s with
        run := .busy .litLen, outMem := t.outMem, inf := { s.inf with destLen := s.inf.destLen + 1 } } ∧
      outByte t s.inf.destLen = BitVec.ofNat 8 byte ∧ ∀ a, a ≠ s.inf.destLen → outByte t a = outByte s a) ∧
  (∀ (byte : Nat) (s : State), byte < 256 → s.inf.destLen = s.inf.destCap →
    exec (.lit byte) s = .next (failInflate .outputOverrun s)) ∧
  (∀ s : State, s.inf.bfinal = false → exec .eob s = .next { s with
    run := .busy .blockHeader, inf := { s.inf with phase := .awaitBlockHeader } }) ∧
  (∀ s : State, s.inf.bfinal = true → exec .eob s = .next { s with
    run := .busy .finish, inf := { s.inf with phase := .done } })

/-- R207, R107: the length symbols 257..285: each row is the instruction, its symbol, its number of extra bits and its
base. The length is the base plus the extra-bit field, and a distance symbol follows. -/
def Obligations.LengthSymbols : Prop :=
  ∀ row ∈ [(Instr.len257, 257, 0, 3), (.len258, 258, 0, 4), (.len259, 259, 0, 5), (.len260, 260, 0, 6),
      (.len261, 261, 0, 7), (.len262, 262, 0, 8), (.len263, 263, 0, 9), (.len264, 264, 0, 10), (.len265, 265, 1, 11),
      (.len266, 266, 1, 13), (.len267, 267, 1, 15), (.len268, 268, 1, 17), (.len269, 269, 2, 19),
      (.len270, 270, 2, 23), (.len271, 271, 2, 27), (.len272, 272, 2, 31), (.len273, 273, 3, 35),
      (.len274, 274, 3, 43), (.len275, 275, 3, 51), (.len276, 276, 3, 59), (.len277, 277, 4, 67),
      (.len278, 278, 4, 83), (.len279, 279, 4, 99), (.len280, 280, 4, 115), (.len281, 281, 5, 131),
      (.len282, 282, 5, 163), (.len283, 283, 5, 195), (.len284, 284, 5, 227), (.len285, 285, 0, 258)],
    decode .litLen row.2.1 = .ok row.1 ∧ ∀ s : State,
      (row.2.2.1 = 0 ∨ s.inf.bitpos + row.2.2.1 ≤ 8 * s.inf.regionEnd → exec row.1 s = .next { s with
        run := .busy .distance
        inf := { s.inf with
          bitpos := s.inf.bitpos + row.2.2.1, matchLen := row.2.2.2 + bitField s s.inf.bitpos row.2.2.1 } }) ∧
      (row.2.2.1 ≠ 0 → 8 * s.inf.regionEnd < s.inf.bitpos + row.2.2.1 →
        exec row.1 s = .next (failInflate .inputOverrun s))

/-- R207, R208, R108, R88: the distance symbols 0..29: each row is the instruction, its symbol, its number of extra
bits and its base. The match is copied byte by byte from `dist` bytes back, each byte seeing the ones written before
it; a distance beyond the bytes produced, a full destination and a truncated field fail. -/
def Obligations.DistanceSymbols : Prop :=
  ∀ row ∈ [(Instr.dist0, 0, 0, 1), (.dist1, 1, 0, 2), (.dist2, 2, 0, 3), (.dist3, 3, 0, 4), (.dist4, 4, 1, 5),
      (.dist5, 5, 1, 7), (.dist6, 6, 2, 9), (.dist7, 7, 2, 13), (.dist8, 8, 3, 17), (.dist9, 9, 3, 25),
      (.dist10, 10, 4, 33), (.dist11, 11, 4, 49), (.dist12, 12, 5, 65), (.dist13, 13, 5, 97), (.dist14, 14, 6, 129),
      (.dist15, 15, 6, 193), (.dist16, 16, 7, 257), (.dist17, 17, 7, 385), (.dist18, 18, 8, 513),
      (.dist19, 19, 8, 769), (.dist20, 20, 9, 1025), (.dist21, 21, 9, 1537), (.dist22, 22, 10, 2049),
      (.dist23, 23, 10, 3073), (.dist24, 24, 11, 4097), (.dist25, 25, 11, 6145), (.dist26, 26, 12, 8193),
      (.dist27, 27, 12, 12289), (.dist28, 28, 13, 16385), (.dist29, 29, 13, 24577)],
    decode .dist row.2.1 = .ok row.1 ∧ ∀ (s : State) (dist p : Nat),
      dist = row.2.2.2 + bitField s s.inf.bitpos row.2.2.1 → p = s.inf.bitpos + row.2.2.1 →
      (row.2.2.1 ≠ 0 → 8 * s.inf.regionEnd < p → exec row.1 s = .next (failInflate .inputOverrun s)) ∧
      (row.2.2.1 = 0 ∨ p ≤ 8 * s.inf.regionEnd →
        (s.inf.destLen < dist →
          exec row.1 s = .next (failInflate .distTooFar { s with inf := { s.inf with bitpos := p } })) ∧
        (dist ≤ s.inf.destLen → s.inf.destLen + s.inf.matchLen ≤ s.inf.destCap →
          ∃ t, exec row.1 s = .next t ∧
            t = { s with
              run := .busy .litLen, outMem := t.outMem
              inf := { s.inf with bitpos := p, destLen := s.inf.destLen + s.inf.matchLen } } ∧
            (∀ k, k < s.inf.matchLen → outByte t (s.inf.destLen + k) = outByte t (s.inf.destLen + k - dist)) ∧
            ∀ a, a < s.inf.destLen ∨ s.inf.destLen + s.inf.matchLen ≤ a → outByte t a = outByte s a) ∧
        (dist ≤ s.inf.destLen → s.inf.destLen ≤ s.inf.destCap → s.inf.destCap < s.inf.destLen + s.inf.matchLen →
          ∃ t, exec row.1 s = .next t ∧ t = { fail .outputOverrun (p / 8) (p % 8) s with inf := t.inf } ∧
            t.inf.phase = .failed ∧ t.inf.bitpos = p))

/-- R209, R207, R106, R108: symbols 286 and 287, and distance symbols 30 and 31, fail after their codeword. -/
def Obligations.InvalidSymbols : Prop :=
  (∀ i ∈ [Instr.invalidLitLen286, .invalidLitLen287], ∀ s : State,
    exec i s = .next (failInflate .invalidLitlenSymbol s)) ∧
  (∀ i ∈ [Instr.invalidDist30, .invalidDist31], ∀ s : State,
    exec i s = .next (failInflate .invalidDistSymbol s))

/-- R202, R206: a code length is appended; the last one builds both trees. -/
def Obligations.CodeLengthLiteral : Prop :=
  ∀ (n : Nat) (s : State), n < 16 → ∃ t, exec (.clLen n) s = .next t ∧ LengthsAppended [n] s t

/-- R203, R204, R205, R206: the repeat codes 16, 17 and 18, each with its extra bits, base count and repeated length;
16 with no length before it fails before its extra bits are read, a run past the end after. -/
def Obligations.CodeLengthRuns : Prop :=
  (∀ s : State, s.inf.lengths = [] → exec .clRepeat s = .next (failInflate .repeatNoPrevious s)) ∧
  (∀ (i : Instr) (bits base v n : Nat) (s : State),
    (i = .clRepeat ∧ bits = 2 ∧ base = 3 ∧ s.inf.lengths.getLast? = some v) ∨
      (i = .clZerosShort ∧ bits = 3 ∧ base = 3 ∧ v = 0) ∨ (i = .clZerosLong ∧ bits = 7 ∧ base = 11 ∧ v = 0) →
    n = base + bitField s s.inf.bitpos bits →
    (s.inf.bitpos + bits ≤ 8 * s.inf.regionEnd → s.inf.lengths.length + n ≤ s.inf.hlit + s.inf.hdist →
      ∃ t, exec i s = .next t ∧ LengthsAppended (List.replicate n v)
        { s with inf := { s.inf with bitpos := s.inf.bitpos + bits } } t) ∧
    (s.inf.bitpos + bits ≤ 8 * s.inf.regionEnd → s.inf.hlit + s.inf.hdist < s.inf.lengths.length + n →
      exec i s = .next (failInflate .repeatOverflow
        { s with inf := { s.inf with bitpos := s.inf.bitpos + bits } })) ∧
    (8 * s.inf.regionEnd < s.inf.bitpos + bits → exec i s = .next (failInflate .inputOverrun s)))

/-! ## ZIP records -/

/-- R262, R263: the scan stops at the last offset from which the signature reads, and not below its bound; when no
offset down to the bound has it, OPEN fails with EOCD_NOT_FOUND at IN_LEN - 22. -/
def Obligations.EocdScanFindsTheLast : Prop :=
  ∀ (s : State) (lo : Nat), s.hostOps = [] → s.run = .busy .scanEocd →
    lo = (match s.params.scanCap with | .formatMax => s.regs.inLen.toNat - 22 - 65535 | .full => 0) →
    (∀ e, lo ≤ e → e ≤ s.zip.scanPos → le32 s e = 0x06054B50 →
      (∀ i, e < i → i ≤ s.zip.scanPos → le32 s i ≠ 0x06054B50) →
      core.run (s.zip.scanPos - e) s = .next { s with zip := { s.zip with scanPos := e } }) ∧
    (lo ≤ s.zip.scanPos → (∀ i, lo ≤ i → i ≤ s.zip.scanPos → le32 s i ≠ 0x06054B50) →
      core.run (s.zip.scanPos - lo + 1) s =
        .next (fail .eocdNotFound (s.regs.inLen.toNat - 22) 0 { s with zip := { s.zip with scanPos := lo } }))

/-- R260, R266-R271: the EOCD record at the offset found, checked in order; then the walk of its records starts. -/
def Obligations.EocdRecord : Prop :=
  ∀ (s u : State) (e n : Nat), e = s.zip.scanPos → n = le16 s (e + 10) →
    u = { s with zip := { s.zip with eocdPos := e } } →
    (le16 s (e + 4) ≠ 0 ∨ le16 s (e + 6) ≠ 0 → exec .eocd s = .next (fail .multiDisk e 0 u)) ∧
    (le16 s (e + 4) = 0 → le16 s (e + 6) = 0 →
      (le16 s (e + 8) ≠ n → exec .eocd s = .next (fail .entryCountMismatch e 0 u)) ∧
      (le16 s (e + 8) = n →
        (s.regs.inLen.toNat < e + 22 + le16 s (e + 20) → exec .eocd s = .next (fail .eocdCommentOob e 0 u)) ∧
        (e + 22 + le16 s (e + 20) ≤ s.regs.inLen.toNat →
          (s.params.maxEntries < n → exec .eocd s = .next (fail .tooManyEntries e 0 u)) ∧
          (n ≤ s.params.maxEntries → exec .eocd s = .next { u with
            run := .busy (if n = 0 then .finish else .walkCdh)
            ft := []
            zip := { u.zip with cdCursor := le32 s (e + 16), cdLeft := n } }))))

/-- R272, R273, R274: a central-directory record, its bound and signature, then its fields, checked in order. -/
def Obligations.CdhRecord : Prop :=
  ∀ (s : State) (p : Nat), p = s.zip.cdCursor →
    (s.hostOps = [] → s.run = .busy .walkCdh → s.regs.inLen.toNat < p + 46 →
      step s = .next (fail .cdhOob p 0 s)) ∧
    (s.hostOps = [] → s.run = .busy .walkCdh → p + 46 ≤ s.regs.inLen.toNat → le32 s p ≠ 0x02014B50 →
      step s = .next (fail .cdhBadSignature p 0 s)) ∧
    (20 < le16 s (p + 6) → exec .cdh s = .next (fail .versionTooHigh p 0 s)) ∧
    (le16 s (p + 6) ≤ 20 →
      ((le16 s (p + 8)).testBit 0 = true → exec .cdh s = .next (fail .encrypted p 0 s)) ∧
      ((le16 s (p + 8)).testBit 0 = false →
        (le16 s (p + 10) ≠ 0 → le16 s (p + 10) ≠ 8 → exec .cdh s = .next (fail .badMethod p 0 s)) ∧
        (le16 s (p + 10) = 0 ∨ le16 s (p + 10) = 8 →
          (s.regs.inLen.toNat < p + 46 + le16 s (p + 28) + le16 s (p + 30) + le16 s (p + 32) →
            exec .cdh s = .next (fail .cdhFieldsOob p 0 s)) ∧
          (p + 46 + le16 s (p + 28) + le16 s (p + 30) + le16 s (p + 32) ≤ s.regs.inLen.toNat →
            exec .cdh s = .next { s with
              run := .busy .checkLfh, zip := { s.zip with lfhPos := le32 s (p + 42) } }))))

/-- R275-R278: the local header, its bound and signature, the content's bound, and the record appended to the file
table. -/
def Obligations.LfhRecord : Prop :=
  ∀ (s : State) (p h ds : Nat), p = s.zip.cdCursor → h = s.zip.lfhPos →
    ds = h + 30 + le16 s (h + 26) + le16 s (h + 28) →
    (s.hostOps = [] → s.run = .busy .checkLfh → s.regs.inLen.toNat < h + 30 → step s = .next (fail .lfhOob h 0 s)) ∧
    (s.hostOps = [] → s.run = .busy .checkLfh → h + 30 ≤ s.regs.inLen.toNat → le32 s h ≠ 0x04034B50 →
      step s = .next (fail .lfhBadSignature h 0 s)) ∧
    (s.regs.inLen.toNat < ds + le32 s (p + 20) → exec .lfh s = .next (fail .contentOob h 0 s)) ∧
    (ds + le32 s (p + 20) ≤ s.regs.inLen.toNat → exec .lfh s = .next { s with
      run := .busy (if s.zip.cdLeft ≤ 1 then .finish else .walkCdh)
      ft := s.ft ++ [{
        nameOff := p + 46
        nameLen := le16 s (p + 28)
        commentOff := p + 46 + le16 s (p + 28) + le16 s (p + 30)
        commentLen := le16 s (p + 32)
        method := le16 s (p + 10)
        csize := le32 s (p + 20)
        usize := le32 s (p + 24)
        crc := le32 s (p + 16)
        dosTime := le16 s (p + 12)
        dosDate := le16 s (p + 14)
        dataOff := ds }]
      zip := { s.zip with
        cdCursor := p + 46 + le16 s (p + 28) + le16 s (p + 30) + le16 s (p + 32)
        cdLeft := s.zip.cdLeft - 1 } })

/-- R260's last line, R310, R28, R301: the end of a successful OPEN. -/
def Obligations.OpenFinishes : Prop :=
  ∀ s : State, s.hostOps = [] → s.run = .busy .finish → s.regs.cmdOp = 1 →
    step s = .next { s with
      run := .done
      regs := { s.regs with
        entryCount := BitVec.ofNat 32 (le16 s (s.zip.eocdPos + 10))
        commentOff := BitVec.ofNat 32 (s.zip.eocdPos + 22)
        commentLen := BitVec.ofNat 32 (le16 s (s.zip.eocdPos + 20))
        openValid := true
        irqPending := true } }

/-! ## The whole machine -/

/-- R380: reset is a sound state, with nothing claimed of any result. -/
def Obligations.ResetIsSound : Prop := State.reset.Inv ∧ State.reset.ResultsHold

/-- R76, R31-R43, R24, R280: every step, of the host or of the core, keeps the invariant, from every state that meets
it. -/
def Obligations.EveryStepKeepsInv : Prop := ∀ s t : State, s.Inv → step s = .next t → t.Inv

/-- R27, R301, R306, R312, R394: whenever STATE is DONE the results are those of the last command, and no step makes
them wrong. -/
def Obligations.EveryStepKeepsResults : Prop :=
  ∀ s t : State, s.Inv → s.ResultsHold → step s = .next t → t.ResultsHold

/-- R176, R76, R307: from a sound state nothing stops the machine but a host access to a byte that does not exist; no
step is ever refused. -/
def Obligations.OnlyAbsentPortBytesFault : Prop :=
  (∀ (s : State) (f : Fault), s.Inv → step s = .fault f →
    ∃ p a op ops, s.hostOps = op :: ops ∧ f = .noSuchByte p a ∧ capacity p s ≤ a ∧
      ((p = .inPort ∧ (op = .readIn a ∨ ∃ v, op = .writeIn a v)) ∨
        (p = .namePort ∧ (op = .readName a ∨ ∃ v, op = .writeName a v)) ∨
        (p = .outPort ∧ (op = .readOut a ∨ ∃ v, op = .writeOut a v)))) ∧
  (∀ (s : State) (r : Refusal), step s ≠ .refused r)

/-- R301, R400, R212, R282: every accepted command completes. -/
def Obligations.EveryCommandCompletes : Prop :=
  ∀ s : State, s.Inv → busy s = true → s.hostOps = [] →
    ∃ n t, core.run n s = .next t ∧ (t.run = .done ∨ t.run = .fail)

/-- R76, R154, R210: no command depends on a byte of IN at or beyond IN_LEN: two states that differ only there take
the same step and still differ only there. -/
def Obligations.BytesBeyondInLenDoNotMatter : Prop :=
  ∀ s t s' : State, s.Inv → SameBelowInLen s t → coreStep s = .next s' →
    ∃ t', coreStep t = .next t' ∧ SameBelowInLen s' t'

end
end

