-- ==== Sys2Proof/Laws/State.lean ====
section
/-! SUPPORT. One lemma per field per update of the state, true by rfl, so that no later proof unfolds a record
update. -/

namespace Sys2Proof.Machine

/-! ### setBitpos -/

@[simp] theorem setBitpos_params (p : Nat) (s : State) : (setBitpos p s).params = s.params := rfl
@[simp] theorem setBitpos_run (p : Nat) (s : State) : (setBitpos p s).run = s.run := rfl
@[simp] theorem setBitpos_regs (p : Nat) (s : State) : (setBitpos p s).regs = s.regs := rfl
@[simp] theorem setBitpos_ent (p : Nat) (s : State) : (setBitpos p s).ent = s.ent := rfl
@[simp] theorem setBitpos_inMem (p : Nat) (s : State) : (setBitpos p s).inMem = s.inMem := rfl
@[simp] theorem setBitpos_nameMem (p : Nat) (s : State) : (setBitpos p s).nameMem = s.nameMem := rfl
@[simp] theorem setBitpos_outMem (p : Nat) (s : State) : (setBitpos p s).outMem = s.outMem := rfl
@[simp] theorem setBitpos_inf (p : Nat) (s : State) : (setBitpos p s).inf = { s.inf with bitpos := p } := rfl
@[simp] theorem setBitpos_crc (p : Nat) (s : State) : (setBitpos p s).crc = s.crc := rfl
@[simp] theorem setBitpos_zip (p : Nat) (s : State) : (setBitpos p s).zip = s.zip := rfl
@[simp] theorem setBitpos_ft (p : Nat) (s : State) : (setBitpos p s).ft = s.ft := rfl
@[simp] theorem setBitpos_hostOps (p : Nat) (s : State) : (setBitpos p s).hostOps = s.hostOps := rfl
@[simp] theorem setBitpos_hostData (p : Nat) (s : State) : (setBitpos p s).hostData = s.hostData := rfl
@[simp] theorem setBitpos_memEpoch (p : Nat) (s : State) : (setBitpos p s).memEpoch = s.memEpoch := rfl
@[simp] theorem setBitpos_outEpoch (p : Nat) (s : State) : (setBitpos p s).outEpoch = s.outEpoch := rfl
@[simp] theorem setBitpos_readDraws (p : Nat) (s : State) : (setBitpos p s).readDraws = s.readDraws := rfl

/-! ### goTo -/

@[simp] theorem goTo_params (a : Activity) (s : State) : (goTo a s).params = s.params := rfl
@[simp] theorem goTo_run (a : Activity) (s : State) : (goTo a s).run = .busy a := rfl
@[simp] theorem goTo_regs (a : Activity) (s : State) : (goTo a s).regs = s.regs := rfl
@[simp] theorem goTo_ent (a : Activity) (s : State) : (goTo a s).ent = s.ent := rfl
@[simp] theorem goTo_inMem (a : Activity) (s : State) : (goTo a s).inMem = s.inMem := rfl
@[simp] theorem goTo_nameMem (a : Activity) (s : State) : (goTo a s).nameMem = s.nameMem := rfl
@[simp] theorem goTo_outMem (a : Activity) (s : State) : (goTo a s).outMem = s.outMem := rfl
@[simp] theorem goTo_inf (a : Activity) (s : State) : (goTo a s).inf = s.inf := rfl
@[simp] theorem goTo_crc (a : Activity) (s : State) : (goTo a s).crc = s.crc := rfl
@[simp] theorem goTo_zip (a : Activity) (s : State) : (goTo a s).zip = s.zip := rfl
@[simp] theorem goTo_ft (a : Activity) (s : State) : (goTo a s).ft = s.ft := rfl
@[simp] theorem goTo_hostOps (a : Activity) (s : State) : (goTo a s).hostOps = s.hostOps := rfl
@[simp] theorem goTo_hostData (a : Activity) (s : State) : (goTo a s).hostData = s.hostData := rfl
@[simp] theorem goTo_memEpoch (a : Activity) (s : State) : (goTo a s).memEpoch = s.memEpoch := rfl
@[simp] theorem goTo_outEpoch (a : Activity) (s : State) : (goTo a s).outEpoch = s.outEpoch := rfl
@[simp] theorem goTo_readDraws (a : Activity) (s : State) : (goTo a s).readDraws = s.readDraws := rfl

/-! ### enterBlock -/

@[simp] theorem enterBlock_params (f : Bool) (b : BitVec 2) (p : Phase) (s : State) : (enterBlock f b p s).params = s.params := rfl
@[simp] theorem enterBlock_run (f : Bool) (b : BitVec 2) (p : Phase) (s : State) : (enterBlock f b p s).run = s.run := rfl
@[simp] theorem enterBlock_regs (f : Bool) (b : BitVec 2) (p : Phase) (s : State) : (enterBlock f b p s).regs = s.regs := rfl
@[simp] theorem enterBlock_ent (f : Bool) (b : BitVec 2) (p : Phase) (s : State) : (enterBlock f b p s).ent = s.ent := rfl
@[simp] theorem enterBlock_inMem (f : Bool) (b : BitVec 2) (p : Phase) (s : State) : (enterBlock f b p s).inMem = s.inMem := rfl
@[simp] theorem enterBlock_nameMem (f : Bool) (b : BitVec 2) (p : Phase) (s : State) : (enterBlock f b p s).nameMem = s.nameMem := rfl
@[simp] theorem enterBlock_outMem (f : Bool) (b : BitVec 2) (p : Phase) (s : State) : (enterBlock f b p s).outMem = s.outMem := rfl
@[simp] theorem enterBlock_inf (f : Bool) (b : BitVec 2) (p : Phase) (s : State) : (enterBlock f b p s).inf = { s.inf with bfinal := f, btype := b, phase := p } := rfl
@[simp] theorem enterBlock_crc (f : Bool) (b : BitVec 2) (p : Phase) (s : State) : (enterBlock f b p s).crc = s.crc := rfl
@[simp] theorem enterBlock_zip (f : Bool) (b : BitVec 2) (p : Phase) (s : State) : (enterBlock f b p s).zip = s.zip := rfl
@[simp] theorem enterBlock_ft (f : Bool) (b : BitVec 2) (p : Phase) (s : State) : (enterBlock f b p s).ft = s.ft := rfl
@[simp] theorem enterBlock_hostOps (f : Bool) (b : BitVec 2) (p : Phase) (s : State) : (enterBlock f b p s).hostOps = s.hostOps := rfl
@[simp] theorem enterBlock_hostData (f : Bool) (b : BitVec 2) (p : Phase) (s : State) : (enterBlock f b p s).hostData = s.hostData := rfl
@[simp] theorem enterBlock_memEpoch (f : Bool) (b : BitVec 2) (p : Phase) (s : State) : (enterBlock f b p s).memEpoch = s.memEpoch := rfl
@[simp] theorem enterBlock_outEpoch (f : Bool) (b : BitVec 2) (p : Phase) (s : State) : (enterBlock f b p s).outEpoch = s.outEpoch := rfl
@[simp] theorem enterBlock_readDraws (f : Bool) (b : BitVec 2) (p : Phase) (s : State) : (enterBlock f b p s).readDraws = s.readDraws := rfl

/-! ### bitReaderInit -/

@[simp] theorem bitReaderInit_params (a b : Nat) (s : State) : (bitReaderInit a b s).params = s.params := rfl
@[simp] theorem bitReaderInit_run (a b : Nat) (s : State) : (bitReaderInit a b s).run = s.run := rfl
@[simp] theorem bitReaderInit_regs (a b : Nat) (s : State) : (bitReaderInit a b s).regs = s.regs := rfl
@[simp] theorem bitReaderInit_ent (a b : Nat) (s : State) : (bitReaderInit a b s).ent = s.ent := rfl
@[simp] theorem bitReaderInit_inMem (a b : Nat) (s : State) : (bitReaderInit a b s).inMem = s.inMem := rfl
@[simp] theorem bitReaderInit_nameMem (a b : Nat) (s : State) : (bitReaderInit a b s).nameMem = s.nameMem := rfl
@[simp] theorem bitReaderInit_outMem (a b : Nat) (s : State) : (bitReaderInit a b s).outMem = s.outMem := rfl
@[simp] theorem bitReaderInit_inf (a b : Nat) (s : State) : (bitReaderInit a b s).inf = { s.inf with regionStart := a, regionEnd := b, bitpos := 8 * a } := rfl
@[simp] theorem bitReaderInit_crc (a b : Nat) (s : State) : (bitReaderInit a b s).crc = s.crc := rfl
@[simp] theorem bitReaderInit_zip (a b : Nat) (s : State) : (bitReaderInit a b s).zip = s.zip := rfl
@[simp] theorem bitReaderInit_ft (a b : Nat) (s : State) : (bitReaderInit a b s).ft = s.ft := rfl
@[simp] theorem bitReaderInit_hostOps (a b : Nat) (s : State) : (bitReaderInit a b s).hostOps = s.hostOps := rfl
@[simp] theorem bitReaderInit_hostData (a b : Nat) (s : State) : (bitReaderInit a b s).hostData = s.hostData := rfl
@[simp] theorem bitReaderInit_memEpoch (a b : Nat) (s : State) : (bitReaderInit a b s).memEpoch = s.memEpoch := rfl
@[simp] theorem bitReaderInit_outEpoch (a b : Nat) (s : State) : (bitReaderInit a b s).outEpoch = s.outEpoch := rfl
@[simp] theorem bitReaderInit_readDraws (a b : Nat) (s : State) : (bitReaderInit a b s).readDraws = s.readDraws := rfl

/-! ### startInflate -/

@[simp] theorem startInflate_params (a b c : Nat) (s : State) : (startInflate a b c s).params = s.params := rfl
@[simp] theorem startInflate_run (a b c : Nat) (s : State) : (startInflate a b c s).run = .busy .blockHeader := rfl
@[simp] theorem startInflate_regs (a b c : Nat) (s : State) : (startInflate a b c s).regs = s.regs := rfl
@[simp] theorem startInflate_ent (a b c : Nat) (s : State) : (startInflate a b c s).ent = s.ent := rfl
@[simp] theorem startInflate_inMem (a b c : Nat) (s : State) : (startInflate a b c s).inMem = s.inMem := rfl
@[simp] theorem startInflate_nameMem (a b c : Nat) (s : State) : (startInflate a b c s).nameMem = s.nameMem := rfl
@[simp] theorem startInflate_outMem (a b c : Nat) (s : State) : (startInflate a b c s).outMem = s.outMem := rfl
@[simp] theorem startInflate_inf (a b c : Nat) (s : State) : (startInflate a b c s).inf = { s.inf with regionStart := a, regionEnd := b, bitpos := 8 * a, destLen := 0, destCap := c, phase := .awaitBlockHeader } := rfl
@[simp] theorem startInflate_crc (a b c : Nat) (s : State) : (startInflate a b c s).crc = s.crc := rfl
@[simp] theorem startInflate_zip (a b c : Nat) (s : State) : (startInflate a b c s).zip = s.zip := rfl
@[simp] theorem startInflate_ft (a b c : Nat) (s : State) : (startInflate a b c s).ft = s.ft := rfl
@[simp] theorem startInflate_hostOps (a b c : Nat) (s : State) : (startInflate a b c s).hostOps = s.hostOps := rfl
@[simp] theorem startInflate_hostData (a b c : Nat) (s : State) : (startInflate a b c s).hostData = s.hostData := rfl
@[simp] theorem startInflate_memEpoch (a b c : Nat) (s : State) : (startInflate a b c s).memEpoch = s.memEpoch := rfl
@[simp] theorem startInflate_outEpoch (a b c : Nat) (s : State) : (startInflate a b c s).outEpoch = s.outEpoch := rfl
@[simp] theorem startInflate_readDraws (a b c : Nat) (s : State) : (startInflate a b c s).readDraws = s.readDraws := rfl

/-! ### complete -/

@[simp] theorem complete_params (s : State) : (complete s).params = s.params := rfl
@[simp] theorem complete_run (s : State) : (complete s).run = .done := rfl
@[simp] theorem complete_regs (s : State) : (complete s).regs = { s.regs with irqPending := true } := rfl
@[simp] theorem complete_ent (s : State) : (complete s).ent = s.ent := rfl
@[simp] theorem complete_inMem (s : State) : (complete s).inMem = s.inMem := rfl
@[simp] theorem complete_nameMem (s : State) : (complete s).nameMem = s.nameMem := rfl
@[simp] theorem complete_outMem (s : State) : (complete s).outMem = s.outMem := rfl
@[simp] theorem complete_inf (s : State) : (complete s).inf = s.inf := rfl
@[simp] theorem complete_crc (s : State) : (complete s).crc = s.crc := rfl
@[simp] theorem complete_zip (s : State) : (complete s).zip = s.zip := rfl
@[simp] theorem complete_ft (s : State) : (complete s).ft = s.ft := rfl
@[simp] theorem complete_hostOps (s : State) : (complete s).hostOps = s.hostOps := rfl
@[simp] theorem complete_hostData (s : State) : (complete s).hostData = s.hostData := rfl
@[simp] theorem complete_memEpoch (s : State) : (complete s).memEpoch = s.memEpoch := rfl
@[simp] theorem complete_outEpoch (s : State) : (complete s).outEpoch = s.outEpoch := rfl
@[simp] theorem complete_readDraws (s : State) : (complete s).readDraws = s.readDraws := rfl

/-! ### fail -/

@[simp] theorem fail_params (c : Cause) (p b : Nat) (s : State) : (fail c p b s).params = s.params := rfl
@[simp] theorem fail_run (c : Cause) (p b : Nat) (s : State) : (fail c p b s).run = .fail := rfl
@[simp] theorem fail_regs (c : Cause) (p b : Nat) (s : State) : (fail c p b s).regs = { s.regs with err := errWord c b, errPos := BitVec.ofNat 32 p, outLen := 0, irqPending := true } := rfl
@[simp] theorem fail_ent (c : Cause) (p b : Nat) (s : State) : (fail c p b s).ent = s.ent := rfl
@[simp] theorem fail_inMem (c : Cause) (p b : Nat) (s : State) : (fail c p b s).inMem = s.inMem := rfl
@[simp] theorem fail_nameMem (c : Cause) (p b : Nat) (s : State) : (fail c p b s).nameMem = s.nameMem := rfl
@[simp] theorem fail_outMem (c : Cause) (p b : Nat) (s : State) : (fail c p b s).outMem = [] := rfl
@[simp] theorem fail_inf (c : Cause) (p b : Nat) (s : State) : (fail c p b s).inf = s.inf := rfl
@[simp] theorem fail_crc (c : Cause) (p b : Nat) (s : State) : (fail c p b s).crc = s.crc := rfl
@[simp] theorem fail_zip (c : Cause) (p b : Nat) (s : State) : (fail c p b s).zip = s.zip := rfl
@[simp] theorem fail_ft (c : Cause) (p b : Nat) (s : State) : (fail c p b s).ft = s.ft := rfl
@[simp] theorem fail_hostOps (c : Cause) (p b : Nat) (s : State) : (fail c p b s).hostOps = s.hostOps := rfl
@[simp] theorem fail_hostData (c : Cause) (p b : Nat) (s : State) : (fail c p b s).hostData = s.hostData := rfl
@[simp] theorem fail_memEpoch (c : Cause) (p b : Nat) (s : State) : (fail c p b s).memEpoch = s.memEpoch := rfl
@[simp] theorem fail_outEpoch (c : Cause) (p b : Nat) (s : State) : (fail c p b s).outEpoch = s.outEpoch + 1 := rfl
@[simp] theorem fail_readDraws (c : Cause) (p b : Nat) (s : State) : (fail c p b s).readDraws = s.readDraws := rfl

/-! ### failInflate -/

@[simp] theorem failInflate_params (c : Cause) (s : State) : (failInflate c s).params = s.params := rfl
@[simp] theorem failInflate_run (c : Cause) (s : State) : (failInflate c s).run = .fail := rfl
@[simp] theorem failInflate_regs (c : Cause) (s : State) : (failInflate c s).regs = { s.regs with err := errWord c (s.inf.bitpos % 8), errPos := BitVec.ofNat 32 (s.inf.bitpos / 8), outLen := 0, irqPending := true } := rfl
@[simp] theorem failInflate_ent (c : Cause) (s : State) : (failInflate c s).ent = s.ent := rfl
@[simp] theorem failInflate_inMem (c : Cause) (s : State) : (failInflate c s).inMem = s.inMem := rfl
@[simp] theorem failInflate_nameMem (c : Cause) (s : State) : (failInflate c s).nameMem = s.nameMem := rfl
@[simp] theorem failInflate_outMem (c : Cause) (s : State) : (failInflate c s).outMem = [] := rfl
@[simp] theorem failInflate_inf (c : Cause) (s : State) : (failInflate c s).inf = { s.inf with phase := .failed } := rfl
@[simp] theorem failInflate_crc (c : Cause) (s : State) : (failInflate c s).crc = s.crc := rfl
@[simp] theorem failInflate_zip (c : Cause) (s : State) : (failInflate c s).zip = s.zip := rfl
@[simp] theorem failInflate_ft (c : Cause) (s : State) : (failInflate c s).ft = s.ft := rfl
@[simp] theorem failInflate_hostOps (c : Cause) (s : State) : (failInflate c s).hostOps = s.hostOps := rfl
@[simp] theorem failInflate_hostData (c : Cause) (s : State) : (failInflate c s).hostData = s.hostData := rfl
@[simp] theorem failInflate_memEpoch (c : Cause) (s : State) : (failInflate c s).memEpoch = s.memEpoch := rfl
@[simp] theorem failInflate_outEpoch (c : Cause) (s : State) : (failInflate c s).outEpoch = s.outEpoch + 1 := rfl
@[simp] theorem failInflate_readDraws (c : Cause) (s : State) : (failInflate c s).readDraws = s.readDraws := rfl

/-! ### putCrc -/

@[simp] theorem putCrc_params (r : Nat → Byte) (a n : Nat) (s : State) : (putCrc r a n s).params = s.params := rfl
@[simp] theorem putCrc_run (r : Nat → Byte) (a n : Nat) (s : State) : (putCrc r a n s).run = s.run := rfl
@[simp] theorem putCrc_regs (r : Nat → Byte) (a n : Nat) (s : State) : (putCrc r a n s).regs = { s.regs with resCrc := crc32 r a n } := rfl
@[simp] theorem putCrc_ent (r : Nat → Byte) (a n : Nat) (s : State) : (putCrc r a n s).ent = s.ent := rfl
@[simp] theorem putCrc_inMem (r : Nat → Byte) (a n : Nat) (s : State) : (putCrc r a n s).inMem = s.inMem := rfl
@[simp] theorem putCrc_nameMem (r : Nat → Byte) (a n : Nat) (s : State) : (putCrc r a n s).nameMem = s.nameMem := rfl
@[simp] theorem putCrc_outMem (r : Nat → Byte) (a n : Nat) (s : State) : (putCrc r a n s).outMem = s.outMem := rfl
@[simp] theorem putCrc_inf (r : Nat → Byte) (a n : Nat) (s : State) : (putCrc r a n s).inf = s.inf := rfl
@[simp] theorem putCrc_crc (r : Nat → Byte) (a n : Nat) (s : State) : (putCrc r a n s).crc = crcAcc r a n := rfl
@[simp] theorem putCrc_zip (r : Nat → Byte) (a n : Nat) (s : State) : (putCrc r a n s).zip = s.zip := rfl
@[simp] theorem putCrc_ft (r : Nat → Byte) (a n : Nat) (s : State) : (putCrc r a n s).ft = s.ft := rfl
@[simp] theorem putCrc_hostOps (r : Nat → Byte) (a n : Nat) (s : State) : (putCrc r a n s).hostOps = s.hostOps := rfl
@[simp] theorem putCrc_hostData (r : Nat → Byte) (a n : Nat) (s : State) : (putCrc r a n s).hostData = s.hostData := rfl
@[simp] theorem putCrc_memEpoch (r : Nat → Byte) (a n : Nat) (s : State) : (putCrc r a n s).memEpoch = s.memEpoch := rfl
@[simp] theorem putCrc_outEpoch (r : Nat → Byte) (a n : Nat) (s : State) : (putCrc r a n s).outEpoch = s.outEpoch := rfl
@[simp] theorem putCrc_readDraws (r : Nat → Byte) (a n : Nat) (s : State) : (putCrc r a n s).readDraws = s.readDraws := rfl

/-! ### putOutLen -/

@[simp] theorem putOutLen_params (n : Nat) (s : State) : (putOutLen n s).params = s.params := rfl
@[simp] theorem putOutLen_run (n : Nat) (s : State) : (putOutLen n s).run = s.run := rfl
@[simp] theorem putOutLen_regs (n : Nat) (s : State) : (putOutLen n s).regs = { s.regs with outLen := BitVec.ofNat 32 n } := rfl
@[simp] theorem putOutLen_ent (n : Nat) (s : State) : (putOutLen n s).ent = s.ent := rfl
@[simp] theorem putOutLen_inMem (n : Nat) (s : State) : (putOutLen n s).inMem = s.inMem := rfl
@[simp] theorem putOutLen_nameMem (n : Nat) (s : State) : (putOutLen n s).nameMem = s.nameMem := rfl
@[simp] theorem putOutLen_outMem (n : Nat) (s : State) : (putOutLen n s).outMem = s.outMem := rfl
@[simp] theorem putOutLen_inf (n : Nat) (s : State) : (putOutLen n s).inf = s.inf := rfl
@[simp] theorem putOutLen_crc (n : Nat) (s : State) : (putOutLen n s).crc = s.crc := rfl
@[simp] theorem putOutLen_zip (n : Nat) (s : State) : (putOutLen n s).zip = s.zip := rfl
@[simp] theorem putOutLen_ft (n : Nat) (s : State) : (putOutLen n s).ft = s.ft := rfl
@[simp] theorem putOutLen_hostOps (n : Nat) (s : State) : (putOutLen n s).hostOps = s.hostOps := rfl
@[simp] theorem putOutLen_hostData (n : Nat) (s : State) : (putOutLen n s).hostData = s.hostData := rfl
@[simp] theorem putOutLen_memEpoch (n : Nat) (s : State) : (putOutLen n s).memEpoch = s.memEpoch := rfl
@[simp] theorem putOutLen_outEpoch (n : Nat) (s : State) : (putOutLen n s).outEpoch = s.outEpoch := rfl
@[simp] theorem putOutLen_readDraws (n : Nat) (s : State) : (putOutLen n s).readDraws = s.readDraws := rfl

/-! ### clearHandle -/

@[simp] theorem clearHandle_params (s : State) : (clearHandle s).params = s.params := rfl
@[simp] theorem clearHandle_run (s : State) : (clearHandle s).run = s.run := rfl
@[simp] theorem clearHandle_regs (s : State) : (clearHandle s).regs = { s.regs with openValid := false, entryCount := 0, commentOff := 0, commentLen := 0 } := rfl
@[simp] theorem clearHandle_ent (s : State) : (clearHandle s).ent = s.ent := rfl
@[simp] theorem clearHandle_inMem (s : State) : (clearHandle s).inMem = s.inMem := rfl
@[simp] theorem clearHandle_nameMem (s : State) : (clearHandle s).nameMem = s.nameMem := rfl
@[simp] theorem clearHandle_outMem (s : State) : (clearHandle s).outMem = s.outMem := rfl
@[simp] theorem clearHandle_inf (s : State) : (clearHandle s).inf = s.inf := rfl
@[simp] theorem clearHandle_crc (s : State) : (clearHandle s).crc = s.crc := rfl
@[simp] theorem clearHandle_zip (s : State) : (clearHandle s).zip = s.zip := rfl
@[simp] theorem clearHandle_ft (s : State) : (clearHandle s).ft = [] := rfl
@[simp] theorem clearHandle_hostOps (s : State) : (clearHandle s).hostOps = s.hostOps := rfl
@[simp] theorem clearHandle_hostData (s : State) : (clearHandle s).hostData = s.hostData := rfl
@[simp] theorem clearHandle_memEpoch (s : State) : (clearHandle s).memEpoch = s.memEpoch := rfl
@[simp] theorem clearHandle_outEpoch (s : State) : (clearHandle s).outEpoch = s.outEpoch := rfl
@[simp] theorem clearHandle_readDraws (s : State) : (clearHandle s).readDraws = s.readDraws := rfl

/-! ### markIgnored -/

@[simp] theorem markIgnored_params (s : State) : (markIgnored s).params = s.params := rfl
@[simp] theorem markIgnored_run (s : State) : (markIgnored s).run = s.run := rfl
@[simp] theorem markIgnored_regs (s : State) : (markIgnored s).regs = { s.regs with ignored := true } := rfl
@[simp] theorem markIgnored_ent (s : State) : (markIgnored s).ent = s.ent := rfl
@[simp] theorem markIgnored_inMem (s : State) : (markIgnored s).inMem = s.inMem := rfl
@[simp] theorem markIgnored_nameMem (s : State) : (markIgnored s).nameMem = s.nameMem := rfl
@[simp] theorem markIgnored_outMem (s : State) : (markIgnored s).outMem = s.outMem := rfl
@[simp] theorem markIgnored_inf (s : State) : (markIgnored s).inf = s.inf := rfl
@[simp] theorem markIgnored_crc (s : State) : (markIgnored s).crc = s.crc := rfl
@[simp] theorem markIgnored_zip (s : State) : (markIgnored s).zip = s.zip := rfl
@[simp] theorem markIgnored_ft (s : State) : (markIgnored s).ft = s.ft := rfl
@[simp] theorem markIgnored_hostOps (s : State) : (markIgnored s).hostOps = s.hostOps := rfl
@[simp] theorem markIgnored_hostData (s : State) : (markIgnored s).hostData = s.hostData := rfl
@[simp] theorem markIgnored_memEpoch (s : State) : (markIgnored s).memEpoch = s.memEpoch := rfl
@[simp] theorem markIgnored_outEpoch (s : State) : (markIgnored s).outEpoch = s.outEpoch := rfl
@[simp] theorem markIgnored_readDraws (s : State) : (markIgnored s).readDraws = s.readDraws := rfl

/-! ### writeCtrl -/

@[simp] theorem writeCtrl_params (v : Word) (s : State) : (writeCtrl v s).params = s.params := rfl
@[simp] theorem writeCtrl_run (v : Word) (s : State) : (writeCtrl v s).run = s.run := rfl
@[simp] theorem writeCtrl_regs (v : Word) (s : State) : (writeCtrl v s).regs = { s.regs with ie := v.getLsbD 0 } := rfl
@[simp] theorem writeCtrl_ent (v : Word) (s : State) : (writeCtrl v s).ent = s.ent := rfl
@[simp] theorem writeCtrl_inMem (v : Word) (s : State) : (writeCtrl v s).inMem = s.inMem := rfl
@[simp] theorem writeCtrl_nameMem (v : Word) (s : State) : (writeCtrl v s).nameMem = s.nameMem := rfl
@[simp] theorem writeCtrl_outMem (v : Word) (s : State) : (writeCtrl v s).outMem = s.outMem := rfl
@[simp] theorem writeCtrl_inf (v : Word) (s : State) : (writeCtrl v s).inf = s.inf := rfl
@[simp] theorem writeCtrl_crc (v : Word) (s : State) : (writeCtrl v s).crc = s.crc := rfl
@[simp] theorem writeCtrl_zip (v : Word) (s : State) : (writeCtrl v s).zip = s.zip := rfl
@[simp] theorem writeCtrl_ft (v : Word) (s : State) : (writeCtrl v s).ft = s.ft := rfl
@[simp] theorem writeCtrl_hostOps (v : Word) (s : State) : (writeCtrl v s).hostOps = s.hostOps := rfl
@[simp] theorem writeCtrl_hostData (v : Word) (s : State) : (writeCtrl v s).hostData = s.hostData := rfl
@[simp] theorem writeCtrl_memEpoch (v : Word) (s : State) : (writeCtrl v s).memEpoch = s.memEpoch := rfl
@[simp] theorem writeCtrl_outEpoch (v : Word) (s : State) : (writeCtrl v s).outEpoch = s.outEpoch := rfl
@[simp] theorem writeCtrl_readDraws (v : Word) (s : State) : (writeCtrl v s).readDraws = s.readDraws := rfl

/-! ### writeStatus -/

@[simp] theorem writeStatus_params (v : Word) (s : State) : (writeStatus v s).params = s.params := rfl
@[simp] theorem writeStatus_run (v : Word) (s : State) : (writeStatus v s).run = s.run := rfl
@[simp] theorem writeStatus_regs (v : Word) (s : State) : (writeStatus v s).regs = { s.regs with ignored := s.regs.ignored && !v.getLsbD 3, irqPending := s.regs.irqPending && !v.getLsbD 4 } := rfl
@[simp] theorem writeStatus_ent (v : Word) (s : State) : (writeStatus v s).ent = s.ent := rfl
@[simp] theorem writeStatus_inMem (v : Word) (s : State) : (writeStatus v s).inMem = s.inMem := rfl
@[simp] theorem writeStatus_nameMem (v : Word) (s : State) : (writeStatus v s).nameMem = s.nameMem := rfl
@[simp] theorem writeStatus_outMem (v : Word) (s : State) : (writeStatus v s).outMem = s.outMem := rfl
@[simp] theorem writeStatus_inf (v : Word) (s : State) : (writeStatus v s).inf = s.inf := rfl
@[simp] theorem writeStatus_crc (v : Word) (s : State) : (writeStatus v s).crc = s.crc := rfl
@[simp] theorem writeStatus_zip (v : Word) (s : State) : (writeStatus v s).zip = s.zip := rfl
@[simp] theorem writeStatus_ft (v : Word) (s : State) : (writeStatus v s).ft = s.ft := rfl
@[simp] theorem writeStatus_hostOps (v : Word) (s : State) : (writeStatus v s).hostOps = s.hostOps := rfl
@[simp] theorem writeStatus_hostData (v : Word) (s : State) : (writeStatus v s).hostData = s.hostData := rfl
@[simp] theorem writeStatus_memEpoch (v : Word) (s : State) : (writeStatus v s).memEpoch = s.memEpoch := rfl
@[simp] theorem writeStatus_outEpoch (v : Word) (s : State) : (writeStatus v s).outEpoch = s.outEpoch := rfl
@[simp] theorem writeStatus_readDraws (v : Word) (s : State) : (writeStatus v s).readDraws = s.readDraws := rfl

/-! ### invalidate -/

@[simp] theorem invalidate_params (s : State) : (invalidate s).params = s.params := rfl
@[simp] theorem invalidate_run (s : State) : (invalidate s).run = s.run := rfl
@[simp] theorem invalidate_regs (s : State) : (invalidate s).regs = { s.regs with openValid := false } := rfl
@[simp] theorem invalidate_ent (s : State) : (invalidate s).ent = s.ent := rfl
@[simp] theorem invalidate_inMem (s : State) : (invalidate s).inMem = s.inMem := rfl
@[simp] theorem invalidate_nameMem (s : State) : (invalidate s).nameMem = s.nameMem := rfl
@[simp] theorem invalidate_outMem (s : State) : (invalidate s).outMem = s.outMem := rfl
@[simp] theorem invalidate_inf (s : State) : (invalidate s).inf = s.inf := rfl
@[simp] theorem invalidate_crc (s : State) : (invalidate s).crc = s.crc := rfl
@[simp] theorem invalidate_zip (s : State) : (invalidate s).zip = s.zip := rfl
@[simp] theorem invalidate_ft (s : State) : (invalidate s).ft = s.ft := rfl
@[simp] theorem invalidate_hostOps (s : State) : (invalidate s).hostOps = s.hostOps := rfl
@[simp] theorem invalidate_hostData (s : State) : (invalidate s).hostData = s.hostData := rfl
@[simp] theorem invalidate_memEpoch (s : State) : (invalidate s).memEpoch = s.memEpoch := rfl
@[simp] theorem invalidate_outEpoch (s : State) : (invalidate s).outEpoch = s.outEpoch := rfl
@[simp] theorem invalidate_readDraws (s : State) : (invalidate s).readDraws = s.readDraws := rfl

/-! ### hostGets -/

@[simp] theorem hostGets_params (v : Word) (s : State) : (hostGets v s).params = s.params := rfl
@[simp] theorem hostGets_run (v : Word) (s : State) : (hostGets v s).run = s.run := rfl
@[simp] theorem hostGets_regs (v : Word) (s : State) : (hostGets v s).regs = s.regs := rfl
@[simp] theorem hostGets_ent (v : Word) (s : State) : (hostGets v s).ent = s.ent := rfl
@[simp] theorem hostGets_inMem (v : Word) (s : State) : (hostGets v s).inMem = s.inMem := rfl
@[simp] theorem hostGets_nameMem (v : Word) (s : State) : (hostGets v s).nameMem = s.nameMem := rfl
@[simp] theorem hostGets_outMem (v : Word) (s : State) : (hostGets v s).outMem = s.outMem := rfl
@[simp] theorem hostGets_inf (v : Word) (s : State) : (hostGets v s).inf = s.inf := rfl
@[simp] theorem hostGets_crc (v : Word) (s : State) : (hostGets v s).crc = s.crc := rfl
@[simp] theorem hostGets_zip (v : Word) (s : State) : (hostGets v s).zip = s.zip := rfl
@[simp] theorem hostGets_ft (v : Word) (s : State) : (hostGets v s).ft = s.ft := rfl
@[simp] theorem hostGets_hostOps (v : Word) (s : State) : (hostGets v s).hostOps = s.hostOps := rfl
@[simp] theorem hostGets_hostData (v : Word) (s : State) : (hostGets v s).hostData = v := rfl
@[simp] theorem hostGets_memEpoch (v : Word) (s : State) : (hostGets v s).memEpoch = s.memEpoch := rfl
@[simp] theorem hostGets_outEpoch (v : Word) (s : State) : (hostGets v s).outEpoch = s.outEpoch := rfl
@[simp] theorem hostGets_readDraws (v : Word) (s : State) : (hostGets v s).readDraws = s.readDraws := rfl

/-! ### hostDraws -/

@[simp] theorem hostDraws_params (v : Word) (s : State) : (hostDraws v s).params = s.params := rfl
@[simp] theorem hostDraws_run (v : Word) (s : State) : (hostDraws v s).run = s.run := rfl
@[simp] theorem hostDraws_regs (v : Word) (s : State) : (hostDraws v s).regs = s.regs := rfl
@[simp] theorem hostDraws_ent (v : Word) (s : State) : (hostDraws v s).ent = s.ent := rfl
@[simp] theorem hostDraws_inMem (v : Word) (s : State) : (hostDraws v s).inMem = s.inMem := rfl
@[simp] theorem hostDraws_nameMem (v : Word) (s : State) : (hostDraws v s).nameMem = s.nameMem := rfl
@[simp] theorem hostDraws_outMem (v : Word) (s : State) : (hostDraws v s).outMem = s.outMem := rfl
@[simp] theorem hostDraws_inf (v : Word) (s : State) : (hostDraws v s).inf = s.inf := rfl
@[simp] theorem hostDraws_crc (v : Word) (s : State) : (hostDraws v s).crc = s.crc := rfl
@[simp] theorem hostDraws_zip (v : Word) (s : State) : (hostDraws v s).zip = s.zip := rfl
@[simp] theorem hostDraws_ft (v : Word) (s : State) : (hostDraws v s).ft = s.ft := rfl
@[simp] theorem hostDraws_hostOps (v : Word) (s : State) : (hostDraws v s).hostOps = s.hostOps := rfl
@[simp] theorem hostDraws_hostData (v : Word) (s : State) : (hostDraws v s).hostData = v := rfl
@[simp] theorem hostDraws_memEpoch (v : Word) (s : State) : (hostDraws v s).memEpoch = s.memEpoch := rfl
@[simp] theorem hostDraws_outEpoch (v : Word) (s : State) : (hostDraws v s).outEpoch = s.outEpoch := rfl
@[simp] theorem hostDraws_readDraws (v : Word) (s : State) : (hostDraws v s).readDraws = s.readDraws + 1 := rfl

/-! ### The acceptance of a command (R300): an OPEN clears the handle besides -/

@[simp] theorem acceptCommand_params (w : Word) (s : State) : (acceptCommand w s).params = s.params := by
  unfold acceptCommand; split <;> rfl
@[simp] theorem acceptCommand_run (w : Word) (s : State) : (acceptCommand w s).run = .busy .command := by
  unfold acceptCommand; split <;> rfl
@[simp] theorem acceptCommand_ent (w : Word) (s : State) : (acceptCommand w s).ent = EntRegs.zero := by
  unfold acceptCommand; split <;> rfl
@[simp] theorem acceptCommand_inMem (w : Word) (s : State) : (acceptCommand w s).inMem = s.inMem := by
  unfold acceptCommand; split <;> rfl
@[simp] theorem acceptCommand_nameMem (w : Word) (s : State) : (acceptCommand w s).nameMem = s.nameMem := by
  unfold acceptCommand; split <;> rfl
@[simp] theorem acceptCommand_outMem (w : Word) (s : State) : (acceptCommand w s).outMem = s.outMem := by
  unfold acceptCommand; split <;> rfl
@[simp] theorem acceptCommand_inf (w : Word) (s : State) : (acceptCommand w s).inf = s.inf := by
  unfold acceptCommand; split <;> rfl
@[simp] theorem acceptCommand_crc (w : Word) (s : State) : (acceptCommand w s).crc = s.crc := by
  unfold acceptCommand; split <;> rfl
@[simp] theorem acceptCommand_zip (w : Word) (s : State) : (acceptCommand w s).zip = s.zip := by
  unfold acceptCommand; split <;> rfl
@[simp] theorem acceptCommand_hostOps (w : Word) (s : State) : (acceptCommand w s).hostOps = s.hostOps := by
  unfold acceptCommand; split <;> rfl
@[simp] theorem acceptCommand_hostData (w : Word) (s : State) : (acceptCommand w s).hostData = s.hostData := by
  unfold acceptCommand; split <;> rfl
@[simp] theorem acceptCommand_memEpoch (w : Word) (s : State) : (acceptCommand w s).memEpoch = s.memEpoch := by
  unfold acceptCommand; split <;> rfl
@[simp] theorem acceptCommand_outEpoch (w : Word) (s : State) : (acceptCommand w s).outEpoch = s.outEpoch := by
  unfold acceptCommand; split <;> rfl
@[simp] theorem acceptCommand_readDraws (w : Word) (s : State) : (acceptCommand w s).readDraws = s.readDraws := by
  unfold acceptCommand; split <;> rfl

theorem acceptCommand_open (w : Word) (s : State) (h : w.extractLsb' 0 4 = 1) :
    (acceptCommand w s).regs = { s.regs with
      cmdOp := 1, err := 0, errPos := 0, outLen := 0, resCrc := 0
      openValid := false, entryCount := 0, commentOff := 0, commentLen := 0 } ∧ (acceptCommand w s).ft = [] := by
  rw [acceptCommand, if_pos h, clearHandle, beginCommand, h]
  exact ⟨rfl, rfl⟩

theorem acceptCommand_other (w : Word) (s : State) (h : w.extractLsb' 0 4 ≠ 1) :
    (acceptCommand w s).regs = { s.regs with
      cmdOp := w.extractLsb' 0 4, err := 0, errPos := 0, outLen := 0, resCrc := 0 } ∧
    (acceptCommand w s).ft = s.ft := by
  rw [acceptCommand, if_neg h, beginCommand]
  exact ⟨rfl, rfl⟩

/-! ### The end of a block (R192, R210) -/

@[simp] theorem endBlock_params (s : State) : (endBlock s).params = s.params := by unfold endBlock; split <;> rfl
@[simp] theorem endBlock_regs (s : State) : (endBlock s).regs = s.regs := by unfold endBlock; split <;> rfl
@[simp] theorem endBlock_ent (s : State) : (endBlock s).ent = s.ent := by unfold endBlock; split <;> rfl
@[simp] theorem endBlock_inMem (s : State) : (endBlock s).inMem = s.inMem := by unfold endBlock; split <;> rfl
@[simp] theorem endBlock_nameMem (s : State) : (endBlock s).nameMem = s.nameMem := by unfold endBlock; split <;> rfl
@[simp] theorem endBlock_outMem (s : State) : (endBlock s).outMem = s.outMem := by unfold endBlock; split <;> rfl
@[simp] theorem endBlock_crc (s : State) : (endBlock s).crc = s.crc := by unfold endBlock; split <;> rfl
@[simp] theorem endBlock_zip (s : State) : (endBlock s).zip = s.zip := by unfold endBlock; split <;> rfl
@[simp] theorem endBlock_ft (s : State) : (endBlock s).ft = s.ft := by unfold endBlock; split <;> rfl
@[simp] theorem endBlock_hostOps (s : State) : (endBlock s).hostOps = s.hostOps := by unfold endBlock; split <;> rfl
@[simp] theorem endBlock_hostData (s : State) : (endBlock s).hostData = s.hostData := by unfold endBlock; split <;> rfl
@[simp] theorem endBlock_memEpoch (s : State) : (endBlock s).memEpoch = s.memEpoch := by unfold endBlock; split <;> rfl
@[simp] theorem endBlock_outEpoch (s : State) : (endBlock s).outEpoch = s.outEpoch := by unfold endBlock; split <;> rfl
@[simp] theorem endBlock_readDraws (s : State) : (endBlock s).readDraws = s.readDraws := by unfold endBlock; split <;> rfl

@[simp] theorem endBlock_run (s : State) :
    (endBlock s).run = .busy (if s.inf.bfinal then .finish else .blockHeader) := by
  unfold endBlock; split <;> simp_all

@[simp] theorem endBlock_inf (s : State) :
    (endBlock s).inf = { s.inf with phase := if s.inf.bfinal then .done else .awaitBlockHeader } := by
  unfold endBlock; split <;> simp_all

/-! ### Reads that an update leaves alone -/

theorem inByte_congr {s t : State} (h : t.inMem = s.inMem) (h' : t.memEpoch = s.memEpoch) (a : Nat) :
    inByte t a = inByte s a := by simp [inByte, h, h']

theorem le16_congr {s t : State} (h : t.inMem = s.inMem) (h' : t.memEpoch = s.memEpoch) (a : Nat) :
    le16 t a = le16 s a := by simp [le16, inByte_congr h h']

theorem le32_congr {s t : State} (h : t.inMem = s.inMem) (h' : t.memEpoch = s.memEpoch) (a : Nat) :
    le32 t a = le32 s a := by simp [le32, inByte_congr h h']

theorem bitAt_congr {s t : State} (h : t.inMem = s.inMem) (h' : t.memEpoch = s.memEpoch) (p : Nat) :
    bitAt t p = bitAt s p := by simp [bitAt, inByte_congr h h']

theorem bitField_congr {s t : State} (h : t.inMem = s.inMem) (h' : t.memEpoch = s.memEpoch) (p n : Nat) :
    bitField t p n = bitField s p n := by
  induction n generalizing p with
  | zero => rfl
  | succ n ih => simp [bitField, bitAt_congr h h', ih]

theorem outByte_congr {s t : State} (h : t.outMem = s.outMem) (h' : t.outEpoch = s.outEpoch) (a : Nat) :
    outByte t a = outByte s a := by simp [outByte, h, h']

end Sys2Proof.Machine
end

