-- ==== Sys2Proof/Laws/BitReader.lean ====
section
/-! SUPPORT. What the bit reader can do (R150-R155): each primitive's success and its one failure, and the field it
reads as bits. -/

namespace Sys2Proof.Machine

theorem setBitpos_self (s : State) : setBitpos s.inf.bitpos s = s := rfl

@[simp] theorem setBitpos_setBitpos (p q : Nat) (s : State) : setBitpos q (setBitpos p s) = setBitpos q s := rfl

theorem bitAt_lt_two (s : State) (p : Nat) : bitAt s p < 2 := Nat.mod_lt _ (by omega)

@[simp] theorem bitAt_setBitpos (q : Nat) (s : State) (p : Nat) : bitAt (setBitpos q s) p = bitAt s p := rfl

@[simp] theorem bitField_setBitpos (q : Nat) (s : State) (p n : Nat) :
    bitField (setBitpos q s) p n = bitField s p n := bitField_congr (s := s) (t := setBitpos q s) rfl rfl p n

/-- R152: the value of an `n`-bit field. -/
theorem bitField_lt (s : State) (p n : Nat) : bitField s p n < 2 ^ n := by
  induction n generalizing p with
  | zero => simp [bitField]
  | succ n ih =>
    have h := ih (p + 1)
    have h2 := bitAt_lt_two s p
    simp only [bitField, Nat.pow_succ]
    omega

/-- R78: the first bit read is bit 0 of the value. -/
theorem bitField_testBit (s : State) (p n k : Nat) (h : k < n) :
    (bitField s p n).testBit k = decide (bitAt s (p + k) = 1) := by
  induction n generalizing p k with
  | zero => omega
  | succ n ih =>
    have h2 := bitAt_lt_two s p
    cases k with
    | zero =>
      simp only [bitField, Nat.testBit_zero, Nat.add_zero]
      congr 1
      apply propext
      omega
    | succ k =>
      have hd : (bitAt s p + 2 * bitField s (p + 1) n) / 2 = bitField s (p + 1) n := by omega
      rw [bitField, Nat.testBit_succ, hd, ih (p + 1) k (by omega)]
      congr 3
      omega

/-! ### ReadBits (R152) -/

theorem readBits_ok {n : Nat} {s : State} (h : s.inf.bitpos + n ≤ 8 * s.inf.regionEnd) :
    readBits n s = .ok (bitField s s.inf.bitpos n, setBitpos (s.inf.bitpos + n) s) := by
  unfold readBits
  split
  · next h0 => subst h0; rfl
  · rw [if_neg (by omega)]

@[simp] theorem readBits_zero (s : State) : readBits 0 s = .ok (0, s) := rfl

theorem readBits_overrun {n : Nat} {s : State} (hn : n ≠ 0) (h : 8 * s.inf.regionEnd < s.inf.bitpos + n) :
    readBits n s = .error (failInflate .inputOverrun s) := by
  rw [readBits, if_neg hn, if_pos (by omega)]; rfl

theorem readBits_eq_ok {n v : Nat} {s t : State} (h : readBits n s = .ok (v, t)) :
    v = bitField s s.inf.bitpos n ∧ t = setBitpos (s.inf.bitpos + n) s
      ∧ (n = 0 ∨ s.inf.bitpos + n ≤ 8 * s.inf.regionEnd) := by
  by_cases hn : n = 0
  · subst hn; cases h; exact ⟨rfl, rfl, .inl rfl⟩
  · by_cases hb : s.inf.bitpos + n ≤ 8 * s.inf.regionEnd
    · rw [readBits_ok hb] at h; cases h; exact ⟨rfl, rfl, .inr hb⟩
    · rw [readBits_overrun hn (by omega)] at h; cases h

theorem readBits_eq_error {n : Nat} {s e : State} (h : readBits n s = .error e) :
    e = failInflate .inputOverrun s ∧ n ≠ 0 ∧ 8 * s.inf.regionEnd < s.inf.bitpos + n := by
  by_cases hb : s.inf.bitpos + n ≤ 8 * s.inf.regionEnd
  · rw [readBits_ok hb] at h; cases h
  · have hn : n ≠ 0 := by rintro rfl; cases h
    rw [readBits_overrun hn (by omega)] at h; cases h; exact ⟨rfl, hn, by omega⟩

/-- R152: the two things ReadBits can do. -/
theorem readBits_cases (n : Nat) (s : State) :
    ((n = 0 ∨ s.inf.bitpos + n ≤ 8 * s.inf.regionEnd) ∧
      readBits n s = .ok (bitField s s.inf.bitpos n, setBitpos (s.inf.bitpos + n) s)) ∨
    ((n ≠ 0 ∧ 8 * s.inf.regionEnd < s.inf.bitpos + n) ∧
      readBits n s = .error (failInflate .inputOverrun s)) := by
  by_cases hn : n = 0
  · subst hn; exact .inl ⟨.inl rfl, rfl⟩
  · by_cases hb : s.inf.bitpos + n ≤ 8 * s.inf.regionEnd
    · exact .inl ⟨.inr hb, readBits_ok hb⟩
    · exact .inr ⟨⟨hn, by omega⟩, readBits_overrun hn (by omega)⟩

/-! ### ReadBit (R151) -/

theorem readBit_eq_readBits (s : State) : readBit s = readBits 1 s := by
  simp [readBit, readBits, bitField]

end Sys2Proof.Machine
end

