-- ==== Sys2Proof/Laws/Memory.lean ====
section
/-! SUPPORT. The laws of a port memory: a read after a write, and the canonical form. -/

namespace Sys2Proof.Machine

@[simp] theorem Memory.get?_nil (a : Nat) : Memory.get? [] a = none := rfl

@[simp] theorem Memory.get?_set_same (m : Memory) (a : Nat) (v : Byte) : (m.set a v).get? a = some v := by
  induction m with
  | nil => simp [Memory.set, Memory.get?]
  | cons c m ih =>
    obtain ⟨b, w⟩ := c
    simp only [Memory.set]
    split
    · simp [Memory.get?]
    · split
      · simp [Memory.get?]
      · simp [Memory.get?, Ne.symm ‹¬a = b›, ih]

@[simp] theorem Memory.get?_set_ne (m : Memory) {a b : Nat} (v : Byte) (h : b ≠ a) :
    (m.set a v).get? b = m.get? b := by
  induction m with
  | nil => simp [Memory.set, Memory.get?, Ne.symm h]
  | cons c m ih =>
    obtain ⟨k, w⟩ := c
    simp only [Memory.set]
    split
    · simp [Memory.get?, Ne.symm h]
    · split
      · subst k; simp [Memory.get?, Ne.symm h]
      · simp [Memory.get?, ih]

theorem Memory.risingFrom_mono {m : Memory} {lo hi : Nat} (h : Memory.risingFrom hi m = true) (hl : lo ≤ hi) :
    Memory.risingFrom lo m = true := by
  cases m with
  | nil => rfl
  | cons c m => simp [Memory.risingFrom] at h ⊢; exact ⟨by omega, h.2⟩

theorem Memory.risingFrom_set {m : Memory} {lo a : Nat} (v : Byte) (h : Memory.risingFrom lo m = true)
    (hl : lo ≤ a) : Memory.risingFrom lo (m.set a v) = true := by
  induction m generalizing lo with
  | nil => simp [Memory.set, Memory.risingFrom, hl]
  | cons c m ih =>
    obtain ⟨b, w⟩ := c
    simp only [Memory.risingFrom, Bool.and_eq_true, decide_eq_true_eq] at h
    simp only [Memory.set]
    split
    · simp only [Memory.risingFrom, Bool.and_eq_true, decide_eq_true_eq]
      exact ⟨hl, by omega, h.2⟩
    · split
      · subst a; simpa [Memory.risingFrom, hl] using h.2
      · simp only [Memory.risingFrom, Bool.and_eq_true, decide_eq_true_eq]
        exact ⟨h.1, ih h.2 (by omega)⟩

/-- A write keeps the canonical form. -/
theorem Memory.set_wf {m : Memory} (a : Nat) (v : Byte) (h : m.wf = true) : (m.set a v).wf = true :=
  Memory.risingFrom_set v h (Nat.zero_le a)

@[simp] theorem Memory.nil_wf : Memory.wf [] = true := rfl

/-- The addresses a write leaves listed. -/
theorem Memory.mem_set {m : Memory} {a : Nat} {v : Byte} {c : Host.Cell} (h : c ∈ m.set a v) :
    c = (a, v) ∨ c ∈ m := by
  induction m with
  | nil => simpa [Memory.set] using h
  | cons d m ih =>
    obtain ⟨b, w⟩ := d
    simp only [Memory.set] at h
    split at h
    · simpa using h
    · split at h
      · simp at h; rcases h with h | h <;> simp [h]
      · simp at h
        rcases h with h | h
        · simp [h]
        · rcases ih h with h | h <;> simp [h]

end Sys2Proof.Machine
end

