-- ==== Sys2Proof/Laws/Output.lean ====
section
/-! SUPPORT. What the writers of OUT can do: PutByte (R193), the stored copy (R195), the back-reference copier (R208)
and the copy of a stored entry (R304). -/

namespace Sys2Proof.Machine

/-! ### PutByte (R193) -/

/-- The state after PutByte has written `v`. -/
def withByte (v : Byte) (s : State) : State :=
  { s with
    outMem := s.outMem.set s.inf.destLen v
    inf := { s.inf with destLen := s.inf.destLen + 1 } }

theorem putByte_ok {v : Byte} {s : State} (h : s.inf.destLen ≠ s.inf.destCap) :
    putByte v s = .ok (withByte v s) := if_neg h

theorem putByte_full {v : Byte} {s : State} (h : s.inf.destLen = s.inf.destCap) :
    putByte v s = .error (failInflate .outputOverrun s) := if_pos h

theorem putByte_eq_ok {v : Byte} {s t : State} (h : putByte v s = .ok t) :
    s.inf.destLen ≠ s.inf.destCap ∧ t = withByte v s := by
  by_cases hc : s.inf.destLen = s.inf.destCap
  · rw [putByte_full hc] at h; cases h
  · rw [putByte_ok hc] at h; cases h; exact ⟨hc, rfl⟩

theorem putByte_eq_error {v : Byte} {s e : State} (h : putByte v s = .error e) :
    s.inf.destLen = s.inf.destCap ∧ e = failInflate .outputOverrun s := by
  by_cases hc : s.inf.destLen = s.inf.destCap
  · rw [putByte_full hc] at h; cases h; exact ⟨hc, rfl⟩
  · rw [putByte_ok hc] at h; cases h

@[simp] theorem outByte_withByte_same (v : Byte) (s : State) : outByte (withByte v s) s.inf.destLen = v := by
  simp [outByte, withByte]

theorem outByte_withByte_ne {v : Byte} {s : State} {a : Nat} (h : a ≠ s.inf.destLen) :
    outByte (withByte v s) a = outByte s a := by
  simp [outByte, withByte, Memory.get?_set_ne _ _ h]

/-! ### Appending `n` bytes -/

/-- `t` is `s` with `n` bytes appended to the destination and, perhaps, input bits consumed. -/
structure Appended (n : Nat) (s t : State) : Prop where
  /-- Nothing else has changed. -/
  rest : t = { s with
    outMem := t.outMem, inf := { s.inf with destLen := s.inf.destLen + n, bitpos := t.inf.bitpos } }
  /-- The bit position has not moved back. -/
  forward : s.inf.bitpos ≤ t.inf.bitpos
  /-- There was room. -/
  room : s.inf.destLen ≤ s.inf.destCap → s.inf.destLen + n ≤ s.inf.destCap
  /-- Every other byte is as before. -/
  others : ∀ a, (a < s.inf.destLen ∨ s.inf.destLen + n ≤ a) → t.outMem.get? a = s.outMem.get? a
  /-- Every appended byte has been written. -/
  written : ∀ a, s.inf.destLen ≤ a → a < s.inf.destLen + n → (t.outMem.get? a).isSome
  /-- The canonical form is kept. -/
  wf : s.outMem.wf = true → t.outMem.wf = true
  /-- No address beyond the new end is listed anew. -/
  listed : ∀ c ∈ t.outMem, c ∈ s.outMem ∨ c.1 < s.inf.destLen + n

theorem Appended.params {n : Nat} {s t : State} (h : Appended n s t) : t.params = s.params := by rw [h.rest]
theorem Appended.destLen {n : Nat} {s t : State} (h : Appended n s t) : t.inf.destLen = s.inf.destLen + n := by
  rw [h.rest]
theorem Appended.destCap {n : Nat} {s t : State} (h : Appended n s t) : t.inf.destCap = s.inf.destCap := by
  rw [h.rest]
theorem Appended.regionEnd {n : Nat} {s t : State} (h : Appended n s t) : t.inf.regionEnd = s.inf.regionEnd := by
  rw [h.rest]
theorem Appended.outEpoch {n : Nat} {s t : State} (h : Appended n s t) : t.outEpoch = s.outEpoch := by rw [h.rest]
theorem Appended.inMem {n : Nat} {s t : State} (h : Appended n s t) : t.inMem = s.inMem := by rw [h.rest]
theorem Appended.memEpoch {n : Nat} {s t : State} (h : Appended n s t) : t.memEpoch = s.memEpoch := by rw [h.rest]

theorem Appended.outByte_others {n : Nat} {s t : State} (h : Appended n s t) {a : Nat}
    (ha : a < s.inf.destLen ∨ s.inf.destLen + n ≤ a) : outByte t a = outByte s a := by
  simp [outByte, h.others a ha, h.outEpoch]

theorem Appended.inByte {n : Nat} {s t : State} (h : Appended n s t) (a : Nat) :
    Machine.inByte t a = Machine.inByte s a := inByte_congr h.inMem h.memEpoch a

theorem Appended.refl (s : State) : Appended 0 s s where
  rest := rfl
  forward := Nat.le_refl _
  room h := h
  others _ _ := rfl
  written a h1 h2 := by omega
  wf h := h
  listed c h := .inl h

theorem Appended.ofSetBitpos {s : State} {p : Nat} (h : s.inf.bitpos ≤ p) : Appended 0 s (setBitpos p s) where
  rest := rfl
  forward := h
  room h := h
  others _ _ := rfl
  written a h1 h2 := by omega
  wf h := h
  listed c h := .inl h

theorem Appended.ofByte {v : Byte} {s : State} (h : s.inf.destLen ≠ s.inf.destCap) :
    Appended 1 s (withByte v s) where
  rest := rfl
  forward := Nat.le_refl _
  room h' := by omega
  others a ha := Memory.get?_set_ne _ _ (by omega)
  written a h1 h2 := by
    have : a = s.inf.destLen := by omega
    subst this; simp [withByte]
  wf := Memory.set_wf _ _
  listed c hc := by
    rcases Memory.mem_set hc with rfl | hc
    · exact .inr (by simp)
    · exact .inl hc

theorem Appended.trans {m n : Nat} {s t u : State} (h1 : Appended m s t) (h2 : Appended n t u) :
    Appended (m + n) s u where
  rest := by
    have e2 := h2.rest
    rw [h1.rest] at e2
    rw [e2]
    simp [Nat.add_assoc]
  forward := Nat.le_trans h1.forward h2.forward
  room h := by
    have := h2.room (by rw [h1.destLen, h1.destCap]; exact h1.room h)
    rw [h1.destLen, h1.destCap] at this; omega
  others a ha := by
    rw [h2.others a (by rw [h1.destLen]; omega), h1.others a (by omega)]
  written a hl hr := by
    by_cases hm : a < s.inf.destLen + m
    · rw [h2.others a (by rw [h1.destLen]; omega)]; exact h1.written a hl hm
    · exact h2.written a (by rw [h1.destLen]; omega) (by rw [h1.destLen]; omega)
  wf h := h2.wf (h1.wf h)
  listed c hc := by
    rcases h2.listed c hc with hc | hc
    · rcases h1.listed c hc with hc | hc
      · exact .inl hc
      · exact .inr (by omega)
    · rw [h1.destLen] at hc; exact .inr (by omega)

theorem Appended.ofRead {v : Byte} {p : Nat} {s : State} (hp : s.inf.bitpos ≤ p)
    (h : s.inf.destLen ≠ s.inf.destCap) : Appended 1 s (withByte v (setBitpos p s)) := by
  have := (Appended.ofSetBitpos hp).trans (Appended.ofByte (v := v) (s := setBitpos p s) h)
  rwa [Nat.zero_add] at this

/-! ### Failing inside an inflate (R211, R346) -/

/-- `e` is `s` after the failure completion of some DataError raised inside an inflate, at a bit position that is not
before that of `s`. -/
def FailedInflate (s e : State) : Prop :=
  ∃ (c : Cause) (inf : Inflator), c.classCode = 3 ∧ inf.phase = .failed ∧ s.inf.bitpos ≤ inf.bitpos ∧
    e = fail c (inf.bitpos / 8) (inf.bitpos % 8) { s with inf := inf }

theorem failInflate_failed (c : Cause) (s : State) (h : c.classCode = 3) : FailedInflate s (failInflate c s) :=
  ⟨c, { s.inf with phase := .failed }, h, rfl, Nat.le_refl _, rfl⟩

/-- Whatever an inflate changed before a raise is not seen after it, but for its own working state. -/
theorem FailedInflate.of_frame {s t e : State} (h : FailedInflate t e)
    (ht : ∃ o i, t = { s with outMem := o, inf := i }) (hb : s.inf.bitpos ≤ t.inf.bitpos) : FailedInflate s e := by
  obtain ⟨c, inf, hc, hp, hle, he⟩ := h
  obtain ⟨o, i, rfl⟩ := ht
  exact ⟨c, inf, hc, hp, Nat.le_trans hb hle, he⟩

theorem FailedInflate.of_appended {n : Nat} {s t e : State} (h : FailedInflate t e) (ht : Appended n s t) :
    FailedInflate s e := h.of_frame ⟨_, _, ht.rest⟩ ht.forward

/-- `e` is the failure `c` raised inside an inflate at bit `p`, with nothing of `s` changed before it but OUT and the
inflator's own state. -/
def RaisedAt (c : Cause) (p : Nat) (s e : State) : Prop :=
  ∃ i : Inflator, i.phase = .failed ∧ i.bitpos = p ∧ e = fail c (p / 8) (p % 8) { s with inf := i }

theorem failInflate_raisedAt (c : Cause) (s : State) : RaisedAt c s.inf.bitpos s (failInflate c s) :=
  ⟨{ s.inf with phase := .failed }, rfl, rfl, rfl⟩

theorem RaisedAt.of_frame {c : Cause} {p : Nat} {s t e : State} (h : RaisedAt c p t e)
    (ht : ∃ o i, t = { s with outMem := o, inf := i }) : RaisedAt c p s e := by
  obtain ⟨i, hp, hb, he⟩ := h
  obtain ⟨o, j, rfl⟩ := ht
  exact ⟨i, hp, hb, he⟩

/-! ### The back-reference copier (R208) -/

theorem copyBack_eq_ok {dist n : Nat} {s t : State} (h : copyBack dist n s = .ok t) :
    Appended n s t ∧ t.inf.bitpos = s.inf.bitpos := by
  induction n generalizing s with
  | zero => cases h; exact ⟨.refl _, rfl⟩
  | succ n ih =>
    simp only [copyBack, bind, Except.bind] at h
    split at h
    · cases h
    · next u hu =>
      obtain ⟨hc, rfl⟩ := putByte_eq_ok hu
      obtain ⟨ha, hb⟩ := ih h
      exact ⟨Nat.add_comm 1 n ▸ (Appended.ofByte hc).trans ha, hb⟩

/-- R208, R88: each appended byte is the one `dist` before it, as it stands when the copy is over. -/
theorem copyBack_bytes {dist n : Nat} {s t : State} (h : copyBack dist n s = .ok t) (hd : 0 < dist)
    (hl : dist ≤ s.inf.destLen) {k : Nat} (hk : k < n) :
    outByte t (s.inf.destLen + k) = outByte t (s.inf.destLen + k - dist) := by
  induction n generalizing s k with
  | zero => omega
  | succ n ih =>
    simp only [copyBack, bind, Except.bind] at h
    split at h
    · cases h
    · next u hu =>
      obtain ⟨hc, rfl⟩ := putByte_eq_ok hu
      have ha := (copyBack_eq_ok h).1
      cases k with
      | zero =>
        rw [ha.outByte_others (.inl (by simp only [withByte]; omega)), ha.outByte_others (.inl (by simp only [withByte]; omega)),
          Nat.add_zero, outByte_withByte_same, outByte_withByte_ne (by omega)]
      | succ k =>
        have := ih h (by simp [withByte]; omega) (k := k) (by omega)
        simpa [withByte, Nat.add_assoc, Nat.add_comm 1 k] using this

theorem copyBack_eq_error {dist n : Nat} {s e : State} (h : copyBack dist n s = .error e) : FailedInflate s e := by
  induction n generalizing s with
  | zero => cases h
  | succ n ih =>
    simp only [copyBack, bind, Except.bind] at h
    split at h
    · next hu => cases h; rw [(putByte_eq_error hu).2]; exact failInflate_failed _ _ rfl
    · next u hu =>
      obtain ⟨hc, rfl⟩ := putByte_eq_ok hu
      exact (ih h).of_appended (Appended.ofByte hc)

/-- R208: with room for the whole match, the copy completes. -/
theorem copyBack_room {dist n : Nat} {s : State} (h : s.inf.destLen + n ≤ s.inf.destCap) :
    ∃ t, copyBack dist n s = .ok t := by
  induction n generalizing s with
  | zero => exact ⟨s, rfl⟩
  | succ n ih =>
    simp only [copyBack, bind, Except.bind, putByte_ok (show s.inf.destLen ≠ s.inf.destCap by omega)]
    exact ih (by simp [withByte]; omega)

/-- R208, R193: when room ends at byte `k` of the match, the copy fails there. -/
theorem copyBack_full {dist n k : Nat} {s : State} (hk : k < n) (h : s.inf.destLen + k = s.inf.destCap) :
    ∃ e, copyBack dist n s = .error e ∧ RaisedAt .outputOverrun s.inf.bitpos s e := by
  induction n generalizing s k with
  | zero => cases hk
  | succ n ih =>
    simp only [copyBack, bind, Except.bind]
    cases k with
    | zero =>
      rw [putByte_full h]
      exact ⟨_, rfl, failInflate_raisedAt _ s⟩
    | succ k =>
      rw [putByte_ok (show s.inf.destLen ≠ s.inf.destCap by omega)]
      obtain ⟨e, he, hf⟩ := ih (s := withByte (outByte s (s.inf.destLen - dist)) s) (k := k) (by omega)
        (by simp only [withByte]; omega)
      exact ⟨e, he, hf.of_frame ⟨_, _, rfl⟩⟩

/-! ### The copy of a stored entry (R304) -/

theorem copyIn_eq_ok {a n : Nat} {s t : State} (h : copyIn a n s = .ok t) :
    Appended n s t ∧ t.inf.bitpos = s.inf.bitpos ∧
      ∀ k, k < n → outByte t (s.inf.destLen + k) = inByte s (a + k) := by
  induction n generalizing s a with
  | zero => cases h; exact ⟨.refl _, rfl, fun k hk => by omega⟩
  | succ n ih =>
    simp only [copyIn, bind, Except.bind] at h
    split at h
    · cases h
    · next u hu =>
      obtain ⟨hc, rfl⟩ := putByte_eq_ok hu
      obtain ⟨ha, hb, hbytes⟩ := ih h
      refine ⟨Nat.add_comm 1 n ▸ (Appended.ofByte hc).trans ha, hb, fun k hk => ?_⟩
      cases k with
      | zero =>
        rw [ha.outByte_others (.inl (by simp [withByte]))]
        simp
      | succ k =>
        have := hbytes k (by omega)
        rw [(Appended.ofByte hc).inByte] at this
        simpa [withByte, Nat.add_assoc, Nat.add_comm 1 k] using this

theorem copyIn_room {a n : Nat} {s : State} (h : s.inf.destLen + n ≤ s.inf.destCap) :
    ∃ t, copyIn a n s = .ok t := by
  induction n generalizing s a with
  | zero => exact ⟨s, rfl⟩
  | succ n ih =>
    simp only [copyIn, bind, Except.bind, putByte_ok (show s.inf.destLen ≠ s.inf.destCap by omega)]
    exact ih (by simp [withByte]; omega)

/-! ### The copy of a stored block (R195) -/

theorem copyStored_eq_ok {n : Nat} {s t : State} (h : copyStored n s = .ok t) :
    Appended n s t ∧ t.inf.bitpos = s.inf.bitpos + 8 * n ∧ (0 < n → t.inf.bitpos ≤ 8 * s.inf.regionEnd) ∧
      ∀ k, k < n → outByte t (s.inf.destLen + k) = BitVec.ofNat 8 (bitField s (s.inf.bitpos + 8 * k) 8) := by
  induction n generalizing s with
  | zero => cases h; exact ⟨.refl _, rfl, by omega, fun k hk => by omega⟩
  | succ n ih =>
    simp only [copyStored, bind, Except.bind] at h
    rcases readBits_cases 8 s with ⟨hr, e⟩ | ⟨hr, e⟩ <;> rw [e] at h <;> simp only at h
    · split at h
      · cases h
      · next w hw =>
        have hw' := putByte_eq_ok hw
        obtain ⟨hc, hw'⟩ := hw'
        subst hw'
        obtain ⟨ha, hb, hin, hbytes⟩ := ih h
        have h1 := Appended.ofRead (v := BitVec.ofNat 8 (bitField s s.inf.bitpos 8))
          (Nat.le_add_right s.inf.bitpos 8) hc
        refine ⟨Nat.add_comm 1 n ▸ h1.trans ha, ?_, ?_, fun k hk => ?_⟩
        · rw [hb]; simp [withByte]; omega
        · intro _
          rcases Nat.eq_zero_or_pos n with rfl | hn
          · rw [hb]; simp [withByte]; omega
          · exact hin hn
        · cases k with
          | zero =>
            rw [ha.outByte_others (.inl (by simp [withByte]))]
            exact outByte_withByte_same _ (setBitpos (s.inf.bitpos + 8) s)
          | succ k =>
            have hk' := hbytes k (by omega)
            rw [bitField_congr h1.inMem h1.memEpoch] at hk'
            have e1 : s.inf.bitpos + 8 * (k + 1) = s.inf.bitpos + 8 + 8 * k := by omega
            have e2 : s.inf.destLen + (k + 1) = s.inf.destLen + 1 + k := by omega
            rw [e1, e2]
            exact hk'
    · cases h

theorem copyStored_eq_error {n : Nat} {s e : State} (h : copyStored n s = .error e) : FailedInflate s e := by
  induction n generalizing s with
  | zero => cases h
  | succ n ih =>
    simp only [copyStored, bind, Except.bind] at h
    have h0 : Appended 0 s (setBitpos (s.inf.bitpos + 8) s) := .ofSetBitpos (Nat.le_add_right _ 8)
    rcases readBits_cases 8 s with ⟨hr, e'⟩ | ⟨hr, e'⟩ <;> rw [e'] at h <;> simp only at h
    · split at h
      · next hw => cases h; rw [(putByte_eq_error hw).2]; exact (failInflate_failed _ _ rfl).of_appended h0
      · next w hw =>
        have hw' := putByte_eq_ok hw
        obtain ⟨hc, hw'⟩ := hw'
        subst hw'
        exact (ih h).of_appended (h0.trans (Appended.ofByte hc))
    · cases h; exact failInflate_failed _ _ rfl

/-- R195: with the data in the region and room for it, the copy completes. -/
theorem copyStored_room {n : Nat} {s : State} (h : s.inf.destLen + n ≤ s.inf.destCap)
    (hr : s.inf.bitpos + 8 * n ≤ 8 * s.inf.regionEnd) : ∃ t, copyStored n s = .ok t := by
  induction n generalizing s with
  | zero => exact ⟨s, rfl⟩
  | succ n ih =>
    simp only [copyStored, bind, Except.bind, readBits_ok (show s.inf.bitpos + 8 ≤ 8 * s.inf.regionEnd by omega)]
    rw [putByte_ok (by simp; omega)]
    exact ih (by simp [withByte]; omega) (by simp [withByte]; omega)

/-- R195: when the region ends at byte `k` of the data, there being room till then, the copy fails there. -/
theorem copyStored_cut {n k : Nat} {s : State} (hk : k < n) (hd : s.inf.destLen + k ≤ s.inf.destCap)
    (h1 : s.inf.bitpos + 8 * k ≤ 8 * s.inf.regionEnd) (h2 : 8 * s.inf.regionEnd < s.inf.bitpos + 8 * k + 8) :
    ∃ e, copyStored n s = .error e ∧ RaisedAt .inputOverrun (s.inf.bitpos + 8 * k) s e := by
  induction n generalizing s k with
  | zero => cases hk
  | succ n ih =>
    simp only [copyStored, bind, Except.bind]
    cases k with
    | zero =>
      rw [readBits_overrun (n := 8) (by omega) h2]
      exact ⟨_, rfl, failInflate_raisedAt _ s⟩
    | succ k =>
      rw [readBits_ok (show s.inf.bitpos + 8 ≤ 8 * s.inf.regionEnd by omega)]
      simp only
      rw [putByte_ok (show (setBitpos (s.inf.bitpos + 8) s).inf.destLen ≠ (setBitpos (s.inf.bitpos + 8) s).inf.destCap by
        simp only [setBitpos_inf]; omega)]
      obtain ⟨e, he, hf⟩ := ih (s := withByte (BitVec.ofNat 8 (bitField s s.inf.bitpos 8)) (setBitpos (s.inf.bitpos + 8) s))
        (k := k) (by omega) (by simp only [withByte, setBitpos_inf]; omega)
        (by simp only [withByte, setBitpos_inf]; omega) (by simp only [withByte, setBitpos_inf]; omega)
      refine ⟨e, he, ?_⟩
      have e1 : s.inf.bitpos + 8 * (k + 1) = s.inf.bitpos + 8 + 8 * k := by omega
      rw [e1]
      exact hf.of_frame ⟨_, _, rfl⟩

/-- R195, R193: when room ends at byte `k` of the data, which the region still has, the copy fails after reading it. -/
theorem copyStored_full {n k : Nat} {s : State} (hk : k < n) (hd : s.inf.destLen + k = s.inf.destCap)
    (h : s.inf.bitpos + 8 * k + 8 ≤ 8 * s.inf.regionEnd) :
    ∃ e, copyStored n s = .error e ∧ RaisedAt .outputOverrun (s.inf.bitpos + 8 * k + 8) s e := by
  induction n generalizing s k with
  | zero => cases hk
  | succ n ih =>
    simp only [copyStored, bind, Except.bind]
    rw [readBits_ok (show s.inf.bitpos + 8 ≤ 8 * s.inf.regionEnd by omega)]
    simp only
    cases k with
    | zero =>
      rw [putByte_full (show (setBitpos (s.inf.bitpos + 8) s).inf.destLen = _ from hd)]
      exact ⟨_, rfl, (failInflate_raisedAt _ (setBitpos (s.inf.bitpos + 8) s)).of_frame ⟨_, _, rfl⟩⟩
    | succ k =>
      rw [putByte_ok (show (setBitpos (s.inf.bitpos + 8) s).inf.destLen ≠ (setBitpos (s.inf.bitpos + 8) s).inf.destCap by
        simp only [setBitpos_inf]; omega)]
      obtain ⟨e, he, hf⟩ := ih (s := withByte (BitVec.ofNat 8 (bitField s s.inf.bitpos 8)) (setBitpos (s.inf.bitpos + 8) s))
        (k := k) (by omega) (by simp only [withByte, setBitpos_inf]; omega)
        (by simp only [withByte, setBitpos_inf]; omega)
      refine ⟨e, he, ?_⟩
      have e1 : s.inf.bitpos + 8 * (k + 1) + 8 = s.inf.bitpos + 8 + 8 * k + 8 := by omega
      rw [e1]
      exact hf.of_frame ⟨_, _, rfl⟩

end Sys2Proof.Machine
end

