-- ==== Sys2Proof/Laws/Zip.lean ====
section
/-! SUPPORT. What the bodies of the three ZIP records can do (R266-R278): the checks that a success has passed and the
state it leaves; a failure is the failure completion of the state before. -/

namespace Sys2Proof.Machine

/-- `e` is `s` after the failure completion of a cause that records no bit position (R341). -/
def FailedAt (s e : State) : Prop := ∃ c pos, e = fail c pos 0 s

/-- R267-R270: the EOCD record at `e` passes every check. -/
structure EocdOk (e : Nat) (s : State) : Prop where
  disk : le16 s (e + 4) = 0
  startDisk : le16 s (e + 6) = 0
  counts : le16 s (e + 8) = le16 s (e + 10)
  comment : e + 22 + le16 s (e + 20) ≤ inLen s
  entries : le16 s (e + 10) ≤ s.params.maxEntries

/-- R270, R271: the state in which the walk starts. -/
def walkStart (e : Nat) (s : State) : State :=
  goTo (if le16 s (e + 10) = 0 then .finish else .walkCdh)
    { s with ft := [], zip := { s.zip with cdCursor := le32 s (e + 16), cdLeft := le16 s (e + 10) } }

theorem eocdBody_ok {e : Nat} {s : State} (h : EocdOk e s) : eocdBody e s = .ok (walkStart e s) := by
  have h1 := h.disk; have h2 := h.startDisk; have h3 := h.counts; have h4 := h.comment; have h5 := h.entries
  unfold eocdBody
  rw [if_neg (by omega), if_neg (by omega), if_neg (by omega), if_neg (by omega)]
  rfl

theorem eocdBody_eq_ok {e : Nat} {s t : State} (h : eocdBody e s = .ok t) : EocdOk e s ∧ t = walkStart e s := by
  unfold eocdBody at h
  split at h; · cases h
  split at h; · cases h
  split at h; · cases h
  split at h; · cases h
  cases h
  exact ⟨⟨by omega, by omega, by omega, by omega, by omega⟩, rfl⟩

theorem eocdBody_eq_error {e : Nat} {s x : State} (h : eocdBody e s = .error x) : FailedAt s x := by
  unfold eocdBody at h
  split at h; · cases h; exact ⟨_, _, rfl⟩
  split at h; · cases h; exact ⟨_, _, rfl⟩
  split at h; · cases h; exact ⟨_, _, rfl⟩
  split at h; · cases h; exact ⟨_, _, rfl⟩
  cases h

/-- R273, R274: the central-directory record at `p` passes every check. -/
structure CdhOk (p : Nat) (s : State) : Prop where
  version : le16 s (p + 6) ≤ 20
  plain : le16 s (p + 8) % 2 = 0
  method : le16 s (p + 10) = 0 ∨ le16 s (p + 10) = 8
  fields : nextCdh p s ≤ inLen s

/-- R275: the state in which the local header of the record at `p` is looked at. -/
def toLfh (p : Nat) (s : State) : State := goTo .checkLfh { s with zip := { s.zip with lfhPos := le32 s (p + 42) } }

theorem cdhBody_ok {p : Nat} {s : State} (h : CdhOk p s) : cdhBody p s = .ok (toLfh p s) := by
  have h1 := h.version; have h2 := h.plain; have h3 := h.method; have h4 := h.fields
  unfold cdhBody
  rw [if_neg (by omega), if_neg (by omega), if_neg (by omega), if_neg (by simp only [nextCdh] at h4; omega)]
  rfl

theorem cdhBody_eq_ok {p : Nat} {s t : State} (h : cdhBody p s = .ok t) : CdhOk p s ∧ t = toLfh p s := by
  unfold cdhBody at h
  split at h; · cases h
  split at h; · cases h
  split at h; · cases h
  split at h; · cases h
  cases h
  exact ⟨⟨by omega, by omega, by omega, by simp only [nextCdh]; omega⟩, rfl⟩

theorem cdhBody_eq_error {p : Nat} {s x : State} (h : cdhBody p s = .error x) : FailedAt s x := by
  unfold cdhBody at h
  split at h; · cases h; exact ⟨_, _, rfl⟩
  split at h; · cases h; exact ⟨_, _, rfl⟩
  split at h; · cases h; exact ⟨_, _, rfl⟩
  split at h; · cases h; exact ⟨_, _, rfl⟩
  cases h

/-- R277, R278: the state with the record at `p`, whose local header is at `h`, appended. -/
def withEntry (p h : Nat) (s : State) : State :=
  goTo (if s.zip.cdLeft ≤ 1 then .finish else .walkCdh)
    { s with
      ft := s.ft ++ [entryAt p h s]
      zip := { s.zip with cdCursor := nextCdh p s, cdLeft := s.zip.cdLeft - 1 } }

theorem lfhBody_ok {p h : Nat} {s : State} (hc : contentStart h s + le32 s (p + 20) ≤ inLen s) :
    lfhBody p h s = .ok (withEntry p h s) := by
  rw [lfhBody, if_neg (by omega)]; rfl

theorem lfhBody_eq_ok {p h : Nat} {s t : State} (hl : lfhBody p h s = .ok t) :
    contentStart h s + le32 s (p + 20) ≤ inLen s ∧ t = withEntry p h s := by
  unfold lfhBody at hl
  split at hl
  · cases hl
  · cases hl; exact ⟨by omega, rfl⟩

theorem lfhBody_eq_error {p h : Nat} {s x : State} (hl : lfhBody p h s = .error x) :
    FailedAt s x ∧ inLen s < contentStart h s + le32 s (p + 20) := by
  unfold lfhBody at hl
  split at hl
  · cases hl; exact ⟨⟨_, _, rfl⟩, by omega⟩
  · cases hl

/-! ### The widths of the fields (R40, R77) -/

theorem le16_lt (s : State) (a : Nat) : le16 s a < 2 ^ 16 := by
  have h0 := (inByte s a).isLt
  have h1 := (inByte s (a + 1)).isLt
  unfold le16; omega

theorem le32_lt (s : State) (a : Nat) : le32 s a < 2 ^ 32 := by
  have h0 := (inByte s a).isLt
  have h1 := (inByte s (a + 1)).isLt
  have h2 := (inByte s (a + 2)).isLt
  have h3 := (inByte s (a + 3)).isLt
  unfold le32; omega

theorem inLen_lt (s : State) : inLen s < 2 ^ 32 := s.regs.inLen.isLt

end Sys2Proof.Machine
end

