-- ==== Sys2Proof/Laws/Commands.lean ====
section
/-! SUPPORT. What the command bodies can do (R302-R313): OPEN's start, READ's lookup and start, INFLATE's start, CRC32,
and the ends of OPEN, READ and INFLATE. -/

namespace Sys2Proof.Machine

/-! ### OPEN (R310) -/

theorem openBody_cases (s : State) :
    (inLen s > s.params.inCap ∧ openBody s = .error (fail .argRange 0 0 s)) ∨
    (inLen s ≤ s.params.inCap ∧ inLen s < 22 ∧ openBody s = .error (fail .bufferTooShort 0 0 s)) ∨
    (inLen s ≤ s.params.inCap ∧ 22 ≤ inLen s ∧
      openBody s = .ok (goTo .scanEocd { s with zip := { s.zip with scanPos := inLen s - 22 } })) := by
  unfold openBody raise
  by_cases h1 : inLen s > s.params.inCap
  · exact .inl ⟨h1, if_pos h1⟩
  · rw [if_neg h1]
    by_cases h2 : inLen s < 22
    · exact .inr (.inl ⟨by omega, h2, if_pos h2⟩)
    · exact .inr (.inr ⟨by omega, by omega, if_neg h2⟩)

/-! ### The name lookup (R279) -/

theorem bytesMatch_iff (s : State) (off j n : Nat) :
    bytesMatch s off j n = true ↔ ∀ k, j ≤ k → k < j + n → inByte s (off + k) = nameByte s k := by
  induction n generalizing j with
  | zero => simp only [bytesMatch, true_iff]; intro k h1 h2; omega
  | succ n ih =>
    simp only [bytesMatch, Bool.and_eq_true, decide_eq_true_eq, ih]
    constructor
    · rintro ⟨h, hs⟩ k h1 h2
      by_cases hk : k = j
      · subst hk; exact h
      · exact hs k (by omega) (by omega)
    · intro h
      exact ⟨h j (Nat.le_refl _) (by omega), fun k h1 h2 => h k (by omega) (by omega)⟩

/-- R279: what a match is. -/
theorem nameMatches_iff (s : State) (e : Entry) :
    nameMatches s e = true ↔ e.nameLen = s.regs.nameLen.toNat ∧
      ∀ j, j < e.nameLen → inByte s (e.nameOff + j) = nameByte s j := by
  simp only [nameMatches, Bool.and_eq_true, decide_eq_true_eq, bytesMatch_iff]
  constructor
  · rintro ⟨h1, h2⟩; exact ⟨h1, fun j hj => h2 j (Nat.zero_le _) (by omega)⟩
  · rintro ⟨h1, h2⟩; exact ⟨h1, fun j _ hj => h2 j (by omega)⟩

/-- A found record is a record of the table, at the index given. -/
theorem lookupFrom_eq_some {s : State} {k : Nat} {es : List Entry} {i : Nat} {e : Entry}
    (h : lookupFrom s k es = some (i, e)) : k ≤ i ∧ es[i - k]? = some e ∧ nameMatches s e = true := by
  induction es generalizing k with
  | nil => cases h
  | cons x es ih =>
    simp only [lookupFrom] at h
    split at h
    · next r hr =>
      cases h
      obtain ⟨h1, h2, h3⟩ := ih hr
      refine ⟨by omega, ?_, h3⟩
      have e1 : i - k = i - (k + 1) + 1 := by omega
      rw [e1, List.getElem?_cons_succ]
      exact h2
    · split at h
      · next hm => cases h; exact ⟨Nat.le_refl _, by simp, hm⟩
      · cases h

theorem lookup_eq_some {s : State} {i : Nat} {e : Entry} (h : lookup s = some (i, e)) :
    s.ft[i]? = some e ∧ nameMatches s e = true := by
  obtain ⟨-, h2, h3⟩ := lookupFrom_eq_some h
  exact ⟨h2, h3⟩

/-! ### READ (R302-R304) -/

/-- R304: the state in which the stored bytes are copied. -/
def storedStart (e : Entry) (s : State) : State :=
  { s with inf := { s.inf with destLen := 0, destCap := e.usize } }

theorem produce_eq_ok {e : Entry} {s t : State} (h : produce e s = .ok t) :
    e.usize ≤ s.params.outCap ∧
    ((e.method = 8 ∧ t = startInflate e.dataOff (e.dataOff + e.csize) e.usize s) ∨
     (e.method ≠ 8 ∧ e.csize = e.usize ∧
      ∃ u, copyIn e.dataOff e.usize (storedStart e s) = .ok u ∧ t = goTo .finish u)) := by
  unfold produce at h
  split at h; · cases h
  split at h
  · next h1 h2 => cases h; exact ⟨by omega, .inl ⟨h2, rfl⟩⟩
  · split at h
    · cases h
    · next h1 h2 h3 =>
      simp only [bind, Except.bind] at h
      split at h
      · cases h
      · next u hu => cases h; exact ⟨by omega, .inr ⟨h2, Decidable.not_not.mp h3, u, hu, rfl⟩⟩

/-- R304: READ's own failures after the lookup; the stored copy never raises, its length being its capacity. -/
theorem produce_eq_error {e : Entry} {s x : State} (h : produce e s = .error x) : FailedAt s x := by
  unfold produce at h
  split at h
  · cases h; exact ⟨_, _, rfl⟩
  · split at h
    · cases h
    · split at h
      · cases h; exact ⟨_, _, rfl⟩
      · exfalso
        simp only [bind, Except.bind] at h
        obtain ⟨u, hu⟩ := copyIn_room (a := e.dataOff) (n := e.usize) (s := storedStart e s)
          (by simp [storedStart])
        rw [storedStart] at hu
        rw [hu] at h
        cases h

theorem readBody_eq_ok {s t : State} (h : readBody s = .ok t) :
    s.regs.openValid = true ∧ s.regs.nameLen.toNat ≤ s.params.nameCap ∧
      ∃ k e, lookup s = some (k, e) ∧ produce e { s with ent := entRegsOf k e } = .ok t := by
  unfold readBody at h
  split at h; · cases h
  split at h; · cases h
  split at h
  · cases h
  · next h1 h2 _ k e hl => exact ⟨by simpa using h1, by omega, k, e, hl, h⟩

/-- A READ that fails before its bytes are produced leaves only the ENT registers changed besides. -/
theorem readBody_eq_error {s x : State} (h : readBody s = .error x) :
    ∃ r, FailedAt { s with ent := r } x := by
  unfold readBody at h
  split at h; · cases h; exact ⟨s.ent, _, _, rfl⟩
  split at h; · cases h; exact ⟨s.ent, _, _, rfl⟩
  split at h
  · cases h; exact ⟨s.ent, _, _, rfl⟩
  · exact ⟨_, produce_eq_error h⟩

/-! ### INFLATE and CRC32 (R312, R313) -/

theorem inflateBody_cases (s : State) :
    (inLen s ≤ s.params.inCap ∧ s.regs.arg0.toNat + s.regs.arg1.toNat ≤ inLen s ∧
      s.regs.arg2.toNat ≤ s.params.outCap ∧
      inflateBody s = .ok
        (startInflate s.regs.arg0.toNat (s.regs.arg0.toNat + s.regs.arg1.toNat) s.regs.arg2.toNat s)) ∨
    ((inLen s > s.params.inCap ∨ s.regs.arg0.toNat + s.regs.arg1.toNat > inLen s ∨
      s.regs.arg2.toNat > s.params.outCap) ∧ inflateBody s = .error (fail .argRange 0 0 s)) := by
  unfold inflateBody raise
  by_cases h : inLen s > s.params.inCap ∨ s.regs.arg0.toNat + s.regs.arg1.toNat > inLen s ∨
      s.regs.arg2.toNat > s.params.outCap
  · exact .inr ⟨h, if_pos h⟩
  · exact .inl ⟨by omega, by omega, by omega, if_neg h⟩

theorem crc32Body_cases (s : State) :
    (inLen s ≤ s.params.inCap ∧ s.regs.arg0.toNat + s.regs.arg1.toNat ≤ inLen s ∧
      crc32Body s = .ok (complete (putCrc (inByte s) s.regs.arg0.toNat s.regs.arg1.toNat s))) ∨
    ((inLen s > s.params.inCap ∨ s.regs.arg0.toNat + s.regs.arg1.toNat > inLen s) ∧
      crc32Body s = .error (fail .argRange 0 0 s)) := by
  unfold crc32Body raise
  by_cases h : inLen s > s.params.inCap ∨ s.regs.arg0.toNat + s.regs.arg1.toNat > inLen s
  · exact .inr ⟨h, if_pos h⟩
  · exact .inl ⟨by omega, by omega, if_neg h⟩

/-! ### The ends (R260, R306, R312) -/

/-- R304, R306: the three ways READ ends once its bytes are produced. -/
theorem finishRead_cases (s : State) :
    (s.ent.method = 8 ∧ s.inf.destLen ≠ s.ent.usize.toNat ∧
      finishRead s = fail .outputShort (s.inf.bitpos / 8) (s.inf.bitpos % 8) s) ∨
    ((s.ent.method = 8 → s.inf.destLen = s.ent.usize.toNat) ∧ crc32 (outByte s) 0 s.inf.destLen ≠ s.ent.crc ∧
      finishRead s = fail .crcMismatch 0 0 (putCrc (outByte s) 0 s.inf.destLen s)) ∨
    ((s.ent.method = 8 → s.inf.destLen = s.ent.usize.toNat) ∧ crc32 (outByte s) 0 s.inf.destLen = s.ent.crc ∧
      finishRead s = complete (putOutLen s.inf.destLen (putCrc (outByte s) 0 s.inf.destLen s))) := by
  by_cases h1 : s.ent.method = 8 ∧ s.inf.destLen ≠ s.ent.usize.toNat
  · exact .inl ⟨h1.1, h1.2, by rw [finishRead, if_pos h1]⟩
  · have e1 : finishRead s = checkCrc (putCrc (outByte s) 0 s.inf.destLen s) := by rw [finishRead, if_neg h1]
    have h2 : s.ent.method = 8 → s.inf.destLen = s.ent.usize.toNat := fun hm =>
      Decidable.not_not.mp fun hn => h1 ⟨hm, hn⟩
    right
    by_cases h3 : crc32 (outByte s) 0 s.inf.destLen = s.ent.crc
    · refine .inr ⟨h2, h3, ?_⟩
      rw [e1, checkCrc, if_neg (by simpa using h3)]
      rfl
    · refine .inl ⟨h2, h3, ?_⟩
      rw [e1, checkCrc, if_pos (by simpa using h3)]

end Sys2Proof.Machine
end

