-- ==== Sys2Proof/Laws/Huffman.lean ====
section
/-! SUPPORT. What the symbol decoder (R175) and the tree builder (R171) can do. -/

namespace Sys2Proof.Machine

/-- The number of symbols of `t` whose code length is 1..l: the `sum` of R175 after `l` bits. -/
def ranksUpTo (t : Tree) : (l : Nat) → Nat
  | 0 => 0
  | l + 1 => ranksUpTo t l + t.count.getD (l + 1) 0

/-- R175, R176: the loop's success. It has consumed 1 to `fuel` bits of the region, and the slot it read is a rank of
a symbol of the length it stopped at. -/
theorem decodeSymLoop_eq_ok {t : Tree} {fuel len : Nat} {cur : Int} {s u : State} {o : Option Nat}
    (h : decodeSymLoop t fuel len (ranksUpTo t len) cur s = .ok (o, u)) (hc : 0 ≤ cur) :
    ∃ l r, len < l ∧ l ≤ len + fuel ∧ ranksUpTo t (l - 1) ≤ r ∧ r < ranksUpTo t l ∧ o = t.sym.getD r none ∧
      u = setBitpos (s.inf.bitpos + (l - len)) s ∧ s.inf.bitpos + (l - len) ≤ 8 * s.inf.regionEnd := by
  induction fuel generalizing len cur s with
  | zero => cases h
  | succ fuel ih =>
    simp only [decodeSymLoop, bind, Except.bind, readBit_eq_readBits] at h
    rcases readBits_cases 1 s with ⟨hr, e⟩ | ⟨hr, e⟩ <;> rw [e] at h <;> simp only at h
    · have hb := bitField_lt s s.inf.bitpos 1
      generalize bitField s s.inf.bitpos 1 = b at h hb
      split at h
      · next hneg =>
        cases h
        refine ⟨len + 1, _, Nat.lt_succ_self _, by omega, ?_, ?_, rfl, ?_, ?_⟩
        · simp only [Nat.add_sub_cancel] at hneg ⊢; omega
        · simp only [ranksUpTo] at hneg ⊢; omega
        · rw [Nat.add_sub_cancel_left]
        · omega
      · next hpos =>
        have e2 : ranksUpTo t len + t.count.getD (len + 1) 0 = ranksUpTo t (len + 1) := rfl
        rw [e2] at h
        obtain ⟨l, r, h1, h2, h3, h4, h5, h6, h7⟩ := ih h (by omega)
        refine ⟨l, r, by omega, by omega, h3, h4, h5, ?_, ?_⟩
        · rw [h6, setBitpos_setBitpos]; congr 1; simp; omega
        · simp at h7; omega
    · cases h

/-- R175: the loop's failures. -/
theorem decodeSymLoop_eq_error {t : Tree} {fuel len sum : Nat} {cur : Int} {s e : State}
    (h : decodeSymLoop t fuel len sum cur s = .error e) :
    ∃ p, s.inf.bitpos ≤ p ∧ ((e = failInflate .invalidCode (setBitpos p s) ∧ p = s.inf.bitpos + fuel) ∨
      (e = failInflate .inputOverrun (setBitpos p s) ∧ 8 * s.inf.regionEnd ≤ p ∧ p < s.inf.bitpos + fuel)) := by
  induction fuel generalizing len sum cur s with
  | zero => cases h; exact ⟨s.inf.bitpos, Nat.le_refl _, .inl ⟨rfl, rfl⟩⟩
  | succ fuel ih =>
    simp only [decodeSymLoop, bind, Except.bind, readBit_eq_readBits] at h
    rcases readBits_cases 1 s with ⟨hr, e'⟩ | ⟨hr, e'⟩ <;> rw [e'] at h <;> simp only at h
    · split at h
      · cases h
      · obtain ⟨p, hp, h'⟩ := ih h
        simp only [setBitpos_setBitpos, setBitpos_inf] at h' hp
        refine ⟨p, by omega, ?_⟩
        rcases h' with ⟨h1, h2⟩ | ⟨h1, h2, h3⟩
        · exact .inl ⟨h1, by omega⟩
        · exact .inr ⟨h1, h2, by omega⟩
    · cases h
      exact ⟨s.inf.bitpos, Nat.le_refl _, .inr ⟨rfl, by omega, by omega⟩⟩

/-- R175, R176: what a successful DecodeSym has done. -/
theorem decodeSym_eq_ok {t : Tree} {s u : State} {o : Option Nat} (h : decodeSym t s = .ok (o, u)) :
    ∃ l r, 0 < l ∧ l ≤ 15 ∧ ranksUpTo t (l - 1) ≤ r ∧ r < ranksUpTo t l ∧ o = t.sym.getD r none ∧
      u = setBitpos (s.inf.bitpos + l) s ∧ s.inf.bitpos + l ≤ 8 * s.inf.regionEnd := by
  obtain ⟨l, r, h1, h2, h3, h4, h5, h6, h7⟩ := decodeSymLoop_eq_ok (len := 0) h (Int.le_refl 0)
  exact ⟨l, r, h1, by omega, h3, h4, h5, h6, h7⟩

/-- R175: a failing DecodeSym fails the inflate. -/
theorem decodeSym_eq_error {t : Tree} {s e : State} (h : decodeSym t s = .error e) : FailedInflate s e := by
  obtain ⟨p, hp, ⟨rfl, -⟩ | ⟨rfl, -, -⟩⟩ := decodeSymLoop_eq_error h
  · exact (failInflate_failed _ _ rfl).of_frame ⟨_, _, rfl⟩ hp
  · exact (failInflate_failed _ _ rfl).of_frame ⟨_, _, rfl⟩ hp

/-! ### The builder -/

/-- R171: the count table of a built tree. -/
theorem buildTree_count (lens : List Nat) {l : Nat} (h1 : 1 ≤ l) (h2 : l ≤ 15) :
    (buildTree lens).count.getD l 0 = lens.count l := by
  obtain ⟨k, rfl⟩ : ∃ k, l = k + 1 := ⟨l - 1, by omega⟩
  have hk : k < 15 := by omega
  simp [buildTree, countTable, List.getD_eq_getElem?_getD, hk, Nat.add_comm]

/-! ### Bits that begin with no codeword (R170, R175) -/

/-- The value of `n` bits from bit `p` on, most significant bit first, as the codeword loop gathers them (R79). -/
def codeField (s : State) (p : Nat) : (n : Nat) → Nat
  | 0 => 0
  | n + 1 => 2 * codeField s p n + bitAt s (p + n)

theorem codeField_testBit (s : State) (p n k : Nat) (h : k < n) :
    ((codeField s p n).testBit (n - 1 - k)).toNat = bitAt s (p + k) := by
  induction n with
  | zero => omega
  | succ n ih =>
    have hb := bitAt_lt_two s (p + n)
    rw [codeField]
    rcases Nat.lt_or_ge k n with hk | hk
    · rw [show n + 1 - 1 - k = (n - 1 - k) + 1 by omega, Nat.testBit_succ,
        show (2 * codeField s p n + bitAt s (p + n)) / 2 = codeField s p n by omega]
      exact ih hk
    · obtain rfl : k = n := by omega
      rw [show k + 1 - 1 - k = 0 by omega, Nat.testBit_zero]
      rcases (by omega : bitAt s (p + k) = 0 ∨ bitAt s (p + k) = 1) with hz | hz
      · rw [hz, show (2 * codeField s p k + 0) % 2 = 0 by omega]; rfl
      · rw [hz, show (2 * codeField s p k + 1) % 2 = 1 by omega]; rfl

/-- R79: the stream has the code whose bits it has. -/
theorem streamHas_codeBits {s : State} {p n c : Nat} (h : ∀ k, k < n → bitAt s (p + k) = (c.testBit (n - 1 - k)).toNat) :
    StreamHas s p (codeBits n c) := by
  induction n generalizing p with
  | zero => trivial
  | succ n ih =>
    refine ⟨?_, ih fun k hk => ?_⟩
    · have := h 0 (Nat.succ_pos n)
      rwa [Nat.add_zero, show n + 1 - 1 - 0 = n by omega] at this
    · have := h (k + 1) (Nat.succ_lt_succ hk)
      rwa [show p + (k + 1) = p + 1 + k by omega, show n + 1 - 1 - (k + 1) = n - 1 - k by omega] at this

/-- R170: every rank below the number of symbols of length `l` is the rank of one of them. -/
theorem exists_of_rank {lens : List Nat} {l r : Nat} (h : r < lens.count l) :
    ∃ i : Nat, lens[i]? = some l ∧ (lens.take i).count l = r := by
  induction lens generalizing r with
  | nil => simp at h
  | cons x lens ih =>
    rw [List.count_cons] at h
    by_cases hx : x = l
    · subst hx
      cases r with
      | zero => exact ⟨0, rfl, rfl⟩
      | succ r =>
        obtain ⟨i, hi, hr⟩ := ih (r := r) (by simp only [beq_self_eq_true, if_true] at h; omega)
        exact ⟨i + 1, hi, by rw [List.take_succ_cons, List.count_cons_self, hr]⟩
    · have hne : (x == l) = false := by simpa using hx
      rw [hne] at h
      obtain ⟨i, hi, hr⟩ := ih (r := r) h
      exact ⟨i + 1, hi, by rw [List.take_succ_cons, List.count_cons_of_ne hx, hr]⟩

/-- The bits of `s` from bit `p` on begin with no codeword of at most `n` bits (R170). -/
def NoCodeword (lens : List Nat) (n : Nat) (s : State) (p : Nat) : Prop :=
  ∀ i l, lens[i]? = some l → l ≠ 0 → l ≤ n → ¬ StreamHas s p (codeBits l (canonicalCode lens i))

/-- R175: what `cur` is after `len` bits that complete no codeword. -/
def curAfter (lens : List Nat) (s : State) (p : Nat) : (len : Nat) → Int
  | 0 => 0
  | len + 1 => (codeField s p (len + 1) : Int) - (firstCode lens (len + 1) : Int) - (lens.count (len + 1) : Int)

theorem curAfter_succ (lens : List Nat) (s : State) (p len : Nat) : curAfter lens s p (len + 1) =
    (codeField s p (len + 1) : Int) - (firstCode lens (len + 1) : Int) - (lens.count (len + 1) : Int) := rfl

theorem curAfter_step (lens : List Nat) (s : State) (p len : Nat) :
    2 * curAfter lens s p len + (bitAt s (p + len) : Int) - (lens.count (len + 1) : Int) =
      curAfter lens s p (len + 1) := by
  cases len with
  | zero => simp only [curAfter, codeField, firstCode]; omega
  | succ len => simp only [curAfter, codeField, firstCode]; omega

/-- R175, R177: where `cur` has become negative, the bits read so far are a codeword. -/
theorem curAfter_nonneg {lens : List Nat} {s : State} {p len n : Nat} (h : NoCodeword lens n s p) (hn : len + 1 ≤ n)
    (hc : 0 ≤ curAfter lens s p len) : 0 ≤ curAfter lens s p (len + 1) := by
  refine Int.not_lt.mp fun hneg => ?_
  have hge : firstCode lens (len + 1) ≤ codeField s p (len + 1) := by
    have hs := curAfter_step lens s p len
    rw [curAfter_succ] at hs hneg
    omega
  have hlt : codeField s p (len + 1) - firstCode lens (len + 1) < lens.count (len + 1) := by
    rw [curAfter_succ] at hneg
    omega
  obtain ⟨i, hi, hr⟩ := exists_of_rank hlt
  refine h i (len + 1) hi (Nat.succ_ne_zero _) hn ?_
  have hcode : canonicalCode lens i = codeField s p (len + 1) := by
    rw [canonicalCode, List.getD_eq_getElem?_getD, hi, Option.getD_some, hr]
    omega
  rw [hcode]
  exact streamHas_codeBits fun k hk => (codeField_testBit s p (len + 1) k hk).symm

/-- R175: over bits that complete no codeword, the loop goes on. -/
theorem decodeSymLoop_goesOn {lens : List Nat} {p fuel len m n sum : Nat} {s : State} (h : NoCodeword lens n s p)
    (hn : len + m ≤ n) (hf : len + m + fuel = 15) (hr : p + (len + m) ≤ 8 * s.inf.regionEnd)
    (hc : 0 ≤ curAfter lens s p len) :
    ∃ sum' cur', decodeSymLoop (buildTree lens) (fuel + m) len sum (curAfter lens s p len) (setBitpos (p + len) s) =
      decodeSymLoop (buildTree lens) fuel (len + m) sum' cur' (setBitpos (p + (len + m)) s) := by
  induction m generalizing len sum with
  | zero => exact ⟨_, _, rfl⟩
  | succ m ih =>
    have hbit : readBit (setBitpos (p + len) s) = .ok (bitAt s (p + len), setBitpos (p + (len + 1)) s) :=
      if_neg (by simp only [setBitpos_inf]; omega)
    have hcount := buildTree_count lens (l := len + 1) (by omega) (by omega)
    have hnn := curAfter_nonneg h (len := len) (by omega) hc
    rw [← curAfter_step] at hnn
    obtain ⟨sum', cur', e⟩ := ih (len := len + 1) (sum := sum + lens.count (len + 1)) (by omega) (by omega) (by omega)
      (by rw [← curAfter_step]; exact hnn)
    refine ⟨sum', cur', ?_⟩
    rw [show len + (m + 1) = len + 1 + m by omega, ← e, show fuel + (m + 1) = fuel + m + 1 by omega]
    simp only [decodeSymLoop, bind, Except.bind, hbit, hcount]
    rw [if_neg (Int.not_lt.mpr hnn), curAfter_step]

/-- R175: 15 bits that complete no codeword raise INVALID_CODE. -/
theorem decodeSym_invalidCode {lens : List Nat} {s : State} (h : NoCodeword lens 15 s s.inf.bitpos)
    (hr : s.inf.bitpos + 15 ≤ 8 * s.inf.regionEnd) :
    decodeSym (buildTree lens) s = .error (failInflate .invalidCode (setBitpos (s.inf.bitpos + 15) s)) := by
  obtain ⟨sum', cur', e⟩ := decodeSymLoop_goesOn (fuel := 0) (len := 0) (m := 15) (sum := 0) h (by omega) (by omega)
    (by omega) (Int.le_refl 0)
  exact e

/-- R151, R154, R175: where the region ends before a codeword is complete, DecodeSym raises INPUT_OVERRUN there. -/
theorem decodeSym_overrun {lens : List Nat} {n : Nat} {s : State} (h : NoCodeword lens n s s.inf.bitpos) (hn : n < 15)
    (hr : s.inf.bitpos + n = 8 * s.inf.regionEnd) :
    decodeSym (buildTree lens) s = .error (failInflate .inputOverrun (setBitpos (8 * s.inf.regionEnd) s)) := by
  obtain ⟨sum', cur', e⟩ := decodeSymLoop_goesOn (fuel := 14 - n + 1) (len := 0) (m := n) (sum := 0) h (by omega)
    (by omega) (by omega) (Int.le_refl 0)
  have hover : readBit (setBitpos (s.inf.bitpos + (0 + n)) s) =
      .error (failInflate .inputOverrun (setBitpos (8 * s.inf.regionEnd) s)) := by
    rw [show s.inf.bitpos + (0 + n) = 8 * s.inf.regionEnd by omega]
    exact if_pos (by simp only [setBitpos_inf]; omega)
  rw [show 14 - n + 1 + n = 15 by omega] at e
  refine Eq.trans e ?_
  simp only [decodeSymLoop, bind, Except.bind, hover]

end Sys2Proof.Machine
end

