-- ==== Sys2Proof/Laws/Inflate.lean ====
section
/-! SUPPORT. What the shared parts of the stream instructions can do: the two halves of a match (R207), the dynamic
header (R200, R201), the code-length runs (R203-R206), the stored block (R195) and the block header (R191). -/

namespace Sys2Proof.Machine

@[simp] theorem settle_ok (s : State) : settle (.ok s) = .next s := rfl
@[simp] theorem settle_error (s : State) : settle (.error s) = .next s := rfl

/-- A body always leaves a next state. -/
theorem settle_next (r : Res State) : ∃ t, settle r = .next t ∧ (r = .ok t ∨ r = .error t) := by
  cases r with
  | ok s => exact ⟨s, rfl, .inl rfl⟩
  | error s => exact ⟨s, rfl, .inr rfl⟩

/-! ### The length half of a match (R207) -/

/-- The state after the length half: `length` is known, the extra bits are consumed. -/
def withMatchLen (i : Nat) (s : State) : State :=
  goTo .distance { s with inf := { s.inf with
    bitpos := s.inf.bitpos + lenExtra.getD i 0
    matchLen := lenBase.getD i 0 + bitField s s.inf.bitpos (lenExtra.getD i 0) } }

theorem matchLength_cases (i : Nat) (s : State) :
    ((lenExtra.getD i 0 = 0 ∨ s.inf.bitpos + lenExtra.getD i 0 ≤ 8 * s.inf.regionEnd) ∧
      matchLength i s = .ok (withMatchLen i s)) ∨
    ((lenExtra.getD i 0 ≠ 0 ∧ 8 * s.inf.regionEnd < s.inf.bitpos + lenExtra.getD i 0) ∧
      matchLength i s = .error (failInflate .inputOverrun s)) := by
  rcases readBits_cases (lenExtra.getD i 0) s with ⟨hr, e⟩ | ⟨hr, e⟩
  · exact .inl ⟨hr, by simp only [matchLength, bind, Except.bind, e]; rfl⟩
  · exact .inr ⟨hr, by simp only [matchLength, bind, Except.bind, e]⟩

/-! ### The distance half of a match (R207, R208) -/

/-- The distance of symbol `d` with the extra bits that stand at the bit position. -/
def distanceAt (d : Nat) (s : State) : Nat :=
  distBase.getD d 0 + bitField s s.inf.bitpos (distExtra.getD d 0)

theorem matchDistance_eq_ok {d : Nat} {s t : State} (h : matchDistance d s = .ok t) :
    ∃ u, copyBack (distanceAt d s) s.inf.matchLen (setBitpos (s.inf.bitpos + distExtra.getD d 0) s) = .ok u ∧
      t = goTo .litLen u ∧ distanceAt d s ≤ s.inf.destLen ∧
      (distExtra.getD d 0 = 0 ∨ s.inf.bitpos + distExtra.getD d 0 ≤ 8 * s.inf.regionEnd) := by
  simp only [matchDistance, bind, Except.bind] at h
  rcases readBits_cases (distExtra.getD d 0) s with ⟨hr, e⟩ | ⟨hr, e⟩ <;> rw [e] at h <;> simp only at h
  · split at h
    · cases h
    · next hd =>
      split at h
      · cases h
      · next u hu => cases h; exact ⟨u, hu, rfl, by simpa [distanceAt] using hd, hr⟩
  · cases h

theorem matchDistance_ok {d : Nat} {s u : State}
    (hr : distExtra.getD d 0 = 0 ∨ s.inf.bitpos + distExtra.getD d 0 ≤ 8 * s.inf.regionEnd)
    (hd : distanceAt d s ≤ s.inf.destLen)
    (hu : copyBack (distanceAt d s) s.inf.matchLen (setBitpos (s.inf.bitpos + distExtra.getD d 0) s) = .ok u) :
    matchDistance d s = .ok (goTo .litLen u) := by
  rcases readBits_cases (distExtra.getD d 0) s with ⟨hr', e⟩ | ⟨hr', e⟩
  · rw [distanceAt] at hd hu
    simp only [matchDistance, bind, Except.bind, e]
    rw [if_neg (by simp; exact hd)]
    simp only [hu, setBitpos_inf]
  · omega

theorem matchDistance_eq_error {d : Nat} {s e : State} (h : matchDistance d s = .error e) : FailedInflate s e := by
  simp only [matchDistance, bind, Except.bind] at h
  have h0 : Appended 0 s (setBitpos (s.inf.bitpos + distExtra.getD d 0) s) := .ofSetBitpos (Nat.le_add_right _ _)
  rcases readBits_cases (distExtra.getD d 0) s with ⟨hr, e'⟩ | ⟨hr, e'⟩ <;> rw [e'] at h <;> simp only at h
  · split at h
    · cases h; exact (failInflate_failed _ _ rfl).of_appended h0
    · split at h
      · next hu => cases h; exact (copyBack_eq_error hu).of_appended h0
      · cases h
  · cases h; exact failInflate_failed _ _ rfl

/-! ### The stored block (R195) -/

theorem alignToByte_le (s : State) : s.inf.bitpos ≤ (alignToByte s).inf.bitpos := by
  simp [alignToByte]; omega

theorem storedBody_eq_error {s e : State} (h : storedBody s = .error e) : FailedInflate s e := by
  simp only [storedBody, bind, Except.bind] at h
  have h0 : Appended 0 s (alignToByte s) := .ofSetBitpos (alignToByte_le s)
  generalize alignToByte s = a at h h0
  rcases readBits_cases 16 a with ⟨hr, e'⟩ | ⟨hr, e'⟩ <;> rw [e'] at h <;> simp only at h
  · have h1 := h0.trans (.ofSetBitpos (Nat.le_add_right a.inf.bitpos 16))
    generalize bitField a a.inf.bitpos 16 = len at h
    generalize setBitpos (a.inf.bitpos + 16) a = b at h h1
    rcases readBits_cases 16 b with ⟨hr, e'⟩ | ⟨hr, e'⟩ <;> rw [e'] at h <;> simp only at h
    · have h2 := h1.trans (.ofSetBitpos (Nat.le_add_right b.inf.bitpos 16))
      split at h
      · cases h; exact (failInflate_failed _ _ rfl).of_appended h2
      · split at h
        · next hu => cases h; exact (copyStored_eq_error hu).of_appended h2
        · cases h
    · cases h; exact (failInflate_failed _ _ rfl).of_appended h1
  · cases h; exact (failInflate_failed _ _ rfl).of_appended h0

/-- R195: what a successful stored block has done. -/
theorem storedBody_eq_ok {s t : State} (h : storedBody s = .ok t) :
    ∃ (p len : Nat) (u : State), p = (s.inf.bitpos + 7) / 8 * 8 ∧ len = bitField s p 16 ∧
      len = (~~~ BitVec.ofNat 16 (bitField s (p + 16) 16)).toNat ∧ p + 32 ≤ 8 * s.inf.regionEnd ∧
      copyStored len (setBitpos (p + 32) s) = .ok u ∧ t = endBlock u := by
  simp only [storedBody, bind, Except.bind, alignToByte] at h
  generalize hp : (s.inf.bitpos + 7) / 8 * 8 = p at h
  rcases readBits_cases 16 (setBitpos p s) with ⟨hr, e'⟩ | ⟨hr, e'⟩ <;> rw [e'] at h <;> simp only at h
  · rcases readBits_cases 16 (setBitpos ((setBitpos p s).inf.bitpos + 16) (setBitpos p s)) with
      ⟨hr2, e2⟩ | ⟨hr2, e2⟩ <;> rw [e2] at h <;> simp only at h
    · split at h
      · cases h
      · next hl =>
        simp only [setBitpos_inf, bitField_setBitpos, setBitpos_setBitpos] at h hl hr2
        split at h
        · cases h
        · next u hu =>
          cases h
          exact ⟨p, _, u, rfl, rfl, Decidable.not_not.mp hl, by omega, hu, rfl⟩
    · cases h
  · cases h

/-- R195: where a stored block whose LEN or NLEN the region cuts off fails: at that field. -/
theorem storedBody_cut {s : State} {p : Nat} (hp : p = (s.inf.bitpos + 7) / 8 * 8)
    (h : 8 * s.inf.regionEnd < p + 32) : ∃ e, storedBody s = .error e ∧
      RaisedAt .inputOverrun (if 8 * s.inf.regionEnd < p + 16 then p else p + 16) s e := by
  simp only [storedBody, bind, Except.bind, alignToByte, ← hp]
  by_cases h1 : 8 * s.inf.regionEnd < p + 16
  · rw [if_pos h1, readBits_overrun (n := 16) (s := setBitpos p s) (by omega) h1]
    exact ⟨_, rfl, (failInflate_raisedAt _ (setBitpos p s)).of_frame ⟨_, _, rfl⟩⟩
  · rw [if_neg h1, readBits_ok (n := 16) (s := setBitpos p s) (by simp only [setBitpos_inf]; omega)]
    simp only [setBitpos_inf, setBitpos_setBitpos]
    rw [readBits_overrun (n := 16) (s := setBitpos (p + 16) s) (by omega) (by simp only [setBitpos_inf]; omega)]
    exact ⟨_, rfl, (failInflate_raisedAt _ (setBitpos (p + 16) s)).of_frame ⟨_, _, rfl⟩⟩

/-- R195: with LEN and NLEN complements, a stored block fails where the copy of its data does. -/
theorem storedBody_data {s e : State} {p len : Nat} {c : Cause} {b : Nat} (hp : p = (s.inf.bitpos + 7) / 8 * 8)
    (hr : p + 32 ≤ 8 * s.inf.regionEnd) (hl : len = bitField s p 16)
    (hn : len = (~~~ BitVec.ofNat 16 (bitField s (p + 16) 16)).toNat)
    (h : copyStored len (setBitpos (p + 32) s) = .error e) (hb : RaisedAt c b (setBitpos (p + 32) s) e) :
    storedBody s = .error e ∧ RaisedAt c b s e := by
  refine ⟨?_, hb.of_frame ⟨_, _, rfl⟩⟩
  simp only [storedBody, bind, Except.bind, alignToByte, ← hp]
  rw [readBits_ok (n := 16) (s := setBitpos p s) (by simp only [setBitpos_inf]; omega)]
  simp only [setBitpos_inf, setBitpos_setBitpos, bitField_setBitpos]
  rw [readBits_ok (n := 16) (s := setBitpos (p + 16) s) (by simp only [setBitpos_inf]; omega)]
  simp only [setBitpos_inf, setBitpos_setBitpos, bitField_setBitpos]
  rw [← hl, if_neg (fun hne => hne hn), show p + 16 + 16 = p + 32 by omega, h]

/-- R208: where a match that does not fit the destination fails: after its distance. -/
theorem matchDistance_full {d k : Nat} {s : State}
    (hr : distExtra.getD d 0 = 0 ∨ s.inf.bitpos + distExtra.getD d 0 ≤ 8 * s.inf.regionEnd)
    (hd : distBase.getD d 0 + bitField s s.inf.bitpos (distExtra.getD d 0) ≤ s.inf.destLen)
    (hk : k < s.inf.matchLen) (hc : s.inf.destLen + k = s.inf.destCap) : ∃ e, matchDistance d s = .error e ∧
      RaisedAt .outputOverrun (s.inf.bitpos + distExtra.getD d 0) s e := by
  rcases readBits_cases (distExtra.getD d 0) s with ⟨-, e⟩ | ⟨hr', e⟩
  · obtain ⟨e', he', hf⟩ := copyBack_full (dist := distBase.getD d 0 + bitField s s.inf.bitpos (distExtra.getD d 0))
      (s := setBitpos (s.inf.bitpos + distExtra.getD d 0) s) hk hc
    refine ⟨e', ?_, hf.of_frame ⟨_, _, rfl⟩⟩
    simp only [matchDistance, bind, Except.bind, e]
    rw [if_neg (by simp only [setBitpos_inf]; omega)]
    simp only [setBitpos_inf] at he' ⊢
    rw [he']
  · omega

/-! ### The dynamic header (R200, R201) -/

/-- R201: `cl` after the fields of `order`, which start at bit `p`. -/
def placedLengths (s : State) : (order : List Nat) → (p : Nat) → (cl : List Nat) → List Nat
  | [], _, cl => cl
  | c :: order, p, cl => placedLengths s order (p + 3) (cl.set c (bitField s p 3))

theorem placedLengths_congr {s t : State} (h : t.inMem = s.inMem) (h' : t.memEpoch = s.memEpoch) (order : List Nat)
    (p : Nat) (cl : List Nat) : placedLengths t order p cl = placedLengths s order p cl := by
  induction order generalizing p cl with
  | nil => rfl
  | cons c order ih => simp only [placedLengths, bitField_congr h h', ih]

@[simp] theorem placedLengths_length (s : State) (order : List Nat) (p : Nat) (cl : List Nat) :
    (placedLengths s order p cl).length = cl.length := by
  induction order generalizing p cl with
  | nil => rfl
  | cons c order ih => simp [placedLengths, ih]

/-- R38: a code-length-code length is at most 7. -/
theorem placedLengths_le (s : State) (order : List Nat) (p : Nat) (cl : List Nat) (h : ∀ x ∈ cl, x ≤ 7) :
    ∀ x ∈ placedLengths s order p cl, x ≤ 7 := by
  induction order generalizing p cl with
  | nil => exact h
  | cons c order ih =>
    refine ih (p + 3) _ fun x hx => ?_
    rcases List.mem_or_eq_of_mem_set hx with hx | rfl
    · exact h x hx
    · have := bitField_lt s p 3; omega

theorem readCodeLengths_eq_ok {order : List Nat} {s t : State} (h : readCodeLengths order s = .ok t) :
    t = { s with inf := { s.inf with
      bitpos := s.inf.bitpos + 3 * order.length, cl := placedLengths s order s.inf.bitpos s.inf.cl } } ∧
    (order = [] ∨ s.inf.bitpos + 3 * order.length ≤ 8 * s.inf.regionEnd) := by
  induction order generalizing s with
  | nil => cases h; exact ⟨rfl, .inl rfl⟩
  | cons c order ih =>
    simp only [readCodeLengths, bind, Except.bind] at h
    rcases readBits_cases 3 s with ⟨hr, e⟩ | ⟨hr, e⟩ <;> rw [e] at h <;> simp only at h
    · obtain ⟨ht, hb⟩ := ih h
      refine ⟨?_, .inr ?_⟩
      · have e1 : s.inf.bitpos + 3 * (c :: order).length = s.inf.bitpos + 3 + 3 * order.length := by
          simp only [List.length_cons]; omega
        rw [placedLengths_congr (s := s)
          (t := putCl c (bitField s s.inf.bitpos 3) (setBitpos (s.inf.bitpos + 3) s)) rfl rfl] at ht
        rw [e1]
        exact ht
      · rcases hb with rfl | hb
        · simp; omega
        · simp [putCl] at hb; simp; omega
    · cases h

theorem readCodeLengths_ok {order : List Nat} {s : State}
    (h : order = [] ∨ s.inf.bitpos + 3 * order.length ≤ 8 * s.inf.regionEnd) :
    ∃ t, readCodeLengths order s = .ok t := by
  induction order generalizing s with
  | nil => exact ⟨s, rfl⟩
  | cons c order ih =>
    simp only [List.length_cons, reduceCtorEq, false_or] at h
    simp only [readCodeLengths, bind, Except.bind, readBits_ok (show s.inf.bitpos + 3 ≤ 8 * s.inf.regionEnd by omega)]
    exact ih (.inr (by simp [putCl]; omega))

theorem readCodeLengths_eq_error {order : List Nat} {s e : State} (h : readCodeLengths order s = .error e) :
    FailedInflate s e := by
  induction order generalizing s with
  | nil => cases h
  | cons c order ih =>
    simp only [readCodeLengths, bind, Except.bind] at h
    rcases readBits_cases 3 s with ⟨hr, e'⟩ | ⟨hr, e'⟩ <;> rw [e'] at h <;> simp only at h
    · exact (ih h).of_frame ⟨_, _, rfl⟩ (Nat.le_add_right _ _)
    · cases h; exact failInflate_failed _ _ rfl

/-- R200: the state after the header's counts. -/
def withCounts (s : State) : State :=
  putCounts (bitField s s.inf.bitpos 5 + 257) (bitField s (s.inf.bitpos + 5) 5 + 1)
    (bitField s (s.inf.bitpos + 10) 4 + 4) (setBitpos (s.inf.bitpos + 14) s)

theorem readCounts_ok {s : State} (h : s.inf.bitpos + 14 ≤ 8 * s.inf.regionEnd) :
    readCounts s = .ok (withCounts s) := by
  have e1 := readBits_ok (n := 5) (s := s) (by omega)
  have e2 := readBits_ok (n := 5) (s := setBitpos (s.inf.bitpos + 5) s) (by simp; omega)
  have e3 := readBits_ok (n := 4) (s := setBitpos (s.inf.bitpos + 10) s) (by simp; omega)
  simp only [setBitpos_inf, bitField_setBitpos, setBitpos_setBitpos] at e2 e3
  simp only [readCounts, bind, Except.bind, e1, e2, e3]
  rfl

theorem readCounts_eq_error {s e : State} (h : readCounts s = .error e) :
    FailedInflate s e ∧ 8 * s.inf.regionEnd < s.inf.bitpos + 14 := by
  refine ⟨?_, ?_⟩
  · simp only [readCounts, bind, Except.bind] at h
    rcases readBits_cases 5 s with ⟨hr, e1⟩ | ⟨hr, e1⟩ <;> rw [e1] at h <;> simp only at h
    · have h1 : Appended 0 s (setBitpos (s.inf.bitpos + 5) s) := .ofSetBitpos (Nat.le_add_right _ _)
      generalize setBitpos (s.inf.bitpos + 5) s = a at h h1
      rcases readBits_cases 5 a with ⟨hr, e1⟩ | ⟨hr, e1⟩ <;> rw [e1] at h <;> simp only at h
      · have h2 := h1.trans (.ofSetBitpos (Nat.le_add_right a.inf.bitpos 5))
        generalize setBitpos (a.inf.bitpos + 5) a = b at h h2
        rcases readBits_cases 4 b with ⟨hr, e1⟩ | ⟨hr, e1⟩ <;> rw [e1] at h <;> simp only at h
        · cases h
        · cases h; exact (failInflate_failed _ _ rfl).of_appended h2
      · cases h; exact (failInflate_failed _ _ rfl).of_appended h1
    · cases h; exact failInflate_failed _ _ rfl
  · by_cases hb : s.inf.bitpos + 14 ≤ 8 * s.inf.regionEnd
    · rw [readCounts_ok hb] at h; cases h
    · omega

theorem readCounts_eq_ok {s t : State} (h : readCounts s = .ok t) :
    t = withCounts s ∧ s.inf.bitpos + 14 ≤ 8 * s.inf.regionEnd := by
  by_cases hb : s.inf.bitpos + 14 ≤ 8 * s.inf.regionEnd
  · rw [readCounts_ok hb] at h; cases h; exact ⟨rfl, hb⟩
  · exfalso
    simp only [readCounts, bind, Except.bind] at h
    rcases readBits_cases 5 s with ⟨hr, e1⟩ | ⟨hr, e1⟩ <;> rw [e1] at h <;> simp only at h
    · rcases readBits_cases 5 (setBitpos (s.inf.bitpos + 5) s) with ⟨hr2, e2⟩ | ⟨hr2, e2⟩ <;> rw [e2] at h <;>
        simp only at h
      · have e3 := readBits_overrun (n := 4) (s := setBitpos (s.inf.bitpos + 5 + 5) s) (by omega)
          (by simp at hr2 ⊢; omega)
        simp only [setBitpos_inf, setBitpos_setBitpos] at h e3
        rw [e3] at h; cases h
      · cases h
    · cases h

/-- R200: HLIT_RANGE is raised. -/
def hlitRejected (s : State) : Prop :=
  bitField s s.inf.bitpos 5 + 257 > 286 ∧ s.params.acceptHlitOver286 = false

/-- R200, R201: the state after the counts and the code-length lengths. -/
def withHeader (s : State) : State :=
  goTo .codeLength (buildClt { withCounts s with inf := { (withCounts s).inf with
    bitpos := s.inf.bitpos + 14 + 3 * (bitField s (s.inf.bitpos + 10) 4 + 4)
    cl := placedLengths s (clOrder.take (bitField s (s.inf.bitpos + 10) 4 + 4)) (s.inf.bitpos + 14)
      (List.replicate 19 0) } })

@[simp] theorem withHeader_run (s : State) : (withHeader s).run = .busy .codeLength := rfl
@[simp] theorem withHeader_bitpos (s : State) : (withHeader s).inf.bitpos =
    s.inf.bitpos + 14 + 3 * (bitField s (s.inf.bitpos + 10) 4 + 4) := rfl
@[simp] theorem withHeader_hlit (s : State) : (withHeader s).inf.hlit = bitField s s.inf.bitpos 5 + 257 := rfl
@[simp] theorem withHeader_hdist (s : State) : (withHeader s).inf.hdist = bitField s (s.inf.bitpos + 5) 5 + 1 := rfl
@[simp] theorem withHeader_hclen (s : State) : (withHeader s).inf.hclen = bitField s (s.inf.bitpos + 10) 4 + 4 := rfl
@[simp] theorem withHeader_cl (s : State) : (withHeader s).inf.cl =
    placedLengths s (clOrder.take (bitField s (s.inf.bitpos + 10) 4 + 4)) (s.inf.bitpos + 14)
      (List.replicate 19 0) := rfl
@[simp] theorem withHeader_clt (s : State) : (withHeader s).inf.clt = buildTree (withHeader s).inf.cl := rfl
@[simp] theorem withHeader_lengths (s : State) : (withHeader s).inf.lengths = [] := rfl

theorem clOrder_take_length (s : State) (p : Nat) : (clOrder.take (bitField s p 4 + 4)).length = bitField s p 4 + 4 := by
  have := bitField_lt s p 4
  simp [clOrder]; omega

theorem clOrder_take_ne_nil (s : State) (p : Nat) : clOrder.take (bitField s p 4 + 4) ≠ [] := by
  intro h
  have := clOrder_take_length s p
  rw [h] at this; simp at this

theorem checkHlit_cases (s : State) :
    (¬ hlitRejected s ∧ checkHlit (withCounts s) = .ok (withCounts s)) ∨
    (hlitRejected s ∧ checkHlit (withCounts s) = .error (failInflate .hlitRange (withCounts s))) := by
  by_cases hx : hlitRejected s
  · exact .inr ⟨hx, if_pos hx⟩
  · exact .inl ⟨hx, if_neg hx⟩

theorem dynamicHeader_eq_ok {s t : State} (h : dynamicHeader s = .ok t) :
    t = withHeader s ∧ ¬ hlitRejected s ∧
      s.inf.bitpos + 14 + 3 * (bitField s (s.inf.bitpos + 10) 4 + 4) ≤ 8 * s.inf.regionEnd := by
  simp only [dynamicHeader, bind, Except.bind] at h
  split at h
  · cases h
  · next u hu =>
    obtain ⟨hu, -⟩ := readCounts_eq_ok hu
    subst hu
    split at h
    · cases h
    · next v hv =>
      have hrej : ¬ hlitRejected s ∧ v = withCounts s := by
        rcases checkHlit_cases s with ⟨hx, e⟩ | ⟨hx, e⟩ <;> rw [e] at hv <;> cases hv
        exact ⟨hx, rfl⟩
      obtain ⟨hx, hv'⟩ := hrej
      subst hv'
      split at h
      · cases h
      · next w hw =>
        obtain ⟨hw1, hw2⟩ := readCodeLengths_eq_ok hw
        have e0 : (withCounts s).inf.hclen = bitField s (s.inf.bitpos + 10) 4 + 4 := rfl
        rw [e0] at hw1 hw2
        have hlen := clOrder_take_length s (s.inf.bitpos + 10)
        rw [hlen] at hw1 hw2
        refine ⟨?_, hx, ?_⟩
        · cases h
          rw [hw1, placedLengths_congr (s := s) (t := clearCl (withCounts s)) rfl rfl]
          rfl
        · exact hw2.resolve_left (clOrder_take_ne_nil _ _)

theorem dynamicHeader_ok {s : State} (hh : ¬ hlitRejected s)
    (hb : s.inf.bitpos + 14 + 3 * (bitField s (s.inf.bitpos + 10) 4 + 4) ≤ 8 * s.inf.regionEnd) :
    dynamicHeader s = .ok (withHeader s) := by
  have key : ∃ t, dynamicHeader s = .ok t := by
    obtain ⟨v, hv⟩ := readCodeLengths_ok (order := clOrder.take (bitField s (s.inf.bitpos + 10) 4 + 4))
      (s := clearCl (withCounts s)) (.inr (by rw [clOrder_take_length]; exact hb))
    have e2 : checkHlit (withCounts s) = .ok (withCounts s) := if_neg hh
    have e0 : (withCounts s).inf.hclen = bitField s (s.inf.bitpos + 10) 4 + 4 := rfl
    simp only [dynamicHeader, bind, Except.bind,
      readCounts_ok (show s.inf.bitpos + 14 ≤ 8 * s.inf.regionEnd by omega), e2, e0, hv]
    exact ⟨_, rfl⟩
  obtain ⟨t, ht⟩ := key
  rw [ht, (dynamicHeader_eq_ok ht).1]

/-- R200: HLIT_RANGE comes after the three counts are read. -/
theorem dynamicHeader_rejected {s : State} (hh : hlitRejected s) (hb : s.inf.bitpos + 14 ≤ 8 * s.inf.regionEnd) :
    dynamicHeader s = .error (failInflate .hlitRange (withCounts s)) := by
  have e2 : checkHlit (withCounts s) = .error (failInflate .hlitRange (withCounts s)) := if_pos hh
  simp only [dynamicHeader, bind, Except.bind, readCounts_ok hb, e2]

theorem dynamicHeader_eq_error {s e : State} (h : dynamicHeader s = .error e) : FailedInflate s e := by
  simp only [dynamicHeader, bind, Except.bind] at h
  split at h
  · next hu => cases h; exact (readCounts_eq_error hu).1
  · next u hu =>
    obtain ⟨hu, -⟩ := readCounts_eq_ok hu
    subst hu
    rcases checkHlit_cases s with ⟨hx, e'⟩ | ⟨hx, e'⟩ <;> rw [e'] at h <;> simp only at h
    · split at h
      · next hw => cases h; exact (readCodeLengths_eq_error hw).of_frame ⟨_, _, rfl⟩ (Nat.le_add_right _ _)
      · cases h
    · cases h; exact (failInflate_failed _ _ rfl).of_frame ⟨_, _, rfl⟩ (Nat.le_add_right _ _)

/-! ### A dynamic header that the region cuts off (R152, R200, R201, R341) -/

/-- R201: a code-length symbol that no field is for keeps its length. -/
theorem placedLengths_of_not_mem {s : State} {order : List Nat} {p : Nat} {cl : List Nat} {c : Nat} (h : c ∉ order) :
    (placedLengths s order p cl)[c]? = cl[c]? := by
  induction order generalizing p cl with
  | nil => rfl
  | cons d order ih =>
    rw [placedLengths, ih fun hm => h (.tail _ hm), List.getElem?_set_ne (by rintro rfl; exact h (.head _))]

/-- R201: the `k`-th field is the length of the `k`-th symbol of the order. -/
theorem placedLengths_at {s : State} {order : List Nat} {p : Nat} {cl : List Nat} {k c : Nat} (hd : order.Nodup)
    (hk : order[k]? = some c) (hc : c < cl.length) :
    (placedLengths s order p cl)[c]? = some (bitField s (p + 3 * k) 3) := by
  induction order generalizing p cl k with
  | nil => cases hk
  | cons d order ih =>
    obtain ⟨hn, hd⟩ := List.nodup_cons.mp hd
    cases k with
    | zero =>
      obtain rfl : d = c := by simpa using hk
      rw [placedLengths, placedLengths_of_not_mem hn, List.getElem?_set_self hc]
      rfl
    | succ k =>
      rw [placedLengths, ih hd hk (by rwa [List.length_set]), show p + 3 + 3 * k = p + 3 * (k + 1) by omega]

theorem readCounts_cut {s : State} {p : Nat} (h : (8 * s.inf.regionEnd < s.inf.bitpos + 5 ∧ p = s.inf.bitpos) ∨
    (s.inf.bitpos + 5 ≤ 8 * s.inf.regionEnd ∧ 8 * s.inf.regionEnd < s.inf.bitpos + 10 ∧ p = s.inf.bitpos + 5) ∨
    (s.inf.bitpos + 10 ≤ 8 * s.inf.regionEnd ∧ 8 * s.inf.regionEnd < s.inf.bitpos + 14 ∧ p = s.inf.bitpos + 10)) :
    ∃ e, readCounts s = .error e ∧ RaisedAt .inputOverrun p s e := by
  rcases h with ⟨h, rfl⟩ | ⟨h1, h2, rfl⟩ | ⟨h1, h2, rfl⟩
  · refine ⟨failInflate .inputOverrun s, ?_, failInflate_raisedAt _ s⟩
    simp only [readCounts, bind, Except.bind, readBits_overrun (n := 5) (by omega) h]
  · have e1 := readBits_ok h1
    have e2 := readBits_overrun (n := 5) (s := setBitpos (s.inf.bitpos + 5) s) (by omega) h2
    refine ⟨_, ?_, (failInflate_raisedAt _ (setBitpos (s.inf.bitpos + 5) s)).of_frame ⟨_, _, rfl⟩⟩
    simp only [readCounts, bind, Except.bind, e1, e2]
  · have e1 := readBits_ok (n := 5) (s := s) (by omega)
    have e2 := readBits_ok (n := 5) (s := setBitpos (s.inf.bitpos + 5) s) h1
    have e3 := readBits_overrun (n := 4) (s := setBitpos (s.inf.bitpos + 10) s) (by omega) h2
    refine ⟨_, ?_, (failInflate_raisedAt _ (setBitpos (s.inf.bitpos + 10) s)).of_frame ⟨_, _, rfl⟩⟩
    simp only [setBitpos_inf, bitField_setBitpos, setBitpos_setBitpos] at e2 e3
    simp only [readCounts, bind, Except.bind, e1, e2, e3]

theorem readCodeLengths_cut {order : List Nat} {s : State} {k : Nat} (hk : k < order.length)
    (h1 : s.inf.bitpos + 3 * k ≤ 8 * s.inf.regionEnd) (h2 : 8 * s.inf.regionEnd < s.inf.bitpos + 3 * k + 3) :
    ∃ e, readCodeLengths order s = .error e ∧ RaisedAt .inputOverrun (s.inf.bitpos + 3 * k) s e := by
  induction order generalizing s k with
  | nil => cases hk
  | cons c order ih =>
    cases k with
    | zero =>
      refine ⟨_, ?_, failInflate_raisedAt _ s⟩
      simp only [readCodeLengths, bind, Except.bind, readBits_overrun (n := 3) (by omega) h2]
    | succ k =>
      let u := putCl c (bitField s s.inf.bitpos 3) (setBitpos (s.inf.bitpos + 3) s)
      obtain ⟨e, he, hcut⟩ := ih (s := u) (k := k) (Nat.lt_of_succ_lt_succ hk)
        (show s.inf.bitpos + 3 + 3 * k ≤ _ by exact (by omega : s.inf.bitpos + 3 + 3 * k ≤ 8 * s.inf.regionEnd))
        (show _ < s.inf.bitpos + 3 + 3 * k + 3 by exact (by omega : 8 * s.inf.regionEnd < s.inf.bitpos + 3 + 3 * k + 3))
      refine ⟨e, ?_, ?_⟩
      · simp only [readCodeLengths, bind, Except.bind, readBits_ok (show s.inf.bitpos + 3 ≤ 8 * s.inf.regionEnd by omega)]
        exact he
      · rw [show s.inf.bitpos + 3 * (k + 1) = u.inf.bitpos + 3 * k from
          (by omega : s.inf.bitpos + 3 * (k + 1) = s.inf.bitpos + 3 + 3 * k)]
        exact hcut.of_frame ⟨_, _, rfl⟩

/-- R200, R201: where a header that the region cuts off fails: at the field that is cut off. -/
theorem dynamicHeader_cut {s : State} {p : Nat}
    (h : (8 * s.inf.regionEnd < s.inf.bitpos + 5 ∧ p = s.inf.bitpos) ∨
      (s.inf.bitpos + 5 ≤ 8 * s.inf.regionEnd ∧ 8 * s.inf.regionEnd < s.inf.bitpos + 10 ∧ p = s.inf.bitpos + 5) ∨
      (s.inf.bitpos + 10 ≤ 8 * s.inf.regionEnd ∧ 8 * s.inf.regionEnd < s.inf.bitpos + 14 ∧ p = s.inf.bitpos + 10) ∨
      (∃ k, k < bitField s (s.inf.bitpos + 10) 4 + 4 ∧ p = s.inf.bitpos + 14 + 3 * k ∧
        p ≤ 8 * s.inf.regionEnd ∧ 8 * s.inf.regionEnd < p + 3 ∧ ¬ hlitRejected s)) :
    ∃ e, dynamicHeader s = .error e ∧ RaisedAt .inputOverrun p s e := by
  have counts : ∀ e, readCounts s = .error e → dynamicHeader s = .error e := fun e he => by
    simp only [dynamicHeader, bind, Except.bind, he]
  rcases h with h | h | h | ⟨k, hk, rfl, h1, h2, hx⟩
  · obtain ⟨e, he, hc⟩ := readCounts_cut (.inl h); exact ⟨e, counts e he, hc⟩
  · obtain ⟨e, he, hc⟩ := readCounts_cut (.inr (.inl h)); exact ⟨e, counts e he, hc⟩
  · obtain ⟨e, he, hc⟩ := readCounts_cut (.inr (.inr h)); exact ⟨e, counts e he, hc⟩
  · obtain ⟨e, he, hc⟩ := readCodeLengths_cut (s := clearCl (withCounts s))
      (order := clOrder.take (bitField s (s.inf.bitpos + 10) 4 + 4)) (k := k) (by rwa [clOrder_take_length]) h1 h2
    refine ⟨e, ?_, hc.of_frame ⟨_, _, rfl⟩⟩
    have e2 : checkHlit (withCounts s) = .ok (withCounts s) := if_neg hx
    have e0 : (withCounts s).inf.hclen = bitField s (s.inf.bitpos + 10) 4 + 4 := rfl
    simp only [dynamicHeader, bind, Except.bind,
      readCounts_ok (show s.inf.bitpos + 14 ≤ 8 * s.inf.regionEnd by omega), e2, e0, he]

/-- R111, R201: the length of the `k`-th symbol of CL_ORDER is the `k`-th field, or 0 where there is none. -/
theorem withHeader_cl_at (s : State) {k c : Nat} (h : clOrder[k]? = some c) : (withHeader s).inf.cl[c]? =
    some (if k < bitField s (s.inf.bitpos + 10) 4 + 4 then bitField s (s.inf.bitpos + 14 + 3 * k) 3 else 0) := by
  have hc : c < 19 := (by decide : ∀ x ∈ clOrder, x < 19) c (List.mem_of_getElem? h)
  have hd : clOrder.Nodup := by decide
  rw [withHeader_cl]
  generalize bitField s (s.inf.bitpos + 10) 4 + 4 = n
  split
  · next hk =>
    exact placedLengths_at (hd.sublist (List.take_sublist _ _)) (by rw [List.getElem?_take_of_lt hk, h])
      (by rwa [List.length_replicate])
  · next hk =>
    rw [placedLengths_of_not_mem, List.getElem?_replicate, if_pos hc]
    intro hm
    obtain ⟨j, hj⟩ := List.getElem?_of_mem hm
    rw [List.getElem?_take] at hj
    split at hj
    · next hjn =>
      have hkl : k < clOrder.length := (List.getElem?_eq_some_iff.mp h).1
      have := (List.getElem?_inj hkl hd).mp (h.trans hj.symm)
      omega
    · cases hj
/-! ### The code-length sequence (R202-R206) -/

/-- R202: what appending lengths has done when the sequence is not complete yet. -/
theorem appendLengths_more {new : List Nat} {s : State}
    (h : s.inf.lengths.length + new.length < totalLengths s) :
    appendLengths new s = goTo .codeLength (pushLengths new s) := by
  rw [appendLengths, nextLength, if_pos]
  simpa [totalLengths, pushLengths] using h

/-- R206: … and when it is. -/
theorem appendLengths_last {new : List Nat} {s : State}
    (h : totalLengths s ≤ s.inf.lengths.length + new.length) :
    appendLengths new s = goTo .litLen (buildTrees (pushLengths new s)) := by
  rw [appendLengths, nextLength, if_neg]
  simpa [totalLengths, pushLengths] using h

/-- R203-R205: the three things a run can do. -/
theorem appendRun_cases (v base bits : Nat) (s : State) :
    ((bits = 0 ∨ s.inf.bitpos + bits ≤ 8 * s.inf.regionEnd) ∧
      s.inf.lengths.length + (base + bitField s s.inf.bitpos bits) ≤ totalLengths s ∧
      appendRun v base bits s = .ok (appendLengths (List.replicate (base + bitField s s.inf.bitpos bits) v)
        (setBitpos (s.inf.bitpos + bits) s))) ∨
    ((bits = 0 ∨ s.inf.bitpos + bits ≤ 8 * s.inf.regionEnd) ∧
      totalLengths s < s.inf.lengths.length + (base + bitField s s.inf.bitpos bits) ∧
      appendRun v base bits s = .error (failInflate .repeatOverflow (setBitpos (s.inf.bitpos + bits) s))) ∨
    ((bits ≠ 0 ∧ 8 * s.inf.regionEnd < s.inf.bitpos + bits) ∧
      appendRun v base bits s = .error (failInflate .inputOverrun s)) := by
  rcases readBits_cases bits s with ⟨hr, e⟩ | ⟨hr, e⟩
  · by_cases ho : s.inf.lengths.length + (base + bitField s s.inf.bitpos bits) ≤ totalLengths s
    · refine .inl ⟨hr, ho, ?_⟩
      simp only [appendRun, bind, Except.bind, e]
      rw [if_neg (by simp only [totalLengths, setBitpos_inf] at ho ⊢; omega)]
    · refine .inr (.inl ⟨hr, by omega, ?_⟩)
      simp only [appendRun, bind, Except.bind, e]
      rw [if_pos (by simp only [totalLengths, setBitpos_inf] at ho ⊢; omega)]
      rfl
  · refine .inr (.inr ⟨hr, ?_⟩)
    simp only [appendRun, bind, Except.bind, e]

end Sys2Proof.Machine
end

