-- ==== Sys2Proof/Laws/Exec.lean ====
section
/-! SUPPORT. The meanings of the 29 length symbols and the 30 distance symbols, said once: `exec` of the symbol of a
given index is the shared operation at that index (R207). -/

namespace Sys2Proof.Machine

/-- R207: LEN_257 … LEN_285, by length index. -/
theorem exec_lengthInstr {i : Nat} {x : Instr} (h : lengthInstrs[i]? = some x) (s : State) :
    exec x s = settle (matchLength i s) := by
  match i, h with
  | 0, h => cases h; rfl
  | 1, h => cases h; rfl
  | 2, h => cases h; rfl
  | 3, h => cases h; rfl
  | 4, h => cases h; rfl
  | 5, h => cases h; rfl
  | 6, h => cases h; rfl
  | 7, h => cases h; rfl
  | 8, h => cases h; rfl
  | 9, h => cases h; rfl
  | 10, h => cases h; rfl
  | 11, h => cases h; rfl
  | 12, h => cases h; rfl
  | 13, h => cases h; rfl
  | 14, h => cases h; rfl
  | 15, h => cases h; rfl
  | 16, h => cases h; rfl
  | 17, h => cases h; rfl
  | 18, h => cases h; rfl
  | 19, h => cases h; rfl
  | 20, h => cases h; rfl
  | 21, h => cases h; rfl
  | 22, h => cases h; rfl
  | 23, h => cases h; rfl
  | 24, h => cases h; rfl
  | 25, h => cases h; rfl
  | 26, h => cases h; rfl
  | 27, h => cases h; rfl
  | 28, h => cases h; rfl
  | n + 29, h => simp [lengthInstrs] at h

/-- R207, R208: DIST_0 … DIST_29, by symbol. -/
theorem exec_distInstr {d : Nat} {x : Instr} (h : distInstrs[d]? = some x) (hd : d < 30) (s : State) :
    exec x s = settle (matchDistance d s) := by
  match d, h, hd with
  | 0, h, _ => cases h; rfl
  | 1, h, _ => cases h; rfl
  | 2, h, _ => cases h; rfl
  | 3, h, _ => cases h; rfl
  | 4, h, _ => cases h; rfl
  | 5, h, _ => cases h; rfl
  | 6, h, _ => cases h; rfl
  | 7, h, _ => cases h; rfl
  | 8, h, _ => cases h; rfl
  | 9, h, _ => cases h; rfl
  | 10, h, _ => cases h; rfl
  | 11, h, _ => cases h; rfl
  | 12, h, _ => cases h; rfl
  | 13, h, _ => cases h; rfl
  | 14, h, _ => cases h; rfl
  | 15, h, _ => cases h; rfl
  | 16, h, _ => cases h; rfl
  | 17, h, _ => cases h; rfl
  | 18, h, _ => cases h; rfl
  | 19, h, _ => cases h; rfl
  | 20, h, _ => cases h; rfl
  | 21, h, _ => cases h; rfl
  | 22, h, _ => cases h; rfl
  | 23, h, _ => cases h; rfl
  | 24, h, _ => cases h; rfl
  | 25, h, _ => cases h; rfl
  | 26, h, _ => cases h; rfl
  | 27, h, _ => cases h; rfl
  | 28, h, _ => cases h; rfl
  | 29, h, _ => cases h; rfl
  | n + 30, _, hd => omega

/-- R207: INVALID_DIST_30 and INVALID_DIST_31. -/
theorem exec_invalidDist {d : Nat} {x : Instr} (h : distInstrs[d]? = some x) (hd : 30 ≤ d) (s : State) :
    exec x s = .next (failInflate .invalidDistSymbol s) := by
  obtain ⟨k, rfl⟩ : ∃ k, d = k + 30 := ⟨d - 30, by omega⟩
  match k, h with
  | 0, h => cases h; rfl
  | 1, h => cases h; rfl
  | n + 2, h => simp [distInstrs] at h

/-- R106: what a literal/length symbol decodes to. -/
theorem decodeLitLen_length {i : Nat} (h : i < 29) : ∃ x, lengthInstrs[i]? = some x ∧
    decode .litLen (257 + i) = .ok x := by
  have hx : lengthInstrs[i]? = some (lengthInstrs[i]'(by simpa [lengthInstrs] using h)) :=
    List.getElem?_eq_getElem _
  refine ⟨_, hx, ?_⟩
  have e1 : 257 + i - 257 = i := by omega
  simp only [decode, decodeLitLen]
  rw [if_neg (by omega), if_neg (by omega), if_neg (by omega), if_neg (by omega), e1, hx]

end Sys2Proof.Machine
end

