-- ==== Sys2Proof/Laws/Fetch.lean ====
section
/-! SUPPORT. What reading the next instruction can do (R191, R175, R262, R272, R275), and how a step of the two
agents falls out. -/

namespace Sys2Proof.Machine

/-! ### Symbols -/

theorem fetchSymbol_eq_run {f : Format} {r : Res (Option Nat × State)} {i : Instr} {s : State}
    (h : fetchSymbol f r = .run i s) : ∃ v, r = .ok (some v, s) ∧ decode f v = .ok i := by
  unfold fetchSymbol at h
  split at h
  · cases h
  · cases h
  · split at h
    · next he => cases h; exact ⟨_, rfl, he⟩
    · cases h

theorem fetchSymbol_eq_internal {f : Format} {r : Res (Option Nat × State)} {s : State}
    (h : fetchSymbol f r = .internal s) : r = .error s := by
  unfold fetchSymbol at h
  split at h
  · cases h; rfl
  · cases h
  · split at h <;> cases h

/-! ### Block headers (R191) -/

/-- R191: the header's three bits, and the state after them. -/
def withBlockHdr (s : State) : State :=
  { s with inf := { s.inf with
    bitpos := s.inf.bitpos + 3
    bfinal := decide (bitField s s.inf.bitpos 1 = 1)
    btype := BitVec.ofNat 2 (bitField s (s.inf.bitpos + 1) 2) } }

theorem readBfinal_cases (s : State) :
    (s.inf.bitpos + 1 ≤ 8 * s.inf.regionEnd ∧ readBfinal s = .ok { s with inf := { s.inf with
      bitpos := s.inf.bitpos + 1, bfinal := decide (bitField s s.inf.bitpos 1 = 1) } }) ∨
    (8 * s.inf.regionEnd < s.inf.bitpos + 1 ∧ readBfinal s = .error (failInflate .inputOverrun s)) := by
  rcases readBits_cases 1 s with ⟨hr, e⟩ | ⟨hr, e⟩
  · refine .inl ⟨by omega, ?_⟩
    simp only [readBfinal, bind, Except.bind, e]
    rfl
  · exact .inr ⟨by omega, by simp only [readBfinal, bind, Except.bind, e]⟩

theorem readBlockHdr_eq_ok {s t : State} {h : BitVec 3} (hh : readBlockHdr s = .ok (h, t)) :
    t = withBlockHdr s ∧ s.inf.bitpos + 3 ≤ 8 * s.inf.regionEnd ∧
      h = BitVec.ofNat 3 (t.inf.bfinal.toNat + 2 * bitField s (s.inf.bitpos + 1) 2) := by
  simp only [readBlockHdr, bind, Except.bind] at hh
  rcases readBfinal_cases s with ⟨hr, e⟩ | ⟨hr, e⟩ <;> rw [e] at hh <;> simp only at hh
  · generalize hu : { s with inf := { s.inf with
      bitpos := s.inf.bitpos + 1, bfinal := decide (bitField s s.inf.bitpos 1 = 1) } } = u at hh
    have e1 : bitField u = bitField s := by
      funext p n; exact bitField_congr (by rw [← hu]) (by rw [← hu]) p n
    have e2 : u.inf.bitpos = s.inf.bitpos + 1 := by rw [← hu]
    rcases readBits_cases 2 u with ⟨hr2, e'⟩ | ⟨hr2, e'⟩ <;> rw [e'] at hh <;> simp only at hh
    · cases hh
      rw [e1, e2]
      refine ⟨?_, ?_, rfl⟩
      · rw [← hu]; rfl
      · rw [← hu] at hr2; simp at hr2; omega
    · cases hh
  · cases hh

theorem readBlockHdr_ok {s : State} (hb : s.inf.bitpos + 3 ≤ 8 * s.inf.regionEnd) :
    readBlockHdr s = .ok
      (BitVec.ofNat 3 ((withBlockHdr s).inf.bfinal.toNat + 2 * bitField s (s.inf.bitpos + 1) 2), withBlockHdr s) := by
  have key : ∃ x, readBlockHdr s = .ok x := by
    rcases readBfinal_cases s with ⟨hr, e⟩ | ⟨hr, e⟩
    · simp only [readBlockHdr, bind, Except.bind, e]
      generalize hu : { s with inf := { s.inf with
        bitpos := s.inf.bitpos + 1, bfinal := decide (bitField s s.inf.bitpos 1 = 1) } } = u
      rw [readBits_ok (n := 2) (s := u) (by rw [← hu]; simp; omega)]
      exact ⟨_, rfl⟩
    · omega
  obtain ⟨⟨h, t⟩, hx⟩ := key
  obtain ⟨ht, -, hh⟩ := readBlockHdr_eq_ok hx
  subst ht
  rw [hx, hh]

theorem readBlockHdr_eq_error {s e : State} (hh : readBlockHdr s = .error e) : FailedInflate s e := by
  simp only [readBlockHdr, bind, Except.bind] at hh
  rcases readBfinal_cases s with ⟨hr, e1⟩ | ⟨hr, e1⟩ <;> rw [e1] at hh <;> simp only at hh
  · generalize hu : { s with inf := { s.inf with
      bitpos := s.inf.bitpos + 1, bfinal := decide (bitField s s.inf.bitpos 1 = 1) } } = u at hh
    rcases readBits_cases 2 u with ⟨hr2, e'⟩ | ⟨hr2, e'⟩ <;> rw [e'] at hh <;> simp only at hh
    · cases hh
    · cases hh
      refine (failInflate_failed _ _ rfl).of_frame ⟨s.outMem, u.inf, ?_⟩ ?_
      · rw [← hu]
      · rw [← hu]; simp
  · cases hh; exact failInflate_failed _ _ rfl

/-! ### ZIP records -/

/-- R262: a candidate offset holds the EOCD signature, or not. -/
theorem fetchEocd_cases (s : State) :
    (le32 s s.zip.scanPos = eocdSignature ∧ fetchEocd s = .run .eocd s) ∨
    (le32 s s.zip.scanPos ≠ eocdSignature ∧ s.zip.scanPos ≤ scanFloor s ∧
      fetchEocd s = .internal (fail .eocdNotFound (inLen s - 22) 0 s)) ∨
    (le32 s s.zip.scanPos ≠ eocdSignature ∧ scanFloor s < s.zip.scanPos ∧
      fetchEocd s = .internal { s with zip := { s.zip with scanPos := s.zip.scanPos - 1 } }) := by
  by_cases h : le32 s s.zip.scanPos = eocdSignature
  · exact .inl ⟨h, by simp [fetchEocd, decodeRecord, h]⟩
  · right
    have key : ∀ x, decodeRecord (le32 s s.zip.scanPos) = .ok x → x ≠ .eocd := by
      intro x hx hxe
      subst hxe
      unfold decodeRecord at hx
      rw [if_neg h] at hx
      split at hx
      · cases hx
      · split at hx <;> cases hx
    by_cases hf : s.zip.scanPos ≤ scanFloor s
    · refine .inl ⟨h, hf, ?_⟩
      unfold fetchEocd
      split
      · next hx => exact absurd rfl (key _ hx)
      · exact if_pos hf
    · refine .inr ⟨h, by omega, ?_⟩
      unfold fetchEocd
      split
      · next hx => exact absurd rfl (key _ hx)
      · exact if_neg hf

/-- R272. -/
theorem fetchCdh_cases (s : State) :
    (s.zip.cdCursor + 46 > inLen s ∧ fetchCdh s = .internal (fail .cdhOob s.zip.cdCursor 0 s)) ∨
    (s.zip.cdCursor + 46 ≤ inLen s ∧ le32 s s.zip.cdCursor = cdhSignature ∧ fetchCdh s = .run .cdh s) ∨
    (s.zip.cdCursor + 46 ≤ inLen s ∧ le32 s s.zip.cdCursor ≠ cdhSignature ∧
      fetchCdh s = .internal (fail .cdhBadSignature s.zip.cdCursor 0 s)) := by
  by_cases hb : s.zip.cdCursor + 46 > inLen s
  · exact .inl ⟨hb, if_pos hb⟩
  · right
    by_cases h : le32 s s.zip.cdCursor = cdhSignature
    · refine .inl ⟨by omega, h, ?_⟩
      rw [fetchCdh, if_neg hb, h]
      rfl
    · refine .inr ⟨by omega, h, ?_⟩
      rw [fetchCdh, if_neg hb]
      split
      · next hx =>
        exfalso
        unfold decodeRecord at hx
        split at hx
        · cases hx
        · split at hx <;> cases hx
      · rfl

/-- R275. -/
theorem fetchLfh_cases (s : State) :
    (s.zip.lfhPos + 30 > inLen s ∧ fetchLfh s = .internal (fail .lfhOob s.zip.lfhPos 0 s)) ∨
    (s.zip.lfhPos + 30 ≤ inLen s ∧ le32 s s.zip.lfhPos = lfhSignature ∧ fetchLfh s = .run .lfh s) ∨
    (s.zip.lfhPos + 30 ≤ inLen s ∧ le32 s s.zip.lfhPos ≠ lfhSignature ∧
      fetchLfh s = .internal (fail .lfhBadSignature s.zip.lfhPos 0 s)) := by
  by_cases hb : s.zip.lfhPos + 30 > inLen s
  · exact .inl ⟨hb, if_pos hb⟩
  · right
    by_cases h : le32 s s.zip.lfhPos = lfhSignature
    · refine .inl ⟨by omega, h, ?_⟩
      rw [fetchLfh, if_neg hb, h]
      rfl
    · refine .inr ⟨by omega, h, ?_⟩
      rw [fetchLfh, if_neg hb]
      split
      · next hx =>
        exfalso
        unfold decodeRecord at hx
        split at hx
        · cases hx
        · split at hx
          · cases hx
          · cases hx
      · rfl

/-! ### The step of the core -/

theorem coreStep_run {s t : State} {a : Activity} {i : Instr} (hs : s.run = .busy a) (h : fetch a s = .run i t) :
    coreStep s = exec i t := by simp only [coreStep, hs, h]

theorem coreStep_internal {s t : State} {a : Activity} (hs : s.run = .busy a) (h : fetch a s = .internal t) :
    coreStep s = .next t := by simp only [coreStep, hs, h]

/-- R358: a core that is not BUSY does nothing. -/
theorem coreStep_idle {s : State} (h : busy s = false) : coreStep s = .next s := by
  unfold coreStep
  cases hr : s.run with
  | busy a => simp [busy, hr] at h
  | idle => rfl
  | done => rfl
  | fail => rfl

/-! ### The placed memory -/

theorem memoryOf_risingFrom (a : Nat) (bs : List Byte) : Memory.risingFrom a (memoryOf a bs) = true := by
  induction bs generalizing a with
  | nil => rfl
  | cons b bs ih => simp [memoryOf, Memory.risingFrom, ih]

/-- The memory of a placed instruction is in canonical form. -/
theorem memoryOf_wf (bs : List Byte) : (memoryOf 0 bs).wf = true := memoryOf_risingFrom 0 bs

end Sys2Proof.Machine
end

