-- ==== Sys2Proof/Laws/HostAccess.lean ====
section
/-! SUPPORT. What a host access can do (R20, R70-R74, R86, R380, R390), said once: the whole inversion of
`hostAccess`. -/

namespace Sys2Proof.Machine

/-- The effect of a host access that is performed. -/
inductive HostEffect (op : HostOp) (s t : State) : Prop where
  /-- A read, or an access that is not performed: only what the host holds, and the count of draws, may change. -/
  | held (d : Word) (n : Nat) (h : t = { s with hostData := d, readDraws := n })
  /-- R22. -/
  | status (v : Word) (ho : op = .writeReg 0x04 .w32 v) (h : t = writeStatus v s)
  /-- R23. -/
  | ctrl (v : Word) (ho : op = .writeReg 0x08 .w32 v) (h : t = writeCtrl v s)
  /-- R20, R351, R390: a write dropped while BUSY. -/
  | dropped (hb : busy s = true) (h : t = markIgnored s)
  /-- R300. -/
  | accepted (v : Word) (hb : busy s = false) (ho : op = .writeReg 0x00 .w32 v) (h : t = acceptCommand v s)
  /-- R25, R72: a write to IN_LEN. -/
  | inLen (v : Word) (hb : busy s = false) (h : t = invalidate { s with regs := { s.regs with inLen := v } })
  /-- R25, R26. -/
  | operands (n a0 a1 a2 : Word) (hb : busy s = false)
      (h : t = { s with regs := { s.regs with nameLen := n, arg0 := a0, arg1 := a1, arg2 := a2 } })
  /-- R70, R72. -/
  | inByte (a : Nat) (v : Byte) (hb : busy s = false) (ha : a < s.params.inCap)
      (h : t = invalidate { s with inMem := s.inMem.set a v })
  /-- R71. -/
  | nameByte (a : Nat) (v : Byte) (hb : busy s = false) (ha : a < s.params.nameCap)
      (h : t = { s with nameMem := s.nameMem.set a v })
  /-- R380, R382. -/
  | reset (ho : op = .reset) (h : t = hardReset s)

theorem eq_of_toNat_offset {off : BitVec 8} {n : Nat} (h : off.toNat = n) : off = BitVec.ofNat 8 n := by
  rw [← h, BitVec.ofNat_toNat, BitVec.setWidth_eq]

theorem hostReadReg_held (off : BitVec 8) (w : Width) (s : State) :
    ∃ d n, hostReadReg off w s = { s with hostData := d, readDraws := n } := by
  unfold hostReadReg
  split
  · exact ⟨_, _, rfl⟩
  split
  · exact ⟨_, _, rfl⟩
  split
  · exact ⟨_, _, rfl⟩
  split
  · exact ⟨_, _, rfl⟩
  · exact ⟨_, _, rfl⟩

theorem aligned_width {off : BitVec 8} {w : Width} (h : ¬ aligned off w = false) : w = .w32 := by
  cases w <;> first | rfl | exact absurd rfl h

theorem writeIdleReg_effect {off : BitVec 8} (v : Word) {s : State} (hb : busy s = false) :
    HostEffect (.writeReg off .w32 v) s (writeIdleReg off.toNat v s) := by
  generalize hn : off.toNat = n
  have he := eq_of_toNat_offset hn
  unfold writeIdleReg
  split
  · exact .accepted v hb (congrArg (HostOp.writeReg · .w32 v) he) rfl
  · exact .inLen v hb rfl
  · exact .operands v s.regs.arg0 s.regs.arg1 s.regs.arg2 hb rfl
  · exact .operands s.regs.nameLen v s.regs.arg1 s.regs.arg2 hb rfl
  · exact .operands s.regs.nameLen s.regs.arg0 v s.regs.arg2 hb rfl
  · exact .operands s.regs.nameLen s.regs.arg0 s.regs.arg1 v hb rfl
  · exact .held s.hostData s.readDraws rfl

theorem writeBusyReg_effect (op : HostOp) (off : Nat) {s : State} (hb : busy s = true) :
    HostEffect op s (writeBusyReg off s) := by
  unfold writeBusyReg
  split
  · exact .dropped hb rfl
  · exact .held s.hostData s.readDraws rfl

theorem hostWriteReg_effect (off : BitVec 8) (w : Width) (v : Word) (s : State) :
    HostEffect (.writeReg off w v) s (hostWriteReg off w v s) := by
  unfold hostWriteReg
  split
  · exact .held s.hostData s.readDraws rfl
  · next ha =>
    obtain rfl := aligned_width ha
    split
    · next h4 => exact .status v (congrArg (HostOp.writeReg · .w32 v) (eq_of_toNat_offset h4)) rfl
    split
    · next h8 => exact .ctrl v (congrArg (HostOp.writeReg · .w32 v) (eq_of_toNat_offset h8)) rfl
    split
    · next hb => exact writeBusyReg_effect _ _ hb
    · next hb => exact writeIdleReg_effect v (by simpa using hb)

theorem portAccess_next {p : Port} {a : Nat} {s t u : State} (h : portAccess p a s t = .next u) :
    a < capacity p s ∧ u = t := by
  unfold portAccess at h
  split at h
  · next ha => cases h; exact ⟨ha, rfl⟩
  · cases h

/-- Everything a host access that is performed can do. -/
theorem hostAccess_effect {op : HostOp} {s t : State} (h : hostAccess op s = .next t) : HostEffect op s t := by
  cases op with
  | writeReg off w v => cases h; exact hostWriteReg_effect off w v s
  | readReg off w =>
    cases h
    obtain ⟨d, n, e⟩ := hostReadReg_held off w s
    exact .held d n e
  | writeIn a v =>
    obtain ⟨ha, rfl⟩ := portAccess_next h
    unfold hostWriteIn
    split
    · next hb => exact .dropped hb rfl
    · next hb => exact .inByte a v (by simpa using hb) ha rfl
  | writeName a v =>
    obtain ⟨ha, rfl⟩ := portAccess_next h
    unfold hostWriteName
    split
    · next hb => exact .dropped hb rfl
    · next hb => exact .nameByte a v (by simpa using hb) ha rfl
  | writeOut a v =>
    obtain ⟨-, rfl⟩ := portAccess_next h
    exact .held t.hostData t.readDraws rfl
  | readIn a =>
    obtain ⟨-, rfl⟩ := portAccess_next h
    exact .held _ s.readDraws rfl
  | readName a =>
    obtain ⟨-, rfl⟩ := portAccess_next h
    exact .held _ s.readDraws rfl
  | readOut a =>
    obtain ⟨-, rfl⟩ := portAccess_next h
    unfold hostReadOut
    split
    · exact .held _ _ rfl
    · exact .held _ s.readDraws rfl
  | reset => cases h; exact .reset rfl rfl
  | pass => cases h; exact .held s.hostData s.readDraws rfl
  | wait => cases h; exact .held s.hostData s.readDraws rfl

/-- Everything that makes a host access fault: a port access to a byte that does not exist. -/
theorem hostAccess_fault {op : HostOp} {s : State} {f : Fault} (h : hostAccess op s = .fault f) :
    ∃ p a, f = .noSuchByte p a ∧ capacity p s ≤ a ∧
      ((p = .inPort ∧ (op = .readIn a ∨ ∃ v, op = .writeIn a v)) ∨
        (p = .namePort ∧ (op = .readName a ∨ ∃ v, op = .writeName a v)) ∨
        (p = .outPort ∧ (op = .readOut a ∨ ∃ v, op = .writeOut a v))) := by
  have key : ∀ p a t, portAccess p a s t = .fault f → f = .noSuchByte p a ∧ capacity p s ≤ a := by
    intro p a t h
    unfold portAccess at h
    split at h
    · cases h
    · next hc => cases h; exact ⟨rfl, Nat.not_lt.mp hc⟩
  cases op with
  | writeIn a v => exact ⟨_, a, (key _ _ _ h).1, (key _ _ _ h).2, .inl ⟨rfl, .inr ⟨v, rfl⟩⟩⟩
  | writeName a v => exact ⟨_, a, (key _ _ _ h).1, (key _ _ _ h).2, .inr (.inl ⟨rfl, .inr ⟨v, rfl⟩⟩)⟩
  | writeOut a v => exact ⟨_, a, (key _ _ _ h).1, (key _ _ _ h).2, .inr (.inr ⟨rfl, .inr ⟨v, rfl⟩⟩)⟩
  | readIn a => exact ⟨_, a, (key _ _ _ h).1, (key _ _ _ h).2, .inl ⟨rfl, .inl rfl⟩⟩
  | readName a => exact ⟨_, a, (key _ _ _ h).1, (key _ _ _ h).2, .inr (.inl ⟨rfl, .inl rfl⟩)⟩
  | readOut a => exact ⟨_, a, (key _ _ _ h).1, (key _ _ _ h).2, .inr (.inr ⟨rfl, .inl rfl⟩)⟩
  | writeReg off w v => cases h
  | readReg off w => cases h
  | reset => cases h
  | pass => cases h
  | wait => cases h

/-- The moves of the two agents (R86): a step of the core, or a host access, on the state without the move taken. -/
theorem nextMove_cases {s t : State} (h : nextMove s = .next t) :
    (coreStep s = .next t ∧ (s.hostOps = [] ∨ ∃ ops, s.hostOps = .wait :: ops ∧ busy s = true)) ∨
    (∃ ops, s.hostOps = .pass :: ops ∧ coreStep { s with hostOps := ops } = .next t) ∨
    (∃ ops, s.hostOps = .wait :: ops ∧ busy s = false ∧ t = { s with hostOps := ops }) ∨
    (∃ op ops, s.hostOps = op :: ops ∧ op ≠ .pass ∧ op ≠ .wait ∧ HostEffect op { s with hostOps := ops } t) := by
  unfold nextMove at h
  split at h
  · next e => exact .inl ⟨h, .inl e⟩
  · next ops e => exact .inr (.inl ⟨ops, e, h⟩)
  · next ops e =>
    split at h
    · next hb => exact .inl ⟨h, .inr ⟨ops, e, hb⟩⟩
    · next hb => cases h; exact .inr (.inr (.inl ⟨ops, e, by simpa using hb, rfl⟩))
  · next op ops hp hw e => exact .inr (.inr (.inr ⟨op, ops, e, hp, hw, hostAccess_effect h⟩))

end Sys2Proof.Machine
end

