-- ==== Sys2Proof/Laws/PerInstr.lean ====
section
/-! SUPPORT. The family RoundTrip of LAWS.json: decoding the format and number that `encode` gives a well-formed
instruction gives that instruction back, one lemma per constructor. -/

namespace Sys2Proof.Laws.RoundTrip

/-- The instruction, when it is well formed, is what its own encoding decodes to. -/
def Statement (i : Instr) : Prop := i.wf = true → decode (encode i).1 (encode i).2 = .ok i

theorem reservedOp0 : Statement .reservedOp0 := fun _ => rfl
theorem cmdOpen : Statement .cmdOpen := fun _ => rfl
theorem cmdRead : Statement .cmdRead := fun _ => rfl
theorem cmdInflate : Statement .cmdInflate := fun _ => rfl
theorem cmdCrc32 : Statement .cmdCrc32 := fun _ => rfl
theorem reservedOp5 : Statement .reservedOp5 := fun _ => rfl
theorem reservedOp6 : Statement .reservedOp6 := fun _ => rfl
theorem reservedOp7 : Statement .reservedOp7 := fun _ => rfl
theorem reservedOp8 : Statement .reservedOp8 := fun _ => rfl
theorem reservedOp9 : Statement .reservedOp9 := fun _ => rfl
theorem reservedOpA : Statement .reservedOpA := fun _ => rfl
theorem reservedOpB : Statement .reservedOpB := fun _ => rfl
theorem reservedOpC : Statement .reservedOpC := fun _ => rfl
theorem reservedOpD : Statement .reservedOpD := fun _ => rfl
theorem reservedOpE : Statement .reservedOpE := fun _ => rfl
theorem reservedOpF : Statement .reservedOpF := fun _ => rfl
theorem storedBlock (final : Bool) : Statement (.storedBlock final) := by intro _; cases final <;> rfl
theorem fixedBlock (final : Bool) : Statement (.fixedBlock final) := by intro _; cases final <;> rfl
theorem dynamicBlock (final : Bool) : Statement (.dynamicBlock final) := by intro _; cases final <;> rfl
theorem reservedBlock (final : Bool) : Statement (.reservedBlock final) := by intro _; cases final <;> rfl
theorem lit (byte : Nat) : Statement (.lit byte) := by
  intro h
  simp only [Instr.wf, decide_eq_true_eq] at h
  exact if_pos h
theorem eob : Statement .eob := fun _ => rfl
theorem len257 : Statement .len257 := fun _ => rfl
theorem len258 : Statement .len258 := fun _ => rfl
theorem len259 : Statement .len259 := fun _ => rfl
theorem len260 : Statement .len260 := fun _ => rfl
theorem len261 : Statement .len261 := fun _ => rfl
theorem len262 : Statement .len262 := fun _ => rfl
theorem len263 : Statement .len263 := fun _ => rfl
theorem len264 : Statement .len264 := fun _ => rfl
theorem len265 : Statement .len265 := fun _ => rfl
theorem len266 : Statement .len266 := fun _ => rfl
theorem len267 : Statement .len267 := fun _ => rfl
theorem len268 : Statement .len268 := fun _ => rfl
theorem len269 : Statement .len269 := fun _ => rfl
theorem len270 : Statement .len270 := fun _ => rfl
theorem len271 : Statement .len271 := fun _ => rfl
theorem len272 : Statement .len272 := fun _ => rfl
theorem len273 : Statement .len273 := fun _ => rfl
theorem len274 : Statement .len274 := fun _ => rfl
theorem len275 : Statement .len275 := fun _ => rfl
theorem len276 : Statement .len276 := fun _ => rfl
theorem len277 : Statement .len277 := fun _ => rfl
theorem len278 : Statement .len278 := fun _ => rfl
theorem len279 : Statement .len279 := fun _ => rfl
theorem len280 : Statement .len280 := fun _ => rfl
theorem len281 : Statement .len281 := fun _ => rfl
theorem len282 : Statement .len282 := fun _ => rfl
theorem len283 : Statement .len283 := fun _ => rfl
theorem len284 : Statement .len284 := fun _ => rfl
theorem len285 : Statement .len285 := fun _ => rfl
theorem invalidLitLen286 : Statement .invalidLitLen286 := fun _ => rfl
theorem invalidLitLen287 : Statement .invalidLitLen287 := fun _ => rfl
theorem dist0 : Statement .dist0 := fun _ => rfl
theorem dist1 : Statement .dist1 := fun _ => rfl
theorem dist2 : Statement .dist2 := fun _ => rfl
theorem dist3 : Statement .dist3 := fun _ => rfl
theorem dist4 : Statement .dist4 := fun _ => rfl
theorem dist5 : Statement .dist5 := fun _ => rfl
theorem dist6 : Statement .dist6 := fun _ => rfl
theorem dist7 : Statement .dist7 := fun _ => rfl
theorem dist8 : Statement .dist8 := fun _ => rfl
theorem dist9 : Statement .dist9 := fun _ => rfl
theorem dist10 : Statement .dist10 := fun _ => rfl
theorem dist11 : Statement .dist11 := fun _ => rfl
theorem dist12 : Statement .dist12 := fun _ => rfl
theorem dist13 : Statement .dist13 := fun _ => rfl
theorem dist14 : Statement .dist14 := fun _ => rfl
theorem dist15 : Statement .dist15 := fun _ => rfl
theorem dist16 : Statement .dist16 := fun _ => rfl
theorem dist17 : Statement .dist17 := fun _ => rfl
theorem dist18 : Statement .dist18 := fun _ => rfl
theorem dist19 : Statement .dist19 := fun _ => rfl
theorem dist20 : Statement .dist20 := fun _ => rfl
theorem dist21 : Statement .dist21 := fun _ => rfl
theorem dist22 : Statement .dist22 := fun _ => rfl
theorem dist23 : Statement .dist23 := fun _ => rfl
theorem dist24 : Statement .dist24 := fun _ => rfl
theorem dist25 : Statement .dist25 := fun _ => rfl
theorem dist26 : Statement .dist26 := fun _ => rfl
theorem dist27 : Statement .dist27 := fun _ => rfl
theorem dist28 : Statement .dist28 := fun _ => rfl
theorem dist29 : Statement .dist29 := fun _ => rfl
theorem invalidDist30 : Statement .invalidDist30 := fun _ => rfl
theorem invalidDist31 : Statement .invalidDist31 := fun _ => rfl
theorem clLen (length : Nat) : Statement (.clLen length) := by
  intro h
  simp only [Instr.wf, decide_eq_true_eq] at h
  exact if_pos h
theorem clRepeat : Statement .clRepeat := fun _ => rfl
theorem clZerosShort : Statement .clZerosShort := fun _ => rfl
theorem clZerosLong : Statement .clZerosLong := fun _ => rfl
theorem eocd : Statement .eocd := fun _ => rfl
theorem cdh : Statement .cdh := fun _ => rfl
theorem lfh : Statement .lfh := fun _ => rfl

end Sys2Proof.Laws.RoundTrip
end

