-- ==== Sys2Proof/Tests/Slice0.lean ====
section
/-! SUPPORT. The tests: the well-formedness smoke test, every instruction's word written out from the spec's encoding
of it, the worked examples of spec/95_test_vectors.md one step at a time, and for each statement with hypotheses a
witness that meets them. Every expected value is the spec's. -/

namespace Sys2Proof.Tests

-- one theorem after another: the kernel evaluations would otherwise each hold a thread
set_option Elab.async false

open Sys2Proof Sys2Proof.Machine

/-! ## Helpers -/

/-- The state an outcome holds. -/
def next? : Host.Outcome State Fault Refusal → Option State
  | .next t => some t
  | .fault _ => none
  | .refused _ => none

/-- What a successful outcome satisfies, from its evaluation. -/
theorem next?_any {o : Host.Outcome State Fault Refusal} {q : State → Bool} (h : (next? o).any q = true) :
    ∃ t, o = .next t ∧ q t = true := by
  cases o with
  | next t => exact ⟨t, rfl, h⟩
  | fault _ => cases h
  | refused _ => cases h

/-- The step answers a state that satisfies `q`. -/
def stepTo (s : State) (q : State → Bool) : Bool := (next? (step s)).any q

/-- The step is the failure completion with this ERR word and ERR_POS. -/
def stepFails (s : State) (err errPos : Word) : Bool :=
  stepTo s fun t => decide (t.run = .fail) && decide (t.regs.err = err) && decide (t.regs.errPos = errPos)

/-- Bytes from numbers. -/
def bytes (l : List Nat) : List Byte := l.map (BitVec.ofNat 8)

/-- An INFLATE of the whole of `src` with capacity `cap`, at place `a` and bit `p`, in phase `ph`, after it has
produced `out`. -/
def stream (a : Activity) (ph : Phase) (p : Nat) (src out : List Nat) (cap : Nat) : State :=
  goTo a { loadIn (bytes src) State.reset with
    outMem := memoryOf 0 (bytes out)
    regs := { (loadIn (bytes src) State.reset).regs with
      cmdOp := 3, arg1 := BitVec.ofNat 32 src.length, arg2 := BitVec.ofNat 32 cap }
    inf := { Inflator.initial with
      bitpos := p, regionEnd := src.length, destLen := out.length, destCap := cap, phase := ph } }

/-- The same with the counts of a dynamic header, the lengths decoded so far, and the code-length tree of H-7. -/
def lengthStream (p : Nat) (src lengths : List Nat) (hlit hdist : Nat) : State :=
  let s := stream .codeLength .dynamic p src [] 16
  { s with inf := { s.inf with
    lengths := lengths, hlit := hlit, hdist := hdist, hclen := 18
    cl := [3, 3, 3, 2, 0, 0, 0, 0, 0, 0, 0, 0, 0, 0, 0, 0, 4, 2, 4]
    clt := buildTree [3, 3, 3, 2, 0, 0, 0, 0, 0, 0, 0, 0, 0, 0, 0, 0, 4, 2, 4] } }

/-- The match length a stream is at. -/
def withLength (n : Nat) (s : State) : State := { s with inf := { s.inf with matchLen := n } }

/-- The archive Z-HI of spec/95_test_vectors.md: one stored entry "a.txt" with the content "hi". -/
def zHi : List Nat :=
  [0x50, 0x4B, 0x03, 0x04, 20, 0, 0, 0, 0, 0, 0, 0, 33, 0, 0xAC, 0x2A, 0x93, 0xD8, 2, 0, 0, 0, 2, 0, 0, 0, 5, 0, 0, 0] ++
  [0x61, 0x2E, 0x74, 0x78, 0x74, 0x68, 0x69] ++
  [0x50, 0x4B, 0x01, 0x02, 20, 0, 20, 0, 0, 0, 0, 0, 0, 0, 33, 0, 0xAC, 0x2A, 0x93, 0xD8, 2, 0, 0, 0, 2, 0, 0, 0, 5, 0,
    0, 0, 0, 0, 0, 0, 0, 0, 0, 0, 0, 0, 0, 0, 0, 0] ++
  [0x61, 0x2E, 0x74, 0x78, 0x74] ++
  [0x50, 0x4B, 0x05, 0x06, 0, 0, 0, 0, 1, 0, 1, 0, 51, 0, 0, 0, 37, 0, 0, 0, 0, 0]

/-- Z-HI with byte `a` replaced by `v`. -/
def zHiWith (a v : Nat) : List Nat := zHi.set a v

/-- An OPEN of `src` at place `a`, with the cursors at Z-HI's records. -/
def opening (a : Activity) (src : List Nat) (scan lfh : Nat) : State :=
  goTo a { loadIn (bytes src) State.reset with
    regs := { (loadIn (bytes src) State.reset).regs with cmdOp := 1 }
    zip := { scanPos := scan, eocdPos := 88, cdCursor := 37, cdLeft := 1, lfhPos := lfh } }

/-- The record of Z-HI. -/
def hiEntry : Entry :=
  { nameOff := 83, nameLen := 5, commentOff := 88, commentLen := 0, method := 0, csize := 2, usize := 2
    crc := 0xD8932AAC, dosTime := 0, dosDate := 33, dataOff := 35 }

/-- Z-HI opened, NAME_LEN bytes of NAME loaded, a READ accepted. -/
def reading (name : List Nat) (ft : List Entry) : State :=
  goTo .command { loadIn (bytes zHi) State.reset with
    nameMem := memoryOf 0 (bytes name)
    ft := ft
    regs := { (loadIn (bytes zHi) State.reset).regs with
      cmdOp := 2, openValid := true, entryCount := 1, commentOff := 110, nameLen := BitVec.ofNat 32 name.length } }

/-- "a.txt". -/
def aTxt : List Nat := [0x61, 0x2E, 0x74, 0x78, 0x74]

/-- A command word accepted after reset. -/
def accepted (w : Word) : State := acceptCommand w State.reset

/-- Reset, with one move of the host to come. -/
def hostMove (op : HostOp) (s : State) : State := { s with hostOps := [op] }

/-! ## Well-formedness (R106, R112) -/

theorem test_wf_lit : (Instr.lit 255).wf = true ∧ (Instr.lit 256).wf = false := by decide
theorem test_wf_clLen : (Instr.clLen 15).wf = true ∧ (Instr.clLen 16).wf = false := by decide

/-! ## Every instruction's word, from the encoding tables -/

/-- R100, R101: bits 3:0 are OP, the others are ignored. -/
theorem test_decode_commands :
    [0x00000000, 0x00000001, 0x00000002, 0x00000003, 0x00000004, 0x00000005, 0x00000006, 0x00000007, 0x00000008,
      0x00000009, 0x0000000A, 0x0000000B, 0x0000000C, 0x0000000D, 0x0000000E, 0x0000000F, 0xABCDEF11].map
      (fun w => (decode .cmd w).toOption) =
    [Instr.reservedOp0, .cmdOpen, .cmdRead, .cmdInflate, .cmdCrc32, .reservedOp5, .reservedOp6, .reservedOp7,
      .reservedOp8, .reservedOp9, .reservedOpA, .reservedOpB, .reservedOpC, .reservedOpD, .reservedOpE, .reservedOpF,
      .cmdOpen].map some := by decide

/-- R103: bit 0 is BFINAL, bits 2:1 are BTYPE. -/
theorem test_decode_blockHdr :
    [0b000, 0b001, 0b010, 0b011, 0b100, 0b101, 0b110, 0b111].map (fun w => (decode .blockHdr w).toOption) =
    [Instr.storedBlock false, .storedBlock true, .fixedBlock false, .fixedBlock true, .dynamicBlock false,
      .dynamicBlock true, .reservedBlock false, .reservedBlock true].map some := by decide

/-- R106: a symbol is a 9-bit number. -/
theorem test_decode_litLen :
    [0b000000000, 0b001000001, 0b011111111, 0b100000000, 0b100000001, 0b100000010, 0b100000011, 0b100000100,
      0b100000101, 0b100000110, 0b100000111, 0b100001000, 0b100001001, 0b100001010, 0b100001011, 0b100001100,
      0b100001101, 0b100001110, 0b100001111, 0b100010000, 0b100010001, 0b100010010, 0b100010011, 0b100010100,
      0b100010101, 0b100010110, 0b100010111, 0b100011000, 0b100011001, 0b100011010, 0b100011011, 0b100011100,
      0b100011101, 0b100011110, 0b100011111].map (fun w => (decode .litLen w).toOption) =
    [Instr.lit 0, .lit 0x41, .lit 0xFF, .eob, .len257, .len258, .len259, .len260, .len261, .len262, .len263, .len264,
      .len265, .len266, .len267, .len268, .len269, .len270, .len271, .len272, .len273, .len274, .len275, .len276,
      .len277, .len278, .len279, .len280, .len281, .len282, .len283, .len284, .len285, .invalidLitLen286,
      .invalidLitLen287].map some := by decide

/-- R108: a symbol is a 5-bit number. -/
theorem test_decode_dist :
    [0b00000, 0b00001, 0b00010, 0b00011, 0b00100, 0b00101, 0b00110, 0b00111, 0b01000, 0b01001, 0b01010, 0b01011,
      0b01100, 0b01101, 0b01110, 0b01111, 0b10000, 0b10001, 0b10010, 0b10011, 0b10100, 0b10101, 0b10110, 0b10111,
      0b11000, 0b11001, 0b11010, 0b11011, 0b11100, 0b11101, 0b11110, 0b11111].map
      (fun w => (decode .dist w).toOption) =
    [Instr.dist0, .dist1, .dist2, .dist3, .dist4, .dist5, .dist6, .dist7, .dist8, .dist9, .dist10, .dist11, .dist12,
      .dist13, .dist14, .dist15, .dist16, .dist17, .dist18, .dist19, .dist20, .dist21, .dist22, .dist23, .dist24,
      .dist25, .dist26, .dist27, .dist28, .dist29, .invalidDist30, .invalidDist31].map some := by decide

/-- R112: a symbol is a number 0..18. -/
theorem test_decode_codeLen :
    [0b00000, 0b01111, 0b10000, 0b10001, 0b10010].map (fun w => (decode .codeLen w).toOption) =
    [Instr.clLen 0, .clLen 15, .clRepeat, .clZerosShort, .clZerosLong].map some := by decide

/-- R116-R118: the signatures. -/
theorem test_decode_records :
    [0x06054B50, 0x02014B50, 0x04034B50].map (fun w => (decode .record w).toOption) =
    [Instr.eocd, .cdh, .lfh].map some := by decide

/-- R106, R108, R112, R116: what no number of a format stands for is refused by name. -/
theorem test_decode_refuses :
    [decode .litLen 288, decode .dist 32, decode .codeLen 19].map Except.toOption = [none, none, none] ∧
    [decode .record 0x02014B51, decode .cmd (2 ^ 32), decode .blockHdr 8].map Except.toOption = [none, none, none] := by
  decide

/-- Assumption 2: table words of each width. -/
theorem test_table_words :
    [decodeTableWord 8 0x1, decodeTableWord 8 0x12, decodeTableWord 8 0x1F, decodeTableWord 16 0x041,
      decodeTableWord 16 0x11D, decodeTableWord 16 0x100, decodeTableWord 32 0x06054B50, decodeTableWord 32 0x4] =
    [Instr.cmdOpen, .clZerosLong, .invalidDist31, .lit 0x41, .len285, .eob, .eocd, .cmdCrc32].map some := by decide

/-- A placed word is the next instruction of the step after reset, in each format. -/
theorem test_placed_words_run :
    stepFails (State.reset.withFetchWord 8 0x01) 0x0110 0 = true ∧
    stepFails (State.reset.withFetchWord 8 0x07) 0x0660 0 = true ∧
    stepTo (State.reset.withFetchWord 8 0x12) (fun t => decide (t.inf.lengths = List.replicate 12 0)) = true ∧
    stepTo (State.reset.withFetchWord 8 0x14) (fun t => decide (t.inf.destLen = 32771)) = true ∧
    stepTo (State.reset.withFetchWord 16 0x041) (fun t => decide (outByte t 32768 = 0x41)) = true ∧
    stepTo (State.reset.withFetchWord 16 0x100) (fun t => decide (t.run = .busy .blockHeader)) = true ∧
    stepTo (State.reset.withFetchWord 16 0x11D) (fun t => decide (t.inf.matchLen = 258)) = true ∧
    stepTo (State.reset.withFetchWord 32 0x06054B50) (fun t => decide (t.run = .busy .finish)) = true ∧
    stepTo (State.reset.withFetchWord 32 0x02014B50) (fun t => decide (t.run = .busy .checkLfh)) = true ∧
    stepTo (State.reset.withFetchWord 32 0x04034B50) (fun t => decide (t.run = .busy .finish)) = true := by
  decide +kernel

/-! ## Commands (R310-R314), as spec/95_test_vectors.md L2-7 and L3 give them -/

/-- Z-SHORT. -/
theorem test_open_short : stepFails { accepted 1 with
    regs := { (accepted 1).regs with inLen := 21 } } 0x0110 0 = true := by decide +kernel

/-- Z-HI: the scan starts at IN_LEN - 22. -/
theorem test_open_starts : stepTo (opening .command zHi 0 0)
    (fun t => decide (t.run = .busy .scanEocd ∧ t.zip.scanPos = 88)) = true := by decide +kernel

/-- R302: no archive is open. -/
theorem test_read_not_open : stepFails (accepted 2) 0x0661 0 = true := by decide +kernel

/-- P1: READ "a.txt" of Z-HI copies "hi" and the ENT registers. -/
theorem test_read_hi : stepTo (reading aTxt [hiEntry]) (fun t => decide (t.run = .busy .finish ∧
    outByte t 0 = 0x68 ∧ outByte t 1 = 0x69 ∧ t.ent.crc = 0xD8932AAC ∧ t.ent.dosdt = 0x00210000 ∧
    t.ent.dataOff = 35 ∧ t.ent.commentOff = 88)) = true := by decide +kernel

/-- P1: READ "b.txt" finds no entry. -/
theorem test_read_not_found : stepFails (reading [0x62, 0x2E, 0x74, 0x78, 0x74] [hiEntry]) 0x0550 0 = true := by
  decide +kernel

/-- R306: the stored CRC of L1-2's failing variant. -/
theorem test_read_crc_mismatch : stepFails { reading aTxt [hiEntry] with
    run := .busy .finish
    outMem := memoryOf 0 (bytes [0x68, 0x69])
    inf := { Inflator.initial with destLen := 2, destCap := 2 }
    ent := { EntRegs.zero with crc := 0xD8822D95, usize := 2, csize := 2 } } 0x0440 0 = true := by decide +kernel

/-- BR-12: ARG0 = 72, ARG1 = 4. -/
theorem test_inflate_starts : stepTo { accepted 3 with
    regs := { (accepted 3).regs with inLen := 76, arg0 := 72, arg1 := 4 } }
    (fun t => decide (t.inf.regionStart = 72 ∧ t.inf.regionEnd = 76 ∧ t.inf.bitpos = 576)) = true := by decide +kernel

/-- R312: a region that ends past IN_LEN. -/
theorem test_inflate_range : stepFails { accepted 3 with
    regs := { (accepted 3).regs with inLen := 76, arg0 := 73, arg1 := 4 } } 0x0662 0 = true := by decide +kernel

/-- R243: "123456789". -/
theorem test_crc32_check_value : stepTo { accepted 4 with
    inMem := memoryOf 0 (bytes [0x31, 0x32, 0x33, 0x34, 0x35, 0x36, 0x37, 0x38, 0x39])
    regs := { (accepted 4).regs with inLen := 9, arg1 := 9 } }
    (fun t => decide (t.run = .done ∧ t.regs.resCrc = 0xCBF43926)) = true := by decide +kernel

/-- R314, R101. -/
theorem test_reserved_command : stepFails (accepted 0xFFFFFFF7) 0x0660 0 = true := by decide +kernel

/-! ## Blocks (L2-3, L2-5) -/

/-- STORED-1. -/
theorem test_stored_block : stepTo (stream .blockHeader .awaitBlockHeader 0 [0x01, 0x02, 0x00, 0xFD, 0xFF, 0x68, 0x69] [] 16)
    (fun t => decide (t.run = .busy .finish ∧ t.inf.phase = .done ∧ t.inf.bitpos = 56 ∧ t.inf.destLen = 2 ∧
      outByte t 0 = 0x68 ∧ outByte t 1 = 0x69)) = true := by decide +kernel

/-- STMIS-1. -/
theorem test_stored_mismatch : stepFails (stream .blockHeader .awaitBlockHeader 0 [0x01, 0x02, 0x00, 0xFC, 0xFF, 0x68, 0x69]
    [] 16) 0x0331 5 = true := by decide +kernel

/-- STTRUNC-1. -/
theorem test_stored_truncated : stepFails (stream .blockHeader .awaitBlockHeader 0 [0x01, 0x05, 0x00, 0xFA, 0xFF, 0x68, 0x69]
    [] 16) 0x0338 7 = true := by decide +kernel

/-- BTYPE3-1. -/
theorem test_reserved_block : stepFails (stream .blockHeader .awaitBlockHeader 0 [0x07] [] 16) 0x3330 0 = true := by
  decide +kernel

/-- R191: the first byte 0x73 gives bfinal 1 and btype 1. -/
theorem test_fixed_block : stepTo (stream .blockHeader .awaitBlockHeader 0 [0x73, 0x74, 0x74, 0x74, 0x04, 0x00] [] 16)
    (fun t => decide (t.run = .busy .litLen ∧ t.inf.phase = .fixed ∧ t.inf.bfinal = true ∧ t.inf.bitpos = 3)) = true := by
  decide +kernel

/-- DYN-1: the header of bits 0-70. -/
theorem test_dynamic_block : stepTo (stream .blockHeader .awaitBlockHeader 0
    [0x35, 0xC3, 0x29, 0x0E, 0x00, 0x00, 0x00, 0xC2, 0xB0, 0xB7] [] 16)
    (fun t => decide (t.inf.hlit = 263 ∧ t.inf.hdist = 4 ∧ t.inf.hclen = 18 ∧ t.inf.bitpos = 71 ∧
      t.inf.cl = [3, 3, 3, 2, 0, 0, 0, 0, 0, 0, 0, 0, 0, 0, 0, 0, 4, 2, 4])) = true := by decide +kernel

/-! ## Literal/length and distance symbols (L2-4) -/

/-- AAAA-1, bits 3-10: LIT 0x41. -/
theorem test_lit : stepTo (stream .litLen .fixed 3 [0x73, 0x74, 0x74, 0x74, 0x04, 0x00] [] 4)
    (fun t => decide (t.inf.bitpos = 11 ∧ t.inf.destLen = 1 ∧ outByte t 0 = 0x41)) = true := by decide +kernel

/-- OUTOVR-1: the fourth literal of AAAA-1 with capacity 3. -/
theorem test_lit_full : stepFails (stream .litLen .fixed 27 [0x73, 0x74, 0x74, 0x74, 0x04, 0x00] [0x41, 0x41, 0x41] 3)
    0x3339 4 = true := by decide +kernel

/-- AAAA-1, bits 35-41: EOB of a block that is not final here. -/
theorem test_eob : stepTo (stream .litLen .fixed 35 [0x73, 0x74, 0x74, 0x74, 0x04, 0x00] [0x41, 0x41, 0x41, 0x41] 4)
    (fun t => decide (t.inf.bitpos = 42 ∧ t.run = .busy .blockHeader)) = true := by decide +kernel

/-- EXTRA-1, bits 51-58: LEN 265 +1 is length 12. -/
theorem test_len_extra : stepTo (stream .litLen .fixed 51 [0x4B, 0x4C, 0x4A, 0x4E, 0x49, 0x4D, 0x43, 0x26, 0x01]
    [0x61, 0x62, 0x63, 0x64, 0x65, 0x66] 18)
    (fun t => decide (t.run = .busy .distance ∧ t.inf.matchLen = 12 ∧ t.inf.bitpos = 59)) = true := by decide +kernel

/-- EXTRA-1, bits 59-64: DIST 4 +1 is distance 6. -/
theorem test_dist_extra : stepTo (withLength 12 (stream .distance .fixed 59
    [0x4B, 0x4C, 0x4A, 0x4E, 0x49, 0x4D, 0x43, 0x26, 0x01] [0x61, 0x62, 0x63, 0x64, 0x65, 0x66] 18))
    (fun t => decide (t.inf.bitpos = 65 ∧ t.inf.destLen = 18 ∧ outByte t 6 = 0x61 ∧ outByte t 17 = 0x66)) = true := by
  decide +kernel

/-- RUN-1: distance 1, so each byte copies the one written before it. -/
theorem test_dist_overlap : stepTo (withLength 10 (stream .distance .fixed 18 [0x4B, 0x44, 0x00, 0x00] [0x61] 16))
    (fun t => decide (t.inf.destLen = 11 ∧ outByte t 10 = 0x61)) = true := by decide +kernel

/-- DISTFAR-1. -/
theorem test_dist_too_far : stepFails (withLength 3 (stream .distance .fixed 10 [0x03, 0x02, 0x00] [] 16)) 0x7335 1 =
    true := by decide +kernel

/-- SYM286-1. -/
theorem test_invalid_litlen : stepFails (stream .litLen .fixed 3 [0x1B, 0x03, 0x00] [] 16) 0x3333 1 = true := by
  decide +kernel

/-- DIST30-1. -/
theorem test_invalid_dist : stepFails (withLength 3 (stream .distance .fixed 18 [0x73, 0x04, 0x3E, 0x00] [0x41] 16))
    0x7334 2 = true := by decide +kernel

/-- TRUNC-1: the region ends inside the fourth literal. -/
theorem test_truncated_symbol : stepFails (stream .litLen .fixed 27 [0x73, 0x74, 0x74, 0x74] [0x41, 0x41, 0x41] 16)
    0x0338 4 = true := by decide +kernel

/-- R107, D43: LEN 284 with extra 31 is length 258, like LEN 285. -/
theorem test_len_284_285 :
    (next? (exec .len284 (stream .litLen .fixed 0 [0xFF] [] 16))).any (fun t => decide (t.inf.matchLen = 258)) = true ∧
    (next? (exec .len285 (stream .litLen .fixed 0 [0xFF] [] 16))).any
      (fun t => decide (t.inf.matchLen = 258 ∧ t.inf.bitpos = 0)) = true := by decide +kernel

/-! ## Code-length symbols (DYN-1's sequence) -/

/-- Bits 71-81: CL 18 +86 is 97 zeros. -/
theorem test_cl_zeros_long : stepTo (lengthStream 71
    [0x35, 0xC3, 0x29, 0x0E, 0x00, 0x00, 0x00, 0xC2, 0xB0, 0xB7, 0x72] [] 263 4)
    (fun t => decide (t.inf.bitpos = 82 ∧ t.inf.lengths = List.replicate 97 0)) = true := by decide +kernel

/-- Bits 82-83: CL 3. -/
theorem test_cl_len : stepTo (lengthStream 82 [0x35, 0xC3, 0x29, 0x0E, 0x00, 0x00, 0x00, 0xC2, 0xB0, 0xB7, 0x72]
    [0, 0] 263 4) (fun t => decide (t.inf.bitpos = 84 ∧ t.inf.lengths = [0, 0, 3])) = true := by decide +kernel

/-- Bits 84-89: CL 16 +0 repeats the length before it three times. -/
theorem test_cl_repeat : stepTo (lengthStream 84
    [0x35, 0xC3, 0x29, 0x0E, 0x00, 0x00, 0x00, 0xC2, 0xB0, 0xB7, 0x72, 0xFC] [0, 3] 263 4)
    (fun t => decide (t.inf.bitpos = 90 ∧ t.inf.lengths = [0, 3, 3, 3, 3])) = true := by decide +kernel

/-- R203: no length before it. -/
theorem test_cl_repeat_first : stepTo (lengthStream 84
    [0x35, 0xC3, 0x29, 0x0E, 0x00, 0x00, 0x00, 0xC2, 0xB0, 0xB7, 0x72, 0xFC] [] 263 4)
    (fun t => decide (t.run = .fail ∧ t.regs.err.extractLsb' 0 8 = 0x36 ∧ t.inf.bitpos = 88)) = true := by decide +kernel

/-- Bits 101-105: CL 17 +7 is ten zeros. -/
theorem test_cl_zeros_short : stepTo (lengthStream 101
    [0x35, 0xC3, 0x29, 0x0E, 0x00, 0x00, 0x00, 0xC2, 0xB0, 0xB7, 0x72, 0xFC, 0xDF, 0xCB] [1] 263 4)
    (fun t => decide (t.inf.bitpos = 106 ∧ t.inf.lengths = 1 :: List.replicate 10 0)) = true := by decide +kernel

/-! ## ZIP records (Z-HI and its variants) -/

/-- The EOCD record of Z-HI. -/
theorem test_eocd : stepTo (opening .scanEocd zHi 88 0)
    (fun t => decide (t.run = .busy .walkCdh ∧ t.zip.cdCursor = 37 ∧ t.zip.cdLeft = 1 ∧ t.zip.eocdPos = 88)) = true := by
  decide +kernel

/-- Z-CDDISK: the central directory starts on disk 1. -/
theorem test_eocd_multi_disk : stepFails (opening .scanEocd (zHiWith 94 1) 88 0) 0x0112 88 = true := by decide +kernel

/-- The central-directory record of Z-HI. -/
theorem test_cdh : stepTo (opening .walkCdh zHi 88 7) (fun t => decide (t.run = .busy .checkLfh ∧ t.zip.lfhPos = 0)) =
    true := by decide +kernel

/-- Z-M99: method 99. -/
theorem test_cdh_bad_method : stepFails (opening .walkCdh (zHiWith 47 99) 88 0) 0x0222 37 = true := by decide +kernel

/-- The local header of Z-HI, and the record it completes. -/
theorem test_lfh : stepTo (opening .checkLfh zHi 88 0) (fun t => decide (t.run = .busy .finish ∧ t.ft = [hiEntry])) =
    true := by decide +kernel

/-- R275: no local header at the offset. -/
theorem test_lfh_bad_signature : stepFails (opening .checkLfh zHi 88 1) 0x0119 1 = true := by decide +kernel

/-- P1: the end of OPEN. -/
theorem test_open_finishes : stepTo { opening .finish zHi 88 0 with ft := [hiEntry] }
    (fun t => decide (statusWord t t.regs.openValid = 0x16 ∧ t.regs.entryCount = 1 ∧ t.regs.commentOff = 110 ∧
      t.regs.commentLen = 0)) = true := by decide +kernel

/-! ## The host's side -/

/-- R22: 1 clears bits 3 and 4 of STATUS, 0 keeps them. -/
theorem test_status_write :
    stepTo (hostMove (.writeReg 0x04 .w32 0x08)
      { State.reset with regs := { Regs.initial with ignored := true, irqPending := true } })
      (fun t => decide (t.regs.ignored = false ∧ t.regs.irqPending = true)) = true := by decide +kernel

/-- R20: reserved registers read 0. -/
theorem test_reserved_register : stepTo (hostMove (.readReg 0xFC .w32) { State.reset with hostData := 5 })
    (fun t => decide (t.hostData = 0)) = true := by decide +kernel

/-- R72: a write to IN drops the handle. -/
theorem test_in_write : stepTo (hostMove (.writeIn 3 0x55) (reading aTxt [hiEntry] |> complete))
    (fun t => decide (t.regs.openValid = false ∧ inByte t 3 = 0x55 ∧ inByte t 2 = 0x03)) = true := by decide +kernel

/-! ## Witnesses: states and operands that meet the hypotheses of the statements, clause by clause -/

/-- RoundTrip and DecodeSound: the last operand of each format. -/
theorem witness_encodings :
    (Instr.lit 255).wf = true ∧ (Instr.clLen 15).wf = true ∧
    decode .cmd 0xFFFFFFFF = .ok .reservedOpF ∧ decode .blockHdr 7 = .ok (.reservedBlock true) ∧
    decode .litLen 287 = .ok .invalidLitLen287 ∧ decode .dist 31 = .ok .invalidDist31 ∧
    decode .codeLen 18 = .ok .clZerosLong ∧ decode .record 0x04034B50 = .ok .lfh :=
  ⟨by decide, by decide, rfl, rfl, rfl, rfl, rfl, rfl⟩

/-- CommandReservedBits. -/
theorem witness_CommandReservedBits :
    ∃ w w' : Word, w ≠ w' ∧ w.extractLsb' 0 4 = w'.extractLsb' 0 4 := ⟨0xFFFFFFF1, 1, by decide⟩

/-- PseudoInstructions, at the ends of its ranges (R121: 258 is symbol 285). -/
theorem witness_PseudoInstructions :
    matchElements 258 32768 = some ({ symbol := 285, extra := 0 }, { symbol := 29, extra := 8191 }) ∧
    matchElements 3 1 = some ({ symbol := 257, extra := 0 }, { symbol := 0, extra := 0 }) ∧
    matchElements 2 1 = none ∧ matchElements 259 1 = none ∧ matchElements 3 0 = none ∧ matchElements 3 32769 = none ∧
    zerosElement 3 = some { symbol := 17, extra := 0 } ∧ zerosElement 10 = some { symbol := 17, extra := 7 } ∧
    zerosElement 11 = some { symbol := 18, extra := 0 } ∧ zerosElement 138 = some { symbol := 18, extra := 127 } ∧
    repeatElement 6 = some { symbol := 16, extra := 3 } := by decide

/-- BitReader: BR-4 (16 bits at the end of the region), BR-7 (none), BR-5 (one bit too many). -/
theorem witness_BitReader :
    (∃ s : State, s.inf.bitpos + 16 ≤ 8 * s.inf.regionEnd ∧ bitField s s.inf.bitpos 16 = 0x1234) ∧
    (∃ s : State, 8 * s.inf.regionEnd ≤ s.inf.bitpos ∧ (readBits 0 s).toOption.map Prod.fst = some 0) ∧
    (∃ s : State, s.inf.bitpos = 5 ∧ 8 * s.inf.regionEnd < s.inf.bitpos + 4) ∧
    (∃ s : State, s.inf.bitpos + 1 = 8 * s.inf.regionEnd) :=
  ⟨⟨stream .litLen .fixed 0 [0x34, 0x12] [] 0, by decide +kernel⟩,
   ⟨stream .litLen .fixed 8 [0x73] [] 0, by decide +kernel⟩,
   ⟨stream .litLen .fixed 5 [0x73] [] 0, by decide +kernel⟩,
   ⟨stream .litLen .fixed 7 [0x73] [] 0, by decide +kernel⟩⟩

/-- BuildTreeFollowsTheLoops: H-1. -/
theorem witness_BuildTreeFollowsTheLoops :
    ([2, 1, 3, 3] : List Nat).length ≤ 288 ∧ (∀ l ∈ [2, 1, 3, 3], l ≤ 15) ∧
    buildTreeBySteps [2, 1, 3, 3] =
      { count := [0, 1, 1, 2, 0, 0, 0, 0, 0, 0, 0, 0, 0, 0, 0, 0]
        sym := [some 1, some 0, some 2, some 3] ++ List.replicate 284 none } := by decide +kernel

/-- `StreamHas`, evaluated. -/
def hasBits (s : State) : (p : Nat) → (bs : List Bool) → Bool
  | _, [] => true
  | p, b :: bs => decide (bitAt s p = b.toNat) && hasBits s (p + 1) bs

theorem hasBits_sound {s : State} {p : Nat} {bs : List Bool} (h : hasBits s p bs = true) : StreamHas s p bs := by
  induction bs generalizing p with
  | nil => trivial
  | cons b bs ih =>
    simp only [hasBits, Bool.and_eq_true, decide_eq_true_eq] at h
    exact ⟨h.1, ih h.2⟩

/-- DecodedSymbolIsPlaced and CanonicalCodewordDecodes: H-1a, the bits 1 1 0. -/
theorem witness_CanonicalCodewordDecodes :
    ∃ (lens : List Nat) (i l : Nat) (s : State), (∀ x ∈ lens, x ≤ 15) ∧ kraftSum lens ≤ 2 ^ 15 ∧
      lens[i]? = some l ∧ l ≠ 0 ∧ s.inf.bitpos + l ≤ 8 * s.inf.regionEnd ∧
      codeBits l (canonicalCode lens i) = [true, true, false] ∧
      StreamHas s s.inf.bitpos (codeBits l (canonicalCode lens i)) ∧
      (decodeSym (buildTree lens) s).toOption.map Prod.fst = some (some 2) :=
  ⟨[2, 1, 3, 3], 2, 3, stream .litLen .fixed 0 [0x03] [] 0, by decide +kernel, by decide +kernel, by decide +kernel,
    by decide, by decide +kernel, by decide +kernel, hasBits_sound (by decide +kernel), by decide +kernel⟩

/-- The one codeword of the incomplete lengths [1] is 0: bits that are 1 begin with none. -/
theorem noCodeword_of_one {s : State} (h : bitAt s s.inf.bitpos = 1) (n : Nat) :
    ∀ i l, ([1] : List Nat)[i]? = some l → l ≠ 0 → l ≤ n →
      ¬ StreamHas s s.inf.bitpos (codeBits l (canonicalCode [1] i)) := by
  intro i l hi _ _ hs
  cases i with
  | zero =>
    cases hi
    have h0 : bitAt s s.inf.bitpos = 0 := hs.1
    omega
  | succ i => cases hi

/-- CompleteAndEmptyTrees: H-1 is complete, H-4 is empty, and 15 bits are left; an incomplete tree, with 15 bits left
that are no codeword, with 3 left and with none; and a position beyond the region. -/
theorem witness_CompleteAndEmptyTrees :
    (∃ s : State, kraftSum [2, 1, 3, 3] = 2 ^ 15 ∧ (∀ x ∈ [2, 1, 3, 3], x ≤ 15) ∧
      s.inf.bitpos + 15 = 8 * s.inf.regionEnd) ∧
    (∀ x ∈ [1], x ≤ 15) ∧
    (∃ s : State, (∀ i l, ([1] : List Nat)[i]? = some l → l ≠ 0 → l ≤ 15 →
      ¬ StreamHas s s.inf.bitpos (codeBits l (canonicalCode [1] i))) ∧ s.inf.bitpos + 15 = 8 * s.inf.regionEnd) ∧
    (∃ s : State, (∀ i l, ([1] : List Nat)[i]? = some l → l ≠ 0 → l ≤ 3 →
      ¬ StreamHas s s.inf.bitpos (codeBits l (canonicalCode [1] i))) ∧ s.inf.bitpos + 3 = 8 * s.inf.regionEnd) ∧
    (∃ s : State, (∀ i l, ([1] : List Nat)[i]? = some l → l ≠ 0 → l ≤ 0 →
      ¬ StreamHas s s.inf.bitpos (codeBits l (canonicalCode [1] i))) ∧ s.inf.bitpos + 0 = 8 * s.inf.regionEnd) ∧
    (∃ s : State, 8 * s.inf.regionEnd < s.inf.bitpos) :=
  ⟨⟨stream .litLen .fixed 1 [0xFF, 0xFF] [] 0, by decide +kernel⟩, by decide,
   ⟨stream .litLen .fixed 1 [0xFF, 0xFF] [] 0, noCodeword_of_one (by decide +kernel) 15, rfl⟩,
   ⟨stream .litLen .fixed 5 [0xFF] [] 0, noCodeword_of_one (by decide +kernel) 3, rfl⟩,
   ⟨stream .litLen .fixed 8 [0xFF] [] 0, fun _ _ _ h0 hl => absurd (Nat.le_zero.mp hl) h0, rfl⟩,
   ⟨stream .litLen .fixed 9 [0xFF] [] 0, by decide +kernel⟩⟩

/-- FixedCodesDecode: H-5d (255, nine ones), H-5a (256, seven zeros) and distance 31 (five ones). -/
theorem witness_FixedCodesDecode :
    (∃ s : State, StreamHas s s.inf.bitpos (fixedLitLenCode 255) ∧ (fixedLitLenCode 255).length = 9 ∧
      s.inf.bitpos + 9 ≤ 8 * s.inf.regionEnd) ∧
    (∃ s : State, StreamHas s s.inf.bitpos (fixedLitLenCode 256) ∧ (fixedLitLenCode 256).length = 7 ∧
      s.inf.bitpos + 7 ≤ 8 * s.inf.regionEnd) ∧
    (∃ s : State, StreamHas s s.inf.bitpos (fixedDistCode 31) ∧ s.inf.bitpos + 5 = 8 * s.inf.regionEnd) :=
  ⟨⟨stream .litLen .fixed 7 [0xFF, 0xFF] [] 0, hasBits_sound (by decide +kernel), rfl, by decide +kernel⟩,
   ⟨stream .litLen .fixed 0 [0x00] [] 0, hasBits_sound (by decide +kernel), rfl, by decide +kernel⟩,
   ⟨stream .distance .fixed 3 [0xFF] [] 0, hasBits_sound (by decide +kernel), by decide +kernel⟩⟩

/-- FailureCompletion: the bit position 7, as in DISTFAR-1's ERR. -/
theorem witness_FailureCompletion : 7 < 8 ∧ errWord .distTooFar 7 = 0x7335 := by decide

/-- Acceptance: a core that is not BUSY and one that is, an OPEN with reserved bits set and another command. -/
theorem witness_Acceptance : busy State.reset = false ∧ busy (accepted 4) = true ∧
    (0xFFFFFFF1 : Word).extractLsb' 0 4 = 1 ∧ (0xF : Word).extractLsb' 0 4 ≠ 1 ∧
    decode .cmd (0xF : Word).toNat = .ok .reservedOpF ∧
    hostAccess (.writeReg 0x00 .w32 0xF) State.reset = .next (accepted 0xF) :=
  ⟨rfl, rfl, rfl, by decide, rfl, rfl⟩

/-- StepRunsDecodedInstruction: each place where an instruction is read, with no move of the host pending. -/
theorem witness_StepRunsDecodedInstruction :
    (∃ s : State, s.hostOps = [] ∧ s.run = .busy .command ∧ decode .cmd s.regs.cmdOp.toNat = .ok .cmdOpen) ∧
    (∃ s : State, s.hostOps = [] ∧ s.run = .busy .blockHeader ∧ s.inf.bitpos + 3 = 8 * s.inf.regionEnd ∧
      decode .blockHdr (bitField s s.inf.bitpos 3) = .ok (.fixedBlock true)) ∧
    (∃ s : State, s.hostOps = [] ∧ s.run = .busy .blockHeader ∧ 8 * s.inf.regionEnd < s.inf.bitpos + 1) ∧
    (∃ s : State, s.hostOps = [] ∧ s.run = .busy .blockHeader ∧ s.inf.bitpos + 1 ≤ 8 * s.inf.regionEnd ∧
      8 * s.inf.regionEnd < s.inf.bitpos + 3) ∧
    (∃ s : State, s.hostOps = [] ∧ s.run = .busy .codeLength ∧
      (decodeSym s.inf.clt s).toOption.map Prod.fst = some (some 3) ∧ decode .codeLen 3 = .ok (.clLen 3)) ∧
    (∃ s : State, s.hostOps = [] ∧ s.run = .busy .litLen ∧ s.inf.phase = .fixed ∧
      (decodeSym ltFixed s).toOption.map Prod.fst = some (some 0x41) ∧ decode .litLen 0x41 = .ok (.lit 0x41)) ∧
    (∃ s : State, s.hostOps = [] ∧ s.run = .busy .distance ∧ s.inf.phase = .fixed ∧
      (decodeSym dtFixed s).toOption.map Prod.fst = some (some 0) ∧ decode .dist 0 = .ok .dist0) ∧
    (∃ s : State, s.hostOps = [] ∧ s.run = .busy .litLen ∧ s.inf.phase = .fixed ∧
      (decodeSym ltFixed s).toOption.isNone = true) ∧
    (∃ s : State, s.hostOps = [] ∧ s.run = .busy .scanEocd ∧ le32 s s.zip.scanPos = 0x06054B50) ∧
    (∃ s : State, s.hostOps = [] ∧ s.run = .busy .walkCdh ∧ s.zip.cdCursor + 46 ≤ inLen s ∧
      le32 s s.zip.cdCursor = 0x02014B50) ∧
    (∃ s : State, s.hostOps = [] ∧ s.run = .busy .checkLfh ∧ s.zip.lfhPos + 30 ≤ inLen s ∧
      le32 s s.zip.lfhPos = 0x04034B50) :=
  ⟨⟨accepted 1, rfl, rfl, rfl⟩,
   ⟨stream .blockHeader .awaitBlockHeader 5 [0x60] [] 0, rfl, rfl, rfl, rfl⟩,
   ⟨stream .blockHeader .awaitBlockHeader 0 [] [] 0, by decide +kernel⟩,
   ⟨stream .blockHeader .awaitBlockHeader 6 [0x73] [] 0, by decide +kernel⟩,
   ⟨lengthStream 82 [0, 0, 0, 0, 0, 0, 0, 0, 0, 0, 0x72] [0, 0] 263 4, rfl, rfl, by decide +kernel, rfl⟩,
   ⟨stream .litLen .fixed 3 [0x73, 0x74] [] 4, rfl, rfl, rfl, by decide +kernel, rfl⟩,
   ⟨stream .distance .fixed 18 [0x4B, 0x44, 0x00] [0x61] 16, rfl, rfl, rfl, by decide +kernel, rfl⟩,
   ⟨stream .litLen .fixed 3 [0x73] [] 4, by decide +kernel⟩,
   ⟨opening .scanEocd zHi 88 0, by decide +kernel⟩,
   ⟨opening .walkCdh zHi 88 0, by decide +kernel⟩,
   ⟨opening .checkLfh zHi 88 0, by decide +kernel⟩⟩

/-- HostAndCoreTakeTurns: the four shapes of the script, and a core that is not BUSY. -/
theorem witness_HostAndCoreTakeTurns :
    State.reset.hostOps = [] ∧ (hostMove .pass State.reset).hostOps = .pass :: [] ∧
    (hostMove .wait State.reset).hostOps = .wait :: [] ∧ HostOp.reset ≠ .pass ∧ HostOp.reset ≠ .wait ∧
    busy State.reset = false ∧ busy (accepted 4) = true := by decide +kernel

/-- RegisterReads, RegisterWrites and MisalignedAccess: the ends of the ranges of offsets. -/
theorem witness_registers :
    busy State.reset = false ∧ (0x60 ≤ (0x60 : BitVec 8).toNat ∧ (0x60 : BitVec 8).toNat % 4 = 0) ∧
    (0x60 ≤ (0xFC : BitVec 8).toNat ∧ (0xFC : BitVec 8).toNat % 4 = 0) ∧
    (0x28 ≤ (0x28 : BitVec 8).toNat ∧ (0x28 : BitVec 8).toNat % 4 = 0) ∧
    (Width.w8 ≠ .w32 ∧ Width.w64 ≠ .w32) ∧ (0x02 : BitVec 8).toNat % 4 ≠ 0 := by decide

/-- BusyWritesDropped and BusyReads: a BUSY core, and an offset and a byte of each kind. -/
theorem witness_busy :
    busy (accepted 4) = true ∧
    (0x24 : BitVec 8) ∈ ([0x00, 0x14, 0x18, 0x1C, 0x20, 0x24] : List (BitVec 8)) ∧
    (∀ off ∈ ([0x28, 0x5C, 0x60, 0xFC] : List (BitVec 8)), off.toNat % 4 = 0 ∧ 0x28 ≤ off.toNat) ∧
    (∀ off ∈ ([0x60, 0xFC] : List (BitVec 8)), off.toNat % 4 = 0 ∧ 0x60 ≤ off.toNat) ∧ 0 < (accepted 4).params.inCap ∧ 65534 < (accepted 4).params.nameCap ∧
    (0x28 ≤ (0x5C : BitVec 8).toNat ∧ (0x5C : BitVec 8).toNat ≤ 0x5C) ∧ 0 < (accepted 4).params.outCap := by
  decide +kernel

/-- HandleInvalidation and PortAccesses: the last byte of each port, and the first one that does not exist. -/
theorem witness_ports :
    busy State.reset = false ∧ busy (accepted 4) = true ∧ 2 ^ 32 - 2 < (accepted 4).params.inCap ∧
    2 ^ 32 - 2 < State.reset.params.inCap ∧ 65534 < State.reset.params.nameCap ∧
    2 ^ 32 - 2 < State.reset.params.outCap ∧ State.reset.params.inCap ≤ 2 ^ 32 - 1 ∧
    State.reset.params.nameCap ≤ 65535 ∧ State.reset.params.outCap ≤ 2 ^ 32 - 1 := by decide +kernel

/-- InterruptIsSticky, StateMoves and CoreKeepsInputs: a step that completes a command, steps that clear IRQ_PENDING and
change IE, a step that accepts a command, one that leaves the core at rest, and a reset. -/
theorem witness_moves :
    (∃ s t, step s = .next t ∧ coreStep s = .next t ∧ busy s = true ∧ busy t = false ∧ s.regs.irqPending = false ∧
      t.regs.irqPending = true) ∧
    (∃ s t, step s = .next t ∧ s.regs.irqPending = true ∧ t.regs.irqPending = false) ∧
    (∃ s t, step s = .next t ∧ t.regs.ie ≠ s.regs.ie) ∧
    (∃ s t, step s = .next t ∧ busy s = false ∧ busy t = true) ∧
    (∃ s t, step s = .next t ∧ busy s = false ∧ busy t = false ∧ t.run = .idle) ∧
    (∃ s t, step s = .next t ∧ s.run ≠ .idle ∧ t.run = .idle) := by
  refine ⟨⟨accepted 4, _, rfl, rfl, ?_⟩,
    ⟨hostMove (.writeReg 0x04 .w32 0x10) { State.reset with regs := { Regs.initial with irqPending := true } }, _, rfl, ?_⟩,
    ⟨hostMove (.writeReg 0x08 .w32 1) State.reset, _, rfl, ?_⟩,
    ⟨hostMove (.writeReg 0x00 .w32 4) State.reset, _, rfl, ?_⟩, ⟨State.reset, _, rfl, ?_⟩,
    ⟨hostMove .reset (accepted 4), _, rfl, ?_⟩⟩ <;> decide +kernel

/-- StreamMovesForward: a step at each of the four places, and a step that fails. -/
theorem witness_StreamMovesForward :
    (∃ s t, s.run = .busy .blockHeader ∧ coreStep s = .next t ∧ t.inf.bitpos = 3) ∧
    (∃ s t, s.run = .busy .codeLength ∧ coreStep s = .next t ∧ t.inf.bitpos = 84) ∧
    (∃ s t, s.run = .busy .litLen ∧ coreStep s = .next t ∧ t.inf.destLen = 1) ∧
    (∃ s t, s.run = .busy .distance ∧ coreStep s = .next t ∧ t.inf.destLen = 11) ∧
    (∃ s t, s.run = .busy .distance ∧ coreStep s = .next t ∧ t.run = .fail) := by
  refine ⟨⟨stream .blockHeader .awaitBlockHeader 0 [0x73] [] 4, _, rfl, rfl, ?_⟩,
    ⟨lengthStream 82 [0, 0, 0, 0, 0, 0, 0, 0, 0, 0, 0x72] [0, 0] 263 4, _, rfl, rfl, ?_⟩,
    ⟨stream .litLen .fixed 3 [0x73, 0x74] [] 4, _, rfl, rfl, ?_⟩,
    ⟨withLength 10 (stream .distance .fixed 18 [0x4B, 0x44, 0x00] [0x61] 16), _, rfl, rfl, ?_⟩,
    ⟨withLength 3 (stream .distance .fixed 10 [0x03, 0x02] [] 16), _, rfl, rfl, ?_⟩⟩ <;> decide +kernel

/-- ReservedCommandsFail: the first and the last reserved OP, with reserved bits set. -/
theorem witness_ReservedCommandsFail : busy State.reset = false ∧
    ((0xFFFFFFF0 : Word).extractLsb' 0 4).toNat ∈ [0, 5, 6, 7, 8, 9, 10, 11, 12, 13, 14, 15] ∧
    ((0xFFFFFFFF : Word).extractLsb' 0 4).toNat ∈ [0, 5, 6, 7, 8, 9, 10, 11, 12, 13, 14, 15] := by decide

/-- The reset state with IN_LEN and the ARG registers. -/
def withArgs (inLen arg0 arg1 arg2 : Word) (s : State) : State :=
  { s with regs := { s.regs with inLen := inLen, arg0 := arg0, arg1 := arg1, arg2 := arg2 } }

/-- The smallest capacities R9 allows. -/
def smallPorts (s : State) : State :=
  { s with params := { s.params with inCap := 22, outCap := 0, nameCap := 0, maxEntries := 0, scanCap := .full } }

/-- OpenStarts: IN_LEN 22, 21, and above IN_CAP. -/
theorem witness_OpenStarts :
    (∃ s : State, s.regs.inLen.toNat ≤ s.params.inCap ∧ 22 ≤ s.regs.inLen.toNat) ∧
    (∃ s : State, s.params.inCap < s.regs.inLen.toNat) ∧
    (∃ s : State, s.regs.inLen.toNat ≤ s.params.inCap ∧ s.regs.inLen.toNat < 22) :=
  ⟨⟨smallPorts (withArgs 22 0 0 0 State.reset), by decide +kernel⟩,
   ⟨smallPorts (withArgs 23 0 0 0 State.reset), by decide +kernel⟩,
   ⟨smallPorts (withArgs 21 0 0 0 State.reset), by decide +kernel⟩⟩

/-- ReadChecks: no handle, a name longer than NAME_CAP, a name no record has. -/
theorem witness_ReadChecks :
    (∃ s : State, s.regs.openValid = false) ∧
    (∃ s : State, s.regs.openValid = true ∧ s.params.nameCap < s.regs.nameLen.toNat) ∧
    (∃ s : State, s.regs.openValid = true ∧ s.regs.nameLen.toNat ≤ s.params.nameCap ∧ ∀ e ∈ s.ft, ¬ HasName s e) := by
  refine ⟨⟨State.reset, rfl⟩, ⟨smallPorts (reading aTxt [hiEntry]), by decide +kernel⟩,
    ⟨reading [0x62] [hiEntry], by decide +kernel, by decide +kernel, ?_⟩⟩
  intro e he
  obtain rfl : e = hiEntry := List.mem_singleton.mp he
  rintro ⟨h, -⟩
  revert h
  decide +kernel

/-- LookupFindsTheLast: two records with the name, and none. -/
theorem witness_LookupFindsTheLast :
    lookup (reading aTxt [hiEntry, { hiEntry with dataOff := 72 }]) = some (1, { hiEntry with dataOff := 72 }) ∧
    lookup (reading [0x62] [hiEntry]) = none := by decide +kernel

/-- ReadProduces: a size beyond OUT_CAP, a deflated entry, a stored one of two sizes, and a stored one. -/
theorem witness_ReadProduces :
    (∃ s k e, s.regs.openValid = true ∧ s.regs.nameLen.toNat ≤ s.params.nameCap ∧ lookup s = some (k, e) ∧
      s.params.outCap < e.usize) ∧
    (∃ s k e, s.regs.openValid = true ∧ s.regs.nameLen.toNat ≤ s.params.nameCap ∧ lookup s = some (k, e) ∧
      e.usize ≤ s.params.outCap ∧ e.method = 8) ∧
    (∃ s k e, s.regs.openValid = true ∧ s.regs.nameLen.toNat ≤ s.params.nameCap ∧ lookup s = some (k, e) ∧
      e.usize ≤ s.params.outCap ∧ e.method ≠ 8 ∧ e.csize ≠ e.usize) ∧
    (∃ s k e, s.regs.openValid = true ∧ s.regs.nameLen.toNat ≤ s.params.nameCap ∧ lookup s = some (k, e) ∧
      e.usize ≤ s.params.outCap ∧ e.method ≠ 8 ∧ e.csize = e.usize) :=
  ⟨⟨{ reading aTxt [hiEntry] with params := { Params.default with outCap := 1 } }, 0, hiEntry, by decide +kernel⟩,
   ⟨reading aTxt [{ hiEntry with method := 8 }], 0, { hiEntry with method := 8 }, by decide +kernel⟩,
   ⟨reading aTxt [{ hiEntry with usize := 3 }], 0, { hiEntry with usize := 3 }, by decide +kernel⟩,
   ⟨reading aTxt [hiEntry], 0, hiEntry, by decide +kernel⟩⟩

/-- A READ whose bytes "hi" are produced, with these ENT registers. -/
def readDone (method usize crc : Word) : State :=
  { goTo .finish (accepted 2) with
    outMem := memoryOf 0 (bytes [0x68, 0x69])
    inf := { Inflator.initial with destLen := 2, destCap := 2 }
    ent := { EntRegs.zero with method := method, usize := usize, crc := crc } }

/-- ReadFinishes: a size that differs, a CRC that differs, both equal (deflated and stored). -/
theorem witness_ReadFinishes :
    (∃ s : State, s.hostOps = [] ∧ s.run = .busy .finish ∧ s.regs.cmdOp = 2 ∧ s.ent.method = 8 ∧
      s.inf.destLen ≠ s.ent.usize.toNat) ∧
    (∃ s : State, s.hostOps = [] ∧ s.run = .busy .finish ∧ s.regs.cmdOp = 2 ∧ s.ent.method ≠ 8 ∧
      crc32 (outByte s) 0 s.inf.destLen ≠ s.ent.crc) ∧
    (∃ s : State, s.hostOps = [] ∧ s.run = .busy .finish ∧ s.regs.cmdOp = 2 ∧ s.ent.method = 8 ∧
      s.inf.destLen = s.ent.usize.toNat ∧ crc32 (outByte s) 0 s.inf.destLen = s.ent.crc) ∧
    (∃ s : State, s.hostOps = [] ∧ s.run = .busy .finish ∧ s.regs.cmdOp = 2 ∧ s.ent.method = 0 ∧
      s.inf.destLen = s.ent.usize.toNat ∧ crc32 (outByte s) 0 s.inf.destLen = s.ent.crc) :=
  ⟨⟨readDone 8 3 0, by decide +kernel⟩, ⟨readDone 0 2 0, by decide +kernel⟩,
   ⟨readDone 8 2 0xD8932AAC, by decide +kernel⟩, ⟨readDone 0 2 0xD8932AAC, by decide +kernel⟩⟩

/-- InflateCommand and Crc32Command: a region that ends at IN_LEN, one that ends past it, a capacity above OUT_CAP,
an IN_LEN above IN_CAP, and an inflate that has ended. -/
theorem witness_regions :
    (∃ s : State, s.regs.inLen.toNat ≤ s.params.inCap ∧ s.regs.arg0.toNat + s.regs.arg1.toNat = s.regs.inLen.toNat ∧
      s.regs.arg2.toNat ≤ s.params.outCap) ∧
    (∃ s : State, s.regs.arg0.toNat + s.regs.arg1.toNat = s.regs.inLen.toNat + 1) ∧
    (∃ s : State, s.params.outCap < s.regs.arg2.toNat) ∧ (∃ s : State, s.params.inCap < s.regs.inLen.toNat) ∧
    (∃ s : State, s.hostOps = [] ∧ s.run = .busy .finish ∧ s.regs.cmdOp = 3) :=
  ⟨⟨smallPorts (withArgs 22 20 2 0 State.reset), by decide +kernel⟩,
   ⟨smallPorts (withArgs 22 20 3 0 State.reset), by decide +kernel⟩,
   ⟨smallPorts (withArgs 22 20 2 1 State.reset), by decide +kernel⟩,
   ⟨smallPorts (withArgs 23 20 2 0 State.reset), by decide +kernel⟩,
   ⟨stream .finish .done 56 [0, 0, 0, 0, 0, 0, 0] [0x68, 0x69] 16, by decide +kernel⟩⟩

/-- CrcConcatenation and CrcDetectsOneBit: bit 7 of the last of two bytes. -/
theorem witness_CrcDetectsOneBit :
    ∃ (read read' : Nat → Byte) (a n k b : Nat), k < n ∧ b < 8 ∧ read' (a + k) = read (a + k) ^^^ (1#8 <<< b) ∧
      (∀ j, j < n → j ≠ k → read' (a + j) = read (a + j)) ∧ ∀ j, j < 1 → read (a + j) = read' (5 + j) :=
  ⟨fun _ => 0, fun a => if a = 1 then 0x80 else 0, 0, 2, 1, 7, by decide, by decide, by decide,
    fun j _ hk => by simp [hk], fun j hj => by obtain rfl : j = 0 := Nat.lt_one_iff.mp hj; rfl⟩

/-- The bytes of a stored block after its header bits, from bit 3 on, into a destination of `cap` bytes. -/
def storedAt (src : List Nat) (cap : Nat) : State := stream .blockHeader .awaitBlockHeader 3 src [] cap

/-- StoredBlock: a block that fits exactly, a length field cut off (in LEN, in NLEN), a mismatch, data cut off, and a
destination that is too small. -/
theorem witness_StoredBlock :
    (∃ s : State, (s.inf.bitpos + 7) / 8 + 4 ≤ s.inf.regionEnd ∧ le16 s ((s.inf.bitpos + 7) / 8) = 2 ∧
      2 + le16 s ((s.inf.bitpos + 7) / 8 + 2) = 65535 ∧ s.inf.regionEnd - ((s.inf.bitpos + 7) / 8 + 4) = 2 ∧
      s.inf.destCap - s.inf.destLen = 2) ∧
    (∃ s : State, s.inf.regionEnd = (s.inf.bitpos + 7) / 8 + 1) ∧
    (∃ s : State, s.inf.regionEnd = (s.inf.bitpos + 7) / 8 + 3) ∧
    (∃ s : State, (s.inf.bitpos + 7) / 8 + 4 ≤ s.inf.regionEnd ∧
      le16 s ((s.inf.bitpos + 7) / 8) + le16 s ((s.inf.bitpos + 7) / 8 + 2) = 65534) ∧
    (∃ s : State, (s.inf.bitpos + 7) / 8 + 4 ≤ s.inf.regionEnd ∧ le16 s ((s.inf.bitpos + 7) / 8) = 2 ∧
      2 + le16 s ((s.inf.bitpos + 7) / 8 + 2) = 65535 ∧ s.inf.regionEnd - ((s.inf.bitpos + 7) / 8 + 4) = 1 ∧
      s.inf.destCap - s.inf.destLen = 1 ∧ s.inf.destLen ≤ s.inf.destCap) ∧
    (∃ s : State, (s.inf.bitpos + 7) / 8 + 4 ≤ s.inf.regionEnd ∧ le16 s ((s.inf.bitpos + 7) / 8) = 2 ∧
      2 + le16 s ((s.inf.bitpos + 7) / 8 + 2) = 65535 ∧ s.inf.regionEnd - ((s.inf.bitpos + 7) / 8 + 4) = 2 ∧
      s.inf.destCap - s.inf.destLen = 1 ∧ s.inf.destLen ≤ s.inf.destCap) :=
  ⟨⟨storedAt [0x01, 0x02, 0x00, 0xFD, 0xFF, 0x68, 0x69] 2, by decide +kernel⟩,
   ⟨storedAt [0x01, 0x02] 2, by decide +kernel⟩,
   ⟨storedAt [0x01, 0x02, 0x00, 0xFD] 2, by decide +kernel⟩,
   ⟨storedAt [0x01, 0x02, 0x00, 0xFC, 0xFF, 0x68, 0x69] 2, by decide +kernel⟩,
   ⟨storedAt [0x01, 0x02, 0x00, 0xFD, 0xFF, 0x68] 1, by decide +kernel⟩,
   ⟨storedAt [0x01, 0x02, 0x00, 0xFD, 0xFF, 0x68, 0x69] 1, by decide +kernel⟩⟩

/-- DynamicBlock: DYN-1's header to its last bit, HLIT 287 rejected, the counts cut off, and the code-length lengths cut
off. -/
theorem witness_DynamicBlock :
    (∃ s : State, s.inf.bitpos = 3 ∧ bitField s 3 5 + 257 = 263 ∧ bitField s 13 4 + 4 = 18 ∧
      3 + 14 + 3 * 18 ≤ 8 * s.inf.regionEnd) ∧
    (∃ s : State, s.inf.bitpos = 3 ∧ bitField s 3 5 + 257 = 287 ∧ 3 + 14 ≤ 8 * s.inf.regionEnd ∧
      s.params.acceptHlitOver286 = false) ∧
    (∃ s : State, 8 * s.inf.regionEnd + 1 = s.inf.bitpos + 5) ∧
    (∃ s : State, 8 * s.inf.regionEnd = s.inf.bitpos + 5) ∧
    (∃ s : State, 8 * s.inf.regionEnd + 1 = s.inf.bitpos + 10) ∧
    (∃ s : State, 8 * s.inf.regionEnd = s.inf.bitpos + 10) ∧
    (∃ s : State, 8 * s.inf.regionEnd + 1 = s.inf.bitpos + 14) ∧
    (∃ s : State, s.inf.bitpos = 2 ∧ bitField s 2 5 + 257 ≤ 286 ∧ 0 < bitField s 12 4 + 4 ∧
      2 + 14 + 3 * 0 ≤ 8 * s.inf.regionEnd ∧ 8 * s.inf.regionEnd < 2 + 14 + 3 * 0 + 3) ∧
    (∃ s : State, s.inf.bitpos = 3 ∧ bitField s 3 5 + 257 = 263 ∧ bitField s 13 4 + 4 = 18 ∧
      3 + 14 + 3 * 15 ≤ 8 * s.inf.regionEnd ∧ 8 * s.inf.regionEnd < 3 + 14 + 3 * 15 + 3) :=
  ⟨⟨storedAt [0x35, 0xC3, 0x29, 0x0E, 0x00, 0x00, 0x00, 0xC2, 0xB0] 0, by decide +kernel⟩,
   ⟨{ storedAt [0xF5, 0xC3, 0x29] 0 with params := { Params.default with acceptHlitOver286 := false } },
    by decide +kernel⟩,
   ⟨stream .blockHeader .awaitBlockHeader 4 [0x35] [] 0, by decide +kernel⟩,
   ⟨stream .blockHeader .awaitBlockHeader 3 [0x35] [] 0, by decide +kernel⟩,
   ⟨stream .blockHeader .awaitBlockHeader 7 [0x35, 0xC3] [] 0, by decide +kernel⟩,
   ⟨stream .blockHeader .awaitBlockHeader 6 [0x35, 0xC3] [] 0, by decide +kernel⟩,
   ⟨stream .blockHeader .awaitBlockHeader 3 [0x35, 0xC3] [] 0, by decide +kernel⟩,
   ⟨stream .blockHeader .awaitBlockHeader 2 [0x35, 0xC3] [] 0, by decide +kernel⟩,
   ⟨storedAt [0x35, 0xC3, 0x29, 0x0E, 0x00, 0x00, 0x00, 0xC2] 0, by decide +kernel⟩⟩

/-- LiteralAndEndOfBlock: room for one byte, no room, a block that is not final and one that is. -/
theorem witness_LiteralAndEndOfBlock :
    (∃ s : State, 255 < 256 ∧ s.inf.destLen + 1 = s.inf.destCap) ∧ (∃ s : State, s.inf.destLen = s.inf.destCap) ∧
    (∃ s : State, s.inf.bfinal = false) ∧ (∃ s : State, s.inf.bfinal = true) :=
  ⟨⟨stream .litLen .fixed 0 [] [0x61] 2, by decide +kernel⟩, ⟨stream .litLen .fixed 0 [] [0x61] 1, by decide +kernel⟩,
   ⟨State.reset, rfl⟩, ⟨{ State.reset with inf := { Inflator.initial with bfinal := true } }, rfl⟩⟩

/-- LengthSymbols: five extra bits that end the region, and one bit too few. -/
theorem witness_LengthSymbols :
    (∃ s : State, s.inf.bitpos + 5 = 8 * s.inf.regionEnd) ∧ (∃ s : State, 8 * s.inf.regionEnd + 1 = s.inf.bitpos + 5) :=
  ⟨⟨stream .litLen .fixed 3 [0xFF] [] 0, by decide +kernel⟩, ⟨stream .litLen .fixed 4 [0xFF] [] 0, by decide +kernel⟩⟩

/-- DistanceSymbols, for DIST 4 (one extra bit, base 5): the bit is missing; the distance is one too far; it is the
whole output and the match fills the destination; the match is one byte too long. -/
theorem witness_DistanceSymbols :
    (∃ s : State, 8 * s.inf.regionEnd < s.inf.bitpos + 1) ∧
    (∃ s : State, s.inf.bitpos + 1 ≤ 8 * s.inf.regionEnd ∧ 5 + bitField s s.inf.bitpos 1 = s.inf.destLen + 1) ∧
    (∃ s : State, s.inf.bitpos + 1 ≤ 8 * s.inf.regionEnd ∧ 5 + bitField s s.inf.bitpos 1 = s.inf.destLen ∧
      s.inf.destLen + s.inf.matchLen = s.inf.destCap) ∧
    (∃ s : State, s.inf.bitpos + 1 ≤ 8 * s.inf.regionEnd ∧ 5 + bitField s s.inf.bitpos 1 = s.inf.destLen ∧
      s.inf.destLen ≤ s.inf.destCap ∧ s.inf.destCap + 1 = s.inf.destLen + s.inf.matchLen) :=
  ⟨⟨stream .distance .fixed 8 [0xFF] [] 0, by decide +kernel⟩,
   ⟨stream .distance .fixed 7 [0xFF] [1, 2, 3, 4, 5] 9, by decide +kernel⟩,
   ⟨withLength 3 (stream .distance .fixed 7 [0x7F] [1, 2, 3, 4, 5] 8), by decide +kernel⟩,
   ⟨withLength 3 (stream .distance .fixed 7 [0x7F] [1, 2, 3, 4, 5] 7), by decide +kernel⟩⟩

/-- CodeLengthLiteral: a length that is not the last, and the last one. -/
theorem witness_CodeLengthLiteral :
    15 < 16 ∧ (∃ s : State, s.inf.lengths.length + [15].length < s.inf.hlit + s.inf.hdist) ∧
    (∃ s : State, s.inf.hlit + s.inf.hdist ≤ s.inf.lengths.length + [15].length) :=
  ⟨by decide, ⟨lengthStream 0 [] [] 257 1, by decide +kernel⟩,
   ⟨lengthStream 0 [] (List.replicate 257 1) 257 1, by decide +kernel⟩⟩

/-- CodeLengthRuns: no length before; each symbol with a run that just fits, one too long, and its extra bits cut
off. -/
theorem witness_CodeLengthRuns :
    (∃ s : State, s.inf.lengths = []) ∧
    (∃ s : State, s.inf.lengths.getLast? = some 7 ∧ s.inf.bitpos + 2 ≤ 8 * s.inf.regionEnd ∧
      s.inf.lengths.length + (3 + bitField s s.inf.bitpos 2) = s.inf.hlit + s.inf.hdist) ∧
    (∃ s : State, s.inf.bitpos + 3 ≤ 8 * s.inf.regionEnd ∧
      s.inf.lengths.length + (3 + bitField s s.inf.bitpos 3) = s.inf.hlit + s.inf.hdist + 1) ∧
    (∃ s : State, s.inf.bitpos + 7 ≤ 8 * s.inf.regionEnd ∧
      s.inf.lengths.length + (11 + bitField s s.inf.bitpos 7) = s.inf.hlit + s.inf.hdist) ∧
    (∃ s : State, 8 * s.inf.regionEnd + 1 = s.inf.bitpos + 7) :=
  ⟨⟨lengthStream 0 [] [] 257 1, rfl⟩,
   ⟨lengthStream 0 [0xFF] (List.replicate 252 7) 257 1, by decide +kernel⟩,
   ⟨lengthStream 0 [0xFF] (List.replicate 249 7) 257 1, by decide +kernel⟩,
   ⟨lengthStream 0 [0xFF] (List.replicate 120 7) 257 1, by decide +kernel⟩,
   ⟨lengthStream 2 [0xFF] [] 257 1, by decide +kernel⟩⟩

/-- An OPEN that scans three bytes of zeros down to offset 0, or a signature at offset 1. -/
def scanning (cap : ScanCap) (src : List Nat) (pos : Nat) : State :=
  { opening .scanEocd src pos 0 with params := { Params.default with scanCap := cap } }

/-- EocdScanFindsTheLast: the signature one offset below the start, and none down to the bound; both bounds. -/
theorem witness_EocdScanFindsTheLast :
    (∃ s : State, s.hostOps = [] ∧ s.run = .busy .scanEocd ∧ s.params.scanCap = .formatMax ∧
      s.regs.inLen.toNat - 22 - 65535 = 0 ∧ s.zip.scanPos = 2 ∧ le32 s 1 = 0x06054B50 ∧ le32 s 2 ≠ 0x06054B50) ∧
    (∃ s : State, s.hostOps = [] ∧ s.run = .busy .scanEocd ∧ s.params.scanCap = .full ∧ s.zip.scanPos = 1 ∧
      le32 s 0 ≠ 0x06054B50 ∧ le32 s 1 ≠ 0x06054B50) :=
  ⟨⟨scanning .formatMax ([0, 0x50, 0x4B, 0x05, 0x06] ++ List.replicate 19 0) 2, by decide +kernel⟩,
   ⟨scanning .full (List.replicate 23 0) 1, by decide +kernel⟩⟩

/-- EocdRecord: Z-HI, and the record with one field changed for each check; then two table sizes. -/
theorem witness_EocdRecord :
    (∃ s : State, s.zip.scanPos = 88 ∧ (le16 s 92 = 0 ∧ le16 s 94 = 1)) ∧
    (∃ s : State, s.zip.scanPos = 88 ∧ le16 s 92 = 0 ∧ le16 s 94 = 0 ∧ le16 s 96 ≠ le16 s 98) ∧
    (∃ s : State, s.zip.scanPos = 88 ∧ le16 s 92 = 0 ∧ le16 s 94 = 0 ∧ le16 s 96 = le16 s 98 ∧
      s.regs.inLen.toNat + 1 = 88 + 22 + le16 s 108) ∧
    (∃ s : State, s.zip.scanPos = 88 ∧ le16 s 92 = 0 ∧ le16 s 94 = 0 ∧ le16 s 96 = le16 s 98 ∧
      88 + 22 + le16 s 108 = s.regs.inLen.toNat ∧ s.params.maxEntries < le16 s 98) ∧
    (∃ s : State, s.zip.scanPos = 88 ∧ le16 s 92 = 0 ∧ le16 s 94 = 0 ∧ le16 s 96 = le16 s 98 ∧
      88 + 22 + le16 s 108 = s.regs.inLen.toNat ∧ le16 s 98 ≤ s.params.maxEntries) :=
  ⟨⟨opening .scanEocd (zHiWith 94 1) 88 0, by decide +kernel⟩,
   ⟨opening .scanEocd (zHiWith 96 2) 88 0, by decide +kernel⟩,
   ⟨opening .scanEocd (zHiWith 108 1) 88 0, by decide +kernel⟩,
   ⟨smallPorts (opening .scanEocd zHi 88 0), by decide +kernel⟩,
   ⟨opening .scanEocd zHi 88 0, by decide +kernel⟩⟩

/-- CdhRecord: Z-HI's record, and the cases of its checks in their order. -/
theorem witness_CdhRecord :
    (∃ s : State, s.hostOps = [] ∧ s.run = .busy .walkCdh ∧ s.regs.inLen.toNat + 1 = s.zip.cdCursor + 46) ∧
    (∃ s : State, s.hostOps = [] ∧ s.run = .busy .walkCdh ∧ s.zip.cdCursor + 46 ≤ s.regs.inLen.toNat ∧
      le32 s s.zip.cdCursor ≠ 0x02014B50) ∧
    (∃ s : State, s.zip.cdCursor = 37 ∧ le16 s 43 = 21) ∧
    (∃ s : State, s.zip.cdCursor = 37 ∧ le16 s 43 = 20 ∧ (le16 s 45).testBit 0 = true) ∧
    (∃ s : State, s.zip.cdCursor = 37 ∧ le16 s 43 = 20 ∧ (le16 s 45).testBit 0 = false ∧ le16 s 47 = 99) ∧
    (∃ s : State, s.zip.cdCursor = 37 ∧ le16 s 43 = 20 ∧ (le16 s 45).testBit 0 = false ∧ le16 s 47 = 8 ∧
      s.regs.inLen.toNat < 37 + 46 + le16 s 65 + le16 s 67 + le16 s 69) ∧
    (∃ s : State, s.zip.cdCursor = 37 ∧ le16 s 43 = 20 ∧ (le16 s 45).testBit 0 = false ∧ le16 s 47 = 0 ∧
      37 + 46 + le16 s 65 + le16 s 67 + le16 s 69 ≤ s.regs.inLen.toNat) :=
  ⟨⟨opening .walkCdh (List.replicate 82 0) 0 0, by decide +kernel⟩,
   ⟨opening .walkCdh (List.replicate 83 0) 0 0, by decide +kernel⟩,
   ⟨opening .walkCdh (zHiWith 43 21) 88 0, by decide +kernel⟩,
   ⟨opening .walkCdh (zHiWith 45 1) 88 0, by decide +kernel⟩,
   ⟨opening .walkCdh (zHiWith 47 99) 88 0, by decide +kernel⟩,
   ⟨opening .walkCdh ((zHiWith 47 8).set 70 1) 88 0, by decide +kernel⟩,
   ⟨opening .walkCdh zHi 88 0, by decide +kernel⟩⟩

/-- LfhRecord: Z-HI's local header, and the cases of its checks. -/
theorem witness_LfhRecord :
    (∃ s : State, s.hostOps = [] ∧ s.run = .busy .checkLfh ∧ s.regs.inLen.toNat + 1 = s.zip.lfhPos + 30) ∧
    (∃ s : State, s.hostOps = [] ∧ s.run = .busy .checkLfh ∧ s.zip.lfhPos + 30 ≤ s.regs.inLen.toNat ∧
      le32 s s.zip.lfhPos ≠ 0x04034B50) ∧
    (∃ s : State, s.zip.cdCursor = 37 ∧ s.zip.lfhPos = 0 ∧
      s.regs.inLen.toNat < 0 + 30 + le16 s 26 + le16 s 28 + le32 s 57) ∧
    (∃ s : State, s.zip.cdCursor = 37 ∧ s.zip.lfhPos = 0 ∧
      0 + 30 + le16 s 26 + le16 s 28 + le32 s 57 ≤ s.regs.inLen.toNat) :=
  ⟨⟨opening .checkLfh zHi 88 81, by decide +kernel⟩,
   ⟨opening .checkLfh zHi 88 80, by decide +kernel⟩,
   ⟨opening .checkLfh (zHiWith 57 76) 88 0, by decide +kernel⟩,
   ⟨opening .checkLfh zHi 88 0, by decide +kernel⟩⟩

/-- OpenFinishes. -/
theorem witness_OpenFinishes : ∃ s : State, s.hostOps = [] ∧ s.run = .busy .finish ∧ s.regs.cmdOp = 1 :=
  ⟨opening .finish zHi 88 0, by decide +kernel⟩

/-- A CRC32 of IN[0], accepted, with `v` beyond IN_LEN. -/
def crcOfOne (v : Nat) (ops : List HostOp) : State :=
  { accepted 4 with
    inMem := memoryOf 0 (bytes [0x31, v])
    hostOps := ops
    regs := { (accepted 4).regs with inLen := 1, arg1 := 1 } }

theorem crcOfOne_inv (v : Nat) (ops : List HostOp) : (crcOfOne v ops).Inv where
  params := rfl
  ports :=
    { inPort := ⟨rfl, fun c hc => by
        have e : (crcOfOne v ops).inMem = [(0, 0x31), (1, BitVec.ofNat 8 v)] := rfl
        rw [e] at hc
        rcases List.mem_cons.mp hc with rfl | hc
        · exact show 0 < 2 ^ 32 - 1 by decide
        · obtain rfl := List.mem_singleton.mp hc
          exact show 1 < 2 ^ 32 - 1 by decide⟩
      namePort := ⟨rfl, fun _ hc => by cases hc⟩
      outPort := ⟨rfl, fun _ hc => by cases hc⟩ }
  handle :=
    { capacity := Nat.zero_le _
      valid := fun h => by cases h
      failedOpen := fun h => by cases h
      runningOpen := fun _ h => absurd h (show ¬ (4 : BitVec 4) = 1 by decide) }
  results :=
    { noError := fun _ => ⟨rfl, rfl⟩
      failed := fun h => by cases h
      running := fun _ => ⟨rfl, rfl⟩
      fresh := fun h => by cases h }
  place := fun a h => by cases h; trivial

/-- EveryStepKeepsInv, EveryStepKeepsResults and EveryCommandCompletes: a sound BUSY state that steps to DONE. -/
theorem witness_invariants : ∃ s t : State, s.Inv ∧ s.ResultsHold ∧ busy s = true ∧ s.hostOps = [] ∧
    step s = .next t ∧ t.run = .done := by
  refine ⟨crcOfOne 0 [], _, crcOfOne_inv 0 [], ?_, rfl, rfl, rfl, rfl⟩
  intro h
  cases h

/-- OnlyAbsentPortBytesFault: a sound state whose step is a host access to the byte at NAME_CAP. -/
theorem witness_OnlyAbsentPortBytesFault :
    ∃ (s : State) (f : Fault), s.Inv ∧ step s = .fault f ∧ f = .noSuchByte .namePort 65535 :=
  ⟨crcOfOne 0 [.readName 65535], _, crcOfOne_inv _ _, rfl, rfl⟩

/-- BytesBeyondInLenDoNotMatter: two states that differ in the byte at IN_LEN. -/
theorem witness_BytesBeyondInLenDoNotMatter :
    ∃ s t s' : State, s.Inv ∧ SameBelowInLen s t ∧ coreStep s = .next s' ∧ inByte s 1 ≠ inByte t 1 := by
  refine ⟨crcOfOne 0x41 [], crcOfOne 0x42 [], _, crcOfOne_inv _ _, ⟨rfl, ?_⟩, rfl, by decide +kernel⟩
  intro a ha
  obtain rfl : a = 0 := Nat.lt_one_iff.mp ha
  decide +kernel

end Sys2Proof.Tests
end

section
/-! PROOFS. The step by the head of the host's script (R18, R86, R358): one equation for each shape of the script. -/

namespace Sys2Proof.Machine

/-- R86: where the host makes no access, the step is the core's. -/
theorem step_of_script_nil {s : State} (h : s.hostOps = []) : step s = coreStep s := by
  simp only [step, nextMove, h]

theorem step_of_pass {s : State} {ops : List HostOp} (h : s.hostOps = .pass :: ops) :
    step s = coreStep { s with hostOps := ops } := by
  simp only [step, nextMove, h]

/-- A wait stays at the head of the script until the core is no longer BUSY. -/
theorem step_of_wait {s : State} {ops : List HostOp} (h : s.hostOps = .wait :: ops) :
    step s = if busy s = true then coreStep s else .next { s with hostOps := ops } := by
  simp only [step, nextMove, h]

/-- R86: a move that is neither a pass nor a wait is one access of the host, and leaves the script. -/
theorem step_of_access {s : State} {op : HostOp} {ops : List HostOp} (h : s.hostOps = op :: ops)
    (hpass : op ≠ .pass) (hwait : op ≠ .wait) : step s = hostAccess op { s with hostOps := ops } := by
  unfold step nextMove
  rw [h]
  cases op with
  | pass => exact absurd rfl hpass
  | wait => exact absurd rfl hwait
  | _ => rfl

/-- Settles O17: by the head of the script, and `coreStep_idle` for a core that is not BUSY. -/
theorem hostAndCoreTakeTurns : Obligations.HostAndCoreTakeTurns := fun _ =>
  ⟨step_of_script_nil, fun _ => step_of_pass, fun _ => step_of_wait, fun _ _ => step_of_access, coreStep_idle⟩

end Sys2Proof.Machine
end

section
/-! PROOFS. What an element of the stream does to the datapath (R31-R33, R74, R211, R212): it fails the inflate, or it
advances it. -/

namespace Sys2Proof.Machine

/-- R31-R33, R74: `t` is as far as `s` in the stream, or farther: the bounds stay, the destination does not shrink, and
OUT is as before outside the bytes between the two ends. -/
structure Advanced (s t : State) : Prop where
  forward : s.inf.bitpos ≤ t.inf.bitpos
  regionStart : t.inf.regionStart = s.inf.regionStart
  regionEnd : t.inf.regionEnd = s.inf.regionEnd
  destCap : t.inf.destCap = s.inf.destCap
  grows : s.inf.destLen ≤ t.inf.destLen
  others : ∀ x, x < s.inf.destLen ∨ t.inf.destLen ≤ x → outByte t x = outByte s x

theorem Advanced.trans {s t u : State} (h1 : Advanced s t) (h2 : Advanced t u) : Advanced s u where
  forward := Nat.le_trans h1.forward h2.forward
  regionStart := h2.regionStart.trans h1.regionStart
  regionEnd := h2.regionEnd.trans h1.regionEnd
  destCap := h2.destCap.trans h1.destCap
  grows := Nat.le_trans h1.grows h2.grows
  others x hx := by
    have hs := h1.grows
    have ht := h2.grows
    rw [h2.others x (by omega), h1.others x (by omega)]

theorem Appended.advanced {n : Nat} {s t : State} (h : Appended n s t) : Advanced s t where
  forward := h.forward
  regionStart := by rw [h.rest]
  regionEnd := h.regionEnd
  destCap := h.destCap
  grows := by rw [h.destLen]; exact Nat.le_add_right _ n
  others x hx := h.outByte_others (by rwa [h.destLen] at hx)

/-- An update that leaves OUT, the bounds and the destination alone advances, if it does not move the position back. -/
theorem Advanced.of_kept {s t : State} (hpos : s.inf.bitpos ≤ t.inf.bitpos)
    (hstart : t.inf.regionStart = s.inf.regionStart) (hend : t.inf.regionEnd = s.inf.regionEnd)
    (hcap : t.inf.destCap = s.inf.destCap) (hlen : t.inf.destLen = s.inf.destLen)
    (hmem : t.outMem = s.outMem) (hepoch : t.outEpoch = s.outEpoch) : Advanced s t :=
  ⟨hpos, hstart, hend, hcap, Nat.le_of_eq hlen.symm, fun x _ => outByte_congr hmem hepoch x⟩

theorem advanced_setBitpos {p : Nat} {s : State} (h : s.inf.bitpos ≤ p) : Advanced s (setBitpos p s) :=
  .of_kept h rfl rfl rfl rfl rfl rfl

theorem advanced_goTo (a : Activity) (s : State) : Advanced s (goTo a s) :=
  .of_kept (Nat.le_refl _) rfl rfl rfl rfl rfl rfl

theorem advanced_enterBlock (final : Bool) (type : BitVec 2) (p : Phase) (s : State) :
    Advanced s (enterBlock final type p s) :=
  .of_kept (Nat.le_refl _) rfl rfl rfl rfl rfl rfl

theorem advanced_endBlock (s : State) : Advanced s (endBlock s) := by
  apply Advanced.of_kept <;> simp

theorem advanced_appendLengths (new : List Nat) (s : State) : Advanced s (appendLengths new s) := by
  unfold appendLengths nextLength
  split <;> exact .of_kept (Nat.le_refl _) rfl rfl rfl rfl rfl rfl

theorem appendLengths_run (new : List Nat) (s : State) : ∃ a, (appendLengths new s).run = .busy a := by
  unfold appendLengths nextLength
  split <;> exact ⟨_, rfl⟩

/-- R211, R212: what an element can do: fail the inflate at or after the position, or go on, advanced. -/
inductive StreamMoved (s t : State) : Prop where
  | failed (hrun : t.run = .fail) (hpos : s.inf.bitpos ≤ t.inf.bitpos)
  | goesOn (a : Activity) (hrun : t.run = .busy a) (h : Advanced s t)

theorem StreamMoved.forward {s t : State} (h : StreamMoved s t) : s.inf.bitpos ≤ t.inf.bitpos := by
  cases h with
  | failed hrun hpos => exact hpos
  | goesOn a hrun h => exact h.forward

theorem FailedInflate.moved {s e : State} (h : FailedInflate s e) : StreamMoved s e := by
  obtain ⟨c, inf, -, -, hpos, rfl⟩ := h
  exact .failed rfl hpos

theorem failInflate_moved (c : Cause) (s : State) : StreamMoved s (failInflate c s) := .failed rfl (Nat.le_refl _)

theorem Advanced.trans_moved {s t u : State} (h1 : Advanced s t) (h2 : StreamMoved t u) : StreamMoved s u := by
  cases h2 with
  | failed hrun hpos => exact .failed hrun (Nat.le_trans h1.forward hpos)
  | goesOn a hrun h => exact .goesOn a hrun (h1.trans h)

/-- A body that settles has moved the stream, if its success and its raises have. -/
theorem settle_moved {s t : State} {r : Res State} (h : settle r = .next t) (hok : r = .ok t → StreamMoved s t)
    (herror : r = .error t → FailedInflate s t) : StreamMoved s t := by
  cases r with
  | ok u => cases h; exact hok rfl
  | error e => cases h; exact (herror rfl).moved

/-! ### The bodies of the elements -/

theorem storedBody_moved {s t : State} (h : settle (storedBody s) = .next t) : StreamMoved s t := by
  refine settle_moved h (fun hok => ?_) storedBody_eq_error
  obtain ⟨p, len, u, hp, -, -, -, hu, rfl⟩ := storedBody_eq_ok hok
  have hread : Advanced s (setBitpos (p + 32) s) := advanced_setBitpos (by omega)
  exact .goesOn _ (endBlock_run u) ((hread.trans (copyStored_eq_ok hu).1.advanced).trans (advanced_endBlock u))

theorem dynamicHeader_moved {s t : State} (h : settle (dynamicHeader s) = .next t) : StreamMoved s t := by
  refine settle_moved h (fun hok => ?_) dynamicHeader_eq_error
  obtain ⟨rfl, -, -⟩ := dynamicHeader_eq_ok hok
  exact .goesOn _ rfl (.of_kept (by rw [withHeader_bitpos]; omega) rfl rfl rfl rfl rfl rfl)

theorem matchLength_moved {i : Nat} {s t : State} (h : settle (matchLength i s) = .next t) : StreamMoved s t := by
  rcases matchLength_cases i s with ⟨-, e⟩ | ⟨-, e⟩ <;> rw [e] at h <;> cases h
  · exact .goesOn _ rfl (.of_kept (Nat.le_add_right _ _) rfl rfl rfl rfl rfl rfl)
  · exact failInflate_moved _ s

theorem matchDistance_moved {d : Nat} {s t : State} (h : settle (matchDistance d s) = .next t) : StreamMoved s t := by
  refine settle_moved h (fun hok => ?_) matchDistance_eq_error
  obtain ⟨u, hu, rfl, -, -⟩ := matchDistance_eq_ok hok
  have hread : Advanced s (setBitpos (s.inf.bitpos + distExtra.getD d 0) s) := advanced_setBitpos (Nat.le_add_right _ _)
  exact .goesOn _ rfl ((hread.trans (copyBack_eq_ok hu).1.advanced).trans (advanced_goTo _ u))

theorem appendLengths_moved (new : List Nat) (s : State) : StreamMoved s (appendLengths new s) := by
  obtain ⟨a, ha⟩ := appendLengths_run new s
  exact .goesOn a ha (advanced_appendLengths new s)

theorem appendRun_moved {v base bits : Nat} {s t : State} (h : settle (appendRun v base bits s) = .next t) :
    StreamMoved s t := by
  have hread : Advanced s (setBitpos (s.inf.bitpos + bits) s) := advanced_setBitpos (Nat.le_add_right _ _)
  rcases appendRun_cases v base bits s with ⟨-, -, e⟩ | ⟨-, -, e⟩ | ⟨-, e⟩ <;> rw [e] at h <;> cases h
  · exact hread.trans_moved (appendLengths_moved _ _)
  · exact hread.trans_moved (failInflate_moved _ _)
  · exact failInflate_moved _ s

theorem execLit_moved {byte : Nat} {s t : State} (h : execLit byte s = .next t) : StreamMoved s t := by
  unfold execLit at h
  by_cases hfull : s.inf.destLen = s.inf.destCap
  · rw [putByte_full hfull] at h
    cases h
    exact failInflate_moved _ s
  · rw [putByte_ok hfull] at h
    cases h
    exact .goesOn _ rfl ((Appended.ofByte hfull).advanced.trans (advanced_goTo _ _))

/-! ### The instructions of each format -/

theorem exec_blockHdr_moved {b : BitVec 3} {s t : State} (h : exec (decodeBlockHdr b) s = .next t) :
    StreamMoved s t := by
  unfold decodeBlockHdr at h
  split at h
  · exact (advanced_enterBlock _ _ _ s).trans_moved (storedBody_moved h)
  · cases h
    exact .goesOn _ rfl ((advanced_enterBlock _ _ _ s).trans (advanced_goTo _ _))
  · exact (advanced_enterBlock _ _ _ s).trans_moved (dynamicHeader_moved h)
  · cases h
    exact (advanced_enterBlock _ _ _ s).trans_moved (failInflate_moved _ _)

theorem exec_codeLen_moved {v : Nat} {i : Instr} {s t : State} (hi : decode .codeLen v = .ok i)
    (h : exec i s = .next t) : StreamMoved s t := by
  simp only [decode, decodeCodeLen] at hi
  split at hi
  · cases hi; cases h; exact appendLengths_moved _ s
  split at hi
  · cases hi
    simp only [exec, execClRepeat] at h
    split at h
    · cases h; exact failInflate_moved _ s
    · exact appendRun_moved h
  split at hi
  · cases hi; exact appendRun_moved h
  split at hi
  · cases hi; exact appendRun_moved h
  · cases hi

theorem exec_litLen_moved {v : Nat} {i : Instr} {s t : State} (hi : decode .litLen v = .ok i)
    (h : exec i s = .next t) : StreamMoved s t := by
  simp only [decode, decodeLitLen] at hi
  split at hi
  · cases hi; exact execLit_moved h
  split at hi
  · cases hi; cases h; exact .goesOn _ (endBlock_run s) (advanced_endBlock s)
  split at hi
  · cases hi; cases h; exact failInflate_moved _ s
  split at hi
  · cases hi; cases h; exact failInflate_moved _ s
  split at hi
  · next hx => cases hi; exact matchLength_moved (exec_lengthInstr hx s ▸ h)
  · cases hi

theorem exec_dist_moved {v : Nat} {i : Instr} {s t : State} (hi : decode .dist v = .ok i)
    (h : exec i s = .next t) : StreamMoved s t := by
  simp only [decode, decodeDist] at hi
  split at hi
  · next hx =>
    cases hi
    by_cases hv : v < 30
    · exact matchDistance_moved (exec_distInstr hx hv s ▸ h)
    · rw [exec_invalidDist hx (by omega)] at h
      cases h
      exact failInflate_moved _ s
  · cases hi

/-! ### A step at an element -/

/-- The two ways a step of a BUSY core ends well: it runs what it has read, or it runs no instruction. -/
theorem coreStep_next {s t : State} {a : Activity} (hrun : s.run = .busy a) (h : coreStep s = .next t) :
    (∃ i u, fetch a s = .run i u ∧ exec i u = .next t) ∨ fetch a s = .internal t := by
  simp only [coreStep, hrun] at h
  split at h
  · next i u hf => exact .inl ⟨i, u, hf, h⟩
  · next u hf => cases h; exact .inr hf
  · cases h

/-- R175, R191: reading an element takes at least one bit, and moves nothing but the position and the header's bits. -/
theorem fetchSymbol_advanced {f : Format} {tree : Tree} {i : Instr} {s u : State}
    (h : fetchSymbol f (decodeSym tree s) = .run i u) :
    s.inf.bitpos < u.inf.bitpos ∧ Advanced s u ∧ ∃ v, decode f v = .ok i := by
  obtain ⟨v, hv, hi⟩ := fetchSymbol_eq_run h
  obtain ⟨l, -, hl, -, -, -, -, rfl, -⟩ := decodeSym_eq_ok hv
  exact ⟨Nat.lt_add_of_pos_right hl, advanced_setBitpos (Nat.le_add_right _ _), v, hi⟩

theorem fetchBlockHdr_advanced {i : Instr} {s u : State} (h : fetchBlockHdr s = .run i u) :
    s.inf.bitpos < u.inf.bitpos ∧ Advanced s u ∧ ∃ b, i = decodeBlockHdr b := by
  unfold fetchBlockHdr at h
  split at h
  · cases h
  · next b v hb =>
    cases h
    obtain ⟨rfl, -, -⟩ := readBlockHdr_eq_ok hb
    exact ⟨Nat.lt_add_of_pos_right (by decide), .of_kept (Nat.le_add_right _ 3) rfl rfl rfl rfl rfl rfl, b, rfl⟩

theorem fetchBlockHdr_internal {s e : State} (h : fetchBlockHdr s = .internal e) : FailedInflate s e := by
  unfold fetchBlockHdr at h
  split at h
  · next he => cases h; exact readBlockHdr_eq_error he
  · cases h

/-- The places of a command body at which an element of the stream is read. -/
def StreamPlace (a : Activity) : Prop := a = .blockHeader ∨ a = .codeLength ∨ a = .litLen ∨ a = .distance

/-- R211, R212: a step at an element moves the stream, and takes at least one bit unless it fails before that. -/
theorem coreStep_stream {s t : State} {a : Activity} (ha : StreamPlace a) (hrun : s.run = .busy a)
    (h : coreStep s = .next t) : StreamMoved s t ∧ (t.run = .fail ∨ s.inf.bitpos < t.inf.bitpos) := by
  rcases coreStep_next hrun h with ⟨i, u, hf, hx⟩ | hf
  · have hread : s.inf.bitpos < u.inf.bitpos ∧ Advanced s u ∧ StreamMoved u t := by
      rcases ha with rfl | rfl | rfl | rfl
      · obtain ⟨hpos, hadv, b, rfl⟩ := fetchBlockHdr_advanced hf
        exact ⟨hpos, hadv, exec_blockHdr_moved hx⟩
      · obtain ⟨hpos, hadv, v, hv⟩ := fetchSymbol_advanced hf
        exact ⟨hpos, hadv, exec_codeLen_moved hv hx⟩
      · obtain ⟨hpos, hadv, v, hv⟩ := fetchSymbol_advanced hf
        exact ⟨hpos, hadv, exec_litLen_moved hv hx⟩
      · obtain ⟨hpos, hadv, v, hv⟩ := fetchSymbol_advanced hf
        exact ⟨hpos, hadv, exec_dist_moved hv hx⟩
    obtain ⟨hpos, hadv, hmoved⟩ := hread
    exact ⟨hadv.trans_moved hmoved, .inr (Nat.lt_of_lt_of_le hpos hmoved.forward)⟩
  · have hfail : FailedInflate s t := by
      rcases ha with rfl | rfl | rfl | rfl
      · exact fetchBlockHdr_internal hf
      · exact decodeSym_eq_error (fetchSymbol_eq_internal hf)
      · exact decodeSym_eq_error (fetchSymbol_eq_internal hf)
      · exact decodeSym_eq_error (fetchSymbol_eq_internal hf)
    have hrunt : t.run = .fail := by obtain ⟨c, inf, -, -, -, rfl⟩ := hfail; rfl
    exact ⟨hfail.moved, .inl hrunt⟩

/-- Settles O29: by `coreStep_stream`, what any step at an element does. -/
theorem streamMovesForward : Obligations.StreamMovesForward := by
  intro s t a ha hrun h
  obtain ⟨hmoved, hpos⟩ := coreStep_stream ha hrun h
  refine ⟨hmoved.forward, ?_⟩
  cases hmoved with
  | failed hfail _ => exact .inl hfail
  | goesOn b hbusy hadv =>
    have hlt : s.inf.bitpos < t.inf.bitpos := hpos.resolve_left (by rw [hbusy]; exact RunState.noConfusion)
    exact .inr ⟨hlt, hadv.regionStart, hadv.regionEnd, hadv.destCap, hadv.grows, hadv.others⟩

end Sys2Proof.Machine
end

section
/-! PROOFS. What a step of the core does to STATE (R22, R300, R301, R346): a running command fails, goes on, or
completes, and it completes in two places only. -/

namespace Sys2Proof.Machine

/-- What a step of a core that is BUSY at place `a` can do to the running command. -/
inductive CoreMove (a : Activity) (s t : State) : Prop where
  /-- R346. -/
  | failed (h : t.run = .fail)
  /-- The body goes on at place `b`. -/
  | goesOn (b : Activity) (h : t.run = .busy b)
  /-- The last steps of OPEN, READ or INFLATE. -/
  | finished (ha : a = .finish) (h : t = finishCommand s)
  /-- R313: CRC32, which is one step. -/
  | checksum (ha : a = .command) (hop : s.regs.cmdOp = 4)
      (h : t = complete (putCrc (inByte s) s.regs.arg0.toNat s.regs.arg1.toNat s))

theorem busy_of_run {s : State} {a : Activity} (h : s.run = .busy a) : busy s = true := by rw [busy, h]

theorem exists_run_of_busy {s : State} (h : busy s = true) : ∃ a, s.run = .busy a := by
  unfold busy at h
  split at h
  · next a ha => exact ⟨a, ha⟩
  · cases h

theorem FailedAt.run {s e : State} (h : FailedAt s e) : e.run = .fail := by
  obtain ⟨c, pos, rfl⟩ := h
  rfl

theorem settle_coreMove {a : Activity} {s t : State} {r : Res State} (h : settle r = .next t)
    (hok : r = .ok t → ∃ b, t.run = .busy b) (herror : r = .error t → t.run = .fail) : CoreMove a s t := by
  cases r with
  | ok u => cases h; obtain ⟨b, hb⟩ := hok rfl; exact .goesOn b hb
  | error e => cases h; exact .failed (herror rfl)

/-- R21, R100: the OP field of CMD is the last accepted OP. -/
theorem cmdWord_extract (s : State) : (cmdWord s).extractLsb' 0 4 = s.regs.cmdOp := by
  unfold cmdWord
  ext k hk
  simp [hk]
  omega

theorem openBody_coreMove {a : Activity} {s t : State} (h : settle (openBody s) = .next t) : CoreMove a s t := by
  rcases openBody_cases s with ⟨-, e⟩ | ⟨-, -, e⟩ | ⟨-, -, e⟩ <;> rw [e] at h <;> cases h
  · exact .failed rfl
  · exact .failed rfl
  · exact .goesOn _ rfl

theorem produce_run {e : Entry} {s t : State} (h : produce e s = .ok t) : ∃ b, t.run = .busy b := by
  obtain ⟨-, ⟨-, rfl⟩ | ⟨-, -, u, -, rfl⟩⟩ := produce_eq_ok h
  · exact ⟨_, rfl⟩
  · exact ⟨_, rfl⟩

theorem readBody_coreMove {a : Activity} {s t : State} (h : settle (readBody s) = .next t) : CoreMove a s t := by
  refine settle_coreMove h (fun hok => ?_) (fun herror => ?_)
  · obtain ⟨-, -, k, e, -, hp⟩ := readBody_eq_ok hok
    exact produce_run hp
  · obtain ⟨r, hr⟩ := readBody_eq_error herror
    exact hr.run

theorem inflateBody_coreMove {a : Activity} {s t : State} (h : settle (inflateBody s) = .next t) :
    CoreMove a s t := by
  rcases inflateBody_cases s with ⟨-, -, -, e⟩ | ⟨-, e⟩ <;> rw [e] at h <;> cases h
  · exact .goesOn _ rfl
  · exact .failed rfl

theorem crc32Body_coreMove {s t : State} (hop : s.regs.cmdOp = 4) (h : settle (crc32Body s) = .next t) :
    CoreMove .command s t := by
  rcases crc32Body_cases s with ⟨-, -, e⟩ | ⟨-, e⟩ <;> rw [e] at h <;> cases h
  · exact .checksum rfl hop rfl
  · exact .failed rfl

/-- R300: the step that runs the accepted command. -/
theorem fetchCommand_coreMove {s t : State} (h : exec (decodeCmd (cmdWord s)) s = .next t) :
    CoreMove .command s t := by
  rw [decodeCmd, cmdWord_extract] at h
  split at h
  case h_2 => exact openBody_coreMove h
  case h_3 => exact readBody_coreMove h
  case h_4 => exact inflateBody_coreMove h
  case h_5 hop => exact crc32Body_coreMove (BitVec.eq_of_toNat_eq hop) h
  all_goals cases h; exact .failed rfl

theorem eocd_coreMove {a : Activity} {s t : State} (h : execEocd s = .next t) : CoreMove a s t := by
  refine settle_coreMove h (fun hok => ?_) (fun herror => (eocdBody_eq_error herror).run)
  obtain ⟨-, rfl⟩ := eocdBody_eq_ok hok
  exact ⟨_, rfl⟩

theorem cdh_coreMove {a : Activity} {s t : State} (h : execCdh s = .next t) : CoreMove a s t := by
  refine settle_coreMove h (fun hok => ?_) (fun herror => (cdhBody_eq_error herror).run)
  obtain ⟨-, rfl⟩ := cdhBody_eq_ok hok
  exact ⟨_, rfl⟩

theorem lfh_coreMove {a : Activity} {s t : State} (h : execLfh s = .next t) : CoreMove a s t := by
  refine settle_coreMove h (fun hok => ?_) (fun herror => (lfhBody_eq_error herror).1.run)
  obtain ⟨-, rfl⟩ := lfhBody_eq_ok hok
  exact ⟨_, rfl⟩

theorem fetchEocd_coreMove {s t : State} (hrun : s.run = .busy .scanEocd) (h : coreStep s = .next t) :
    CoreMove .scanEocd s t := by
  rcases fetchEocd_cases s with ⟨-, e⟩ | ⟨-, -, e⟩ | ⟨-, -, e⟩
  · rw [coreStep_run hrun e] at h
    exact eocd_coreMove h
  · rw [coreStep_internal hrun e] at h
    cases h
    exact .failed rfl
  · rw [coreStep_internal hrun e] at h
    cases h
    exact .goesOn _ hrun

theorem fetchCdh_coreMove {s t : State} (hrun : s.run = .busy .walkCdh) (h : coreStep s = .next t) :
    CoreMove .walkCdh s t := by
  rcases fetchCdh_cases s with ⟨-, e⟩ | ⟨-, -, e⟩ | ⟨-, -, e⟩
  · rw [coreStep_internal hrun e] at h
    cases h
    exact .failed rfl
  · rw [coreStep_run hrun e] at h
    exact cdh_coreMove h
  · rw [coreStep_internal hrun e] at h
    cases h
    exact .failed rfl

theorem fetchLfh_coreMove {s t : State} (hrun : s.run = .busy .checkLfh) (h : coreStep s = .next t) :
    CoreMove .checkLfh s t := by
  rcases fetchLfh_cases s with ⟨-, e⟩ | ⟨-, -, e⟩ | ⟨-, -, e⟩
  · rw [coreStep_internal hrun e] at h
    cases h
    exact .failed rfl
  · rw [coreStep_run hrun e] at h
    exact lfh_coreMove h
  · rw [coreStep_internal hrun e] at h
    cases h
    exact .failed rfl

theorem stream_coreMove {a : Activity} {s t : State} (ha : StreamPlace a) (hrun : s.run = .busy a)
    (h : coreStep s = .next t) : CoreMove a s t := by
  cases (coreStep_stream ha hrun h).1 with
  | failed hfail _ => exact .failed hfail
  | goesOn b hbusy _ => exact .goesOn b hbusy

/-- Everything a step of a BUSY core can do to STATE. -/
theorem coreStep_move {a : Activity} {s t : State} (hrun : s.run = .busy a) (h : coreStep s = .next t) :
    CoreMove a s t := by
  cases a with
  | command => exact fetchCommand_coreMove (coreStep_run hrun rfl ▸ h)
  | scanEocd => exact fetchEocd_coreMove hrun h
  | walkCdh => exact fetchCdh_coreMove hrun h
  | checkLfh => exact fetchLfh_coreMove hrun h
  | blockHeader => exact stream_coreMove (.inl rfl) hrun h
  | codeLength => exact stream_coreMove (.inr (.inl rfl)) hrun h
  | litLen => exact stream_coreMove (.inr (.inr (.inl rfl))) hrun h
  | distance => exact stream_coreMove (.inr (.inr (.inr rfl))) hrun h
  | finish =>
    rw [coreStep_internal hrun rfl] at h
    cases h
    exact .finished rfl rfl

/-! ### How STATE moves -/

theorem finishRead_run (s : State) : (finishRead s).run = .done ∨ (finishRead s).run = .fail := by
  rcases finishRead_cases s with ⟨-, -, e⟩ | ⟨-, -, e⟩ | ⟨-, -, e⟩ <;> rw [e]
  · exact .inr rfl
  · exact .inr rfl
  · exact .inl rfl

theorem finishCommand_run (s : State) : (finishCommand s).run = .done ∨ (finishCommand s).run = .fail := by
  unfold finishCommand
  split
  · exact .inl rfl
  · exact finishRead_run s
  · exact .inl rfl
  · exact .inl rfl

/-- R22, R301, R346: a step of the core leaves STATE alone when it is not BUSY, and never leads to IDLE when it is. -/
theorem coreStep_state {s t : State} (h : coreStep s = .next t) :
    (busy s = false ∧ t = s) ∨ (busy s = true ∧ (busy t = true ∨ t.run = .done ∨ t.run = .fail)) := by
  cases hb : busy s with
  | false =>
    rw [coreStep_idle hb] at h
    cases h
    exact .inl ⟨rfl, rfl⟩
  | true =>
    obtain ⟨a, hrun⟩ := exists_run_of_busy hb
    refine .inr ⟨rfl, ?_⟩
    cases coreStep_move hrun h with
    | failed ht => exact .inr (.inr ht)
    | goesOn b ht => exact .inl (busy_of_run ht)
    | finished _ ht => rw [ht]; exact .inr (finishCommand_run s)
    | checksum _ _ ht => rw [ht]; exact .inr (.inl rfl)

/-- R22, R300, R382: a host access changes STATE by a command that is accepted or by reset, and otherwise not. -/
theorem HostEffect.state {op : HostOp} {s t : State} (h : HostEffect op s t) :
    t.run = s.run ∨ (op = .reset ∧ t.run = .idle) ∨
      (∃ w, op = .writeReg 0x00 .w32 w ∧ busy s = false ∧ t = acceptCommand w s) := by
  cases h with
  | held d n h => rw [h]; exact .inl rfl
  | status v ho h => rw [h]; exact .inl rfl
  | ctrl v ho h => rw [h]; exact .inl rfl
  | dropped hb h => rw [h]; exact .inl rfl
  | accepted v hb ho h => exact .inr (.inr ⟨v, ho, hb, h⟩)
  | inLen v hb h => rw [h]; exact .inl rfl
  | operands n a0 a1 a2 hb h => rw [h]; exact .inl rfl
  | inByte a v hb ha h => rw [h]; exact .inl rfl
  | nameByte a v hb ha h => rw [h]; exact .inl rfl
  | reset ho h => exact .inr (.inl ⟨ho, by rw [h]; rfl⟩)

theorem busy_congr {s t : State} (h : t.run = s.run) : busy t = busy s := by rw [busy, busy, h]

/-- R22: the four things one step of the two agents can do to STATE. -/
theorem step_state {s t : State} (h : step s = .next t) :
    t.run = s.run ∨
    (busy s = true ∧ (busy t = true ∨ t.run = .done ∨ t.run = .fail)) ∨
    ((∃ ops, s.hostOps = .reset :: ops) ∧ t.run = .idle) ∨
    (∃ w ops, s.hostOps = .writeReg 0x00 .w32 w :: ops ∧ busy s = false ∧
      t = acceptCommand w { s with hostOps := ops }) := by
  rcases nextMove_cases h with ⟨hc, -⟩ | ⟨ops, -, hc⟩ | ⟨ops, -, -, rfl⟩ | ⟨op, ops, ho, -, -, he⟩
  · rcases coreStep_state hc with ⟨-, rfl⟩ | hbusy
    · exact .inl rfl
    · exact .inr (.inl hbusy)
  · rcases coreStep_state hc with ⟨-, rfl⟩ | hbusy
    · exact .inl rfl
    · exact .inr (.inl hbusy)
  · exact .inl rfl
  · rcases he.state with hrun | ⟨rfl, hidle⟩ | ⟨w, rfl, hb, ht⟩
    · exact .inl hrun
    · exact .inr (.inr (.inl ⟨⟨ops, ho⟩, hidle⟩))
    · exact .inr (.inr (.inr ⟨w, ops, ho, hb, ht⟩))

/-- Settles O26: by `step_state`, clause by clause. -/
theorem stateMoves : Obligations.StateMoves := by
  intro s t h
  rcases step_state h with hrun | ⟨hs, ht⟩ | ⟨hreset, ht⟩ | ⟨w, ops, ho, hs, rfl⟩
  case inl =>
    have hbusy := busy_congr hrun
    exact ⟨fun hs ht => by simp [hbusy, hs] at ht, fun _ _ => .inl hrun, fun hs ht => by simp [hbusy, hs] at ht,
      fun hidle => .inl (hrun ▸ hidle)⟩
  case inr.inl =>
    have hidle : t.run ≠ .idle := fun hi => by simp [busy, hi] at ht
    refine ⟨fun hs' => by simp [hs] at hs', fun hs' => by simp [hs] at hs', fun _ hb => ?_, fun hi => absurd hi hidle⟩
    rcases ht with hbt | hdone | hfail
    · simp [hbt] at hb
    · exact .inl hdone
    · exact .inr (.inl hfail)
  case inr.inr.inl =>
    exact ⟨fun _ hb => by simp [busy, ht] at hb, fun _ _ => .inr hreset, fun _ _ => .inr (.inr hreset),
      fun _ => .inr hreset⟩
  case inr.inr.inr =>
    have hbusy : busy (acceptCommand w { s with hostOps := ops }) = true := busy_of_run (acceptCommand_run w _)
    exact ⟨fun _ _ => ⟨w, ops, ho, rfl⟩, fun _ ht => by simp [hbusy] at ht, fun hs' => by simp [hs] at hs',
      fun hidle => by simp at hidle⟩

end Sys2Proof.Machine
end

section
/-! PROOFS. Soundness (Safety.lean) does not depend on the host's side of the state: its pending moves, the value it
read last, and the count of draws. -/

namespace Sys2Proof.Machine

/-- `s` with another host side. -/
def State.withHost (ops : List HostOp) (d : Word) (n : Nat) (s : State) : State :=
  { s with hostOps := ops, hostData := d, readDraws := n }

section
variable {s : State} {e : Entry} (ops : List HostOp) (d : Word) (n : Nat)

theorem PortsOk.withHost (h : PortsOk s) : PortsOk (s.withHost ops d n) := { h with }

theorem EntryOk.withHost (h : EntryOk s e) : EntryOk (s.withHost ops d n) e := { h with }

theorem TableOk.withHost (h : TableOk s) : TableOk (s.withHost ops d n) := fun e he => (h e he).withHost ops d n

theorem HandleClear.withHost (h : HandleClear s) : HandleClear (s.withHost ops d n) := { h with }

theorem HandleValid.withHost (h : HandleValid s) : HandleValid (s.withHost ops d n) :=
  { h with table := h.table.withHost ops d n }

theorem HandleOk.withHost (h : HandleOk s) : HandleOk (s.withHost ops d n) where
  capacity := h.capacity
  valid hv := (h.valid hv).withHost ops d n
  failedOpen hr hop := (h.failedOpen hr hop).withHost ops d n
  runningOpen hb hop := (h.runningOpen hb hop).withHost ops d n

theorem ResultRegsOk.withHost (h : ResultRegsOk s) : ResultRegsOk (s.withHost ops d n) where
  noError := h.noError
  failed := h.failed
  running := h.running
  fresh hr :=
    have ⟨hop, hlen, hcrc, hent, hft, hclear⟩ := h.fresh hr
    ⟨hop, hlen, hcrc, hent, hft, hclear.withHost ops d n⟩

theorem WalkOk.withHost (h : WalkOk s) : WalkOk (s.withHost ops d n) := { h with table := h.table.withHost ops d n }

theorem RecordOk.withHost (h : RecordOk s) : RecordOk (s.withHost ops d n) := { h with }

theorem StreamOk.withHost (h : StreamOk s) : StreamOk (s.withHost ops d n) := { h with }

theorem CountsOk.withHost (h : CountsOk s) : CountsOk (s.withHost ops d n) := { h with }

theorem CodeLengthOk.withHost (h : CodeLengthOk s) : CodeLengthOk (s.withHost ops d n) :=
  { h with counts := h.counts.withHost ops d n }

theorem TreesOk.withHost (h : TreesOk s) : TreesOk (s.withHost ops d n) :=
  h.imp_right fun ⟨hphase, hcounts, htrees⟩ => ⟨hphase, hcounts.withHost ops d n, htrees⟩

theorem StoredDone.withHost (h : StoredDone s) : StoredDone (s.withHost ops d n) := { h with }

theorem PlaceOk.withHost {a : Activity} (h : PlaceOk s a) : PlaceOk (s.withHost ops d n) a := by
  cases a with
  | command => trivial
  | scanEocd => exact h
  | walkCdh =>
    obtain ⟨hwalk, hleft⟩ := h
    exact ⟨hwalk.withHost ops d n, hleft⟩
  | checkLfh =>
    obtain ⟨hwalk, hleft, hrecord⟩ := h
    exact ⟨hwalk.withHost ops d n, hleft, hrecord.withHost ops d n⟩
  | blockHeader =>
    obtain ⟨hstream, hphase⟩ := h
    exact ⟨hstream.withHost ops d n, hphase⟩
  | codeLength =>
    obtain ⟨hstream, hlengths⟩ := h
    exact ⟨hstream.withHost ops d n, hlengths.withHost ops d n⟩
  | litLen =>
    obtain ⟨hstream, htrees⟩ := h
    exact ⟨hstream.withHost ops d n, htrees.withHost ops d n⟩
  | distance =>
    obtain ⟨hstream, htrees, hlength⟩ := h
    exact ⟨hstream.withHost ops d n, htrees.withHost ops d n, hlength⟩
  | finish =>
    rcases h with ⟨hwalk, hleft⟩ | ⟨hstream, hphase⟩ | hstored
    · exact .inl ⟨hwalk.withHost ops d n, hleft⟩
    · exact .inr (.inl ⟨hstream.withHost ops d n, hphase⟩)
    · exact .inr (.inr (hstored.withHost ops d n))

theorem State.Inv.withHost (h : s.Inv) : (s.withHost ops d n).Inv where
  params := h.params
  ports := h.ports.withHost ops d n
  handle := h.handle.withHost ops d n
  results := h.results.withHost ops d n
  place a hr := (h.place a hr).withHost ops d n

end

end Sys2Proof.Machine
end

section
/-! PROOFS. The results of a successful command (R27, R301, R306, R310, R312, R313) hold where it completes, and no later
step touches them while STATE is DONE. -/

namespace Sys2Proof.Machine

/-! ### What the results depend on -/

/-- `t` has STATE, the last command, the results and the OUT memory of `s`. -/
structure SameResults (s t : State) : Prop where
  params : t.params = s.params
  run : t.run = s.run
  cmdOp : t.regs.cmdOp = s.regs.cmdOp
  outLen : t.regs.outLen = s.regs.outLen
  resCrc : t.regs.resCrc = s.regs.resCrc
  ent : t.ent = s.ent
  outMem : t.outMem = s.outMem
  outEpoch : t.outEpoch = s.outEpoch

theorem DoneOk.of_same {s t : State} (h : DoneOk s) (hs : SameResults s t) : DoneOk t where
  known := by rw [hs.cmdOp]; exact h.known
  none := by rw [hs.cmdOp, hs.outLen]; exact h.none
  bytes hop := by
    have hout : outByte t = outByte s := funext (outByte_congr hs.outMem hs.outEpoch)
    rw [hs.cmdOp] at hop
    simpa only [hs.resCrc, hs.outLen, hs.params, hout, OutputWritten, hs.outMem] using h.bytes hop
  entry := by rw [hs.cmdOp, hs.outLen, hs.resCrc, hs.ent]; exact h.entry

theorem State.ResultsHold.of_same {s t : State} (h : s.ResultsHold) (hs : SameResults s t) : t.ResultsHold :=
  fun hdone => (h (hs.run.symm.trans hdone)).of_same hs

/-- R300, R380, R394: a host access leaves the results alone, or STATE is not DONE after it. -/
theorem HostEffect.sameResults {op : HostOp} {s t : State} (h : HostEffect op s t) :
    SameResults s t ∨ t.run ≠ .done := by
  cases h with
  | held d n h => subst h; exact .inl ⟨rfl, rfl, rfl, rfl, rfl, rfl, rfl, rfl⟩
  | status v ho h => subst h; exact .inl ⟨rfl, rfl, rfl, rfl, rfl, rfl, rfl, rfl⟩
  | ctrl v ho h => subst h; exact .inl ⟨rfl, rfl, rfl, rfl, rfl, rfl, rfl, rfl⟩
  | dropped hb h => subst h; exact .inl ⟨rfl, rfl, rfl, rfl, rfl, rfl, rfl, rfl⟩
  | accepted v hb ho h => subst h; exact .inr (by simp)
  | inLen v hb h => subst h; exact .inl ⟨rfl, rfl, rfl, rfl, rfl, rfl, rfl, rfl⟩
  | operands n a0 a1 a2 hb h => subst h; exact .inl ⟨rfl, rfl, rfl, rfl, rfl, rfl, rfl, rfl⟩
  | inByte a v hb ha h => subst h; exact .inl ⟨rfl, rfl, rfl, rfl, rfl, rfl, rfl, rfl⟩
  | nameByte a v hb ha h => subst h; exact .inl ⟨rfl, rfl, rfl, rfl, rfl, rfl, rfl, rfl⟩
  | reset ho h => subst h; exact .inr RunState.noConfusion

/-! ### The commands that complete -/

/-- R310, R313: OPEN and CRC32 produce no bytes. -/
theorem doneOk_of_no_bytes {s : State} (hop : s.regs.cmdOp = 1 ∨ s.regs.cmdOp = 4) (hlen : s.regs.outLen = 0) :
    DoneOk s where
  known := by rcases hop with hop | hop <;> simp [hop]
  none _ := hlen
  bytes h := by rcases hop with hop | hop <;> simp [hop] at h
  entry h := by rcases hop with hop | hop <;> simp [hop] at h

/-- R306, R312: after the CRC step, the `destLen` bytes of the destination are the result. -/
theorem doneOk_of_bytes {s : State} (hop : s.regs.cmdOp = 2 ∨ s.regs.cmdOp = 3) (hparams : s.params.ok = true)
    (hcap : s.inf.destLen ≤ s.params.outCap) (hwritten : OutputWritten s.inf.destLen s)
    (hentry : s.regs.cmdOp = 2 → s.inf.destLen = s.ent.usize.toNat ∧ crc32 (outByte s) 0 s.inf.destLen = s.ent.crc) :
    DoneOk (complete (putOutLen s.inf.destLen (putCrc (outByte s) 0 s.inf.destLen s))) := by
  have hmax : s.params.outCap ≤ 2 ^ 32 - 1 := by
    simp only [Params.ok, Bool.and_eq_true, decide_eq_true_eq] at hparams
    obtain ⟨⟨⟨-, hout⟩, -⟩, -⟩ := hparams
    exact hout
  have hlen : (BitVec.ofNat 32 s.inf.destLen).toNat = s.inf.destLen := by
    rw [BitVec.toNat_ofNat, Nat.mod_eq_of_lt (by omega)]
  constructor
  case known => exact hop.elim (fun h => .inr (.inl h)) (fun h => .inr (.inr (.inl h)))
  case none => rcases hop with hop | hop <;> simp [hop]
  case bytes =>
    intro _
    simp only [complete_regs, putOutLen_regs, putCrc_regs, hlen]
    exact ⟨rfl, hcap, hwritten⟩
  case entry =>
    intro h
    obtain ⟨hsize, hcrc⟩ := hentry h
    exact ⟨by simp [hsize], hcrc⟩

theorem finishCommand_open {s : State} (hop : s.regs.cmdOp = 1) : finishCommand s = finishOpen s := by
  rw [finishCommand, hop]; rfl

theorem finishCommand_read {s : State} (hop : s.regs.cmdOp = 2) : finishCommand s = finishRead s := by
  rw [finishCommand, hop]; rfl

theorem finishCommand_inflate {s : State} (hop : s.regs.cmdOp = 3) : finishCommand s = finishInflate s := by
  rw [finishCommand, hop]; rfl

/-- R304, R306: a READ that ends in DONE has produced the declared size, with the stored CRC. -/
theorem finishRead_doneOk {s : State} (hop : s.regs.cmdOp = 2) (hparams : s.params.ok = true)
    (hcap : s.inf.destLen ≤ s.params.outCap) (hwritten : OutputWritten s.inf.destLen s)
    (hsize : s.ent.method = 8 ∨ s.inf.destLen = s.ent.usize.toNat) (hdone : (finishRead s).run = .done) :
    DoneOk (finishRead s) := by
  rcases finishRead_cases s with ⟨-, -, e⟩ | ⟨-, -, e⟩ | ⟨hdeflated, hcrc, e⟩ <;> rw [e] at hdone ⊢
  · cases hdone
  · cases hdone
  · exact doneOk_of_bytes (.inl hop) hparams hcap hwritten fun _ => ⟨hsize.elim hdeflated id, hcrc⟩

/-- R301, R306, R310, R312: the results that the last steps of a command's body leave. -/
theorem finishCommand_doneOk {s : State} (h : s.Inv) (hrun : s.run = .busy .finish)
    (hdone : (finishCommand s).run = .done) : DoneOk (finishCommand s) := by
  have hzero : s.regs.outLen = 0 := (h.results.running (busy_of_run hrun)).1
  rcases h.place .finish hrun with ⟨hwalk, -⟩ | ⟨hstream, -⟩ | hstored
  · rw [finishCommand_open hwalk.open_]
    exact doneOk_of_no_bytes (.inl hwalk.open_) hzero
  · have hcap := Nat.le_trans hstream.room hstream.capacity
    rcases hstream.source with ⟨hop, -⟩ | ⟨hop, -, hmethod, -⟩
    · rw [finishCommand_inflate hop]
      exact doneOk_of_bytes (.inr hop) h.params hcap hstream.written fun hread => by simp [hop] at hread
    · rw [finishCommand_read hop] at hdone ⊢
      exact finishRead_doneOk hop h.params hcap hstream.written (.inl hmethod) hdone
  · rw [finishCommand_read hstored.read] at hdone ⊢
    exact finishRead_doneOk hstored.read h.params hstored.capacity hstored.written (.inr hstored.destLen) hdone

/-! ### Every step -/

theorem coreStep_resultsHold {s t : State} (h : s.Inv) (hres : s.ResultsHold) (hstep : coreStep s = .next t) :
    t.ResultsHold := by
  cases hb : busy s with
  | false =>
    rw [coreStep_idle hb] at hstep
    cases hstep
    exact hres
  | true =>
    obtain ⟨a, hrun⟩ := exists_run_of_busy hb
    intro hdone
    cases coreStep_move hrun hstep with
    | failed ht => rw [ht] at hdone; cases hdone
    | goesOn b ht => rw [ht] at hdone; cases hdone
    | finished ha ht => subst ha ht; exact finishCommand_doneOk h hrun hdone
    | checksum ha hop ht => subst ht; exact doneOk_of_no_bytes (.inr hop) (h.results.running hb).1

/-- Settles O57: a step of the core by `coreStep_resultsHold`, a host access by `HostEffect.sameResults`. -/
theorem everyStepKeepsResults : Obligations.EveryStepKeepsResults := by
  intro s t h hres hstep
  have sameScript : ∀ ops, SameResults s { s with hostOps := ops } := fun _ =>
    ⟨rfl, rfl, rfl, rfl, rfl, rfl, rfl, rfl⟩
  rcases nextMove_cases hstep with ⟨hc, -⟩ | ⟨ops, -, hc⟩ | ⟨ops, -, -, rfl⟩ | ⟨op, ops, -, -, -, he⟩
  · exact coreStep_resultsHold h hres hc
  · exact coreStep_resultsHold (h.withHost ops s.hostData s.readDraws) (hres.of_same (sameScript ops)) hc
  · exact hres.of_same (sameScript ops)
  · rcases he.sameResults with hsame | hnot
    · exact (hres.of_same (sameScript ops)).of_same hsame
    · exact fun hdone => absurd hdone hnot

end Sys2Proof.Machine
end

section
/-! PROOFS. The host's register space (R20-R29, R73, R86, R390): what an aligned 32-bit access answers and changes, by
the kind of the register, while the core is BUSY and while it is not. -/

namespace Sys2Proof.Machine

theorem aligned_w32 {off : BitVec 8} (h : off.toNat % 4 = 0) : aligned off .w32 = true := by simp [aligned, h]

/-- The read-only registers and the reserved offsets, as numbers. -/
theorem toNat_of_no_write {off : BitVec 8} (h : off = 0x0C ∨ off = 0x10 ∨ 0x28 ≤ off.toNat) :
    off.toNat = 0x0C ∨ off.toNat = 0x10 ∨ 0x28 ≤ off.toNat :=
  h.imp (congrArg BitVec.toNat) (.imp_left (congrArg BitVec.toNat))

theorem portAccess_below {p : Port} {a : Nat} {s t : State} (h : a < capacity p s) :
    portAccess p a s t = .next t := if_pos h

/-! ### The words -/

/-- R22: the four fields of STATUS do not overlap; there are 32 words. -/
theorem status_bits : ∀ (code : Fin 4) (valid ignored pending : Bool),
    code.val + 4 * valid.toNat + 8 * ignored.toNat + 16 * pending.toNat < 2 ^ 5 ∧
    (code.val + 4 * valid.toNat + 8 * ignored.toNat + 16 * pending.toNat) % 4 = code ∧
    (code.val + 4 * valid.toNat + 8 * ignored.toNat + 16 * pending.toNat).testBit 2 = valid ∧
    (code.val + 4 * valid.toNat + 8 * ignored.toNat + 16 * pending.toNat).testBit 3 = ignored ∧
    (code.val + 4 * valid.toNat + 8 * ignored.toNat + 16 * pending.toNat).testBit 4 = pending := by decide

theorem RunState.code_lt (r : RunState) : r.code < 4 := by cases r <;> simp [RunState.code]

/-- R22: the fields of the STATUS word. -/
theorem statusWord_fields (s : State) (valid : Bool) :
    ((statusWord s valid).extractLsb' 0 2).toNat = s.run.code ∧ (statusWord s valid).getLsbD 2 = valid ∧
      (statusWord s valid).getLsbD 3 = s.regs.ignored ∧ (statusWord s valid).getLsbD 4 = s.regs.irqPending ∧
      ∀ k, 5 ≤ k → (statusWord s valid).getLsbD k = false := by
  obtain ⟨hlt, hstate, hvalid, hignored, hpending⟩ :=
    status_bits ⟨s.run.code, s.run.code_lt⟩ valid s.regs.ignored s.regs.irqPending
  unfold statusWord
  generalize s.run.code + 4 * valid.toNat + 8 * s.regs.ignored.toNat + 16 * s.regs.irqPending.toNat = n at *
  have hword : n % 2 ^ 32 = n := Nat.mod_eq_of_lt (Nat.lt_trans hlt (by decide))
  refine ⟨?_, ?_, ?_, ?_, fun k hk => ?_⟩
  · rw [BitVec.extractLsb'_toNat, BitVec.toNat_ofNat, hword]
    exact hstate
  · rw [BitVec.getLsbD_ofNat, hvalid]; rfl
  · rw [BitVec.getLsbD_ofNat, hignored]; rfl
  · rw [BitVec.getLsbD_ofNat, hpending]; rfl
  · have hbit : n.testBit k = false :=
      Nat.testBit_lt_two_pow (Nat.lt_of_lt_of_le hlt (Nat.pow_le_pow_right (by decide) hk))
    rw [BitVec.getLsbD_ofNat, hbit, Bool.and_false]

/-- R23. -/
theorem ctrlWord_eq (s : State) : ctrlWord s = if s.regs.ie then 1 else 0 := by
  unfold ctrlWord
  cases s.regs.ie <;> rfl

/-- R20: reserved offsets read 0. -/
theorem regWord_reserved {s : State} {n : Nat} (h : 0x60 ≤ n) : regWord s n = 0 := by
  unfold regWord
  split
  case h_25 => rfl
  all_goals omega

/-! ### Reads -/

theorem readReg_idle {off : BitVec 8} {s : State} {v : Word} (hb : busy s = false) (ha : off.toNat % 4 = 0)
    (hv : regWord s off.toNat = v) : hostAccess (.readReg off .w32) s = .next { s with hostData := v } := by
  rw [hostAccess, hostReadReg, aligned_w32 ha, if_neg (by decide), if_pos hb, hv, hostGets]

/-- R86, U2: while BUSY a result register reads as a draw. -/
theorem readReg_busy_result {off : BitVec 8} {s : State} (hb : busy s = true) (ha : off.toNat % 4 = 0)
    (hr : isResult off.toNat = true) : hostAccess (.readReg off .w32) s =
      .next { s with hostData := Config.freeRead s.readDraws, readDraws := s.readDraws + 1 } := by
  rw [hostAccess, hostReadReg, aligned_w32 ha, if_neg (by decide), if_neg (by simp [hb]), if_pos hr, hostDraws]

/-- R86, R391: STATUS while BUSY, its OPEN_VALID bit a draw (assumption 8). -/
theorem readReg_busy_status {s : State} (hb : busy s = true) : hostAccess (.readReg 0x04 .w32) s =
    .next (hostDraws (statusWord s ((Config.freeRead s.readDraws).getLsbD 0)) s) := by
  rw [hostAccess, hostReadReg, if_neg (by decide), if_neg (by simp [hb]), if_neg (by decide),
    if_pos (show (0x04 : BitVec 8).toNat = 0x04 from rfl)]

/-- R391: every other register reads as it is. -/
theorem readReg_busy_other {off : BitVec 8} {s : State} {v : Word} (hb : busy s = true) (ha : off.toNat % 4 = 0)
    (hr : isResult off.toNat = false) (hstatus : off.toNat ≠ 0x04) (hv : regWord s off.toNat = v) :
    hostAccess (.readReg off .w32) s = .next { s with hostData := v } := by
  rw [hostAccess, hostReadReg, aligned_w32 ha, if_neg (by decide), if_neg (by simp [hb]), if_neg (by simp [hr]),
    if_neg hstatus, hv, hostGets]

/-- R74, R86: while BUSY a byte of OUT reads as a draw. -/
theorem readOut_busy {a : Nat} {s : State} (hb : busy s = true) (ha : a < s.params.outCap) :
    hostAccess (.readOut a) s = .next { s with
      hostData := ((Config.freeRead s.readDraws).setWidth 8).setWidth 32, readDraws := s.readDraws + 1 } :=
  (portAccess_below ha).trans (by rw [hostReadOut, if_pos hb, hostDraws])

theorem isResult_of_range {n : Nat} (h : n = 0x0C ∨ n = 0x10 ∨ (0x28 ≤ n ∧ n ≤ 0x5C)) : isResult n = true := by
  simp only [isResult, Bool.or_eq_true, Bool.and_eq_true, decide_eq_true_eq]
  omega

theorem isResult_reserved {n : Nat} (h : 0x60 ≤ n) : isResult n = false := by
  simp only [isResult, Bool.or_eq_false_iff, Bool.and_eq_false_iff, decide_eq_false_iff_not]
  omega

/-- Settles O18: by `readReg_idle` at each register, and `statusWord_fields` for STATUS. -/
theorem registerReads : Obligations.RegisterReads := by
  intro s hb
  refine ⟨?status, ?registers, fun off hoff ha => readReg_idle hb ha (regWord_reserved hoff)⟩
  case status =>
    obtain ⟨hstate, hrest⟩ := statusWord_fields s s.regs.openValid
    refine ⟨_, readReg_idle hb rfl rfl, hstate.trans ?_, hrest⟩
    cases s.run <;> rfl
  case registers =>
    simp only [← ctrlWord_eq, List.forall_mem_cons, List.not_mem_nil, false_imp_iff, implies_true, and_true]
    and_intros <;> exact readReg_idle hb rfl rfl

/-- Settles O24: by the equations of a read while BUSY, one for each kind of register. -/
theorem busyReads : Obligations.BusyReads := by
  intro s hb
  refine ⟨?results, ?status, ?registers, fun off hoff ha => ?_, fun a => readOut_busy hb⟩
  case results =>
    intro off ha hoff
    refine readReg_busy_result hb ha (isResult_of_range ?_)
    exact hoff.imp (congrArg BitVec.toNat) (.imp_left (congrArg BitVec.toNat))
  case status =>
    obtain ⟨hstate, hrest⟩ := statusWord_fields s ((Config.freeRead s.readDraws).getLsbD 0)
    obtain ⟨a, hrun⟩ := exists_run_of_busy hb
    exact ⟨_, readReg_busy_status hb, by rw [hstate, hrun]; rfl, hrest⟩
  case registers =>
    simp only [← ctrlWord_eq, List.forall_mem_cons, List.not_mem_nil, false_imp_iff, implies_true, and_true]
    and_intros <;> exact readReg_busy_other hb rfl rfl (by decide) rfl
  · exact readReg_busy_other hb ha (isResult_reserved hoff) (by omega) (regWord_reserved hoff)

/-! ### Writes -/

theorem writeReg_idle {off : BitVec 8} {v : Word} {s : State} (hb : busy s = false) (ha : off.toNat % 4 = 0)
    (hstatus : off.toNat ≠ 0x04) (hctrl : off.toNat ≠ 0x08) :
    hostAccess (.writeReg off .w32 v) s = .next (writeIdleReg off.toNat v s) := by
  rw [hostAccess, hostWriteReg, aligned_w32 ha, if_neg (by decide), if_neg hstatus, if_neg hctrl, if_neg (by simp [hb])]

theorem writeReg_busy {off : BitVec 8} {v : Word} {s : State} (hb : busy s = true) (ha : off.toNat % 4 = 0)
    (hstatus : off.toNat ≠ 0x04) (hctrl : off.toNat ≠ 0x08) :
    hostAccess (.writeReg off .w32 v) s = .next (writeBusyReg off.toNat s) := by
  rw [hostAccess, hostWriteReg, aligned_w32 ha, if_neg (by decide), if_neg hstatus, if_neg hctrl, if_pos hb]

/-- U9, U12: a read-only register or a reserved offset takes no write. -/
theorem writeIdleReg_of_no_write {n : Nat} {v : Word} {s : State} (h : n = 0x0C ∨ n = 0x10 ∨ 0x28 ≤ n) :
    writeIdleReg n v s = s := by
  unfold writeIdleReg
  split
  case h_7 => rfl
  all_goals omega

theorem writeBusyReg_of_no_write {n : Nat} {s : State} (h : n = 0x0C ∨ n = 0x10 ∨ 0x28 ≤ n) :
    writeBusyReg n s = s := by
  have hinput : isInput n = false := by
    simp only [isInput, Bool.or_eq_false_iff, Bool.and_eq_false_iff, decide_eq_false_iff_not]
    omega
  rw [writeBusyReg, hinput, if_neg (by decide)]

theorem writeReg_of_no_write {off : BitVec 8} {v : Word} {s : State} (ha : off.toNat % 4 = 0)
    (hoff : off = 0x0C ∨ off = 0x10 ∨ 0x28 ≤ off.toNat) : hostAccess (.writeReg off .w32 v) s = .next s := by
  have hn := toNat_of_no_write hoff
  cases hb : busy s with
  | false => rw [writeReg_idle hb ha (by omega) (by omega), writeIdleReg_of_no_write hn]
  | true => rw [writeReg_busy hb ha (by omega) (by omega), writeBusyReg_of_no_write hn]

theorem writeIn_busy {a : Nat} {v : Byte} {s : State} (hb : busy s = true) (ha : a < s.params.inCap) :
    hostAccess (.writeIn a v) s = .next (markIgnored s) :=
  (portAccess_below ha).trans (by rw [hostWriteIn, if_pos hb])

theorem writeName_busy {a : Nat} {v : Byte} {s : State} (hb : busy s = true) (ha : a < s.params.nameCap) :
    hostAccess (.writeName a v) s = .next (markIgnored s) :=
  (portAccess_below ha).trans (by rw [hostWriteName, if_pos hb])

/-- R390, U11: while BUSY a write to a register that the host sets is dropped. -/
theorem writeReg_busy_input {v : Word} {s : State} (hb : busy s = true) :
    ∀ off ∈ ([0x00, 0x14, 0x18, 0x1C, 0x20, 0x24] : List (BitVec 8)),
      hostAccess (.writeReg off .w32 v) s = .next (markIgnored s) := by
  simp only [List.forall_mem_cons, List.not_mem_nil, false_imp_iff, implies_true, and_true]
  and_intros <;> exact writeReg_busy hb rfl (by decide) (by decide)

/-- Settles O19: STATUS and CTRL by evaluation, the others by `writeReg_idle` and `writeReg_of_no_write`. -/
theorem registerWrites : Obligations.RegisterWrites := fun _ _ =>
  ⟨rfl, rfl, fun hb =>
    ⟨writeReg_idle hb rfl (by decide) (by decide), writeReg_idle hb rfl (by decide) (by decide),
      writeReg_idle hb rfl (by decide) (by decide), writeReg_idle hb rfl (by decide) (by decide),
      fun _ => writeReg_of_no_write⟩⟩

/-- Settles O21: by the equations of a write while BUSY. -/
theorem busyWritesDropped : Obligations.BusyWritesDropped := by
  intro op s hb
  refine ⟨?_, fun off v hop ha hoff => hop ▸ writeReg_of_no_write ha hoff⟩
  rintro (⟨off, v, rfl, hoff⟩ | ⟨a, v, rfl, ha⟩ | ⟨a, v, rfl, ha⟩)
  · exact writeReg_busy_input hb off hoff
  · exact writeIn_busy hb ha
  · exact writeName_busy hb ha

end Sys2Proof.Machine
end

section
/-! PROOFS. Decoding and encoding agree (R100, R103, R106, R108, R112, R116-R118): an instruction is what its number
decodes to, and a number that decodes is the number of its instruction. -/

namespace Sys2Proof.Machine

/-- Settles O1: by the laws of the family RoundTrip for the constructors with an operand; the others are one number
each. -/
theorem roundTrip : Obligations.RoundTrip := fun i => by
  cases i with
  | storedBlock final => exact Laws.RoundTrip.storedBlock final
  | fixedBlock final => exact Laws.RoundTrip.fixedBlock final
  | dynamicBlock final => exact Laws.RoundTrip.dynamicBlock final
  | reservedBlock final => exact Laws.RoundTrip.reservedBlock final
  | lit byte => exact Laws.RoundTrip.lit byte
  | clLen length => exact Laws.RoundTrip.clLen length
  | _ => exact fun _ => rfl

/-! ### What decodes is encoded by its number -/

/-- `i` is well formed, and `encode` names it by the number `v` of the format `f`. -/
def Encodes (f : Format) (v : Nat) (i : Instr) : Prop := i.wf = true ∧ encode i = (f, v)

/-- R100: a command word is read through bits 3:0. -/
theorem decodeCmd_congr {w w' : Word} (h : w.extractLsb' 0 4 = w'.extractLsb' 0 4) : decodeCmd w = decodeCmd w' := by
  rw [decodeCmd, h, decodeCmd]

/-- R100: the sixteen values of OP. -/
theorem decodeCmd_op_encodes : ∀ op : Fin 16, Encodes .cmd op (decodeCmd (BitVec.ofNat 32 op)) := by
  unfold Encodes
  decide

/-- R100, R101: of a command word OP is left. -/
theorem decodeCmd_encodes (w : Word) : Encodes .cmd (w.toNat % 16) (decodeCmd w) := by
  have hlt : w.toNat % 16 < 16 := Nat.mod_lt _ (by decide)
  have hop : w.extractLsb' 0 4 = (BitVec.ofNat 32 (w.toNat % 16)).extractLsb' 0 4 := by
    apply BitVec.eq_of_toNat_eq
    rw [BitVec.extractLsb'_toNat, BitVec.extractLsb'_toNat, BitVec.toNat_ofNat, Nat.shiftRight_zero,
      Nat.shiftRight_zero]
    omega
  rw [decodeCmd_congr hop]
  exact decodeCmd_op_encodes ⟨_, hlt⟩

/-- R103: all eight headers. -/
theorem decodeBlockHdr_encodes : ∀ v : Fin 8, Encodes .blockHdr v (decodeBlockHdr (BitVec.ofNat 3 v)) := by
  unfold Encodes
  decide

/-- R107: the 29 length symbols, by length index. -/
theorem lengthInstrs_encodes : ∀ k : Fin lengthInstrs.length, Encodes .litLen (257 + k) lengthInstrs[k] := by
  unfold Encodes
  decide

/-- R108: the 32 distance symbols. -/
theorem distInstrs_encodes : ∀ k : Fin distInstrs.length, Encodes .dist k distInstrs[k] := by
  unfold Encodes
  decide

/-- R106. -/
theorem decodeLitLen_encodes {v : Nat} {i : Instr} (h : decodeLitLen v = .ok i) : Encodes .litLen v i := by
  unfold decodeLitLen at h
  split at h
  · next hlit => cases h; exact ⟨decide_eq_true hlit, rfl⟩
  split at h
  · next heob => cases h; subst heob; exact ⟨rfl, rfl⟩
  split at h
  · next h286 => cases h; subst h286; exact ⟨rfl, rfl⟩
  split at h
  · next h287 => cases h; subst h287; exact ⟨rfl, rfl⟩
  split at h
  · next x hx =>
    cases h
    obtain ⟨hk, rfl⟩ := List.getElem?_eq_some_iff.mp hx
    have hsym := lengthInstrs_encodes ⟨_, hk⟩
    rwa [show 257 + (v - 257) = v by omega] at hsym
  · cases h

/-- R108. -/
theorem decodeDist_encodes {v : Nat} {i : Instr} (h : decodeDist v = .ok i) : Encodes .dist v i := by
  unfold decodeDist at h
  split at h
  · next x hx =>
    cases h
    obtain ⟨hk, rfl⟩ := List.getElem?_eq_some_iff.mp hx
    exact distInstrs_encodes ⟨_, hk⟩
  · cases h

/-- R112. -/
theorem decodeCodeLen_encodes {v : Nat} {i : Instr} (h : decodeCodeLen v = .ok i) : Encodes .codeLen v i := by
  unfold decodeCodeLen at h
  split at h
  · next hlen => cases h; exact ⟨decide_eq_true hlen, rfl⟩
  split at h
  · next h16 => cases h; subst h16; exact ⟨rfl, rfl⟩
  split at h
  · next h17 => cases h; subst h17; exact ⟨rfl, rfl⟩
  split at h
  · next h18 => cases h; subst h18; exact ⟨rfl, rfl⟩
  · cases h

/-- R116-R118. -/
theorem decodeRecord_encodes {v : Nat} {i : Instr} (h : decodeRecord v = .ok i) : Encodes .record v i := by
  unfold decodeRecord at h
  split at h
  · next heocd => cases h; subst heocd; exact ⟨rfl, rfl⟩
  split at h
  · next hcdh => cases h; subst hcdh; exact ⟨rfl, rfl⟩
  split at h
  · next hlfh => cases h; subst hlfh; exact ⟨rfl, rfl⟩
  · cases h

/-- R100, R103, R106, R108, R112, R116-R118: of the six formats only a command word does not give all of itself. -/
theorem decode_encodes {f : Format} {v : Nat} {i : Instr} (h : decode f v = .ok i) :
    (f = .cmd ∧ v < 2 ^ 32 ∧ Encodes f (v % 16) i) ∨ (f ≠ .cmd ∧ Encodes f v i) := by
  unfold decode at h
  split at h
  · split at h
    · next hv =>
      cases h
      have hword := decodeCmd_encodes (BitVec.ofNat 32 v)
      rw [BitVec.toNat_ofNat, Nat.mod_eq_of_lt hv] at hword
      exact .inl ⟨rfl, hv, hword⟩
    · cases h
  · split at h
    · next hv =>
      cases h
      exact .inr ⟨by decide, decodeBlockHdr_encodes ⟨v, hv⟩⟩
    · cases h
  · exact .inr ⟨by decide, decodeLitLen_encodes h⟩
  · exact .inr ⟨by decide, decodeDist_encodes h⟩
  · exact .inr ⟨by decide, decodeCodeLen_encodes h⟩
  · exact .inr ⟨by decide, decodeRecord_encodes h⟩

/-- Settles O2: by `decode_encodes`. -/
theorem decodeSound : Obligations.DecodeSound := by
  intro f v i h
  rcases decode_encodes h with ⟨hf, hv, hwf, he⟩ | ⟨hf, hwf, he⟩ <;> rw [he]
  · exact ⟨hwf, rfl, .inl ⟨hf, hv, rfl⟩⟩
  · exact ⟨hwf, rfl, .inr ⟨hf, rfl⟩⟩

/-- Settles O3: word by word. -/
theorem specWordsDecode : Obligations.SpecWordsDecode :=
  ⟨rfl, rfl, rfl, rfl, rfl, rfl, rfl, rfl, rfl, rfl, rfl, rfl, rfl, rfl, rfl, rfl, rfl, rfl, rfl,
    rfl, rfl, rfl, rfl, rfl, rfl, rfl, rfl⟩

end Sys2Proof.Machine
end

section
/-! PROOFS. The bits of a command word that count (R21, R100): decoding and acceptance read it through bits 3:0. -/

namespace Sys2Proof.Machine

theorem decode_cmd_toNat (w : Word) : decode .cmd w.toNat = .ok (decodeCmd w) := by
  rw [decode, if_pos w.isLt, BitVec.ofNat_toNat, BitVec.setWidth_eq]

theorem acceptCommand_congr {w w' : Word} (h : w.extractLsb' 0 4 = w'.extractLsb' 0 4) (s : State) :
    acceptCommand w s = acceptCommand w' s := by
  rw [acceptCommand, acceptCommand, beginCommand, beginCommand, h]

/-- R21: CMD.OP after an acceptance. -/
theorem acceptCommand_cmdOp (w : Word) (s : State) : (acceptCommand w s).regs.cmdOp = w.extractLsb' 0 4 := by
  by_cases hop : w.extractLsb' 0 4 = 1
  · rw [(acceptCommand_open w s hop).1, hop]
  · rw [(acceptCommand_other w s hop).1]

theorem setWidth_extract_op (w : Word) : (w.extractLsb' 0 4).setWidth 32 = w &&& 0xF := by
  apply BitVec.eq_of_toNat_eq
  have hmask : w.toNat &&& 15 = w.toNat % 16 := Nat.and_two_pow_sub_one_eq_mod w.toNat 4
  rw [BitVec.toNat_and, BitVec.toNat_setWidth, BitVec.extractLsb'_toNat, Nat.shiftRight_zero]
  change w.toNat % 2 ^ 4 % 2 ^ 32 = w.toNat &&& 15
  omega

/-- Settles O4: decoding and acceptance read the word through its bits 3:0, which CMD keeps. -/
theorem commandReservedBits : Obligations.CommandReservedBits := fun w w' s h =>
  ⟨by rw [decode_cmd_toNat, decode_cmd_toNat, decodeCmd_congr h], acceptCommand_congr h s,
    by rw [cmdWord, acceptCommand_cmdOp, setWidth_extract_op]⟩

end Sys2Proof.Machine
end

section
/-! PROOFS. The pseudo-instructions of R121: the bases and the extra bits of an alphabet cover its values without a
gap. -/

namespace Sys2Proof.Machine

theorem largestBase_eq_none {base : List Nat} {v n : Nat} (h : ∀ i, i < n → v < base.getD i 0) :
    largestBase base v n = none := by
  induction n with
  | zero => rfl
  | succ n ih =>
    rw [largestBase, if_neg (Nat.not_le.mpr (h n (Nat.lt_succ_self n)))]
    exact ih fun i hi => h i (Nat.lt_succ_of_lt hi)

/-- R121: where the extra bits of each index reach the next base, and those of the last one every value up to `top`,
the value is its base plus a field that fits; from the last base on the index is the last. -/
theorem exists_largestBase_fits {base extra : List Nat} {n top v : Nat}
    (hgap : ∀ i, i < n → base.getD (i + 1) 0 ≤ base.getD i 0 + 2 ^ extra.getD i 0)
    (htop : top < base.getD n 0 + 2 ^ extra.getD n 0) (h0 : base.getD 0 0 ≤ v) (hv : v ≤ top) :
    ∃ i, i ≤ n ∧ largestBase base v (n + 1) = some i ∧ v - base.getD i 0 < 2 ^ extra.getD i 0 ∧
      base.getD i 0 + (v - base.getD i 0) = v ∧ (base.getD n 0 ≤ v → i = n) := by
  induction n generalizing top with
  | zero => exact ⟨0, Nat.le_refl 0, if_pos h0, by omega, by omega, fun _ => rfl⟩
  | succ n ih =>
    by_cases hn : base.getD (n + 1) 0 ≤ v
    · exact ⟨n + 1, Nat.le_refl _, if_pos hn, by omega, by omega, fun _ => rfl⟩
    · have hnext := hgap n (Nat.lt_succ_self n)
      obtain ⟨i, hi, he, hfits, hsum, -⟩ :=
        ih (top := v) (fun i hi => hgap i (Nat.lt_succ_of_lt hi)) (by omega) (Nat.le_refl v)
      exact ⟨i, Nat.le_succ_of_le hi, by rw [largestBase, if_neg hn, he], hfits, hsum, fun h => absurd h hn⟩

/-- R121: the length symbols cover 3..258. -/
theorem exists_lengthElement {length : Nat} (h3 : 3 ≤ length) (h258 : length ≤ 258) :
    ∃ i, i ≤ 28 ∧ lengthElement length = some { symbol := 257 + i, extra := length - lenBase.getD i 0 } ∧
      length - lenBase.getD i 0 < 2 ^ lenExtra.getD i 0 ∧ lenBase.getD i 0 + (length - lenBase.getD i 0) = length ∧
      (length = 258 → i = 28) := by
  obtain ⟨i, hi, he, hfits, hsum, hlast⟩ :=
    exists_largestBase_fits (base := lenBase) (extra := lenExtra) (n := 28) (top := 258) (by decide) (by decide) h3 h258
  exact ⟨i, hi, by rw [lengthElement, if_neg (Nat.not_lt.mpr h258), he]; rfl, hfits, hsum,
    fun h => hlast (Nat.le_of_eq h.symm)⟩

/-- R121: the distance symbols 0..29 cover 1..32768. -/
theorem exists_distElement {dist : Nat} (h1 : 1 ≤ dist) (hmax : dist ≤ 32768) :
    ∃ i, i ≤ 29 ∧ distElement dist = some { symbol := i, extra := dist - distBase.getD i 0 } ∧
      dist - distBase.getD i 0 < 2 ^ distExtra.getD i 0 ∧ distBase.getD i 0 + (dist - distBase.getD i 0) = dist := by
  obtain ⟨i, hi, he, hfits, hsum, -⟩ :=
    exists_largestBase_fits (base := distBase) (extra := distExtra) (n := 29) (top := 32768) (by decide) (by decide) h1
      hmax
  exact ⟨i, hi, by rw [distElement, if_neg (Nat.not_lt.mpr hmax), he]; rfl, hfits, hsum⟩

/-- R121: no length symbol stands for a length outside 3..258. -/
theorem lengthElement_eq_none {length : Nat} (h : length < 3 ∨ 258 < length) : lengthElement length = none := by
  unfold lengthElement
  split
  · rfl
  · rw [largestBase_eq_none fun i hi => ?_]
    · rfl
    · have hbase : ∀ i, i < 29 → 3 ≤ lenBase.getD i 0 := by decide
      have := hbase i hi
      omega

/-- R121: no distance symbol stands for a distance outside 1..32768. -/
theorem distElement_eq_none {dist : Nat} (h : dist = 0 ∨ 32768 < dist) : distElement dist = none := by
  unfold distElement
  split
  · rfl
  · rw [largestBase_eq_none fun i hi => ?_]
    · rfl
    · have hbase : ∀ i, i < 30 → 1 ≤ distBase.getD i 0 := by decide
      have := hbase i hi
      omega

/-- Settles O5: a match by `exists_lengthElement` and `exists_distElement`, the runs by their ranges. -/
theorem pseudoInstructions : Obligations.PseudoInstructions := by
  refine ⟨fun length dist h3 h258 h1 hmax => ?_, fun length dist h => ?_, fun n h3 h10 => ?_, fun n h11 h138 => ?_,
    fun n h3 h6 => ?_⟩
  · obtain ⟨i, hi, hl, hfits, hsum, hlast⟩ := exists_lengthElement h3 h258
    obtain ⟨d, hd, hdist, hdfits, hdsum⟩ := exists_distElement h1 hmax
    refine ⟨_, _, by rw [matchElements, hl, hdist], Nat.le_add_right _ _, Nat.add_le_add_left hi 257, ?_⟩
    simp only [Nat.add_sub_cancel_left]
    exact ⟨hfits, hsum, fun h => by rw [hlast h], hd, hdfits, hdsum⟩
  · unfold matchElements
    rcases (by omega : (length < 3 ∨ 258 < length) ∨ dist = 0 ∨ 32768 < dist) with hl | hd
    · rw [lengthElement_eq_none hl]
    · rw [distElement_eq_none hd]
      cases lengthElement length <;> rfl
  · exact if_pos ⟨h3, h10⟩
  · rw [zerosElement, if_neg (by omega), if_pos ⟨h11, h138⟩]
  · exact if_pos ⟨h3, h6⟩

end Sys2Proof.Machine
end

section
/-! PROOFS. The length symbols (R107, R207): what each of them does, by length index. -/

namespace Sys2Proof.Machine

/-- R207: a length symbol whose extra bits lie inside the region. -/
theorem exec_length_ok {i : Nat} {x : Instr} (hx : lengthInstrs[i]? = some x) {s : State}
    (hr : lenExtra.getD i 0 = 0 ∨ s.inf.bitpos + lenExtra.getD i 0 ≤ 8 * s.inf.regionEnd) :
    exec x s = .next (withMatchLen i s) := by
  rcases matchLength_cases i s with ⟨-, e⟩ | ⟨⟨hne, hover⟩, -⟩
  · rw [exec_lengthInstr hx, e, settle_ok]
  · omega

/-- R152, R207: a length symbol whose extra bits do not. -/
theorem exec_length_overrun {i : Nat} {x : Instr} (hx : lengthInstrs[i]? = some x) {s : State}
    (hne : lenExtra.getD i 0 ≠ 0) (hover : 8 * s.inf.regionEnd < s.inf.bitpos + lenExtra.getD i 0) :
    exec x s = .next (failInflate .inputOverrun s) := by
  rcases matchLength_cases i s with ⟨hr, -⟩ | ⟨-, e⟩
  · omega
  · rw [exec_lengthInstr hx, e, settle_error]

/-- R107: the row's instruction, symbol, number of extra bits and base are those of one length index. -/
def IsLengthRow (row : Instr × Nat × Nat × Nat) : Prop :=
  257 ≤ row.2.1 ∧ lengthInstrs[row.2.1 - 257]? = some row.1 ∧ lenExtra.getD (row.2.1 - 257) 0 = row.2.2.1 ∧
    lenBase.getD (row.2.1 - 257) 0 = row.2.2.2

/-- Settles O45: each row is one length index, whose symbol decodes by `decodeLitLen_length`
and runs by `exec_length_ok` or `exec_length_overrun`. -/
theorem lengthSymbols : Obligations.LengthSymbols := by
  intro row hrow
  have hindex : IsLengthRow row := by
    revert row
    unfold IsLengthRow
    decide
  obtain ⟨hsym, hx, hextra, hbase⟩ := hindex
  obtain ⟨hi, -⟩ := List.getElem?_eq_some_iff.mp hx
  obtain ⟨y, hy, hdec⟩ := decodeLitLen_length hi
  obtain rfl : row.1 = y := Option.some.inj (hx.symm.trans hy)
  rw [Nat.add_sub_cancel' hsym] at hdec
  rw [← hextra, ← hbase]
  exact ⟨hdec, fun s => ⟨exec_length_ok hx, exec_length_overrun hx⟩⟩

end Sys2Proof.Machine
end

section
/-! PROOFS. The canonical codeword of a used symbol decodes to it (R170, R175, R177): the symbol's place in the built
tree, the bits the decoder gathers, and the loop over them. -/

namespace Sys2Proof.Machine

/-! ### The place of a symbol (R171) -/

theorem length_symbolsOfLength (lens : List Nat) (l : Nat) : (symbolsOfLength lens l).length = lens.count l := by
  unfold symbolsOfLength
  generalize 0 = k
  induction lens generalizing k with
  | nil => rfl
  | cons x lens ih =>
    rw [List.zipIdx_cons, List.filterMap_cons, List.count_cons]
    by_cases hx : x = l <;> simp [hx, ih]

/-- R171: among the symbols of its length, a symbol stands after the lower ones. -/
theorem symbolsOfLength_getElem? {lens : List Nat} {i l : Nat} (h : lens[i]? = some l) :
    (symbolsOfLength lens l)[(lens.take i).count l]? = some i := by
  suffices hk : ∀ k, ((lens.zipIdx k).filterMap fun (len, i) => if len = l then some i else none)[
      (lens.take i).count l]? = some (i + k) from hk 0
  induction lens generalizing i with
  | nil => simp at h
  | cons x lens ih =>
    intro k
    rw [List.zipIdx_cons, List.filterMap_cons]
    cases i with
    | zero =>
      obtain rfl : x = l := by simpa using h
      simp
    | succ i =>
      have hih := ih (i := i) (by simpa using h) (k + 1)
      rw [List.take_succ_cons, List.count_cons, show i + 1 + k = i + (k + 1) by omega]
      by_cases hx : x = l <;> simpa [hx] using hih

/-- R171: the symbols of length 1..k come first, `ranksUpTo` of them. -/
theorem length_flatMap_symbolsOfLength (lens : List Nat) {k : Nat} (hk : k ≤ 15) :
    ((List.range' 1 k).flatMap (symbolsOfLength lens)).length = ranksUpTo (buildTree lens) k := by
  induction k with
  | zero => rfl
  | succ k ih =>
    rw [List.range'_1_concat, List.flatMap_append, List.length_append, ih (by omega), ranksUpTo,
      buildTree_count lens (by omega) hk]
    simp [length_symbolsOfLength, Nat.add_comm]

/-- R36, R170, R171: the slot of a used symbol is after all the shorter codes and the lower symbols of its length. -/
theorem buildTree_sym {lens : List Nat} {i k : Nat} (h : lens[i]? = some (k + 1)) (hk : k < 15) :
    (buildTree lens).sym.getD (ranksUpTo (buildTree lens) k + (lens.take i).count (k + 1)) none = some i := by
  have hsplit : canonicalOrder lens = (List.range' 1 k).flatMap (symbolsOfLength lens) ++
      (symbolsOfLength lens (k + 1) ++ (List.range' (k + 2) (14 - k)).flatMap (symbolsOfLength lens)) := by
    rw [canonicalOrder, show 15 = k + (14 - k + 1) by omega, ← List.range'_append_1, List.flatMap_append,
      List.range'_succ, List.flatMap_cons, Nat.add_comm 1 k]
  have hget := symbolsOfLength_getElem? h
  obtain ⟨hlt, -⟩ := List.getElem?_eq_some_iff.mp hget
  have hplaced : (canonicalOrder lens)[ranksUpTo (buildTree lens) k + (lens.take i).count (k + 1)]? = some i := by
    rw [hsplit, ← length_flatMap_symbolsOfLength lens (by omega), List.getElem?_append_right (Nat.le_add_right _ _),
      Nat.add_sub_cancel_left, List.getElem?_append_left hlt, hget]
  obtain ⟨hlt', -⟩ := List.getElem?_eq_some_iff.mp hplaced
  have hsym : (buildTree lens).sym = (canonicalOrder lens).map some ++
      List.replicate (288 - (canonicalOrder lens).length) none := rfl
  rw [List.getD_eq_getElem?_getD, hsym, List.getElem?_append_left (by simpa using hlt'), List.getElem?_map, hplaced]
  rfl

/-! ### The codes (R170) -/

/-- R170: the code of a symbol of length `l` is that of the first such symbol plus the number of lower ones. -/
theorem canonicalCode_of_length {lens : List Nat} {i l : Nat} (h : lens[i]? = some l) :
    canonicalCode lens i = firstCode lens l + (lens.take i).count l := by
  rw [canonicalCode, List.getD_eq_getElem?_getD, h, Option.getD_some]

/-- R170: a longer code continues after all the shorter ones. -/
theorem firstCode_ge (lens : List Nat) (m d : Nat) :
    2 ^ (d + 1) * (firstCode lens (m + 1) + lens.count (m + 1)) ≤ firstCode lens (m + 1 + (d + 1)) := by
  induction d with
  | zero => exact Nat.le_refl _
  | succ d ih =>
    calc 2 ^ (d + 2) * (firstCode lens (m + 1) + lens.count (m + 1))
        = 2 * (2 ^ (d + 1) * (firstCode lens (m + 1) + lens.count (m + 1))) := by
          rw [Nat.pow_succ 2 (d + 1), Nat.mul_comm (2 ^ (d + 1)) 2, Nat.mul_assoc]
      _ ≤ 2 * (firstCode lens (m + 1 + (d + 1)) + lens.count (m + 1 + (d + 1))) := by omega
      _ = firstCode lens (m + 1 + (d + 1 + 1)) := rfl

/-- R79: the bits of a code that the stream has, most significant first. -/
theorem bitAt_of_streamHas {s : State} {p n c k : Nat} (h : StreamHas s p (codeBits n c)) (hk : k < n) :
    bitAt s (p + k) = (c.testBit (n - 1 - k)).toNat := by
  induction n generalizing p k with
  | zero => omega
  | succ n ih =>
    obtain ⟨h0, hrest⟩ := h
    cases k with
    | zero => exact h0
    | succ k =>
      rw [show p + (k + 1) = p + 1 + k by omega, show n + 1 - 1 - (k + 1) = n - 1 - k by omega]
      exact ih hrest (by omega)

/-- R79: the code whose bits the stream has is what the decoder gathers, bit by bit. -/
theorem codeField_of_streamHas {s : State} {p n c : Nat} (h : StreamHas s p (codeBits n c)) (hc : c < 2 ^ n) {m : Nat}
    (hm : m ≤ n) : codeField s p m = c / 2 ^ (n - m) := by
  induction m with
  | zero => rw [codeField, Nat.sub_zero, Nat.div_eq_of_lt hc]
  | succ m ih =>
    have hdiv : c / 2 ^ (n - m) = c / 2 ^ (n - 1 - m) / 2 := by
      rw [show n - m = n - 1 - m + 1 by omega, Nat.pow_succ, Nat.div_div_eq_div_mul]
    rw [codeField, ih (by omega), bitAt_of_streamHas h (by omega), Nat.toNat_testBit, hdiv,
      show n - (m + 1) = n - 1 - m by omega]
    omega

/-- R170, R175: while only a part of a code of `l` bits has been gathered, `cur` is not negative. -/
theorem curAfter_nonneg_of_code {lens : List Nat} {s : State} {p l c m : Nat} (h : StreamHas s p (codeBits l c))
    (hc : c < 2 ^ l) (hfirst : firstCode lens l ≤ c) (hm : m < l) : 0 ≤ curAfter lens s p m := by
  cases m with
  | zero => exact Int.le_refl 0
  | succ m =>
    obtain ⟨d, rfl⟩ : ∃ d, l = m + 1 + (d + 1) := ⟨l - (m + 2), by omega⟩
    have hge : firstCode lens (m + 1) + lens.count (m + 1) ≤ c / 2 ^ (d + 1) :=
      (Nat.le_div_iff_mul_le (Nat.two_pow_pos _)).mpr
        (by rw [Nat.mul_comm]; exact Nat.le_trans (firstCode_ge lens m d) hfirst)
    rw [curAfter_succ, codeField_of_streamHas h hc (by omega), Nat.add_sub_cancel_left]
    omega

/-! ### The decoder (R175, R177) -/

/-- R175: the loop reads on while `cur` is not negative, and answers from the slot it has counted when it is. -/
theorem decodeSymLoop_stops {lens : List Nat} {p l len fuel : Nat} {s : State}
    (hcur : ∀ m, m < l → 0 ≤ curAfter lens s p m) (hneg : curAfter lens s p l < 0) (hl : l ≤ 15)
    (hr : p + l ≤ 8 * s.inf.regionEnd) (hlen : len < l) (hf : l ≤ len + fuel) :
    decodeSymLoop (buildTree lens) fuel len (ranksUpTo (buildTree lens) len) (curAfter lens s p len)
        (setBitpos (p + len) s) =
      .ok ((buildTree lens).sym.getD ((ranksUpTo (buildTree lens) l : Int) + curAfter lens s p l).toNat none,
        setBitpos (p + l) s) := by
  induction fuel generalizing len with
  | zero => omega
  | succ fuel ih =>
    have hbit : readBit (setBitpos (p + len) s) = .ok (bitAt s (p + len), setBitpos (p + (len + 1)) s) :=
      if_neg (by simp only [setBitpos_inf]; omega)
    have hcount := buildTree_count lens (l := len + 1) (by omega) (by omega)
    have hranks : ranksUpTo (buildTree lens) (len + 1) = ranksUpTo (buildTree lens) len + lens.count (len + 1) := by
      rw [ranksUpTo, hcount]
    simp only [decodeSymLoop, bind, Except.bind, hbit, hcount, curAfter_step, ← Int.natCast_add, ← hranks]
    rcases Nat.lt_or_ge (len + 1) l with hlt | hge
    · rw [if_neg (Int.not_lt.mpr (hcur _ hlt))]
      exact ih hlt (by omega)
    · obtain rfl : l = len + 1 := by omega
      rw [if_pos hneg]

/-- R170, R175, R177: a canonical code that fits its length decodes to its symbol, and is consumed exactly. -/
theorem decodeSym_canonicalCode {lens : List Nat} {i l : Nat} {s : State} (hi : lens[i]? = some l) (h1 : 1 ≤ l)
    (hl : l ≤ 15) (hc : canonicalCode lens i < 2 ^ l)
    (hbits : StreamHas s s.inf.bitpos (codeBits l (canonicalCode lens i)))
    (hr : s.inf.bitpos + l ≤ 8 * s.inf.regionEnd) :
    decodeSym (buildTree lens) s = .ok (some i, setBitpos (s.inf.bitpos + l) s) := by
  obtain ⟨k, rfl⟩ : ∃ k, l = k + 1 := ⟨l - 1, by omega⟩
  have hcode := canonicalCode_of_length hi
  have hrank : (lens.take i).count (k + 1) < lens.count (k + 1) := by
    rw [← length_symbolsOfLength lens]
    exact (List.getElem?_eq_some_iff.mp (symbolsOfLength_getElem? hi)).1
  have hcur : curAfter lens s s.inf.bitpos (k + 1) =
      ((lens.take i).count (k + 1) : Int) - (lens.count (k + 1) : Int) := by
    rw [curAfter_succ, codeField_of_streamHas hbits hc (Nat.le_refl _), Nat.sub_self, Nat.pow_zero, Nat.div_one, hcode]
    omega
  have hslot : ((ranksUpTo (buildTree lens) (k + 1) : Int) + curAfter lens s s.inf.bitpos (k + 1)).toNat =
      ranksUpTo (buildTree lens) k + (lens.take i).count (k + 1) := by
    rw [hcur, ranksUpTo, buildTree_count lens h1 hl]
    omega
  have hloop := decodeSymLoop_stops (fuel := 15) (len := 0)
    (fun m hm => curAfter_nonneg_of_code hbits hc (hcode ▸ Nat.le_add_right _ _) hm) (by omega) hl hr h1 (by omega)
  rw [hslot, buildTree_sym hi (by omega)] at hloop
  exact hloop

end Sys2Proof.Machine
end

section
/-! PROOFS. The fixed codes of R109 are the canonical codes (R170) of the lengths of R172. -/

namespace Sys2Proof.Machine

theorem length_codeBits (n code : Nat) : (codeBits n code).length = n := by
  induction n with
  | zero => rfl
  | succ n ih => rw [codeBits, List.length_cons, ih]

/-- R170: the `n` symbols from `start` on, all of length `l`, have the consecutive codes from `first` on, the first
code of that length that no symbol before `start` has. -/
theorem canonicalCode_run {lens : List Nat} {sym : Nat} (start n l first : Nat)
    (hrun : (lens.drop start).take n = List.replicate n l)
    (hfirst : firstCode lens l + (lens.take start).count l = first) (hlo : start ≤ sym) (hhi : sym < start + n) :
    lens[sym]? = some l ∧ canonicalCode lens sym = first + (sym - start) := by
  obtain ⟨j, rfl⟩ := Nat.exists_eq_add_of_le hlo
  have hj : j < n := Nat.lt_of_add_lt_add_left hhi
  have hmin : min j n = j := Nat.min_eq_left (Nat.le_of_lt hj)
  have hget : lens[start + j]? = some l := by
    rw [← List.getElem?_drop, ← List.getElem?_take_of_lt hj, hrun, List.getElem?_replicate_of_lt hj]
  have htake : lens.take (start + j) = lens.take start ++ List.replicate j l := by
    rw [List.take_add, ← hmin, ← List.take_take, hrun, List.take_replicate, hmin]
  refine ⟨hget, ?_⟩
  rw [canonicalCode_of_length hget, htake, List.count_append, List.count_replicate_self, ← hfirst,
    Nat.add_sub_cancel_left, Nat.add_assoc]

/-- R172: `LT_FIXED` is the tree of the fixed literal/length code lengths. -/
theorem ltFixed_eq_buildTree : ltFixed = buildTree fixedLitLenLengths := by decide +kernel

/-- R172: `DT_FIXED` is the tree of the fixed distance code lengths. -/
theorem dtFixed_eq_buildTree : dtFixed = buildTree fixedDistLengths := by decide +kernel

/-- R109, R170, R172: each of the four ranges of R109's table is a run of the lengths of R172, and its codes are the
canonical ones. -/
theorem fixedLitLenCode_canonical {sym : Nat} (h : sym < 288) : ∃ l, fixedLitLenLengths[sym]? = some l ∧ 1 ≤ l ∧
    l ≤ 15 ∧ canonicalCode fixedLitLenLengths sym < 2 ^ l ∧
    fixedLitLenCode sym = codeBits l (canonicalCode fixedLitLenLengths sym) := by
  by_cases h1 : sym < 144
  · obtain ⟨hl, hc⟩ := canonicalCode_run 0 144 8 0x30 (lens := fixedLitLenLengths) (sym := sym)
      (by decide +kernel) (by decide +kernel) (by omega) (by omega)
    exact ⟨8, hl, by decide, by decide, by omega, by rw [fixedLitLenCode, if_pos h1, hc, Nat.sub_zero]⟩
  by_cases h2 : sym < 256
  · obtain ⟨hl, hc⟩ := canonicalCode_run 144 112 9 0x190 (lens := fixedLitLenLengths) (sym := sym)
      (by decide +kernel) (by decide +kernel) (by omega) (by omega)
    exact ⟨9, hl, by decide, by decide, by omega, by rw [fixedLitLenCode, if_neg h1, if_pos h2, hc]⟩
  by_cases h3 : sym < 280
  · obtain ⟨hl, hc⟩ := canonicalCode_run 256 24 7 0 (lens := fixedLitLenLengths) (sym := sym)
      (by decide +kernel) (by decide +kernel) (by omega) (by omega)
    exact ⟨7, hl, by decide, by decide, by omega, by
      rw [fixedLitLenCode, if_neg h1, if_neg h2, if_pos h3, hc, Nat.zero_add]⟩
  · obtain ⟨hl, hc⟩ := canonicalCode_run 280 8 8 0xC0 (lens := fixedLitLenLengths) (sym := sym)
      (by decide +kernel) (by decide +kernel) (by omega) (by omega)
    exact ⟨8, hl, by decide, by decide, by omega, by rw [fixedLitLenCode, if_neg h1, if_neg h2, if_neg h3, hc]⟩

/-- R109, R170, R172: the 32 distance symbols are one run, so that a code is the symbol's own number. -/
theorem fixedDistCode_canonical {sym : Nat} (h : sym < 32) :
    fixedDistLengths[sym]? = some 5 ∧ canonicalCode fixedDistLengths sym = sym := by
  simpa using canonicalCode_run 0 32 5 0 (lens := fixedDistLengths) (by decide) (by decide) (Nat.zero_le sym) (by omega)

/-- Settles O12: by `decodeSym_canonicalCode`, as every code of R109 is the canonical code of its symbol. -/
theorem fixedCodesDecode : Obligations.FixedCodesDecode := by
  refine ⟨fun sym s hsym hbits hr => ?_, fun sym s hsym hbits hr => ?_⟩
  · obtain ⟨l, hl, h1, h15, hfit, hcode⟩ := fixedLitLenCode_canonical hsym
    rw [hcode] at hbits hr ⊢
    rw [length_codeBits] at hr ⊢
    rw [ltFixed_eq_buildTree]
    exact decodeSym_canonicalCode hl h1 h15 hfit hbits hr
  · obtain ⟨hl, hcode⟩ := fixedDistCode_canonical hsym
    rw [dtFixed_eq_buildTree]
    exact decodeSym_canonicalCode hl (by decide) (by decide) (by omega) (hcode.symm ▸ hbits) hr

end Sys2Proof.Machine
end

section
/-! PROOFS. The bit reader against its rules (R150-R153): one bit and one field of the stream as bits of IN's bytes, the
two ends of ReadBit, and the byte boundary AlignToByte moves to. -/

namespace Sys2Proof.Machine

/-- R150: bit `p` of the stream is bit `p mod 8` of byte `p div 8` of IN. -/
theorem bitAt_eq_toNat_getLsbD (s : State) (p : Nat) :
    bitAt s p = ((inByte s (p / 8)).getLsbD (p % 8)).toNat := by
  rw [bitAt, BitVec.getLsbD, Nat.toNat_testBit, Nat.shiftRight_eq_div_pow]

/-- R78, R150: bit `k` of the field at `p` is bit `p + k` of the stream. -/
theorem bitField_testBit_eq_getLsbD (s : State) (p : Nat) {n k : Nat} (h : k < n) :
    (bitField s p n).testBit k = (inByte s ((p + k) / 8)).getLsbD ((p + k) % 8) := by
  rw [bitField_testBit s p n k h, bitAt_eq_toNat_getLsbD]
  cases (inByte s ((p + k) / 8)).getLsbD ((p + k) % 8) <;> rfl

/-- R151: ReadBit with a bit left in the region. -/
theorem readBit_ok {s : State} (h : s.inf.bitpos < 8 * s.inf.regionEnd) :
    readBit s = .ok (bitAt s s.inf.bitpos, setBitpos (s.inf.bitpos + 1) s) :=
  if_neg (Nat.not_lt.mpr h)

/-- R151: ReadBit at the end of the region. -/
theorem readBit_overrun {s : State} (h : 8 * s.inf.regionEnd ≤ s.inf.bitpos) :
    readBit s = .error (failInflate .inputOverrun s) := by
  rw [readBit_eq_readBits, readBits_overrun (by decide) (Nat.lt_succ_of_le h)]

/-- R152: ReadBits of a field the region holds, or of none. -/
theorem readBits_ok_of_zero_or_le {n : Nat} {s : State} (h : n = 0 ∨ s.inf.bitpos + n ≤ 8 * s.inf.regionEnd) :
    readBits n s = .ok (bitField s s.inf.bitpos n, setBitpos (s.inf.bitpos + n) s) := by
  rcases h with rfl | h
  · rfl
  · exact readBits_ok h

/-- Settles O6: a bit by `bitAt_eq_toNat_getLsbD`, a field by `bitField_testBit_eq_getLsbD`, and the success and the
failure of each read by its own equation. -/
theorem bitReader : Obligations.BitReader := by
  refine ⟨bitAt_eq_toNat_getLsbD, fun s => ⟨readBit_ok, readBit_overrun⟩, fun n s _ h => ?_,
    fun n s _ => readBits_overrun, fun s => ?_⟩
  · exact ⟨bitField s s.inf.bitpos n, readBits_ok_of_zero_or_le h, bitField_lt s _ n,
      fun k => bitField_testBit_eq_getLsbD s _⟩
  · exact ⟨(s.inf.bitpos + 7) / 8 * 8, rfl, by omega, by omega, by omega⟩

end Sys2Proof.Machine
end

section
/-! PROOFS. Kraft's sum of the lengths up to `k` is where the canonical codes of length `k` end (R170, R173): the codes
of a length set that is not over-subscribed fit their lengths, and those of a complete one leave no bits undecoded. -/

namespace Sys2Proof.Machine

/-! ### Sums over the lengths up to `k` -/

theorem filter_le_cons_of_le {x k : Nat} (lens : List Nat) (h : x ≤ k) :
    (x :: lens).filter (· ≤ k) = x :: lens.filter (· ≤ k) := List.filter_cons_of_pos (decide_eq_true h)

theorem filter_le_cons_of_lt {x k : Nat} (lens : List Nat) (h : k < x) :
    (x :: lens).filter (· ≤ k) = lens.filter (· ≤ k) :=
  List.filter_cons_of_neg fun hle => Nat.not_le.mpr h (of_decide_eq_true hle)

theorem sum_map_filter_le_succ (f : Nat → Nat) (lens : List Nat) (k : Nat) :
    ((lens.filter (· ≤ k + 1)).map f).sum =
      ((lens.filter (· ≤ k)).map f).sum + lens.count (k + 1) * f (k + 1) := by
  induction lens with
  | nil => simp
  | cons x lens ih =>
    rcases Nat.lt_trichotomy x (k + 1) with hx | rfl | hx
    · rw [filter_le_cons_of_le lens (Nat.le_of_lt hx), filter_le_cons_of_le lens (Nat.le_of_lt_succ hx),
        List.map_cons, List.map_cons, List.sum_cons, List.sum_cons, ih, List.count_cons_of_ne (Nat.ne_of_lt hx),
        Nat.add_assoc]
    · rw [filter_le_cons_of_le lens (Nat.le_refl _), filter_le_cons_of_lt lens (Nat.lt_succ_self k), List.map_cons,
        List.sum_cons, ih, List.count_cons_self, Nat.succ_mul]
      omega
    · rw [filter_le_cons_of_lt lens hx, filter_le_cons_of_lt lens (Nat.lt_of_succ_lt hx), ih,
        List.count_cons_of_ne (Nat.ne_of_gt hx)]

theorem sum_map_filter_le_zero (f : Nat → Nat) (lens : List Nat) :
    ((lens.filter (· ≤ 0)).map f).sum = lens.count 0 * f 0 := by
  induction lens with
  | nil => rw [List.filter_nil, List.map_nil, List.sum_nil, List.count_nil, Nat.zero_mul]
  | cons x lens ih =>
    cases x with
    | zero =>
      rw [filter_le_cons_of_le lens (Nat.le_refl 0), List.map_cons, List.sum_cons, ih, List.count_cons_self,
        Nat.succ_mul, Nat.add_comm]
    | succ x =>
      rw [filter_le_cons_of_lt lens (Nat.succ_pos x), ih, List.count_cons_of_ne (Nat.succ_ne_zero x)]

theorem sum_map_filter_le (f : Nat → Nat) (p : Nat → Bool) (lens : List Nat) :
    ((lens.filter p).map f).sum ≤ (lens.map f).sum := by
  induction lens with
  | nil => exact Nat.le_refl 0
  | cons x lens ih =>
    rw [List.map_cons, List.sum_cons]
    cases hx : p x with
    | true =>
      rw [List.filter_cons_of_pos hx, List.map_cons, List.sum_cons]
      exact Nat.add_le_add_left ih _
    | false =>
      rw [List.filter_cons_of_neg (by rw [hx]; exact Bool.false_ne_true)]
      exact Nat.le_trans ih (Nat.le_add_left _ _)

theorem kraftSum_filter_succ (lens : List Nat) (k : Nat) : kraftSum (lens.filter (· ≤ k + 1)) =
    kraftSum (lens.filter (· ≤ k)) + lens.count (k + 1) * 2 ^ (14 - k) := by
  rw [show 14 - k = 15 - (k + 1) by omega]
  exact sum_map_filter_le_succ _ lens k

theorem kraftSum_filter_zero (lens : List Nat) : kraftSum (lens.filter (· ≤ 0)) = 0 :=
  (sum_map_filter_le_zero _ lens).trans (Nat.mul_zero _)

theorem kraftSum_filter_le (lens : List Nat) (k : Nat) : kraftSum (lens.filter (· ≤ k)) ≤ kraftSum lens :=
  sum_map_filter_le _ _ lens

/-- R170, R173: in units of `2^-15`, the codes of length `k + 1` end where Kraft's sum of the lengths up to `k + 1`
stands. -/
theorem kraftSum_eq_end_of_codes (lens : List Nat) {k : Nat} (hk : k < 15) :
    kraftSum (lens.filter (· ≤ k + 1)) = (firstCode lens (k + 1) + lens.count (k + 1)) * 2 ^ (14 - k) := by
  induction k with
  | zero => simp only [kraftSum_filter_succ, kraftSum_filter_zero, firstCode, Nat.zero_add]
  | succ k ih =>
    rw [kraftSum_filter_succ, ih (by omega), show 14 - k = 14 - (k + 1) + 1 by omega, Nat.pow_succ, firstCode,
      Nat.add_mul (2 * _), Nat.mul_comm 2 (firstCode _ _ + _), Nat.mul_assoc, Nat.mul_comm 2 (2 ^ _)]

/-- R170, R173, R177: every code of a length set that is not over-subscribed fits its length. -/
theorem end_of_codes_le {lens : List Nat} (h : kraftSum lens ≤ 2 ^ 15) {k : Nat} (hk : k < 15) :
    firstCode lens (k + 1) + lens.count (k + 1) ≤ 2 ^ (k + 1) := by
  refine Nat.le_of_mul_le_mul_right ?_ (Nat.two_pow_pos (14 - k))
  calc (firstCode lens (k + 1) + lens.count (k + 1)) * 2 ^ (14 - k)
      = kraftSum (lens.filter (· ≤ k + 1)) := (kraftSum_eq_end_of_codes lens hk).symm
    _ ≤ 2 ^ 15 := Nat.le_trans (kraftSum_filter_le lens _) h
    _ = 2 ^ (k + 1) * 2 ^ (14 - k) := by rw [← Nat.pow_add, show k + 1 + (14 - k) = 15 by omega]

/-- R170, R173: the codes of a complete length set end at `2^15`. -/
theorem end_of_codes_of_complete {lens : List Nat} (hle : ∀ x ∈ lens, x ≤ 15) (h : kraftSum lens = 2 ^ 15) :
    firstCode lens 15 + lens.count 15 = 2 ^ 15 := by
  have hend := kraftSum_eq_end_of_codes lens (k := 14) (by decide)
  rw [List.filter_eq_self.mpr fun x hx => decide_eq_true (hle x hx), h, Nat.sub_self, Nat.pow_zero, Nat.mul_one] at hend
  exact hend.symm

theorem count_take_lt {lens : List Nat} {i l : Nat} (h : lens[i]? = some l) : (lens.take i).count l < lens.count l := by
  rw [← length_symbolsOfLength lens]
  exact (List.getElem?_eq_some_iff.mp (symbolsOfLength_getElem? h)).1

theorem canonicalCode_lt {lens : List Nat} {i k : Nat} (h : kraftSum lens ≤ 2 ^ 15) (hi : lens[i]? = some (k + 1))
    (hk : k < 15) : canonicalCode lens i < 2 ^ (k + 1) := by
  have hrank := count_take_lt hi
  have hend := end_of_codes_le h hk
  rw [canonicalCode_of_length hi]
  omega

/-- Settles O10: the code fits its length by `canonicalCode_lt`, and so decodes by `decodeSym_canonicalCode`. -/
theorem canonicalCodewordDecodes : Obligations.CanonicalCodewordDecodes := by
  intro lens i l s hle hkraft hi hl hr hbits
  have hl15 : l ≤ 15 := hle l (List.mem_of_getElem? hi)
  obtain ⟨k, rfl⟩ := Nat.exists_eq_add_one_of_ne_zero hl
  exact decodeSym_canonicalCode hi (Nat.succ_pos k) hl15 (canonicalCode_lt hkraft hi hl15) hbits hr

/-! ### What DecodeSym answers (R176) -/

/-- R36, R170, R171: every slot among those of the length `k + 1` is the place of a symbol of that length. -/
theorem exists_symbol_of_slot {lens : List Nat} {k r : Nat} (hk : k < 15) (hlo : ranksUpTo (buildTree lens) k ≤ r)
    (hhi : r < ranksUpTo (buildTree lens) (k + 1)) :
    ∃ i, lens[i]? = some (k + 1) ∧ r = ranksUpTo (buildTree lens) k + (lens.take i).count (k + 1) := by
  rw [ranksUpTo, buildTree_count lens (Nat.le_add_left 1 k) hk] at hhi
  obtain ⟨i, hi, hrank⟩ := exists_of_rank (lens := lens) (l := k + 1)
    (r := r - ranksUpTo (buildTree lens) k) (by omega)
  exact ⟨i, hi, by omega⟩

theorem decodeSym_placed {lens : List Nat} {s t : State} {o : Option Nat}
    (h : decodeSym (buildTree lens) s = .ok (o, t)) :
    ∃ i l, o = some i ∧ lens[i]? = some l ∧ 1 ≤ l ∧ l ≤ 15 ∧ s.inf.bitpos + l ≤ 8 * s.inf.regionEnd ∧
      t = setBitpos (s.inf.bitpos + l) s := by
  obtain ⟨l, r, hl0, hl, hlo, hhi, rfl, rfl, hr⟩ := decodeSym_eq_ok h
  obtain ⟨k, rfl⟩ := Nat.exists_eq_add_one_of_ne_zero (Nat.ne_of_gt hl0)
  obtain ⟨i, hi, rfl⟩ := exists_symbol_of_slot hl hlo hhi
  exact ⟨i, k + 1, buildTree_sym hi hl, hi, hl0, hl, hr, rfl⟩

/-- Settles O9: by `decodeSym_placed`. -/
theorem decodedSymbolIsPlaced : Obligations.DecodedSymbolIsPlaced := fun _ _ _ _ => decodeSym_placed

/-! ### Complete and empty trees (R173) -/

theorem codeField_lt (s : State) (p n : Nat) : codeField s p n < 2 ^ n := by
  induction n with
  | zero => exact Nat.one_pos
  | succ n ih =>
    have hbit := bitAt_lt_two s (p + n)
    rw [codeField, Nat.pow_succ]
    omega

theorem exists_first_neg {f : Nat → Int} {n : Nat} (h : f n < 0) :
    ∃ l, l ≤ n ∧ f l < 0 ∧ ∀ m, m < l → 0 ≤ f m := by
  induction n using Nat.strongRecOn with
  | ind n ih =>
    by_cases hsmaller : ∃ m, m < n ∧ f m < 0
    · obtain ⟨m, hm, hneg⟩ := hsmaller
      obtain ⟨l, hl, hfirst⟩ := ih m hm hneg
      exact ⟨l, Nat.le_trans hl (Nat.le_of_lt hm), hfirst⟩
    · exact ⟨n, Nat.le_refl n, h, fun m hm => Int.not_lt.mp fun hneg => hsmaller ⟨m, hm, hneg⟩⟩

/-- R175: the loop answers where `cur` is negative after at most 15 bits, at the first such bit. -/
theorem decodeSym_ok_of_neg {lens : List Nat} {n : Nat} {s : State} (hr : s.inf.bitpos + 15 ≤ 8 * s.inf.regionEnd)
    (hn : n ≤ 15) (h : curAfter lens s s.inf.bitpos n < 0) : ∃ r, decodeSym (buildTree lens) s = .ok r := by
  obtain ⟨l, hl, hneg, hcur⟩ := exists_first_neg h
  have hpos : 0 < l := Nat.pos_of_ne_zero fun h0 => by
    rw [h0] at hneg
    exact absurd hneg (Int.lt_irrefl 0)
  exact ⟨_, decodeSymLoop_stops (s := s) (p := s.inf.bitpos) (fuel := 15) (len := 0) hcur hneg (by omega) (by omega)
    hpos (by omega)⟩

/-- R173, R175: on a complete tree `cur` is negative after 15 bits, whatever they are. -/
theorem decodeSym_ok_of_complete {lens : List Nat} {s : State} (hle : ∀ x ∈ lens, x ≤ 15)
    (h : kraftSum lens = 2 ^ 15) (hr : s.inf.bitpos + 15 ≤ 8 * s.inf.regionEnd) :
    ∃ r, decodeSym (buildTree lens) s = .ok r := by
  refine decodeSym_ok_of_neg hr (Nat.le_refl 15) ?_
  have hend := end_of_codes_of_complete hle h
  have hfield := codeField_lt s s.inf.bitpos 15
  change (codeField s s.inf.bitpos 15 : Int) - (firstCode lens 15 : Int) - (lens.count 15 : Int) < 0
  omega

theorem noCodeword_of_zeros (n m : Nat) (s : State) (p : Nat) : NoCodeword (List.replicate n 0) m s p :=
  fun _ _ hi h0 _ => absurd (List.eq_of_mem_replicate (List.mem_of_getElem? hi)) h0

theorem decodeSym_beyond_region {t : Tree} {s : State} (h : 8 * s.inf.regionEnd < s.inf.bitpos) :
    decodeSym t s = .error (failInflate .inputOverrun s) := by
  simp only [decodeSym, decodeSymLoop, bind, Except.bind, readBit_overrun (Nat.le_of_lt h)]

/-- Settles O11: a complete tree by `decodeSym_ok_of_complete`, the others by what bits that begin with no codeword do
(`decodeSym_invalidCode`, `decodeSym_overrun`): on an empty tree all bits are such. -/
theorem completeAndEmptyTrees : Obligations.CompleteAndEmptyTrees := by
  refine ⟨fun lens s hle hkraft hr => ?_, fun n s hr => decodeSym_invalidCode (noCodeword_of_zeros n 15 s _) hr,
    fun lens n s _ hnone => ⟨?_, decodeSym_overrun hnone⟩, fun t s => decodeSym_beyond_region⟩
  · obtain ⟨⟨o, t⟩, hok⟩ := decodeSym_ok_of_complete hle hkraft hr
    obtain ⟨i, l, rfl, -⟩ := decodeSym_placed hok
    exact ⟨i, t, hok⟩
  · rintro rfl hr
    exact decodeSym_invalidCode hnone hr

end Sys2Proof.Machine
end

section
/-! PROOFS. The tree builder against its loops (R171): the histogram, the offsets, and the placement, which puts each
used symbol in its slot and leaves every other slot EMPTY. -/

namespace Sys2Proof.Machine

theorem ext_getD {α : Type} {l m : List α} (d : α) (hlen : l.length = m.length)
    (h : ∀ i, i < l.length → l.getD i d = m.getD i d) : l = m := by
  refine List.ext_getElem hlen fun i hl hm => ?_
  have hi := h i hl
  rwa [List.getD_eq_getElem?_getD, List.getD_eq_getElem?_getD, List.getElem?_eq_getElem hl,
    List.getElem?_eq_getElem hm] at hi

theorem getD_set {α : Type} {l : List α} {j : Nat} (i : Nat) (a d : α) (h : i < l.length) :
    (l.set i a).getD j d = if i = j then a else l.getD j d := by
  simp only [List.getD_eq_getElem?_getD, List.getElem?_set, h, if_true]
  split <;> rfl

theorem getD_set_ne {α : Type} {l : List α} {i j : Nat} (a d : α) (h : i ≠ j) :
    (l.set i a).getD j d = l.getD j d := by
  rw [List.getD_eq_getElem?_getD, List.getElem?_set_ne h, ← List.getD_eq_getElem?_getD]

/-- R171: `table[x] <- table[x] + 1`, as both loops do it. -/
theorem getD_increment {table : List Nat} {x : Nat} (hx : x < table.length) (l : Nat) :
    (table.set x (table.getD x 0 + 1)).getD l 0 = table.getD l 0 + if x = l then 1 else 0 := by
  rw [getD_set _ _ _ hx]
  split
  · next h => rw [h]
  · rfl

theorem count_cons_ite (x : Nat) (lens : List Nat) (l : Nat) :
    (x :: lens).count l = lens.count l + if x = l then 1 else 0 := by
  simp only [List.count_cons, beq_iff_eq]

theorem getD_replicate_self {α : Type} (n i : Nat) (d : α) : (List.replicate n d).getD i d = d := by
  rw [List.getD_eq_getElem?_getD, List.getElem?_replicate]
  split <;> rfl

/-! ### The histogram -/

theorem length_countSymbols (lens count : List Nat) : (countSymbols lens count).length = count.length := by
  induction lens generalizing count with
  | nil => rfl
  | cons l lens ih => rw [countSymbols, ih, List.length_set]

theorem countSymbols_getD {lens count : List Nat} (h : ∀ x ∈ lens, x < count.length) (l : Nat) :
    (countSymbols lens count).getD l 0 = count.getD l 0 + lens.count l := by
  induction lens generalizing count with
  | nil => rfl
  | cons x lens ih =>
    obtain ⟨hx, hlens⟩ := List.forall_mem_cons.mp h
    rw [countSymbols, ih (by rwa [List.length_set]), getD_increment hx, count_cons_ite]
    omega

/-- R171: the histogram, index 0 forced to 0, is the count table. -/
theorem countSymbols_eq_countTable {lens : List Nat} (h : ∀ x ∈ lens, x ≤ 15) :
    (countSymbols lens (List.replicate 16 0)).set 0 0 = countTable lens := by
  have hlt : ∀ x ∈ lens, x < (List.replicate 16 0).length := fun x hx => Nat.lt_succ_of_le (h x hx)
  have hlen : (countSymbols lens (List.replicate 16 0)).length = 16 := length_countSymbols lens _
  refine ext_getD 0 (by rw [List.length_set, hlen]; rfl) fun l hl => ?_
  rw [List.length_set, hlen] at hl
  rw [getD_set _ _ _ (by rw [hlen]; decide)]
  cases l with
  | zero => rfl
  | succ l =>
    rw [if_neg (Nat.succ_ne_zero l).symm, countSymbols_getD hlt, getD_replicate_self, Nat.zero_add]
    exact (buildTree_count lens (Nat.le_add_left 1 l) (Nat.le_of_lt_succ hl)).symm

/-! ### The offsets -/

theorem length_offsets (s : Nat) (count : List Nat) : (offsets s count).length = count.length := by
  induction count generalizing s with
  | nil => rfl
  | cons c count ih => rw [offsets, List.length_cons, ih, List.length_cons]

theorem offsets_getD_succ (s : Nat) {count : List Nat} {k : Nat} (h : k + 1 < count.length) :
    (offsets s count).getD (k + 1) 0 = (offsets s count).getD k 0 + count.getD k 0 := by
  induction count generalizing s k with
  | nil => exact absurd h (Nat.not_lt_zero _)
  | cons c count ih =>
    cases k with
    | succ k => exact ih (s + c) (Nat.lt_of_succ_lt_succ h)
    | zero =>
      cases count with
      | nil => exact absurd h (Nat.lt_irrefl 1)
      | cons d count => rfl

/-- R171: the symbols of length `k + 1` are placed after the shorter ones. -/
theorem offsets_countTable (lens : List Nat) {k : Nat} (hk : k < 15) :
    (offsets 0 (countTable lens)).getD (k + 1) 0 = ranksUpTo (buildTree lens) k := by
  have hlen : (countTable lens).length = 16 := rfl
  induction k with
  | zero => rfl
  | succ k ih =>
    rw [offsets_getD_succ 0 (by omega), ih (by omega)]
    rfl

/-- R171: the slots of length `k + 1` end where those of the next length begin. -/
theorem offsets_add_count (lens : List Nat) {k : Nat} (hk : k < 15) :
    (offsets 0 (countTable lens)).getD (k + 1) 0 + lens.count (k + 1) = ranksUpTo (buildTree lens) (k + 1) := by
  rw [offsets_countTable lens hk, ranksUpTo, buildTree_count lens (Nat.le_add_left 1 k) hk]

theorem ranksUpTo_mono (t : Tree) {k m : Nat} (h : k ≤ m) : ranksUpTo t k ≤ ranksUpTo t m := by
  induction h with
  | refl => exact Nat.le_refl _
  | step _ ih => exact Nat.le_trans ih (Nat.le_add_right _ _)

/-- R170: a slot is among those of one length. -/
theorem exists_length_of_slot {t : Tree} {n r : Nat} (h : r < ranksUpTo t n) :
    ∃ k, k < n ∧ ranksUpTo t k ≤ r ∧ r < ranksUpTo t (k + 1) := by
  induction n with
  | zero => exact absurd h (Nat.not_lt_zero r)
  | succ n ih =>
    rcases Nat.lt_or_ge r (ranksUpTo t n) with hr | hr
    · obtain ⟨k, hk, hslot⟩ := ih hr
      exact ⟨k, Nat.lt_succ_of_lt hk, hslot⟩
    · exact ⟨n, Nat.lt_succ_self n, hr, h⟩

/-! ### The placement -/

theorem length_placeSymbols (i : Nat) (lens offs : List Nat) (sym : List (Option Nat)) :
    (placeSymbols i lens offs sym).length = sym.length := by
  induction lens generalizing i offs sym with
  | nil => rfl
  | cons x lens ih =>
    cases x with
    | zero => exact ih ..
    | succ x => rw [placeSymbols, ih, List.length_set]

/-- `r` is a slot that the placement of `lens` fills for the length `l`. -/
def PlacedAt (lens offs : List Nat) (l r : Nat) : Prop :=
  offs.getD l 0 ≤ r ∧ r < offs.getD l 0 + lens.count l

/-- The slots of a length end before those of a longer one begin. -/
def SlotsApart (lens offs : List Nat) : Prop :=
  ∀ l m, 0 < l → l < m → m < offs.length → offs.getD l 0 + lens.count l ≤ offs.getD m 0

section
variable {lens offs : List Nat} {x l r : Nat}

theorem PlacedAt.cons (h : PlacedAt lens offs l r) : PlacedAt (x :: lens) offs l r :=
  ⟨h.1, Nat.lt_of_lt_of_le h.2 (Nat.add_le_add_left List.count_le_count_cons _)⟩

theorem placedAt_head : PlacedAt (x :: lens) offs x (offs.getD x 0) :=
  ⟨Nat.le_refl _, Nat.lt_add_of_pos_right (by rw [List.count_cons_self]; exact Nat.succ_pos _)⟩

theorem PlacedAt.of_tail (hx : x < offs.length) (h : PlacedAt lens (offs.set x (offs.getD x 0 + 1)) l r) :
    PlacedAt (x :: lens) offs l r := by
  obtain ⟨hlo, hhi⟩ := h
  rw [getD_increment hx] at hlo hhi
  refine ⟨by omega, ?_⟩
  rw [count_cons_ite]
  omega

theorem SlotsApart.of_zero (h : SlotsApart (0 :: lens) offs) : SlotsApart lens offs := fun l m hl hlm hm =>
  Nat.le_trans (Nat.add_le_add_left List.count_le_count_cons _) (h l m hl hlm hm)

theorem SlotsApart.tail (hx : x < offs.length) (h : SlotsApart (x :: lens) offs) :
    SlotsApart lens (offs.set x (offs.getD x 0 + 1)) := by
  intro l m hl hlm hm
  have hapart := h l m hl hlm (by rwa [List.length_set] at hm)
  rw [count_cons_ite] at hapart
  rw [getD_increment hx, getD_increment hx]
  omega

/-- The slot filled now is not filled again. -/
theorem SlotsApart.not_placedAt_tail (h : SlotsApart (x :: lens) offs) (hx0 : 0 < x) (hx : x < offs.length)
    (hl0 : 0 < l) (hl : l < offs.length) : ¬ PlacedAt lens (offs.set x (offs.getD x 0 + 1)) l (offs.getD x 0) := by
  intro hplaced
  obtain ⟨hlo, hhi⟩ := hplaced.of_tail hx
  rcases Nat.lt_trichotomy l x with hlx | rfl | hxl
  · have hapart := h l x hl0 hlx hx
    omega
  · have hlo' := hplaced.1
    rw [getD_increment hx, if_pos rfl] at hlo'
    omega
  · have hapart := h x l hx0 hxl hl
    rw [List.count_cons_self] at hapart
    omega

end

/-- R171: the placement leaves a slot alone that it does not fill. -/
theorem placeSymbols_getD_of_not_placedAt {i r : Nat} {lens offs : List Nat} {sym : List (Option Nat)}
    (hoffs : ∀ x ∈ lens, x < offs.length) (h : ∀ l, 0 < l → l < offs.length → ¬ PlacedAt lens offs l r) :
    (placeSymbols i lens offs sym).getD r none = sym.getD r none := by
  induction lens generalizing i offs sym with
  | nil => rfl
  | cons x lens ih =>
    obtain ⟨hx, hlens⟩ := List.forall_mem_cons.mp hoffs
    cases x with
    | zero => exact ih hlens fun l hl0 hl hp => h l hl0 hl hp.cons
    | succ x =>
      have hne : offs.getD (x + 1) 0 ≠ r := fun he => h (x + 1) (Nat.succ_pos x) hx (he ▸ placedAt_head)
      rw [placeSymbols, ih (by rwa [List.length_set]), getD_set_ne _ _ hne]
      intro l hl0 hl hp
      exact h l hl0 (by rwa [List.length_set] at hl) (hp.of_tail hx)

/-- R171: the placement puts a used symbol in its slot, after the lower symbols of its length. -/
theorem placeSymbols_getD_slot {i j k : Nat} {lens offs : List Nat} {sym : List (Option Nat)}
    (hoffs : ∀ x ∈ lens, x < offs.length) (hapart : SlotsApart lens offs) (hj : lens[j]? = some (k + 1))
    (hr : offs.getD (k + 1) 0 + (lens.take j).count (k + 1) < sym.length) :
    (placeSymbols i lens offs sym).getD (offs.getD (k + 1) 0 + (lens.take j).count (k + 1)) none = some (i + j) := by
  induction lens generalizing i j offs sym with
  | nil => cases hj
  | cons x lens ih =>
    obtain ⟨hx, hlens⟩ := List.forall_mem_cons.mp hoffs
    cases j with
    | zero =>
      obtain rfl : x = k + 1 := Option.some.inj hj
      simp only [List.take_zero, List.count_nil, Nat.add_zero] at hr ⊢
      rw [placeSymbols, placeSymbols_getD_of_not_placedAt (by rwa [List.length_set]) fun l hl0 hl =>
        hapart.not_placedAt_tail (Nat.succ_pos k) hx hl0 (by rwa [List.length_set] at hl)]
      exact (getD_set _ _ _ hr).trans (if_pos rfl)
    | succ j =>
      rw [show i + (j + 1) = i + 1 + j by omega]
      rw [List.take_succ_cons, count_cons_ite] at hr ⊢
      cases x with
      | zero => exact ih hlens hapart.of_zero hj hr
      | succ x =>
        have hslot : offs.getD (k + 1) 0 + ((lens.take j).count (k + 1) + if x + 1 = k + 1 then 1 else 0) =
            (offs.set (x + 1) (offs.getD (x + 1) 0 + 1)).getD (k + 1) 0 + (lens.take j).count (k + 1) := by
          rw [getD_increment hx]
          omega
        rw [hslot] at hr ⊢
        exact ih (by rwa [List.length_set]) (hapart.tail hx) hj (by rwa [List.length_set])

/-! ### The two trees -/

theorem length_canonicalOrder (lens : List Nat) :
    (canonicalOrder lens).length = ranksUpTo (buildTree lens) 15 :=
  length_flatMap_symbolsOfLength lens (Nat.le_refl 15)

theorem sum_map_one (l : List Nat) : (l.map fun _ => 1).sum = l.length := by
  induction l with
  | nil => rfl
  | cons x l ih => rw [List.map_cons, List.sum_cons, ih, List.length_cons, Nat.add_comm]

/-- R170: the symbols that have a slot are the used ones. -/
theorem ranksUpTo_add_count_zero (lens : List Nat) {k : Nat} (hk : k ≤ 15) :
    ranksUpTo (buildTree lens) k + lens.count 0 = (lens.filter (· ≤ k)).length := by
  induction k with
  | zero =>
    rw [← sum_map_one, sum_map_filter_le_zero, Nat.mul_one]
    exact Nat.zero_add _
  | succ k ih =>
    rw [← sum_map_one, sum_map_filter_le_succ, sum_map_one, ← ih (by omega), ranksUpTo,
      buildTree_count lens (Nat.le_add_left 1 k) hk]
    omega

theorem ranksUpTo_le_length (lens : List Nat) : ranksUpTo (buildTree lens) 15 ≤ lens.length :=
  calc ranksUpTo (buildTree lens) 15
      ≤ (lens.filter (· ≤ 15)).length := ranksUpTo_add_count_zero lens (Nat.le_refl 15) ▸ Nat.le_add_right _ _
    _ ≤ lens.length := List.length_filter_le _ _

theorem length_buildTree_sym {lens : List Nat} (h : lens.length ≤ 288) : (buildTree lens).sym.length = 288 := by
  have hranks := ranksUpTo_le_length lens
  have hlen : (buildTree lens).sym.length =
      (canonicalOrder lens).length + (288 - (canonicalOrder lens).length) := by simp [buildTree]
  rw [hlen, length_canonicalOrder]
  omega

/-- R36, R171: beyond the used symbols a tree is EMPTY. -/
theorem buildTree_sym_empty {lens : List Nat} {r : Nat} (h : ranksUpTo (buildTree lens) 15 ≤ r) :
    (buildTree lens).sym.getD r none = none := by
  have hsym : (buildTree lens).sym = (canonicalOrder lens).map some ++
      List.replicate (288 - (canonicalOrder lens).length) none := rfl
  rw [hsym, List.getD_eq_getElem?_getD, List.getElem?_append_right (by rwa [List.length_map, length_canonicalOrder]),
    ← List.getD_eq_getElem?_getD]
  exact getD_replicate_self ..

theorem length_offsets_countTable (lens : List Nat) : (offsets 0 (countTable lens)).length = 16 :=
  length_offsets 0 (countTable lens)

theorem slotsApart_offsets (lens : List Nat) : SlotsApart lens (offsets 0 (countTable lens)) := by
  intro l m hl hlm hm
  rw [length_offsets_countTable] at hm
  obtain ⟨k, rfl⟩ := Nat.exists_eq_add_one_of_ne_zero (Nat.ne_of_gt hl)
  obtain ⟨n, rfl⟩ := Nat.exists_eq_add_one_of_ne_zero (Nat.ne_of_gt (Nat.lt_trans hl hlm))
  rw [offsets_add_count lens (by omega), offsets_countTable lens (by omega)]
  exact ranksUpTo_mono _ (Nat.le_of_lt_succ hlm)

theorem not_placedAt_of_beyond {lens : List Nat} {r l : Nat} (hr : ranksUpTo (buildTree lens) 15 ≤ r) (hl0 : 0 < l)
    (hl : l < (offsets 0 (countTable lens)).length) : ¬ PlacedAt lens (offsets 0 (countTable lens)) l r := by
  rintro ⟨-, hhi⟩
  rw [length_offsets_countTable] at hl
  obtain ⟨k, rfl⟩ := Nat.exists_eq_add_one_of_ne_zero (Nat.ne_of_gt hl0)
  rw [offsets_add_count lens (by omega)] at hhi
  have hmono := ranksUpTo_mono (buildTree lens) (Nat.le_of_lt_succ hl)
  omega

/-- R171: in the loops' table every slot holds what it holds in the closed form. -/
theorem placeSymbols_eq_sym {lens : List Nat} (hlen : lens.length ≤ 288) (h : ∀ l ∈ lens, l ≤ 15) :
    placeSymbols 0 lens (offsets 0 (countTable lens)) (List.replicate 288 none) = (buildTree lens).sym := by
  have hoffs : ∀ x ∈ lens, x < (offsets 0 (countTable lens)).length := fun x hx =>
    length_offsets_countTable lens ▸ Nat.lt_succ_of_le (h x hx)
  refine ext_getD none ?_ fun r hr => ?_
  · rw [length_placeSymbols, length_buildTree_sym hlen, List.length_replicate]
  rw [length_placeSymbols] at hr
  rcases Nat.lt_or_ge r (ranksUpTo (buildTree lens) 15) with hused | hbeyond
  · obtain ⟨k, hk, hlo, hhi⟩ := exists_length_of_slot hused
    obtain ⟨i, hi, rfl⟩ := exists_symbol_of_slot hk hlo hhi
    rw [buildTree_sym hi hk]
    rw [← offsets_countTable lens hk] at hr ⊢
    rw [placeSymbols_getD_slot hoffs (slotsApart_offsets lens) hi hr, Nat.zero_add]
  · rw [buildTree_sym_empty hbeyond,
      placeSymbols_getD_of_not_placedAt hoffs fun _ => not_placedAt_of_beyond hbeyond]
    exact getD_replicate_self ..

/-- Settles O7: the counts by `countSymbols_eq_countTable`, the symbols by `placeSymbols_eq_sym`. -/
theorem buildTreeFollowsTheLoops : Obligations.BuildTreeFollowsTheLoops := by
  intro lens hlen h
  rw [buildTreeBySteps, countSymbols_eq_countTable h, placeSymbols_eq_sym hlen h]
  rfl

end Sys2Proof.Machine
end

section
/-! PROOFS. The fixed trees (R172): each range the rule lists is a run of successive symbols in the table. -/

namespace Sys2Proof.Machine

/-- The entries of a run of successive symbols, after those of `before`. -/
theorem getElem?_run (before : List Nat) (a : Nat) (after : List Nat) {n r : Nat} (h : r < n) :
    ((before ++ (List.range' a n ++ after)).map some)[before.length + r]? = some (some (a + r)) := by
  have hr : (List.range' a n)[r]? = some (a + r) := by rw [List.getElem?_range' h, Nat.one_mul]
  rw [List.getElem?_map, List.getElem?_append_right (Nat.le_add_right _ _), Nat.add_sub_cancel_left,
    List.getElem?_append_left (by rwa [List.length_range']), hr]
  rfl

theorem ltFixed_sym_256 {r : Nat} (h : r < 24) : ltFixed.sym[r]? = some (some (256 + r)) := by
  simpa [ltFixed] using getElem?_run [] 256 (List.range' 0 144 ++ List.range' 280 8 ++ List.range' 144 112) h

theorem ltFixed_sym_0 {r : Nat} (h : r < 144) : ltFixed.sym[24 + r]? = some (some r) := by
  simpa [ltFixed] using getElem?_run (List.range' 256 24) 0 (List.range' 280 8 ++ List.range' 144 112) h

theorem ltFixed_sym_280 {r : Nat} (h : r < 8) : ltFixed.sym[168 + r]? = some (some (280 + r)) := by
  simpa [ltFixed] using getElem?_run (List.range' 256 24 ++ List.range' 0 144) 280 (List.range' 144 112) h

theorem ltFixed_sym_144 {r : Nat} (h : r < 112) : ltFixed.sym[176 + r]? = some (some (144 + r)) := by
  simpa [ltFixed] using getElem?_run (List.range' 256 24 ++ List.range' 0 144 ++ List.range' 280 8) 144 [] h

theorem dtFixed_sym {r : Nat} (h : r < 32) : dtFixed.sym[r]? = some (some r) := by
  rw [dtFixed, List.getElem?_append_left (by rwa [List.length_map, List.length_range'])]
  simpa using getElem?_run [] 0 [] h

theorem dtFixed_sym_empty {r : Nat} (h : r < 256) : dtFixed.sym[32 + r]? = some none := by
  rw [dtFixed, List.getElem?_append_right (by rw [List.length_map, List.length_range']; exact Nat.le_add_right _ _),
    List.length_map, List.length_range', Nat.add_sub_cancel_left, List.getElem?_replicate_of_lt h]

theorem length_fixedLitLenLengths : fixedLitLenLengths.length = 288 := by
  simp only [fixedLitLenLengths, List.length_append, List.length_replicate]

theorem length_fixedDistLengths : fixedDistLengths.length = 32 := List.length_replicate

theorem length_ltFixed_sym : ltFixed.sym.length = 288 := by
  rw [ltFixed_eq_buildTree]
  exact length_buildTree_sym (Nat.le_of_eq length_fixedLitLenLengths)

theorem length_dtFixed_sym : dtFixed.sym.length = 288 := by
  rw [dtFixed_eq_buildTree]
  exact length_buildTree_sym (by rw [length_fixedDistLengths]; decide)

/-- Settles O8: the trees by `ltFixed_eq_buildTree` and `dtFixed_eq_buildTree`, the entries run by run. -/
theorem fixedTreesAreBuilt : Obligations.FixedTreesAreBuilt :=
  ⟨ltFixed_eq_buildTree, rfl, length_ltFixed_sym, fun _ => ltFixed_sym_256, fun _ => ltFixed_sym_0,
    fun _ => ltFixed_sym_280, fun _ => ltFixed_sym_144, dtFixed_eq_buildTree, rfl, length_dtFixed_sym,
    fun _ => dtFixed_sym, fun _ => dtFixed_sym_empty⟩

end Sys2Proof.Machine
end

section
/-! PROOFS. What can stop the machine (R76, R176, R307): no instruction does, DecodeSym answers a symbol of the alphabet
its tree was built for, and what is left is an access of the host. -/

namespace Sys2Proof.Machine

/-! ### No instruction stops the machine -/

theorem settle_exists_next (r : Res State) : ∃ t, settle r = .next t := by
  obtain ⟨t, ht, -⟩ := settle_next r
  exact ⟨t, ht⟩

/-- Every instruction leaves a next state: a raise is one too (R346). -/
theorem exec_exists_next (i : Instr) (s : State) : ∃ t, exec i s = .next t := by
  cases i
  case fixedBlock | reservedBlock | eob | clLen | invalidLitLen286 | invalidLitLen287 | invalidDist30 | invalidDist31 =>
    exact ⟨_, rfl⟩
  case reservedOp0 | reservedOp5 | reservedOp6 | reservedOp7 | reservedOp8 | reservedOp9 | reservedOpA | reservedOpB |
      reservedOpC | reservedOpD | reservedOpE | reservedOpF =>
    exact ⟨_, rfl⟩
  case clRepeat =>
    rw [exec, execClRepeat]
    split
    · exact ⟨_, rfl⟩
    · exact settle_exists_next _
  all_goals
    rw [exec]
    exact settle_exists_next _

theorem coreStep_ne_refused (s : State) (r : Refusal) : coreStep s ≠ .refused r := by
  intro h
  unfold coreStep at h
  split at h
  · split at h
    · next i u _ =>
      obtain ⟨t, ht⟩ := exec_exists_next i u
      rw [ht] at h
      cases h
    · cases h
    · cases h
  · cases h

theorem coreStep_eq_fault {s : State} {f : Fault} (h : coreStep s = .fault f) :
    ∃ a, s.run = .busy a ∧ fetch a s = .stop f := by
  unfold coreStep at h
  split at h
  · next a ha =>
    split at h
    · next i u _ =>
      obtain ⟨t, ht⟩ := exec_exists_next i u
      rw [ht] at h
      cases h
    · cases h
    · next hf => cases h; exact ⟨a, ha, hf⟩
  · cases h

/-! ### The symbols of an alphabet decode (R106, R108, R112) -/

theorem exists_decode_litLen {v : Nat} (h : v < 288) : ∃ i, decode .litLen v = .ok i := by
  simp only [decode, decodeLitLen]
  split
  · exact ⟨_, rfl⟩
  split
  · exact ⟨_, rfl⟩
  split
  · exact ⟨_, rfl⟩
  split
  · exact ⟨_, rfl⟩
  · have hv : v - 257 < lengthInstrs.length := by
      have hlen : lengthInstrs.length = 29 := rfl
      omega
    rw [List.getElem?_eq_getElem hv]
    exact ⟨_, rfl⟩

theorem exists_decode_dist {v : Nat} (h : v < 32) : ∃ i, decode .dist v = .ok i := by
  have hv : v < distInstrs.length := h
  simp only [decode, decodeDist, List.getElem?_eq_getElem hv]
  exact ⟨_, rfl⟩

theorem exists_decode_codeLen {v : Nat} (h : v < 19) : ∃ i, decode .codeLen v = .ok i := by
  simp only [decode, decodeCodeLen]
  split
  · exact ⟨_, rfl⟩
  split
  · exact ⟨_, rfl⟩
  split
  · exact ⟨_, rfl⟩
  · exact ⟨_, if_pos (by omega)⟩

/-! ### The core's own steps -/

/-- R176: on the tree of an alphabet of at most `n` symbols, all of which decode, reading a symbol never stops. -/
theorem fetchSymbol_ne_stop {g : Format} {n : Nat} {lens : List Nat} (hn : lens.length ≤ n)
    (hdecode : ∀ v, v < n → ∃ i, decode g v = .ok i) (s : State) (f : Fault) :
    fetchSymbol g (decodeSym (buildTree lens) s) ≠ .stop f := by
  intro h
  unfold fetchSymbol at h
  split at h
  · cases h
  · next hnone =>
    obtain ⟨i, l, hi, -⟩ := decodeSym_placed hnone
    cases hi
  · next v u hsome =>
    obtain ⟨i, l, hi, hl, -⟩ := decodeSym_placed hsome
    cases hi
    obtain ⟨hlt, -⟩ := List.getElem?_eq_some_iff.mp hl
    obtain ⟨x, hx⟩ := hdecode v (Nat.lt_of_lt_of_le hlt hn)
    rw [hx] at h
    cases h

/-- R178: the trees of a block are those of at most 288 literal/length and 32 distance symbols. -/
theorem TreesOk.built {s : State} (h : TreesOk s) :
    (∃ lens : List Nat, lens.length ≤ 288 ∧ litLenTree s = buildTree lens) ∧
    (∃ lens : List Nat, lens.length ≤ 32 ∧ distTree s = buildTree lens) := by
  rcases h with hfixed | ⟨hdynamic, hcounts, htotal, hlt, hdt⟩
  · simp only [litLenTree, distTree, hfixed]
    exact ⟨⟨_, Nat.le_of_eq length_fixedLitLenLengths, ltFixed_eq_buildTree⟩,
      ⟨_, Nat.le_of_eq length_fixedDistLengths, dtFixed_eq_buildTree⟩⟩
  · simp only [litLenTree, distTree, hdynamic]
    have hhlit := hcounts.hlit
    have hhdist := hcounts.hdist
    refine ⟨⟨_, ?_, hlt⟩, ⟨_, ?_, hdt⟩⟩
    · rw [List.length_take]
      omega
    · rw [List.length_drop, htotal, totalLengths]
      omega

theorem fetchBlockHdr_ne_stop (s : State) (f : Fault) : fetchBlockHdr s ≠ .stop f := by
  unfold fetchBlockHdr
  split <;> exact Fetched.noConfusion

/-- R76, R176: from a sound state reading the next instruction never stops. -/
theorem fetch_ne_stop {s : State} {a : Activity} (h : PlaceOk s a) (f : Fault) : fetch a s ≠ .stop f := by
  cases a with
  | command => exact Fetched.noConfusion
  | finish => exact Fetched.noConfusion
  | scanEocd =>
    rcases fetchEocd_cases s with ⟨-, e⟩ | ⟨-, -, e⟩ | ⟨-, -, e⟩ <;> rw [fetch, e] <;> exact Fetched.noConfusion
  | walkCdh =>
    rcases fetchCdh_cases s with ⟨-, e⟩ | ⟨-, -, e⟩ | ⟨-, -, e⟩ <;> rw [fetch, e] <;> exact Fetched.noConfusion
  | checkLfh =>
    rcases fetchLfh_cases s with ⟨-, e⟩ | ⟨-, -, e⟩ | ⟨-, -, e⟩ <;> rw [fetch, e] <;> exact Fetched.noConfusion
  | blockHeader => exact fetchBlockHdr_ne_stop s f
  | codeLength =>
    obtain ⟨-, hcl⟩ := h
    rw [fetch, hcl.clt]
    exact fetchSymbol_ne_stop (Nat.le_of_eq hcl.cl.1) (fun _ => exists_decode_codeLen) s f
  | litLen =>
    obtain ⟨-, htrees⟩ := h
    obtain ⟨⟨lens, hlen, ht⟩, -⟩ := htrees.built
    rw [fetch, ht]
    exact fetchSymbol_ne_stop hlen (fun _ => exists_decode_litLen) s f
  | distance =>
    obtain ⟨-, htrees, -⟩ := h
    obtain ⟨-, lens, hlen, ht⟩ := htrees.built
    rw [fetch, ht]
    exact fetchSymbol_ne_stop hlen (fun _ => exists_decode_dist) s f

theorem coreStep_ne_fault {s : State} (h : s.Inv) (f : Fault) : coreStep s ≠ .fault f := by
  intro hfault
  obtain ⟨a, hrun, hstop⟩ := coreStep_eq_fault hfault
  exact fetch_ne_stop (h.place a hrun) f hstop

/-! ### The host's accesses -/

theorem portAccess_ne_refused (p : Port) (a : Nat) (s t : State) (r : Refusal) : portAccess p a s t ≠ .refused r := by
  unfold portAccess
  split <;> nofun

theorem hostAccess_ne_refused (op : HostOp) (s : State) (r : Refusal) : hostAccess op s ≠ .refused r := by
  intro h
  cases op
  case writeReg | readReg | reset | pass | wait => cases h
  all_goals exact portAccess_ne_refused _ _ _ _ r h

/-- R18, R86: a step is one of the core, the end of a wait, or the access of the host at the head of its script. -/
theorem step_origin (s : State) :
    (∃ ops, step s = coreStep { s with hostOps := ops }) ∨
    (∃ ops, step s = .next { s with hostOps := ops }) ∨
    (∃ op ops, s.hostOps = op :: ops ∧ step s = hostAccess op { s with hostOps := ops }) := by
  unfold step nextMove
  split
  · exact .inl ⟨s.hostOps, rfl⟩
  · next ops _ => exact .inl ⟨ops, rfl⟩
  · next ops _ =>
    split
    · exact .inl ⟨s.hostOps, rfl⟩
    · exact .inr (.inl ⟨ops, rfl⟩)
  · next op ops _ _ e => exact .inr (.inr ⟨op, ops, e, rfl⟩)

/-- Settles O58: the core's steps by `coreStep_ne_fault` and `coreStep_ne_refused`, the host's by `hostAccess_fault`. -/
theorem onlyAbsentPortBytesFault : Obligations.OnlyAbsentPortBytesFault := by
  refine ⟨fun s f hinv h => ?_, fun s r h => ?_⟩
  · rcases step_origin s with ⟨ops, e⟩ | ⟨ops, e⟩ | ⟨op, ops, ho, e⟩ <;> rw [e] at h
    · exact absurd h (coreStep_ne_fault (hinv.withHost ops s.hostData s.readDraws) f)
    · cases h
    · obtain ⟨p, a, hf, hcap, hop⟩ := hostAccess_fault h
      exact ⟨p, a, op, ops, ho, hf, by cases p <;> exact hcap, hop⟩
  · rcases step_origin s with ⟨ops, e⟩ | ⟨ops, e⟩ | ⟨op, ops, -, e⟩ <;> rw [e] at h
    · exact coreStep_ne_refused _ r h
    · cases h
    · exact hostAccess_ne_refused _ _ r h

end Sys2Proof.Machine
end

section
/-! PROOFS. Fields of whole bytes (R77, R78, R80): the stream's bytes are IN's, and a 16-bit field at a byte boundary is
little-endian. -/

namespace Sys2Proof.Machine

/-- R78: a field is its first `m` bits and the field after them. -/
theorem bitField_add (s : State) (p m n : Nat) :
    bitField s p (m + n) = bitField s p m + 2 ^ m * bitField s (p + m) n := by
  induction m generalizing p with
  | zero => simp only [bitField, Nat.zero_add, Nat.pow_zero, Nat.one_mul, Nat.add_zero]
  | succ m ih =>
    rw [show m + 1 + n = m + n + 1 by omega, bitField, ih, bitField, Nat.pow_succ, show p + 1 + m = p + (m + 1) by omega]
    rw [Nat.mul_add, Nat.mul_comm (2 ^ m) 2, Nat.mul_assoc, Nat.add_assoc]

/-- R78, R150: eight bits at a byte boundary are the byte there. -/
theorem bitField_byte (s : State) (a : Nat) : bitField s (8 * a) 8 = (inByte s a).toNat := by
  apply Nat.eq_of_testBit_eq
  intro k
  by_cases hk : k < 8
  · rw [bitField_testBit_eq_getLsbD s _ hk, show (8 * a + k) / 8 = a by omega, show (8 * a + k) % 8 = k by omega]
    rfl
  · have hpow : 2 ^ 8 ≤ 2 ^ k := Nat.pow_le_pow_right (by decide) (Nat.not_lt.mp hk)
    rw [Nat.testBit_lt_two_pow (Nat.lt_of_lt_of_le (bitField_lt s _ 8) hpow),
      Nat.testBit_lt_two_pow (Nat.lt_of_lt_of_le (inByte s a).isLt hpow)]

/-- R77, R80: sixteen bits at a byte boundary are a little-endian field. -/
theorem bitField_le16 (s : State) (a : Nat) : bitField s (8 * a) 16 = le16 s a := by
  rw [bitField_add s (8 * a) 8 8, show 8 * a + 8 = 8 * (a + 1) by omega, bitField_byte, bitField_byte, le16]

@[simp] theorem bitField_enterBlock (final : Bool) (type : BitVec 2) (ph : Phase) (s : State) (p n : Nat) :
    bitField (enterBlock final type ph s) p n = bitField s p n := bitField_congr (by rfl) (by rfl) p n

/-! ### A raise inside an inflate, as the statements give it (R211, R346) -/

/-- The state a raise leaves: the failure completion of the state before, but for the inflator's own state. -/
theorem RaisedAt.outcome {c : Cause} {p : Nat} {s e : State} (h : RaisedAt c p s e) :
    e = { fail c (p / 8) (p % 8) s with inf := e.inf } ∧ e.inf.phase = .failed ∧ e.inf.bitpos = p := by
  obtain ⟨i, hphase, hpos, rfl⟩ := h
  exact ⟨rfl, hphase, hpos⟩

/-- … and at a byte boundary. -/
theorem RaisedAt.outcome_byte {c : Cause} {a : Nat} {s e : State} (h : RaisedAt c (8 * a) s e) :
    e = { fail c a 0 s with inf := e.inf } ∧ e.inf.phase = .failed ∧ e.inf.bitpos = 8 * a := by
  have hout := h.outcome
  rwa [Nat.mul_div_cancel_left a (by decide), Nat.mul_mod_right] at hout

/-- What a block header writes to its flags is the inflator's own state. -/
theorem RaisedAt.of_enterBlock {c : Cause} {p : Nat} {final : Bool} {type : BitVec 2} {ph : Phase} {s e : State}
    (h : RaisedAt c p (enterBlock final type ph s) e) : RaisedAt c p s e := h.of_frame ⟨_, _, rfl⟩

end Sys2Proof.Machine
end

section
/-! PROOFS. The stored block (R195): its two length fields, and the five things it can do. -/

namespace Sys2Proof.Machine

/-- R195: NLEN is the complement of LEN. -/
theorem eq_complement_iff {len nlen : Nat} (h : nlen < 2 ^ 16) :
    len = (~~~ BitVec.ofNat 16 nlen).toNat ↔ len + nlen = 65535 := by
  rw [BitVec.toNat_not, BitVec.toNat_ofNat, Nat.mod_eq_of_lt h]
  omega

@[simp] theorem le16_setBitpos (p : Nat) (s : State) (a : Nat) : le16 (setBitpos p s) a = le16 s a :=
  le16_congr (s := s) (t := setBitpos p s) rfl rfl a

@[simp] theorem le16_enterBlock (final : Bool) (type : BitVec 2) (ph : Phase) (s : State) (a : Nat) :
    le16 (enterBlock final type ph s) a = le16 s a := le16_congr (s := s) rfl rfl a

/-- R192, R210: where the machine stands after a block. -/
theorem endBlock_eq (s : State) : endBlock s = { s with
    run := .busy (if s.inf.bfinal then .finish else .blockHeader)
    inf := { s.inf with phase := if s.inf.bfinal then .done else .awaitBlockHeader } } := by
  unfold endBlock
  split <;> rfl

@[simp] theorem outByte_endBlock (s : State) (a : Nat) : outByte (endBlock s) a = outByte s a :=
  outByte_congr (endBlock_outMem s) (endBlock_outEpoch s) a

/-- R195: the state in which the data of a stored block are read, LEN standing at byte `q`. -/
def storedData (final : Bool) (q : Nat) (s : State) : State :=
  setBitpos (8 * (q + 4)) (enterBlock final 0 .stored s)

theorem storedData_inf (final : Bool) (q : Nat) (s : State) : (storedData final q s).inf =
    { s.inf with bfinal := final, btype := 0, phase := .stored, bitpos := 8 * (q + 4) } := rfl

section
variable (final : Bool) (q : Nat) (s : State)
@[simp] theorem storedData_bitpos : (storedData final q s).inf.bitpos = 8 * (q + 4) := rfl
@[simp] theorem storedData_regionEnd : (storedData final q s).inf.regionEnd = s.inf.regionEnd := rfl
@[simp] theorem storedData_destLen : (storedData final q s).inf.destLen = s.inf.destLen := rfl
@[simp] theorem storedData_destCap : (storedData final q s).inf.destCap = s.inf.destCap := rfl
end

/-- R195: a stored block whose LEN and NLEN, at byte `q`, lie inside the region. -/
theorem exec_stored_of_fields {final : Bool} {s : State} {q : Nat} (hq : q = (s.inf.bitpos + 7) / 8)
    (hr : q + 4 ≤ s.inf.regionEnd) : exec (.storedBlock final) s =
      settle (if le16 s q + le16 s (q + 2) = 65535 then (copyStored (le16 s q) (storedData final q s)).map endBlock
        else .error (failInflate .storedLenMismatch (storedData final q s))) := by
  have halign : alignToByte (enterBlock final 0 .stored s) = setBitpos (8 * q) (enterBlock final 0 .stored s) := by
    rw [alignToByte, enterBlock_inf, ← hq, Nat.mul_comm]
  have hlen := readBits_ok (n := 16) (s := setBitpos (8 * q) (enterBlock final 0 .stored s))
    (by simp only [setBitpos_inf, enterBlock_inf]; omega)
  have hnlen := readBits_ok (n := 16) (s := setBitpos (8 * (q + 2)) (enterBlock final 0 .stored s))
    (by simp only [setBitpos_inf, enterBlock_inf]; omega)
  simp only [setBitpos_inf, setBitpos_setBitpos, bitField_le16, le16_setBitpos, le16_enterBlock,
    show 8 * q + 16 = 8 * (q + 2) by omega, show 8 * (q + 2) + 16 = 8 * (q + 4) by omega] at hlen hnlen
  simp only [exec, execStoredBlock, storedBody, bind, Except.bind, halign, hlen, hnlen, ne_eq,
    eq_complement_iff (le16_lt s (q + 2)), ite_not]
  unfold Except.map
  rfl

/-- R195, R192: … whose data are copied. -/
theorem exec_stored_copied {final : Bool} {s u : State} {q : Nat} (hq : q = (s.inf.bitpos + 7) / 8)
    (hr : q + 4 ≤ s.inf.regionEnd) (hc : le16 s q + le16 s (q + 2) = 65535)
    (hu : copyStored (le16 s q) (storedData final q s) = .ok u) : exec (.storedBlock final) s = .next (endBlock u) := by
  rw [exec_stored_of_fields hq hr, if_pos hc, hu]
  rfl

/-- R195, R192: … and where the machine then stands. -/
theorem endBlock_of_copyStored {final : Bool} {s u : State} {q n : Nat}
    (hu : copyStored n (storedData final q s) = .ok u) :
    endBlock u = { s with
      run := .busy (if final then .finish else .blockHeader)
      outMem := (endBlock u).outMem
      inf := { s.inf with
        bfinal := final, btype := 0, phase := if final then .done else .awaitBlockHeader
        bitpos := 8 * (q + 4 + n), destLen := s.inf.destLen + n } } := by
  obtain ⟨happ, hpos, -, -⟩ := copyStored_eq_ok hu
  have hu' := happ.rest
  rw [hpos, storedData_inf, ← Nat.mul_add] at hu'
  rw [endBlock_eq, hu']
  rfl

/-- R195: the bytes that are appended. -/
theorem outByte_of_copyStored {final : Bool} {s u : State} {q n k : Nat}
    (hu : copyStored n (storedData final q s) = .ok u) (hk : k < n) :
    outByte u (s.inf.destLen + k) = inByte s (q + 4 + k) := by
  obtain ⟨-, -, -, hbytes⟩ := copyStored_eq_ok hu
  have hbyte := hbytes k hk
  rw [storedData_inf, ← Nat.mul_add, bitField_byte, BitVec.ofNat_toNat, BitVec.setWidth_eq] at hbyte
  exact hbyte

/-- R195, R346: … whose data are cut off, or do not fit. -/
theorem exec_stored_raised {final : Bool} {s e : State} {q b : Nat} {c : Cause} (hq : q = (s.inf.bitpos + 7) / 8)
    (hr : q + 4 ≤ s.inf.regionEnd) (hc : le16 s q + le16 s (q + 2) = 65535)
    (he : copyStored (le16 s q) (storedData final q s) = .error e) (hb : RaisedAt c (8 * b) (storedData final q s) e) :
    ∃ t, exec (.storedBlock final) s = .next t ∧ t = { fail c b 0 s with inf := t.inf } ∧ t.inf.phase = .failed ∧
      t.inf.bitpos = 8 * b := by
  refine ⟨e, ?_, (hb.of_frame (s := s) ⟨_, _, rfl⟩).outcome_byte⟩
  rw [exec_stored_of_fields hq hr, if_pos hc, he]
  rfl

/-- R195: a stored block whose LEN or NLEN the region cuts off. -/
theorem exec_stored_cut {final : Bool} {s : State} {q p : Nat} (hq : q = (s.inf.bitpos + 7) / 8)
    (hr : s.inf.regionEnd < q + 4) (hp : p = if s.inf.regionEnd < q + 2 then q else q + 2) :
    ∃ t, exec (.storedBlock final) s = .next t ∧ t = { fail .inputOverrun p 0 s with inf := t.inf } ∧
      t.inf.phase = .failed ∧ t.inf.bitpos = 8 * p := by
  have hend : (enterBlock final 0 .stored s).inf.regionEnd = s.inf.regionEnd := rfl
  obtain ⟨e, he, hraised⟩ := storedBody_cut (s := enterBlock final 0 .stored s) (p := 8 * q)
    (by rw [hq, Nat.mul_comm]; rfl) (by omega)
  have hat : (if 8 * (enterBlock final 0 .stored s).inf.regionEnd < 8 * q + 16 then 8 * q else 8 * q + 16) = 8 * p := by
    by_cases h2 : s.inf.regionEnd < q + 2
    · rw [hp, if_pos h2, if_pos (by omega)]
    · rw [hp, if_neg h2, if_neg (by omega)]
      omega
  rw [hat] at hraised
  exact ⟨e, congrArg settle he, hraised.of_enterBlock.outcome_byte⟩

/-- Settles O41: by what the copy of the data does, and `exec_stored_cut` where there are no length fields. -/
theorem storedBlock : Obligations.StoredBlock := by
  intro final s q len room avail hq hlen hdest hroom havail
  subst hlen
  refine ⟨fun hr hc hin hfit => ?_, fun hr p hp => exec_stored_cut hq hr hp, fun hr hne => ?_,
    fun hr hc hcut hfit => ?_, fun hr hc hfull hin => ?_⟩
  · obtain ⟨u, hu⟩ := copyStored_room (n := le16 s q) (s := storedData final q s)
      (by simp only [storedData_destLen, storedData_destCap]; omega)
      (by simp only [storedData_bitpos, storedData_regionEnd]; omega)
    exact ⟨endBlock u, exec_stored_copied hq hr hc hu, endBlock_of_copyStored hu,
      fun k hk => (outByte_endBlock u _).trans (outByte_of_copyStored hu hk),
      fun a ha => (outByte_endBlock u a).trans ((copyStored_eq_ok hu).1.outByte_others ha)⟩
  · rw [exec_stored_of_fields hq hr, if_neg hne]
    rfl
  · obtain ⟨e, he, hraised⟩ := copyStored_cut (k := avail) (s := storedData final q s) hcut
      (by simp only [storedData_destLen, storedData_destCap]; omega)
      (by simp only [storedData_bitpos, storedData_regionEnd]; omega)
      (by simp only [storedData_bitpos, storedData_regionEnd]; omega)
    rw [storedData_bitpos, ← Nat.mul_add, havail, Nat.add_sub_cancel' hr] at hraised
    exact exec_stored_raised hq hr hc he hraised
  · obtain ⟨e, he, hraised⟩ := copyStored_full (k := room) (s := storedData final q s) hfull
      (by simp only [storedData_destLen, storedData_destCap]; omega)
      (by simp only [storedData_bitpos, storedData_regionEnd]; omega)
    rw [storedData_bitpos, ← Nat.mul_add, ← Nat.mul_succ] at hraised
    exact exec_stored_raised hq hr hc he hraised

end Sys2Proof.Machine
end

section
/-! PROOFS. The dynamic header (R197, R200, R201): what the instruction does, read off what `dynamicHeader` does after
the block's flags are written. -/

namespace Sys2Proof.Machine

theorem exec_dynamicBlock (final : Bool) (s : State) :
    exec (.dynamicBlock final) s = settle (dynamicHeader (enterBlock final 2 .dynamic s)) := rfl

/-- R200: the block's flags do not bear on HLIT_RANGE. -/
theorem hlitRejected_enterBlock {final : Bool} {s : State} : hlitRejected (enterBlock final 2 .dynamic s) ↔
    286 < bitField s s.inf.bitpos 5 + 257 ∧ s.params.acceptHlitOver286 = false := by
  rw [hlitRejected, bitField_enterBlock]
  rfl

theorem not_hlitRejected_enterBlock {final : Bool} {s : State}
    (h : bitField s s.inf.bitpos 5 + 257 ≤ 286 ∨ s.params.acceptHlitOver286 = true) :
    ¬ hlitRejected (enterBlock final 2 .dynamic s) := by
  rw [hlitRejected_enterBlock]
  rcases h with hle | hacc
  · exact fun hx => Nat.not_lt.mpr hle hx.1
  · exact fun hx => Bool.noConfusion (hacc.symm.trans hx.2)

/-- R200, R201: the state after the header as an update of the state before it. -/
theorem withHeader_eq (s : State) : withHeader s = { s with
    run := .busy .codeLength
    inf := { s.inf with
      bitpos := s.inf.bitpos + 14 + 3 * (bitField s (s.inf.bitpos + 10) 4 + 4)
      hlit := bitField s s.inf.bitpos 5 + 257, hdist := bitField s (s.inf.bitpos + 5) 5 + 1
      hclen := bitField s (s.inf.bitpos + 10) 4 + 4
      cl := (withHeader s).inf.cl, clt := buildTree (withHeader s).inf.cl, lengths := [] } } := by
  rw [withHeader_cl]
  simp only [withHeader, withCounts, goTo, buildClt, putCounts, setBitpos]

/-- Settles O43: by `dynamicHeader_ok`, `dynamicHeader_rejected` and `dynamicHeader_cut`. -/
theorem dynamicBlock : Obligations.DynamicBlock := by
  intro final s b hlit hdist hclen hb hhlit hhdist hhclen
  subst hb hhlit hhdist hhclen
  refine ⟨fun hr hacc => ?_, fun hr hover hrej => ?_, fun p hp => ?_⟩
  · refine ⟨(withHeader (enterBlock final 2 .dynamic s)).inf.cl, ?_, fun k sym hk => ?_, ?_⟩
    · rw [withHeader_cl, placedLengths_length, List.length_replicate]
    · rw [withHeader_cl_at _ hk]
      simp only [bitField_enterBlock, enterBlock_inf]
    · rw [exec_dynamicBlock, dynamicHeader_ok (not_hlitRejected_enterBlock hacc) hr, settle_ok]
      refine congrArg Host.Outcome.next ((withHeader_eq _).trans ?_)
      simp only [bitField_enterBlock, enterBlock_inf]
      rfl
  · rw [exec_dynamicBlock, dynamicHeader_rejected (hlitRejected_enterBlock.mpr ⟨hover, hrej⟩) hr, settle_error]
    simp only [withCounts, bitField_enterBlock, enterBlock_inf]
    rfl
  · obtain ⟨e, he, hraised⟩ := dynamicHeader_cut (s := enterBlock final 2 .dynamic s) (p := p) (by
      rcases hp with h | h | h | ⟨k, hk, hkp, h1, h2, hacc⟩
      · exact .inl h
      · exact .inr (.inl h)
      · exact .inr (.inr (.inl h))
      · exact .inr (.inr (.inr ⟨k, hk, hkp, h1, h2, not_hlitRejected_enterBlock hacc⟩)))
    exact ⟨e, congrArg settle he, hraised.of_enterBlock.outcome⟩

end Sys2Proof.Machine
end

section
/-! PROOFS. The fixed and the reserved block (R194, R196), the literals and the end of a block (R198, R199), and the
symbols that name no literal, length or distance (R207, R209). -/

namespace Sys2Proof.Machine

/-- Settles O42: by evaluation. -/
theorem fixedAndReservedBlocks : Obligations.FixedAndReservedBlocks := fun _ _ => ⟨rfl, rfl⟩

/-- R198: a literal is one PutByte. -/
theorem exec_lit_ok {byte : Nat} {s : State} (h : s.inf.destLen ≠ s.inf.destCap) :
    exec (.lit byte) s = .next (goTo .litLen (withByte (BitVec.ofNat 8 byte) s)) := by
  simp only [exec, execLit, bind, Except.bind, putByte_ok h, settle_ok]

theorem exec_lit_full {byte : Nat} {s : State} (h : s.inf.destLen = s.inf.destCap) :
    exec (.lit byte) s = .next (failInflate .outputOverrun s) := by
  simp only [exec, execLit, bind, Except.bind, putByte_full h, settle_error]

/-- Settles O44: a literal by what PutByte does, the end of a block by `endBlock_eq`. -/
theorem literalAndEndOfBlock : Obligations.LiteralAndEndOfBlock := by
  refine ⟨fun byte s _ hroom => ?_, fun byte s _ hfull => exec_lit_full hfull, fun s hf => ?_, fun s hf => ?_⟩
  · exact ⟨_, exec_lit_ok hroom, rfl, outByte_withByte_same _ s, fun a ha => outByte_withByte_ne ha⟩
  · exact congrArg Host.Outcome.next ((endBlock_eq s).trans (by rw [hf]; rfl))
  · exact congrArg Host.Outcome.next ((endBlock_eq s).trans (by rw [hf]; rfl))

/-- Settles O47: symbol by symbol. -/
theorem invalidSymbols : Obligations.InvalidSymbols := by
  refine ⟨fun i hi s => ?_, fun i hi s => ?_⟩
  · obtain rfl | rfl : i = .invalidLitLen286 ∨ i = .invalidLitLen287 := by
      simpa only [List.mem_cons, List.not_mem_nil, or_false] using hi
    · rfl
    · rfl
  · obtain rfl | rfl : i = .invalidDist30 ∨ i = .invalidDist31 := by
      simpa only [List.mem_cons, List.not_mem_nil, or_false] using hi
    · rfl
    · rfl

end Sys2Proof.Machine
end

section
/-! PROOFS. The distance symbols (R108, R207, R208): what each of them does, by symbol. -/

namespace Sys2Proof.Machine

theorem matchDistance_overrun {d : Nat} {s : State} (hne : distExtra.getD d 0 ≠ 0)
    (hover : 8 * s.inf.regionEnd < s.inf.bitpos + distExtra.getD d 0) :
    matchDistance d s = .error (failInflate .inputOverrun s) := by
  simp only [matchDistance, bind, Except.bind, readBits_overrun hne hover]

theorem matchDistance_tooFar {d : Nat} {s : State}
    (hr : distExtra.getD d 0 = 0 ∨ s.inf.bitpos + distExtra.getD d 0 ≤ 8 * s.inf.regionEnd)
    (hfar : s.inf.destLen < distanceAt d s) :
    matchDistance d s = .error (failInflate .distTooFar (setBitpos (s.inf.bitpos + distExtra.getD d 0) s)) := by
  rw [distanceAt] at hfar
  simp only [matchDistance, bind, Except.bind, readBits_ok_of_zero_or_le hr]
  exact if_pos hfar

/-- R108: every distance is at least 1. -/
theorem distanceAt_pos {d : Nat} (hd : d < 30) (s : State) : 0 < distanceAt d s :=
  Nat.lt_of_lt_of_le ((by decide : ∀ k : Fin 30, 0 < distBase.getD k 0) ⟨d, hd⟩) (Nat.le_add_right _ _)

/-- R207, R208: a match that fits the destination. -/
theorem exec_dist_copied {d : Nat} {x : Instr} (hx : distInstrs[d]? = some x) (hd : d < 30) {s : State}
    (hr : distExtra.getD d 0 = 0 ∨ s.inf.bitpos + distExtra.getD d 0 ≤ 8 * s.inf.regionEnd)
    (hnear : distanceAt d s ≤ s.inf.destLen) (hroom : s.inf.destLen + s.inf.matchLen ≤ s.inf.destCap) :
    ∃ t, exec x s = .next t ∧
      t = { s with
        run := .busy .litLen, outMem := t.outMem
        inf := { s.inf with
          bitpos := s.inf.bitpos + distExtra.getD d 0, destLen := s.inf.destLen + s.inf.matchLen } } ∧
      (∀ k, k < s.inf.matchLen →
        outByte t (s.inf.destLen + k) = outByte t (s.inf.destLen + k - distanceAt d s)) ∧
      ∀ a, a < s.inf.destLen ∨ s.inf.destLen + s.inf.matchLen ≤ a → outByte t a = outByte s a := by
  obtain ⟨u, hu⟩ := copyBack_room (dist := distanceAt d s)
    (s := setBitpos (s.inf.bitpos + distExtra.getD d 0) s) hroom
  obtain ⟨happ, hpos⟩ := copyBack_eq_ok hu
  have hrest := happ.rest
  rw [hpos] at hrest
  refine ⟨goTo .litLen u, ?_, ?_, fun k hk => copyBack_bytes hu (distanceAt_pos hd s) hnear hk,
    fun a ha => happ.outByte_others ha⟩
  · rw [exec_distInstr hx hd, matchDistance_ok hr hnear hu, settle_ok]
  · rw [hrest]
    rfl

/-- R208, R193: a match that does not. -/
theorem exec_dist_full {d : Nat} {x : Instr} (hx : distInstrs[d]? = some x) (hd : d < 30) {s : State}
    (hr : distExtra.getD d 0 = 0 ∨ s.inf.bitpos + distExtra.getD d 0 ≤ 8 * s.inf.regionEnd)
    (hnear : distanceAt d s ≤ s.inf.destLen) (hcap : s.inf.destLen ≤ s.inf.destCap)
    (hfull : s.inf.destCap < s.inf.destLen + s.inf.matchLen) :
    ∃ t, exec x s = .next t ∧ RaisedAt .outputOverrun (s.inf.bitpos + distExtra.getD d 0) s t := by
  obtain ⟨e, he, hraised⟩ := matchDistance_full (k := s.inf.destCap - s.inf.destLen) hr hnear (by omega) (by omega)
  exact ⟨e, by rw [exec_distInstr hx hd, he, settle_error], hraised⟩

/-- R108: the row's instruction, symbol, number of extra bits and base are those of one distance symbol below 30. -/
def IsDistRow (row : Instr × Nat × Nat × Nat) : Prop :=
  row.2.1 < 30 ∧ distInstrs[row.2.1]? = some row.1 ∧ distExtra.getD row.2.1 0 = row.2.2.1 ∧
    distBase.getD row.2.1 0 = row.2.2.2

/-- Settles O46: each row is one distance symbol, and a match by what `matchDistance` does. -/
theorem distanceSymbols : Obligations.DistanceSymbols := by
  intro row hrow
  have hindex : IsDistRow row := by
    revert row
    unfold IsDistRow
    decide
  obtain ⟨hd, hx, hextra, hbase⟩ := hindex
  refine ⟨by rw [decode, decodeDist, hx], fun s dist p hdist hp => ?_⟩
  rw [← hextra, ← hbase] at hdist
  rw [← hextra] at hp ⊢
  subst hdist hp
  refine ⟨fun hne hover => ?_, fun hr => ⟨fun hfar => ?_, exec_dist_copied hx hd hr, fun hnear hcap hfull => ?_⟩⟩
  · rw [exec_distInstr hx hd, matchDistance_overrun hne hover, settle_error]
  · rw [exec_distInstr hx hd, matchDistance_tooFar hr hfar, settle_error]
    rfl
  · obtain ⟨t, ht, hraised⟩ := exec_dist_full hx hd hr hnear hcap hfull
    exact ⟨t, ht, hraised.outcome⟩

end Sys2Proof.Machine
end

section
/-! PROOFS. The code-length sequence (R202-R206): a length or a run appended, and the run's failures. -/

namespace Sys2Proof.Machine

/-- R202, R206: appending lengths is what the statements call it. -/
theorem lengthsAppended (new : List Nat) (s : State) : LengthsAppended new s (appendLengths new s) :=
  ⟨fun h => appendLengths_more h, fun h => appendLengths_last h⟩

/-- Settles O48: by `lengthsAppended`. -/
theorem codeLengthLiteral : Obligations.CodeLengthLiteral := fun n s _ =>
  ⟨appendLengths [n] s, rfl, lengthsAppended [n] s⟩

/-- R203-R205: the row's instruction repeats the length `v`, `base` plus its extra bits times. -/
def IsRun (i : Instr) (bits base v : Nat) (s : State) : Prop :=
  (i = .clRepeat ∧ bits = 2 ∧ base = 3 ∧ s.inf.lengths.getLast? = some v) ∨
    (i = .clZerosShort ∧ bits = 3 ∧ base = 3 ∧ v = 0) ∨ (i = .clZerosLong ∧ bits = 7 ∧ base = 11 ∧ v = 0)

theorem IsRun.exec_eq {i : Instr} {bits base v : Nat} {s : State} (h : IsRun i bits base v s) :
    exec i s = settle (appendRun v base bits s) := by
  rcases h with ⟨rfl, rfl, rfl, hv⟩ | ⟨rfl, rfl, rfl, rfl⟩ | ⟨rfl, rfl, rfl, rfl⟩
  · simp only [exec, execClRepeat, hv]
  · rfl
  · rfl

theorem IsRun.bits_ne_zero {i : Instr} {bits base v : Nat} {s : State} (h : IsRun i bits base v s) : bits ≠ 0 := by
  rcases h with ⟨-, rfl, -⟩ | ⟨-, rfl, -⟩ | ⟨-, rfl, -⟩ <;> decide

/-- Settles O49: a run by the three things `appendRun` can do. -/
theorem codeLengthRuns : Obligations.CodeLengthRuns := by
  refine ⟨fun s hnone => ?_, fun i bits base v n s hrun hn => ?_⟩
  · simp only [exec, execClRepeat, hnone, List.getLast?_nil]
  · have hrun : IsRun i bits base v s := hrun
    have hbits := hrun.bits_ne_zero
    rw [hrun.exec_eq, hn]
    rcases appendRun_cases v base bits s with ⟨hr, hfits, e⟩ | ⟨hr, hover, e⟩ | ⟨hr, e⟩ <;> rw [e]
    · exact ⟨fun _ _ => ⟨_, rfl, lengthsAppended _ _⟩, fun _ h => absurd hfits (Nat.not_le.mpr h),
        fun h => by omega⟩
    · exact ⟨fun _ h => absurd hover (Nat.not_lt.mpr h), fun _ _ => rfl, fun h => by omega⟩
    · exact ⟨fun h _ => by omega, fun h _ => by omega, fun _ => rfl⟩

end Sys2Proof.Machine
end

section
/-! PROOFS. A step of the core where it reads an instruction (R191, R175, R178, R262, R272, R275, R300): what is fetched
at each place, and the step that follows. -/

namespace Sys2Proof.Machine

/-- R300: an accepted command. -/
theorem fetchCommand_of_decode {s : State} {i : Instr} (h : decode .cmd s.regs.cmdOp.toNat = .ok i) :
    fetchCommand s = .run i s := by
  have hlt : s.regs.cmdOp.toNat < 2 ^ 32 := Nat.lt_of_lt_of_le s.regs.cmdOp.isLt (by decide)
  rw [decode, if_pos hlt, BitVec.ofNat_toNat] at h
  cases h
  rfl

/-! ### Block headers (R191) -/

/-- R103, R191: the three bits of a header are BFINAL and the field of BTYPE. -/
theorem bitField_blockHdr (s : State) (p : Nat) :
    bitField s p 3 = (decide (bitAt s p = 1)).toNat + 2 * bitField s (p + 1) 2 := by
  have hbit := bitAt_lt_two s p
  rcases (by omega : bitAt s p = 0 ∨ bitAt s p = 1) with h | h
  · rw [bitField, h]; rfl
  · rw [bitField, h]; rfl

/-- R191: the three bits inside the region. -/
theorem fetchBlockHdr_of_decode {s : State} {i : Instr} (hr : s.inf.bitpos + 3 ≤ 8 * s.inf.regionEnd)
    (h : decode .blockHdr (bitField s s.inf.bitpos 3) = .ok i) : fetchBlockHdr s = .run i (withBlockHdr s) := by
  have hlt : bitField s s.inf.bitpos 3 < 8 := bitField_lt s _ 3
  rw [decode, if_pos hlt, bitField_blockHdr] at h
  cases h
  simp only [fetchBlockHdr, readBlockHdr_ok hr]
  rfl

/-- R191: BFINAL is missing. -/
theorem fetchBlockHdr_cut {s : State} (hr : 8 * s.inf.regionEnd < s.inf.bitpos + 1) :
    fetchBlockHdr s = .internal (failInflate .inputOverrun s) := by
  rcases readBfinal_cases s with ⟨hle, -⟩ | ⟨-, e⟩
  · omega
  · simp only [fetchBlockHdr, readBlockHdr, bind, Except.bind, e]

/-- R191: BFINAL is there, and BTYPE is cut off. -/
theorem fetchBlockHdr_cut_type {s : State} (h1 : s.inf.bitpos + 1 ≤ 8 * s.inf.regionEnd)
    (h3 : 8 * s.inf.regionEnd < s.inf.bitpos + 3) :
    fetchBlockHdr s = .internal (failInflate .inputOverrun { s with inf := { s.inf with
      bitpos := s.inf.bitpos + 1, bfinal := decide (bitAt s s.inf.bitpos = 1) } }) := by
  rcases readBfinal_cases s with ⟨-, e⟩ | ⟨hlt, -⟩
  · have hover := readBits_overrun (n := 2) (s := { s with inf := { s.inf with
      bitpos := s.inf.bitpos + 1, bfinal := decide (bitField s s.inf.bitpos 1 = 1) } }) (by decide) h3
    simp only [fetchBlockHdr, readBlockHdr, bind, Except.bind, e, hover]
    rfl
  · omega

/-! ### Symbols (R175, R178) -/

/-- R178: the tree in use at a place where a symbol is decoded, and the symbol's format. -/
def SymbolPlace (s : State) (a : Activity) (f : Format) (tree : Tree) : Prop :=
  (a = .codeLength ∧ f = .codeLen ∧ tree = s.inf.clt) ∨
    (a = .litLen ∧ f = .litLen ∧ tree = if s.inf.phase = .fixed then ltFixed else s.inf.ltDyn) ∨
    (a = .distance ∧ f = .dist ∧ tree = if s.inf.phase = .fixed then dtFixed else s.inf.dtDyn)

theorem litLenTree_eq (s : State) : litLenTree s = if s.inf.phase = .fixed then ltFixed else s.inf.ltDyn := by
  unfold litLenTree
  split
  · next h => rw [if_pos h]
  · next h => rw [if_neg h]

theorem distTree_eq (s : State) : distTree s = if s.inf.phase = .fixed then dtFixed else s.inf.dtDyn := by
  unfold distTree
  split
  · next h => rw [if_pos h]
  · next h => rw [if_neg h]

theorem SymbolPlace.fetch_eq {s : State} {a : Activity} {f : Format} {tree : Tree} (h : SymbolPlace s a f tree) :
    fetch a s = fetchSymbol f (decodeSym tree s) := by
  rcases h with ⟨rfl, rfl, rfl⟩ | ⟨rfl, rfl, rfl⟩ | ⟨rfl, rfl, rfl⟩
  · rfl
  · rw [fetch, litLenTree_eq]
  · rw [fetch, distTree_eq]

theorem fetchSymbol_of_decode {f : Format} {v : Nat} {i : Instr} {t : State} (h : decode f v = .ok i) :
    fetchSymbol f (.ok (some v, t)) = .run i t := by
  simp only [fetchSymbol, h]

/-! ### ZIP records (R262, R272, R275) -/

theorem fetchEocd_of_signature {s : State} (h : le32 s s.zip.scanPos = 0x06054B50) : fetchEocd s = .run .eocd s := by
  rcases fetchEocd_cases s with ⟨-, e⟩ | ⟨hne, -⟩ | ⟨hne, -⟩
  · exact e
  · exact absurd h hne
  · exact absurd h hne

theorem fetchCdh_of_signature {s : State} (hr : s.zip.cdCursor + 46 ≤ inLen s)
    (h : le32 s s.zip.cdCursor = 0x02014B50) : fetchCdh s = .run .cdh s := by
  rcases fetchCdh_cases s with ⟨hoob, -⟩ | ⟨-, -, e⟩ | ⟨-, hne, -⟩
  · exact absurd hr (Nat.not_le.mpr hoob)
  · exact e
  · exact absurd h hne

theorem fetchLfh_of_signature {s : State} (hr : s.zip.lfhPos + 30 ≤ inLen s)
    (h : le32 s s.zip.lfhPos = 0x04034B50) : fetchLfh s = .run .lfh s := by
  rcases fetchLfh_cases s with ⟨hoob, -⟩ | ⟨-, -, e⟩ | ⟨-, hne, -⟩
  · exact absurd hr (Nat.not_le.mpr hoob)
  · exact e
  · exact absurd h hne

/-- Settles O16: by what is fetched at each place. -/
theorem stepRunsDecodedInstruction : Obligations.StepRunsDecodedInstruction := by
  intro s hops
  rw [step_of_script_nil hops]
  refine ⟨fun i hrun hi => coreStep_run hrun (fetchCommand_of_decode hi),
    fun i hrun hr hi => coreStep_run hrun (fetchBlockHdr_of_decode hr hi),
    fun hrun hr => coreStep_internal hrun (fetchBlockHdr_cut hr),
    fun hrun h1 h3 => coreStep_internal hrun (fetchBlockHdr_cut_type h1 h3), fun a f tree hplace hrun => ?_,
    fun hrun h => coreStep_run hrun (fetchEocd_of_signature h),
    fun hrun hr h => coreStep_run hrun (fetchCdh_of_signature hr h),
    fun hrun hr h => coreStep_run hrun (fetchLfh_of_signature hr h)⟩
  have hfetch := SymbolPlace.fetch_eq hplace
  refine ⟨fun v i t hsym hi => coreStep_run hrun ?_, fun t hsym => coreStep_internal hrun ?_⟩
  · rw [hfetch, hsym, fetchSymbol_of_decode hi]
  · rw [hfetch, hsym]
    rfl

end Sys2Proof.Machine
end

section
/-! PROOFS. The CRC-32 engine (R240-R244): a single-bit shift is linear over `^` and injective, and a table step is
eight of them on the accumulator with the byte xored in; so a run keeps apart what one byte told apart. -/

namespace Sys2Proof.Machine

/-! ### The single-bit shift (R240): linear over `^`, and injective -/

theorem crcShift_eq (c : Word) :
    crcShift c = (if c.getLsbD 0 then 0xEDB88320#32 else 0#32) ^^^ (c >>> 1) := by
  unfold crcShift
  split
  · rfl
  · exact BitVec.zero_xor.symm

theorem ite_xor_ite_word (p : Word) (b b' : Bool) :
    (if b ^^ b' then p else 0#32) = (if b then p else 0#32) ^^^ (if b' then p else 0#32) := by
  cases b <;> cases b' <;> simp

theorem crcShift_xor (c d : Word) : crcShift (c ^^^ d) = crcShift c ^^^ crcShift d := by
  simp only [crcShift_eq, BitVec.getLsbD_xor, BitVec.ushiftRight_xor_distrib]
  rw [ite_xor_ite_word]
  ac_rfl

/-- The polynomial has bit 31 and `c >>> 1` has not: the bit shifted out is kept there. -/
theorem crcShift_getLsbD_last (c : Word) : (crcShift c).getLsbD 31 = c.getLsbD 0 := by
  rw [crcShift_eq]
  cases c.getLsbD 0 <;> simp [BitVec.getLsbD_of_ge]

theorem crcShift_injective : Function.Injective crcShift := by
  intro c d h
  have hlow : c.getLsbD 0 = d.getLsbD 0 := by rw [← crcShift_getLsbD_last, h, crcShift_getLsbD_last]
  have hhigh : c >>> 1 = d >>> 1 := by
    simpa only [crcShift_eq, hlow, BitVec.xor_right_inj] using h
  refine BitVec.eq_of_getLsbD_eq fun i _ => ?_
  cases i with
  | zero => exact hlow
  | succ j => simpa [Nat.add_comm] using congrArg (·.getLsbD j) hhigh

theorem crcShifts_xor (k : Nat) (c d : Word) : crcShifts k (c ^^^ d) = crcShifts k c ^^^ crcShifts k d := by
  induction k generalizing c d with
  | zero => rfl
  | succ k ih => simp only [crcShifts, crcShift_xor, ih]

theorem crcShifts_injective (k : Nat) : Function.Injective (crcShifts k) := by
  induction k with
  | zero => exact fun _ _ h => h
  | succ k ih => exact ih.comp crcShift_injective

/-- Where the low `k` bits are 0, no shift folds the polynomial in. -/
theorem crcShifts_of_low_zero {k : Nat} {c : Word} (h : ∀ i, i < k → c.getLsbD i = false) :
    crcShifts k c = c >>> k := by
  induction k generalizing c with
  | zero => exact (BitVec.ushiftRight_zero c).symm
  | succ k ih =>
    have hshift : crcShift c = c >>> 1 := by
      rw [crcShift, if_neg (by simp only [h 0 (Nat.zero_lt_succ k), Bool.false_eq_true, not_false_eq_true])]
    rw [crcShifts, hshift, ih fun i hi => ?_, ← BitVec.shiftRight_add, Nat.add_comm]
    rw [BitVec.getLsbD_ushiftRight]
    exact h _ (by omega)

/-! ### The step of a byte (R241) -/

/-- R240, R241: the table does 8 shifts at once. Only the low byte can fold the polynomial in; the rest moves down. -/
theorem crcShifts_eight (x : Word) : crcShifts 8 x = crcTable (x &&& 0xFF).toNat ^^^ (x >>> 8) := by
  have hlow (i : Nat) (hi : i < 8) : (x ^^^ (x &&& 0xFF)).getLsbD i = false := by
    have hmask : ∀ i, i < 8 → (0xFF : Word).getLsbD i = true := by decide
    simp only [BitVec.getLsbD_xor, BitVec.getLsbD_and, hmask i hi, Bool.and_true, Bool.xor_self]
  have hhigh : (x ^^^ (x &&& 0xFF)) >>> 8 = x >>> 8 := by
    have hmask : (0xFF : Word) >>> 8 = 0#32 := by decide
    rw [BitVec.ushiftRight_xor_distrib, BitVec.ushiftRight_and_distrib, hmask, BitVec.and_zero, BitVec.xor_zero]
  calc crcShifts 8 x
    _ = crcShifts 8 ((x &&& 0xFF) ^^^ (x ^^^ (x &&& 0xFF))) := by
      rw [BitVec.xor_comm x, ← BitVec.xor_assoc, BitVec.xor_self, BitVec.zero_xor]
    _ = crcTable (x &&& 0xFF).toNat ^^^ (x >>> 8) := by
      rw [crcShifts_xor, crcShifts_of_low_zero hlow, hhigh, crcTable, BitVec.ofNat_toNat, BitVec.setWidth_eq]

theorem crcStep_eq_shifts (crc : Word) (b : Byte) : crcStep crc b = crcShifts 8 (crc ^^^ b.setWidth 32) := by
  have hbyte : (b.setWidth 32 : Word) >>> 8 = 0#32 := by
    ext i; simp
  rw [crcShifts_eight, BitVec.ushiftRight_xor_distrib, hbyte, BitVec.xor_zero, crcStep]

theorem crcStep_inj {crc crc' : Word} {b b' : Byte} :
    crcStep crc b = crcStep crc' b' ↔ crc ^^^ b.setWidth 32 = crc' ^^^ b'.setWidth 32 := by
  rw [crcStep_eq_shifts, crcStep_eq_shifts, (crcShifts_injective 8).eq_iff]

theorem crcStep_injective_acc (b : Byte) : Function.Injective (crcStep · b) :=
  fun _ _ h => BitVec.xor_left_inj _ |>.mp (crcStep_inj.mp h)

theorem crcStep_injective_byte (crc : Word) : Function.Injective (crcStep crc) := by
  intro b b' h
  have hw : b.setWidth 32 = b'.setWidth 32 := (BitVec.xor_right_inj crc).mp (crcStep_inj.mp h)
  simpa using congrArg (BitVec.setWidth 8) hw

/-! ### The run over a range of bytes (R241, R244) -/

theorem crcRun_add (read : Nat → Byte) (a m n : Nat) (crc : Word) :
    crcRun read a (m + n) crc = crcRun read (a + m) n (crcRun read a m crc) := by
  induction m generalizing a crc with
  | zero => rw [Nat.zero_add]; rfl
  | succ m ih => rw [Nat.succ_add, crcRun, ih, crcRun, Nat.succ_add_eq_add_succ]

theorem crcRun_congr {read read' : Nat → Byte} {a a' n : Nat} (h : ∀ k, k < n → read (a + k) = read' (a' + k))
    (crc : Word) : crcRun read a n crc = crcRun read' a' n crc := by
  induction n generalizing a a' crc with
  | zero => rfl
  | succ n ih =>
    have hhead : read a = read' a' := h 0 (Nat.zero_lt_succ n)
    rw [crcRun, crcRun, hhead]
    refine ih (fun k hk => ?_) _
    simpa only [Nat.add_assoc, Nat.add_comm 1] using h (k + 1) (Nat.succ_lt_succ hk)

theorem crcRun_injective (read : Nat → Byte) (a n : Nat) : Function.Injective (crcRun read a n) := by
  induction n generalizing a with
  | zero => exact fun _ _ h => h
  | succ n ih => exact (ih (a + 1)).comp (crcStep_injective_acc (read a))

/-- R244: two sequences that differ in one byte have different running values: they agree up to that byte, its step
tells the two bytes apart, and the bytes behind it are the same. -/
theorem crcRun_ne_of_one_byte {read read' : Nat → Byte} {a n k : Nat} (hk : k < n)
    (hdiff : read (a + k) ≠ read' (a + k)) (hsame : ∀ j, j < n → j ≠ k → read (a + j) = read' (a + j))
    (crc : Word) : crcRun read a n crc ≠ crcRun read' a n crc := by
  obtain ⟨r, rfl⟩ : ∃ r, n = k + (r + 1) := ⟨n - k - 1, by omega⟩
  have hbefore : crcRun read a k crc = crcRun read' a k crc :=
    crcRun_congr (fun j hj => hsame j (by omega) (by omega)) crc
  have hafter (c : Word) : crcRun read (a + k + 1) r c = crcRun read' (a + k + 1) r c := by
    refine crcRun_congr (fun j hj => ?_) c
    simpa only [Nat.add_assoc] using hsame (k + (1 + j)) (by omega) (by omega)
  rw [crcRun_add read a k, crcRun_add read' a k, hbefore, crcRun, crcRun, hafter]
  exact fun h => hdiff (crcStep_injective_byte _ (crcRun_injective _ _ _ h))

/-- A one-bit mask that lies within the byte is not 0, so xoring it in changes the byte. -/
theorem byte_xor_bit_ne (x : Byte) {b : Nat} (hb : b < 8) : x ≠ x ^^^ (1#8 <<< b) := by
  intro h
  have hbit := congrArg (·.getLsbD b) h
  simp [hb] at hbit

/-- Settles O40: the accumulators before the complement differ. -/
theorem crcDetectsOneBit : Obligations.CrcDetectsOneBit := by
  intro read read' a n k b hk hb hflip hsame heq
  have hdiff : read (a + k) ≠ read' (a + k) := hflip ▸ byte_xor_bit_ne _ hb
  exact crcRun_ne_of_one_byte hk hdiff (fun j hj hne => (hsame j hj hne).symm) _ (BitVec.not_inj.mp heq)

/-- Settles O39: by induction on the bytes before the cut, and on the bytes. -/
theorem crcConcatenation : Obligations.CrcConcatenation := by
  refine ⟨fun read a m n => ?_, fun read read' a a' n h => ?_, fun _ _ => by simp [crc32, crcAcc, crcRun]⟩
  · rw [crc32, crcAcc, crcRun_add]
  · rw [crc32, crc32, crcAcc, crcAcc, crcRun_congr h]

/-- Settles O38: R240's shifts and R241's loop, run on the listed inputs. -/
theorem crcValues : Obligations.CrcValues := by
  unfold Obligations.CrcValues
  decide +kernel

end Sys2Proof.Machine
end

section
/-! PROOFS. The name lookup (R279): it answers with the last record that has the name, or with none. -/

namespace Sys2Proof.Machine

theorem nameMatches_iff_hasName (s : State) (e : Entry) : nameMatches s e = true ↔ HasName s e := by
  rw [nameMatches_iff, HasName]
  exact and_congr_right fun hlen => by rw [hlen]

theorem lookupFrom_eq_none {s : State} {k : Nat} {es : List Entry} :
    lookupFrom s k es = none ↔ ∀ e ∈ es, ¬ HasName s e := by
  induction es generalizing k with
  | nil => simp [lookupFrom]
  | cons x es ih =>
    rw [List.forall_mem_cons, ← ih (k := k + 1), ← nameMatches_iff_hasName, lookupFrom]
    cases lookupFrom s (k + 1) es with
    | some r => simp
    | none => simp

/-- No record behind the one found has the name. -/
theorem not_hasName_of_lookupFrom {s : State} {es : List Entry} {k i j : Nat} {e e' : Entry}
    (h : lookupFrom s k es = some (k + i, e)) (hij : i < j) (he' : es[j]? = some e') : ¬ HasName s e' := by
  induction es generalizing k i j with
  | nil => cases h
  | cons x es ih =>
    obtain ⟨j, rfl⟩ : ∃ m, j = m + 1 := ⟨j - 1, by omega⟩
    rw [List.getElem?_cons_succ] at he'
    cases hrest : lookupFrom s (k + 1) es with
    | none => exact lookupFrom_eq_none.mp hrest e' (List.mem_of_getElem? he')
    | some r =>
      simp only [lookupFrom, hrest] at h
      cases h
      have hle : k + 1 ≤ k + i := (lookupFrom_eq_some hrest).1
      obtain ⟨i, rfl⟩ : ∃ m, i = m + 1 := ⟨i - 1, by omega⟩
      rw [← Nat.add_assoc, Nat.add_right_comm] at hrest
      exact ih hrest (by omega) he'

/-- R279: record `k` of the table is `e`, it has the name, and no later record has it. -/
def IsLastNamed (s : State) (k : Nat) (e : Entry) : Prop :=
  s.ft[k]? = some e ∧ HasName s e ∧ ∀ j e', k < j → s.ft[j]? = some e' → ¬ HasName s e'

theorem isLastNamed_of_lookup {s : State} {k : Nat} {e : Entry} (h : lookup s = some (k, e)) :
    IsLastNamed s k e := by
  obtain ⟨hk, hname⟩ := lookup_eq_some h
  rw [lookup, ← Nat.zero_add k] at h
  exact ⟨hk, (nameMatches_iff_hasName s e).mp hname, fun j e' => not_hasName_of_lookupFrom h⟩

/-- At most one index is the last. -/
theorem IsLastNamed.unique {s : State} {k k' : Nat} {e e' : Entry} (h : IsLastNamed s k e)
    (h' : IsLastNamed s k' e') : k = k' ∧ e = e' := by
  obtain ⟨hk, hname, hlast⟩ := h
  obtain ⟨hk', hname', hlast'⟩ := h'
  have hkk : k = k' := by
    rcases Nat.lt_trichotomy k k' with hlt | heq | hgt
    · exact absurd hname' (hlast k' e' hlt hk')
    · exact heq
    · exact absurd hname (hlast' k e hgt hk)
  subst hkk
  exact ⟨rfl, Option.some.inj (hk.symm.trans hk')⟩

theorem lookup_eq_none {s : State} : lookup s = none ↔ ∀ e ∈ s.ft, ¬ HasName s e := lookupFrom_eq_none

theorem lookup_eq_some_iff {s : State} {k : Nat} {e : Entry} :
    lookup s = some (k, e) ↔ IsLastNamed s k e := by
  refine ⟨isLastNamed_of_lookup, fun h => ?_⟩
  cases hl : lookup s with
  | none => exact absurd h.2.1 (lookup_eq_none.mp hl e (List.mem_of_getElem? h.1))
  | some r =>
    obtain ⟨rfl, rfl⟩ := (isLastNamed_of_lookup hl).unique h
    rfl

/-- Settles O33: the answer is a last record with the name, and there is at most one such. -/
theorem lookupFindsTheLast : Obligations.LookupFindsTheLast := fun _ =>
  ⟨fun _ _ => lookup_eq_some_iff, lookup_eq_none⟩

end Sys2Proof.Machine
end

section
/-! PROOFS. The backward scan for the EOCD signature (R262, R263): what a step at one candidate offset does, and the run
over the offsets that do not have it. -/

namespace Sys2Proof.Machine

theorem run_succ_of_step {M : Host.Core} {s t : M.State} (h : M.step s = .next t) (n : Nat) :
    M.run (n + 1) s = M.run n t := by
  rw [Host.Core.run, h]

theorem core_run_succ {s t : State} (h : step s = .next t) (n : Nat) : core.run (n + 1) s = core.run n t :=
  run_succ_of_step (M := core) h n

/-- R262: `s` with the scan at candidate offset `i`. -/
def scanAt (i : Nat) (s : State) : State := { s with zip := { s.zip with scanPos := i } }

section
variable {s : State} (hops : s.hostOps = []) (hrun : s.run = .busy .scanEocd)
include hops hrun

/-- R262: an offset above the bound that has not the signature. -/
theorem step_scanAt_succ {i : Nat} (hfloor : scanFloor s ≤ i) (hne : le32 s (i + 1) ≠ eocdSignature) :
    step (scanAt (i + 1) s) = .next (scanAt i s) := by
  rw [step_of_script_nil (s := scanAt (i + 1) s) hops]
  rcases fetchEocd_cases (scanAt (i + 1) s) with ⟨heq, -⟩ | ⟨-, hle, -⟩ | ⟨-, -, e⟩
  · exact absurd heq hne
  · exact absurd (Nat.lt_succ_of_le hfloor) (Nat.not_lt.mpr hle)
  · exact coreStep_internal hrun e

/-- R262, R263: the bound itself has not the signature. -/
theorem step_scanAt_floor (hne : le32 s (scanFloor s) ≠ eocdSignature) :
    step (scanAt (scanFloor s) s) = .next (fail .eocdNotFound (inLen s - 22) 0 (scanAt (scanFloor s) s)) := by
  rw [step_of_script_nil (s := scanAt (scanFloor s) s) hops]
  rcases fetchEocd_cases (scanAt (scanFloor s) s) with ⟨heq, -⟩ | ⟨-, -, e⟩ | ⟨-, hlt, -⟩
  · exact absurd heq hne
  · exact coreStep_internal hrun e
  · exact absurd hlt (Nat.lt_irrefl _)

/-- R262: the first `d` steps of a scan whose next `d` offsets have not the signature, whatever `k` steps follow. -/
theorem core_run_scanAt {e d k : Nat} (hfloor : scanFloor s ≤ e)
    (hne : ∀ i, e < i → i ≤ e + d → le32 s i ≠ eocdSignature) :
    core.run (d + k) (scanAt (e + d) s) = core.run k (scanAt e s) := by
  induction d with
  | zero => rw [Nat.zero_add]; rfl
  | succ d ih =>
    have hstep : step (scanAt (e + d + 1) s) = .next (scanAt (e + d) s) :=
      step_scanAt_succ hops hrun (by omega) (hne _ (by omega) (Nat.le_refl _))
    rw [Nat.succ_add, ← Nat.add_assoc, core_run_succ hstep]
    exact ih fun i hi hid => hne i hi (by omega)

/-- R262: the scan comes down to `e` when no offset above `e` has the signature. -/
theorem core_run_scan {e : Nat} (k : Nat) (hfloor : scanFloor s ≤ e) (he : e ≤ s.zip.scanPos)
    (hne : ∀ i, e < i → i ≤ s.zip.scanPos → le32 s i ≠ eocdSignature) :
    core.run (s.zip.scanPos - e + k) s = core.run k (scanAt e s) := by
  have hpos : e + (s.zip.scanPos - e) = s.zip.scanPos := Nat.add_sub_cancel' he
  have hpass := core_run_scanAt (k := k) hops hrun hfloor (hpos.symm ▸ hne)
  rw [hpos] at hpass
  exact hpass

end

/-- Settles O50: both scans pass the offsets without the signature; at the bound one step more fails. -/
theorem eocdScanFindsTheLast : Obligations.EocdScanFindsTheLast := by
  intro s lo hops hrun hlo
  obtain rfl : lo = scanFloor s := hlo
  refine ⟨fun e hle he _ hnone => core_run_scan hops hrun 0 hle he hnone, fun hle hnone => ?_⟩
  rw [core_run_scan hops hrun 1 (Nat.le_refl _) hle fun i hi => hnone i (Nat.le_of_lt hi)]
  exact core_run_succ (step_scanAt_floor hops hrun (hnone _ (Nat.le_refl _) hle)) 0

end Sys2Proof.Machine
end

section
/-! PROOFS. The records of OPEN (R266-R278) and its end (R260): what each check that fails raises, in the order of the
checks. A success is `eocdBody_ok`, `cdhBody_ok` and `lfhBody_ok`. -/

namespace Sys2Proof.Machine

/-! ### The EOCD record (R267-R270) -/

section
variable {e : Nat} {s : State}

theorem eocdBody_multiDisk (hdisk : le16 s (e + 4) ≠ 0 ∨ le16 s (e + 6) ≠ 0) :
    eocdBody e s = raise .multiDisk e s := if_pos hdisk

theorem eocdBody_entryCountMismatch (hdisk : le16 s (e + 4) = 0) (hstart : le16 s (e + 6) = 0)
    (hne : le16 s (e + 8) ≠ le16 s (e + 10)) : eocdBody e s = raise .entryCountMismatch e s := by
  rw [eocdBody, if_neg (by omega), if_pos hne]

theorem eocdBody_commentOob (hdisk : le16 s (e + 4) = 0) (hstart : le16 s (e + 6) = 0)
    (hcounts : le16 s (e + 8) = le16 s (e + 10)) (hover : inLen s < e + 22 + le16 s (e + 20)) :
    eocdBody e s = raise .eocdCommentOob e s := by
  rw [eocdBody, if_neg (by omega), if_neg (by omega), if_pos hover]

theorem eocdBody_tooManyEntries (hdisk : le16 s (e + 4) = 0) (hstart : le16 s (e + 6) = 0)
    (hcounts : le16 s (e + 8) = le16 s (e + 10)) (hcomment : e + 22 + le16 s (e + 20) ≤ inLen s)
    (hmany : s.params.maxEntries < le16 s (e + 10)) : eocdBody e s = raise .tooManyEntries e s := by
  rw [eocdBody, if_neg (by omega), if_neg (by omega), if_neg (by omega), if_pos hmany]

end

/-- R266: `s` with its EOCD record at `e`. -/
def withEocd (e : Nat) (s : State) : State := { s with zip := { s.zip with eocdPos := e } }

/-- Settles O51: by the checks of `eocdBody`, whose reads the found offset does not change. -/
theorem eocdRecord : Obligations.EocdRecord := by
  intro s u e n he hn hu
  obtain rfl : u = withEocd e s := hu
  have hexec : exec .eocd s = settle (eocdBody e (withEocd e s)) := by rw [he]; rfl
  subst hn
  rw [hexec]
  refine ⟨fun hdisk => ?_, fun hdisk hstart => ⟨fun hne => ?_, fun hcounts =>
    ⟨fun hover => ?_, fun hcomment => ⟨fun hmany => ?_, fun hroom => ?_⟩⟩⟩⟩
  · exact congrArg settle (eocdBody_multiDisk (s := withEocd e s) hdisk)
  · exact congrArg settle (eocdBody_entryCountMismatch (s := withEocd e s) hdisk hstart hne)
  · exact congrArg settle (eocdBody_commentOob (s := withEocd e s) hdisk hstart hcounts hover)
  · exact congrArg settle (eocdBody_tooManyEntries (s := withEocd e s) hdisk hstart hcounts hcomment hmany)
  · exact congrArg settle (eocdBody_ok (s := withEocd e s) ⟨hdisk, hstart, hcounts, hcomment, hroom⟩)

/-! ### The central-directory record (R272-R274) -/

theorem fetchCdh_of_badSignature {s : State} (hr : s.zip.cdCursor + 46 ≤ inLen s)
    (h : le32 s s.zip.cdCursor ≠ cdhSignature) :
    fetchCdh s = .internal (fail .cdhBadSignature s.zip.cdCursor 0 s) := by
  rcases fetchCdh_cases s with ⟨hoob, -⟩ | ⟨-, heq, -⟩ | ⟨-, -, e⟩
  · exact absurd hr (Nat.not_le.mpr hoob)
  · exact absurd heq h
  · exact e

section
variable {p : Nat} {s : State}

theorem cdhBody_versionTooHigh (hversion : 20 < le16 s (p + 6)) : cdhBody p s = raise .versionTooHigh p s :=
  if_pos hversion

theorem cdhBody_encrypted (hversion : le16 s (p + 6) ≤ 20) (hflag : le16 s (p + 8) % 2 = 1) :
    cdhBody p s = raise .encrypted p s := by
  rw [cdhBody, if_neg (by omega), if_pos hflag]

theorem cdhBody_badMethod (hversion : le16 s (p + 6) ≤ 20) (hplain : le16 s (p + 8) % 2 = 0)
    (h0 : le16 s (p + 10) ≠ 0) (h8 : le16 s (p + 10) ≠ 8) : cdhBody p s = raise .badMethod p s := by
  rw [cdhBody, if_neg (by omega), if_neg (by omega), if_pos ⟨h0, h8⟩]

theorem cdhBody_fieldsOob (hversion : le16 s (p + 6) ≤ 20) (hplain : le16 s (p + 8) % 2 = 0)
    (hmethod : le16 s (p + 10) = 0 ∨ le16 s (p + 10) = 8) (hover : inLen s < nextCdh p s) :
    cdhBody p s = raise .cdhFieldsOob p s := by
  rw [nextCdh] at hover
  rw [cdhBody, if_neg (by omega), if_neg (by omega), if_neg (by omega), if_pos hover]

end

/-- Settles O52: by what is fetched at the record, then by the checks of `cdhBody`. -/
theorem cdhRecord : Obligations.CdhRecord := by
  intro s p hp
  have hexec : exec .cdh s = settle (cdhBody p s) := by rw [hp]; rfl
  rw [hexec]
  refine ⟨fun hops hrun hoob => ?_, fun hops hrun hr hsig => ?_, fun hversion => ?_, fun hversion =>
    ⟨fun hflag => ?_, fun hplain => ?_⟩⟩
  · subst hp
    rw [step_of_script_nil hops]
    exact coreStep_internal hrun (if_pos hoob)
  · subst hp
    rw [step_of_script_nil hops]
    exact coreStep_internal hrun (fetchCdh_of_badSignature hr hsig)
  · exact congrArg settle (cdhBody_versionTooHigh hversion)
  · rw [Nat.testBit_zero, decide_eq_true_eq] at hflag
    exact congrArg settle (cdhBody_encrypted hversion hflag)
  · rw [Nat.testBit_zero, decide_eq_false_iff_not, Nat.mod_two_not_eq_one] at hplain
    refine ⟨fun h0 h8 => ?_, fun hmethod => ⟨fun hover => ?_, fun hfields => ?_⟩⟩
    · exact congrArg settle (cdhBody_badMethod hversion hplain h0 h8)
    · exact congrArg settle (cdhBody_fieldsOob hversion hplain hmethod hover)
    · exact congrArg settle (cdhBody_ok ⟨hversion, hplain, hmethod, hfields⟩)

/-! ### The local header (R275-R278) -/

theorem fetchLfh_of_badSignature {s : State} (hr : s.zip.lfhPos + 30 ≤ inLen s)
    (h : le32 s s.zip.lfhPos ≠ lfhSignature) :
    fetchLfh s = .internal (fail .lfhBadSignature s.zip.lfhPos 0 s) := by
  rcases fetchLfh_cases s with ⟨hoob, -⟩ | ⟨-, heq, -⟩ | ⟨-, -, e⟩
  · exact absurd hr (Nat.not_le.mpr hoob)
  · exact absurd heq h
  · exact e

theorem lfhBody_contentOob {p h : Nat} {s : State} (hover : inLen s < contentStart h s + le32 s (p + 20)) :
    lfhBody p h s = raise .contentOob h s := if_pos hover

/-- Settles O53: by what is fetched at the header, then by the bound that `lfhBody` checks. -/
theorem lfhRecord : Obligations.LfhRecord := by
  intro s p h ds hp hh hds
  subst hp hh hds
  have hexec : exec .lfh s = settle (lfhBody s.zip.cdCursor s.zip.lfhPos s) := rfl
  rw [hexec]
  refine ⟨fun hops hrun hoob => ?_, fun hops hrun hr hsig => ?_, fun hover => ?_, fun hfits => ?_⟩
  · rw [step_of_script_nil hops]
    exact coreStep_internal hrun (if_pos hoob)
  · rw [step_of_script_nil hops]
    exact coreStep_internal hrun (fetchLfh_of_badSignature hr hsig)
  · exact congrArg settle (lfhBody_contentOob hover)
  · exact congrArg settle (lfhBody_ok hfits)

/-! ### The end of OPEN (R260, R301) -/

/-- Settles O54: the step there is `finishOpen`. -/
theorem openFinishes : Obligations.OpenFinishes := by
  intro s hops hrun hop
  rw [step_of_script_nil hops, coreStep_internal hrun rfl, finishCommand_open hop]
  rfl

end Sys2Proof.Machine
end

section
/-! PROOFS. The acceptance of a command (R300) and the bodies of the host commands (R302-R314): what each body does, by
the checks it passes. -/

namespace Sys2Proof.Machine

/-! ### Acceptance (R21, R300, R390) -/

theorem writeCmd_idle {w : Word} {s : State} (hb : busy s = false) :
    hostAccess (.writeReg 0x00 .w32 w) s = .next (acceptCommand w s) :=
  writeReg_idle hb rfl (by decide) (by decide)

/-- R300: the step after an acceptance runs the command that the word names, whose bits 3:0 CMD keeps (R21). -/
theorem coreStep_acceptCommand (w : Word) (s : State) :
    coreStep (acceptCommand w s) = exec (decodeCmd w) (acceptCommand w s) := by
  have hdecode : decodeCmd (cmdWord (acceptCommand w s)) = decodeCmd w :=
    decodeCmd_congr ((cmdWord_extract _).trans (acceptCommand_cmdOp w s))
  rw [← hdecode]
  exact coreStep_run (acceptCommand_run w s) rfl

/-- Settles O15: by what a write to CMD does while BUSY and while not, and `coreStep_acceptCommand`. -/
theorem acceptance : Obligations.Acceptance := by
  intro w s
  refine ⟨fun hb hop => ?_, fun hb hop => ?_, fun i t hb hi ht => ?_, fun hb => ?_⟩
  · rw [writeCmd_idle hb, acceptCommand, if_neg hop]
    rfl
  · rw [writeCmd_idle hb, acceptCommand, if_pos hop, clearHandle, beginCommand, hop]
    rfl
  · rw [decode_cmd_toNat] at hi
    rw [writeCmd_idle hb] at ht
    cases hi
    cases ht
    exact coreStep_acceptCommand w s
  · exact writeReg_busy hb rfl (by decide) (by decide)

/-! ### Reserved commands (R314) -/

/-- R101, R314: the twelve commands that are reserved. -/
def reservedInstrs : List Instr :=
  [.reservedOp0, .reservedOp5, .reservedOp6, .reservedOp7, .reservedOp8, .reservedOp9, .reservedOpA, .reservedOpB,
    .reservedOpC, .reservedOpD, .reservedOpE, .reservedOpF]

theorem exec_reserved : ∀ i ∈ reservedInstrs, ∀ s : State, exec i s = .next (fail .unknownOp 0 0 s) := by
  simp only [reservedInstrs, List.forall_mem_cons, List.not_mem_nil, false_imp_iff, implies_true, and_true]
  and_intros <;> exact fun _ => rfl

theorem decodeCmd_reserved {w : Word}
    (h : (w.extractLsb' 0 4).toNat ∈ [0, 5, 6, 7, 8, 9, 10, 11, 12, 13, 14, 15]) : decodeCmd w ∈ reservedInstrs := by
  unfold decodeCmd
  split
  case h_2 hop | h_3 hop | h_4 hop | h_5 hop =>
    rw [hop] at h
    exact absurd h (by decide)
  all_goals decide

/-- Settles O30: by `exec_reserved`, on the state that the acceptance leaves. -/
theorem reservedCommandsFail : Obligations.ReservedCommandsFail := by
  refine ⟨exec_reserved, fun w s hb hop => ?_⟩
  have hother : w.extractLsb' 0 4 ≠ 1 := by
    intro hopen
    rw [hopen] at hop
    exact absurd hop (by decide)
  obtain ⟨hregs, hft⟩ := acceptCommand_other w s hother
  refine ⟨acceptCommand w s, fail .unknownOp 0 0 (acceptCommand w s), writeCmd_idle hb, ?_, rfl, ?_,
    acceptCommand_ent w s, hft⟩
  · rw [coreStep_acceptCommand, exec_reserved _ (decodeCmd_reserved hop)]
  · rw [fail_regs, hregs]
    rfl

/-! ### OPEN (R310) -/

/-- Settles O31: by the three things `openBody` can do. -/
theorem openStarts : Obligations.OpenStarts := by
  intro s
  have hlen : inLen s = s.regs.inLen.toNat := rfl
  have hexec : exec .cmdOpen s = settle (openBody s) := rfl
  rw [hexec]
  rcases openBody_cases s with ⟨hcap, e⟩ | ⟨hcap, hshort, e⟩ | ⟨hcap, hlong, e⟩ <;> rw [e]
  · exact ⟨fun _ _ => by omega, fun _ => rfl, fun _ _ => by omega⟩
  · exact ⟨fun _ _ => by omega, fun _ => by omega, fun _ _ => rfl⟩
  · exact ⟨fun _ _ => rfl, fun _ => by omega, fun _ _ => by omega⟩

/-! ### READ up to its production (R302-R304) -/

theorem readBody_notOpen {s : State} (h : s.regs.openValid = false) : readBody s = raise .notOpen 0 s := if_pos h

theorem readBody_nameTooLong {s : State} (hopen : s.regs.openValid = true)
    (hname : s.params.nameCap < s.regs.nameLen.toNat) : readBody s = raise .argRange 0 s := by
  rw [readBody, if_neg (by simp [hopen]), if_pos hname]

theorem readBody_notFound {s : State} (hopen : s.regs.openValid = true)
    (hname : s.regs.nameLen.toNat ≤ s.params.nameCap) (hnone : lookup s = none) :
    readBody s = raise .nameNotFound 0 s := by
  rw [readBody, if_neg (by simp [hopen]), if_neg (Nat.not_lt.mpr hname), hnone]

/-- R303: `s` with the ENT registers of record `k`, which is `e`. -/
def withRecord (k : Nat) (e : Entry) (s : State) : State := { s with ent := entRegsOf k e }

theorem readBody_found {s : State} {k : Nat} {e : Entry} (hopen : s.regs.openValid = true)
    (hname : s.regs.nameLen.toNat ≤ s.params.nameCap) (hfound : lookup s = some (k, e)) :
    readBody s = produce e (withRecord k e s) := by
  rw [readBody, if_neg (by simp [hopen]), if_neg (Nat.not_lt.mpr hname), hfound]
  rfl

/-- Settles O32: by the checks of `readBody`, and `lookup_eq_none` for the last one. -/
theorem readChecks : Obligations.ReadChecks := fun _ =>
  ⟨fun hopen => congrArg settle (readBody_notOpen hopen),
    fun hopen hname => congrArg settle (readBody_nameTooLong hopen hname),
    fun hopen hname hnone => congrArg settle (readBody_notFound hopen hname (lookup_eq_none.mpr hnone))⟩

section
variable {e : Entry} {s : State}

theorem produce_tooLarge (hsize : s.params.outCap < e.usize) : produce e s = raise .outputTooLarge 0 s := if_pos hsize

theorem produce_deflated (hsize : e.usize ≤ s.params.outCap) (hmethod : e.method = 8) :
    produce e s = .ok (startInflate e.dataOff (e.dataOff + e.csize) e.usize s) := by
  rw [produce, if_neg (Nat.not_lt.mpr hsize), if_pos hmethod]

theorem produce_sizeMismatch (hsize : e.usize ≤ s.params.outCap) (hmethod : e.method ≠ 8) (hne : e.csize ≠ e.usize) :
    produce e s = raise .storedSizeMismatch e.dataOff s := by
  rw [produce, if_neg (Nat.not_lt.mpr hsize), if_neg hmethod, if_pos hne]

/-- R304: a stored entry fits its capacity, so that its copy completes. -/
theorem produce_stored (hsize : e.usize ≤ s.params.outCap) (hmethod : e.method ≠ 8) (heq : e.csize = e.usize) :
    ∃ u, copyIn e.dataOff e.usize (storedStart e s) = .ok u ∧ produce e s = .ok (goTo .finish u) := by
  obtain ⟨u, hu⟩ := copyIn_room (a := e.dataOff) (n := e.usize) (s := storedStart e s) (by simp [storedStart])
  refine ⟨u, hu, ?_⟩
  rw [produce, if_neg (Nat.not_lt.mpr hsize), if_neg hmethod, if_neg (not_not_intro heq), ← storedStart, hu]
  rfl

/-- R304: … and nothing but OUT and the destination is written. -/
theorem eq_of_copyIn_storedStart {u : State} (hu : copyIn e.dataOff e.usize (storedStart e s) = .ok u) :
    u = { s with outMem := u.outMem, inf := { s.inf with destLen := e.usize, destCap := e.usize } } := by
  obtain ⟨happ, hpos, -⟩ := copyIn_eq_ok hu
  have hrest := happ.rest
  rw [hpos] at hrest
  simpa [storedStart] using hrest

end

/-- Settles O34: the record found is what `produce` starts from, and a stored entry is copied by `copyIn`. -/
theorem readProduces : Obligations.ReadProduces := by
  intro s u k e hopen hname hfound hu
  obtain rfl : u = withRecord k e s := hu
  have hexec : exec .cmdRead s = settle (produce e (withRecord k e s)) :=
    congrArg settle (readBody_found hopen hname hfound)
  rw [hexec]
  refine ⟨fun hlarge => ?_, fun hsize hmethod => ?_, fun hsize hmethod hne => ?_, fun hsize hmethod heq => ?_⟩
  · exact congrArg settle (produce_tooLarge (s := withRecord k e s) hlarge)
  · exact congrArg settle (produce_deflated (s := withRecord k e s) hsize hmethod)
  · exact congrArg settle (produce_sizeMismatch (s := withRecord k e s) hsize hmethod hne)
  · obtain ⟨v, hv, hproduce⟩ := produce_stored (s := withRecord k e s) hsize hmethod heq
    obtain ⟨happ, -, hbytes⟩ := copyIn_eq_ok hv
    refine ⟨goTo .finish v, congrArg settle hproduce, congrArg (goTo .finish) (eq_of_copyIn_storedStart hv),
      fun j hj => ?_, fun a ha => ?_⟩
    · have hbyte := hbytes j hj
      rw [storedStart, Nat.zero_add] at hbyte
      exact hbyte
    · exact happ.outByte_others (.inr (by rw [storedStart, Nat.zero_add]; exact ha))

/-! ### The ends of READ and INFLATE (R301, R306, R312) -/

/-- R300: where a command's body has reached its last steps, the step is those. -/
theorem step_finish {s : State} (hops : s.hostOps = []) (hrun : s.run = .busy .finish) :
    step s = .next (finishCommand s) := by
  rw [step_of_script_nil hops, coreStep_internal hrun rfl]

/-- Settles O35: by the three ways READ ends. -/
theorem readFinishes : Obligations.ReadFinishes := by
  intro s u c hops hrun hop hc hu
  subst hc hu
  rw [step_finish hops hrun, finishCommand_read hop]
  rcases finishRead_cases s with ⟨hmethod, hlen, e⟩ | ⟨hlen, hcrc, e⟩ | ⟨hlen, hcrc, e⟩ <;> rw [e]
  · have hshort : ¬ (s.ent.method ≠ 8 ∨ s.inf.destLen = s.ent.usize.toNat) := fun h => h.elim (· hmethod) hlen
    exact ⟨fun _ _ => rfl, fun h => absurd h hshort, fun h => absurd h hshort⟩
  · exact ⟨fun hmethod hne => absurd (hlen hmethod) hne, fun _ _ => rfl, fun _ heq => absurd heq hcrc⟩
  · exact ⟨fun hmethod hne => absurd (hlen hmethod) hne, fun _ hne => absurd hcrc hne, fun _ _ => rfl⟩

/-- Settles O36: the start by the two things `inflateBody` can do, the end by `finishInflate`. -/
theorem inflateCommand : Obligations.InflateCommand := by
  have hlen : ∀ s, inLen s = s.regs.inLen.toNat := fun _ => rfl
  refine ⟨fun s hcap hin hout => ?_, fun s hbad => ?_, fun s hops hrun hop => ?_⟩
  · rcases inflateBody_cases s with ⟨-, -, -, e⟩ | ⟨hbad, -⟩
    · exact congrArg settle e
    · rw [hlen] at hbad
      omega
  · rcases inflateBody_cases s with ⟨hcap, hin, hout, -⟩ | ⟨-, e⟩
    · rw [hlen] at hcap hin
      omega
    · exact congrArg settle e
  · rw [step_finish hops hrun, finishCommand_inflate hop]
    rfl

/-! ### CRC32 (R313) -/

/-- Settles O37: by the two things `crc32Body` can do. -/
theorem crc32Command : Obligations.Crc32Command := by
  intro s
  have hlen : inLen s = s.regs.inLen.toNat := rfl
  have hexec : exec .cmdCrc32 s = settle (crc32Body s) := rfl
  rw [hexec]
  rcases crc32Body_cases s with ⟨hcap, hin, e⟩ | ⟨hbad, e⟩ <;> rw [e]
  · exact ⟨fun _ _ => rfl, fun _ => by omega⟩
  · exact ⟨fun _ _ => by omega, fun _ => rfl⟩

end Sys2Proof.Machine
end

section
/-! PROOFS. Every command completes (R301, R212, R282): the scan comes down to an offset, the walk has ever fewer
records left, an inflate ever fewer bits of its region; what is left then is the end of the body. -/

namespace Sys2Proof.Machine

/-! ### Completion -/

/-- Some number of steps ends in DONE or FAIL. -/
def Completes (s : State) : Prop := ∃ n t, core.run n s = .next t ∧ (t.run = .done ∨ t.run = .fail)

theorem completes_of_over {s : State} (h : s.run = .done ∨ s.run = .fail) : Completes s := ⟨0, s, rfl, h⟩

theorem completes_of_fail {s : State} (h : s.run = .fail) : Completes s := completes_of_over (.inr h)

section
variable {s : State} (hops : s.hostOps = [])
include hops

theorem completes_of_coreStep {t : State} (h : coreStep s = .next t) (ht : Completes t) : Completes s := by
  obtain ⟨n, u, hu, hover⟩ := ht
  exact ⟨n + 1, u, (core_run_succ ((step_of_script_nil hops).trans h) n).trans hu, hover⟩

/-- A body that raises fails, so that only its success is in question. -/
theorem completes_of_body {r : Res State} (h : coreStep s = settle r) (hok : ∀ t, r = .ok t → Completes t)
    (herror : ∀ e, r = .error e → e.run = .fail) : Completes s := by
  cases r with
  | ok t => exact completes_of_coreStep hops h (hok t rfl)
  | error e => exact completes_of_coreStep hops h (completes_of_fail (herror e rfl))

theorem completes_of_finish (hrun : s.run = .busy .finish) : Completes s :=
  completes_of_coreStep hops (coreStep_internal hrun rfl) (completes_of_over (finishCommand_run s))

end

/-! ### The trees of a running inflate (R176, R178): what lets every symbol be decoded -/

/-- R171: `tree` is built for an alphabet of at most `n` symbols. -/
def BuiltFor (n : Nat) (tree : Tree) : Prop := ∃ lens : List Nat, lens.length ≤ n ∧ tree = buildTree lens

theorem ltFixed_built : BuiltFor 288 ltFixed := ⟨_, Nat.le_of_eq length_fixedLitLenLengths, ltFixed_eq_buildTree⟩

theorem dtFixed_built : BuiltFor 32 dtFixed := ⟨_, Nat.le_of_eq length_fixedDistLengths, dtFixed_eq_buildTree⟩

theorem litLenTree_built {s : State} (h : BuiltFor 288 s.inf.ltDyn) : BuiltFor 288 (litLenTree s) := by
  rw [litLenTree_eq]
  split
  · exact ltFixed_built
  · exact h

theorem distTree_built {s : State} (h : BuiltFor 32 s.inf.dtDyn) : BuiltFor 32 (distTree s) := by
  rw [distTree_eq]
  split
  · exact dtFixed_built
  · exact h

/-- What an inflate at place `a` needs to go on; its places are those of the elements and the end of the body. -/
def TreesReady (s : State) : Activity → Prop
  | .blockHeader => True
  | .codeLength => BuiltFor 19 s.inf.clt ∧ s.inf.hlit ≤ 288 ∧ s.inf.hdist ≤ 32
  | .litLen => BuiltFor 288 (litLenTree s) ∧ BuiltFor 32 (distTree s)
  | .distance => BuiltFor 288 (litLenTree s) ∧ BuiltFor 32 (distTree s)
  | .finish => True
  | _ => False

theorem TreesReady.place {s : State} {a : Activity} (h : TreesReady s a) : StreamPlace a ∨ a = .finish := by
  cases a with
  | command | scanEocd | walkCdh | checkLfh => exact h.elim
  | blockHeader => exact .inl (.inl rfl)
  | codeLength => exact .inl (.inr (.inl rfl))
  | litLen => exact .inl (.inr (.inr (.inl rfl)))
  | distance => exact .inl (.inr (.inr (.inr rfl)))
  | finish => exact .inr rfl

/-- R76, R176: a sound state at a place of an inflate has its trees. -/
theorem PlaceOk.treesReady {s : State} {a : Activity} (h : PlaceOk s a) (ha : StreamPlace a) : TreesReady s a := by
  rcases ha with rfl | rfl | rfl | rfl
  · trivial
  · obtain ⟨-, hcl⟩ := h
    exact ⟨⟨_, Nat.le_of_eq hcl.cl.1, hcl.clt⟩, hcl.counts.hlit.2, hcl.counts.hdist.2⟩
  · obtain ⟨-, htrees⟩ := h
    exact htrees.built
  · obtain ⟨-, htrees, -⟩ := h
    exact htrees.built

theorem TreesReady.fetch_ne_stop {s : State} {a : Activity} (h : TreesReady s a) (f : Fault) :
    fetch a s ≠ .stop f := by
  cases a with
  | command | scanEocd | walkCdh | checkLfh => exact h.elim
  | blockHeader => exact fetchBlockHdr_ne_stop s f
  | finish => exact Fetched.noConfusion
  | codeLength =>
    obtain ⟨⟨lens, hlen, hclt⟩, -⟩ := h
    rw [fetch, hclt]
    exact fetchSymbol_ne_stop hlen (fun _ => exists_decode_codeLen) s f
  | litLen =>
    obtain ⟨⟨lens, hlen, hlt⟩, -⟩ := h
    rw [fetch, hlt]
    exact fetchSymbol_ne_stop hlen (fun _ => exists_decode_litLen) s f
  | distance =>
    obtain ⟨-, lens, hlen, hdt⟩ := h
    rw [fetch, hdt]
    exact fetchSymbol_ne_stop hlen (fun _ => exists_decode_dist) s f

theorem TreesReady.exists_coreStep {s : State} {a : Activity} (h : TreesReady s a) (hrun : s.run = .busy a) :
    ∃ t, coreStep s = .next t := by
  cases hstep : coreStep s with
  | next t => exact ⟨t, rfl⟩
  | fault f =>
    obtain ⟨b, hb, hstop⟩ := coreStep_eq_fault hstep
    rw [hrun] at hb
    cases hb
    exact absurd hstop (h.fetch_ne_stop f)
  | refused r => exact absurd hstep (coreStep_ne_refused s r)

/-! ### What an element leaves -/

/-- Where an element leaves an inflate whose host makes no move: failed, or ready to go on. -/
inductive ElementDone (t : State) : Prop where
  | failed (h : t.run = .fail)
  | goesOn (a : Activity) (hrun : t.run = .busy a) (hready : TreesReady t a) (hops : t.hostOps = [])

theorem FailedInflate.run {s e : State} (h : FailedInflate s e) : e.run = .fail := by
  obtain ⟨c, inf, -, -, -, rfl⟩ := h
  rfl

theorem settle_elementDone {s t : State} {r : Res State} (h : settle r = .next t) (hok : r = .ok t → ElementDone t)
    (herror : r = .error t → FailedInflate s t) : ElementDone t := by
  cases r with
  | ok u => cases h; exact hok rfl
  | error e => cases h; exact .failed (herror rfl).run

theorem endBlock_elementDone {s : State} (hops : s.hostOps = []) : ElementDone (endBlock s) := by
  refine .goesOn _ (endBlock_run s) ?_ ((endBlock_hostOps s).trans hops)
  split <;> trivial

theorem Appended.hostOps {n : Nat} {s t : State} (h : Appended n s t) : t.hostOps = s.hostOps := by rw [h.rest]
theorem Appended.litLenTree {n : Nat} {s t : State} (h : Appended n s t) :
    Machine.litLenTree t = Machine.litLenTree s := by rw [h.rest]; rfl
theorem Appended.distTree {n : Nat} {s t : State} (h : Appended n s t) :
    Machine.distTree t = Machine.distTree s := by rw [h.rest]; rfl

section
variable {s t : State} (hops : s.hostOps = [])
include hops

theorem storedBody_elementDone (h : settle (storedBody s) = .next t) : ElementDone t := by
  refine settle_elementDone h (fun hok => ?_) storedBody_eq_error
  obtain ⟨p, len, u, -, -, -, -, hu, rfl⟩ := storedBody_eq_ok hok
  exact endBlock_elementDone ((copyStored_eq_ok hu).1.hostOps.trans hops)

/-- R200: 5 bits of HLIT and of HDIST keep the trees within their alphabets. -/
theorem dynamicHeader_elementDone (h : settle (dynamicHeader s) = .next t) : ElementDone t := by
  refine settle_elementDone h (fun hok => ?_) dynamicHeader_eq_error
  obtain ⟨rfl, -, -⟩ := dynamicHeader_eq_ok hok
  have hlit := bitField_lt s s.inf.bitpos 5
  have hdist := bitField_lt s (s.inf.bitpos + 5) 5
  have hcl : (withHeader s).inf.cl.length = 19 := by
    rw [withHeader_cl, placedLengths_length, List.length_replicate]
  refine .goesOn _ (withHeader_run s) ⟨⟨_, Nat.le_of_eq hcl, withHeader_clt s⟩, ?_, ?_⟩ hops
  · rw [withHeader_hlit]
    omega
  · rw [withHeader_hdist]
    omega

theorem exec_blockHdr_elementDone {b : BitVec 3} (h : exec (decodeBlockHdr b) s = .next t) : ElementDone t := by
  unfold decodeBlockHdr at h
  split at h
  · exact storedBody_elementDone (s := enterBlock (b.getLsbD 0) 0 .stored s) hops h
  · cases h
    exact .goesOn .litLen rfl ⟨ltFixed_built, dtFixed_built⟩ hops
  · exact dynamicHeader_elementDone (s := enterBlock (b.getLsbD 0) 2 .dynamic s) hops h
  · cases h
    exact .failed rfl

/-- R202, R206: the sequence goes on, or both trees are built. -/
theorem appendLengths_elementDone (new : List Nat) (hready : TreesReady s .codeLength) :
    ElementDone (appendLengths new s) := by
  obtain ⟨hclt, hlit, hdist⟩ := hready
  rcases Nat.lt_or_ge (s.inf.lengths.length + new.length) (totalLengths s) with hmore | hlast
  · rw [appendLengths_more hmore]
    exact .goesOn .codeLength rfl ⟨hclt, hlit, hdist⟩ hops
  · rw [appendLengths_last hlast]
    refine .goesOn .litLen rfl ⟨litLenTree_built ⟨_, ?_, rfl⟩, distTree_built ⟨_, ?_, rfl⟩⟩ hops
    · exact Nat.le_trans (List.length_take_le _ _) hlit
    · exact Nat.le_trans (List.length_take_le _ _) hdist

theorem appendRun_elementDone {v base bits : Nat} (hready : TreesReady s .codeLength)
    (h : settle (appendRun v base bits s) = .next t) : ElementDone t := by
  rcases appendRun_cases v base bits s with ⟨-, -, e⟩ | ⟨-, -, e⟩ | ⟨-, e⟩ <;> rw [e] at h <;> cases h
  · exact appendLengths_elementDone (s := setBitpos (s.inf.bitpos + bits) s) hops _ hready
  · exact .failed rfl
  · exact .failed rfl

theorem exec_codeLen_elementDone {v : Nat} {i : Instr} (hready : TreesReady s .codeLength)
    (hi : decode .codeLen v = .ok i) (h : exec i s = .next t) : ElementDone t := by
  simp only [decode, decodeCodeLen] at hi
  split at hi
  · cases hi; cases h; exact appendLengths_elementDone hops _ hready
  split at hi
  · cases hi
    simp only [exec, execClRepeat] at h
    split at h
    · cases h; exact .failed rfl
    · exact appendRun_elementDone hops hready h
  split at hi
  · cases hi; exact appendRun_elementDone hops hready h
  split at hi
  · cases hi; exact appendRun_elementDone hops hready h
  · cases hi

theorem execLit_elementDone {byte : Nat} (hready : TreesReady s .litLen) (h : execLit byte s = .next t) :
    ElementDone t := by
  unfold execLit at h
  by_cases hfull : s.inf.destLen = s.inf.destCap
  · rw [putByte_full hfull] at h
    cases h
    exact .failed rfl
  · rw [putByte_ok hfull] at h
    cases h
    exact .goesOn .litLen rfl hready hops

theorem matchLength_elementDone {i : Nat} (hready : TreesReady s .litLen) (h : settle (matchLength i s) = .next t) :
    ElementDone t := by
  rcases matchLength_cases i s with ⟨-, e⟩ | ⟨-, e⟩ <;> rw [e] at h <;> cases h
  · exact .goesOn .distance rfl hready hops
  · exact .failed rfl

theorem exec_litLen_elementDone {v : Nat} {i : Instr} (hready : TreesReady s .litLen)
    (hi : decode .litLen v = .ok i) (h : exec i s = .next t) : ElementDone t := by
  simp only [decode, decodeLitLen] at hi
  split at hi
  · cases hi; exact execLit_elementDone hops hready h
  split at hi
  · cases hi; cases h; exact endBlock_elementDone hops
  split at hi
  · cases hi; cases h; exact .failed rfl
  split at hi
  · cases hi; cases h; exact .failed rfl
  split at hi
  · next hx => cases hi; exact matchLength_elementDone hops hready (exec_lengthInstr hx s ▸ h)
  · cases hi

theorem matchDistance_elementDone {d : Nat} (hready : TreesReady s .distance)
    (h : settle (matchDistance d s) = .next t) : ElementDone t := by
  refine settle_elementDone h (fun hok => ?_) matchDistance_eq_error
  obtain ⟨u, hu, rfl, -, -⟩ := matchDistance_eq_ok hok
  have happ := (copyBack_eq_ok hu).1
  obtain ⟨hlt, hdt⟩ := hready
  exact .goesOn .litLen rfl ⟨happ.litLenTree ▸ hlt, happ.distTree ▸ hdt⟩ (happ.hostOps.trans hops)

theorem exec_dist_elementDone {v : Nat} {i : Instr} (hready : TreesReady s .distance)
    (hi : decode .dist v = .ok i) (h : exec i s = .next t) : ElementDone t := by
  simp only [decode, decodeDist] at hi
  split at hi
  · next hx =>
    cases hi
    by_cases hv : v < 30
    · exact matchDistance_elementDone hops hready (exec_distInstr hx hv s ▸ h)
    · rw [exec_invalidDist hx (by omega)] at h
      cases h
      exact .failed rfl
  · cases hi

end

/-! ### The bits left of the region -/

theorem fetchSymbol_inside {f : Format} {tree : Tree} {i : Instr} {s u : State}
    (h : fetchSymbol f (decodeSym tree s) = .run i u) :
    s.inf.bitpos < 8 * s.inf.regionEnd ∧ (∃ p, u = setBitpos p s) ∧ ∃ v, decode f v = .ok i := by
  obtain ⟨v, hv, hi⟩ := fetchSymbol_eq_run h
  obtain ⟨l, -, hl, -, -, -, -, hu, hr⟩ := decodeSym_eq_ok hv
  exact ⟨by omega, ⟨_, hu⟩, v, hi⟩

/-- R211, R212: a step at an element fails, or it was inside the region and leaves the inflate ready to go on. -/
theorem coreStep_elementDone {s t : State} {a : Activity} (ha : StreamPlace a) (hrun : s.run = .busy a)
    (hready : TreesReady s a) (hops : s.hostOps = []) (h : coreStep s = .next t) :
    t.run = .fail ∨ (s.inf.bitpos < 8 * s.inf.regionEnd ∧ ElementDone t) := by
  rcases coreStep_next hrun h with ⟨i, u, hf, hx⟩ | hf
  · right
    rcases ha with rfl | rfl | rfl | rfl
    · rw [fetch, fetchBlockHdr] at hf
      split at hf
      · cases hf
      · next hb =>
        obtain ⟨rfl, hr, -⟩ := readBlockHdr_eq_ok hb
        cases hf
        exact ⟨by omega, exec_blockHdr_elementDone (s := withBlockHdr s) hops hx⟩
    · obtain ⟨hin, ⟨p, rfl⟩, v, hv⟩ := fetchSymbol_inside hf
      exact ⟨hin, exec_codeLen_elementDone (s := setBitpos p s) hops hready hv hx⟩
    · obtain ⟨hin, ⟨p, rfl⟩, v, hv⟩ := fetchSymbol_inside hf
      exact ⟨hin, exec_litLen_elementDone (s := setBitpos p s) hops hready hv hx⟩
    · obtain ⟨hin, ⟨p, rfl⟩, v, hv⟩ := fetchSymbol_inside hf
      exact ⟨hin, exec_dist_elementDone (s := setBitpos p s) hops hready hv hx⟩
  · left
    rcases ha with rfl | rfl | rfl | rfl
    · exact (fetchBlockHdr_internal hf).run
    · exact (decodeSym_eq_error (fetchSymbol_eq_internal hf)).run
    · exact (decodeSym_eq_error (fetchSymbol_eq_internal hf)).run
    · exact (decodeSym_eq_error (fetchSymbol_eq_internal hf)).run

/-- R212: an inflate completes, by induction on the bits left of its region. -/
theorem completes_of_treesReady {s : State} {a : Activity} (hops : s.hostOps = []) (hrun : s.run = .busy a)
    (hready : TreesReady s a) : Completes s := by
  induction hn : 8 * s.inf.regionEnd - s.inf.bitpos using Nat.strongRecOn generalizing s a with
  | ind n ih =>
    rcases hready.place with ha | rfl
    · obtain ⟨t, hstep⟩ := hready.exists_coreStep hrun
      refine completes_of_coreStep hops hstep ?_
      obtain ⟨hmoved, hpos⟩ := coreStep_stream ha hrun hstep
      rcases coreStep_elementDone ha hrun hready hops hstep with hfail | ⟨hin, hdone⟩
      · exact completes_of_fail hfail
      · cases hdone with
        | failed hfail => exact completes_of_fail hfail
        | goesOn b hrunt hreadyt hopst =>
          cases hmoved with
          | failed hfail _ => exact completes_of_fail hfail
          | goesOn _ _ hadv =>
            have hlt : s.inf.bitpos < t.inf.bitpos := hpos.resolve_left (by rw [hrunt]; exact RunState.noConfusion)
            have hend := hadv.regionEnd
            exact ih _ (by omega) hopst hrunt hreadyt rfl
    · exact completes_of_finish hops hrun

/-! ### The walk and the scan (R262, R272-R278, R282) -/

/-- R275-R278: a local header leads to the end of OPEN, or back to the walk with one record fewer left. -/
theorem completes_of_checkLfh {s : State} (hops : s.hostOps = []) (hrun : s.run = .busy .checkLfh)
    (hnext : ∀ t : State, t.hostOps = [] → t.run = .busy .walkCdh → t.zip.cdLeft < s.zip.cdLeft → Completes t) :
    Completes s := by
  rcases fetchLfh_cases s with ⟨-, e⟩ | ⟨-, -, e⟩ | ⟨-, -, e⟩
  · exact completes_of_coreStep hops (coreStep_internal hrun e) (completes_of_fail rfl)
  · refine completes_of_body hops (coreStep_run hrun e) (fun t hok => ?_) (fun x hx => (lfhBody_eq_error hx).1.run)
    obtain ⟨-, rfl⟩ := lfhBody_eq_ok hok
    by_cases hlast : s.zip.cdLeft ≤ 1
    · exact completes_of_finish hops (by rw [withEntry, goTo_run, if_pos hlast])
    · exact hnext _ hops (by rw [withEntry, goTo_run, if_neg hlast]) (Nat.sub_one_lt (by omega))
  · exact completes_of_coreStep hops (coreStep_internal hrun e) (completes_of_fail rfl)

/-- R282: the walk completes, by induction on the records left. -/
theorem completes_of_walkCdh {s : State} (hops : s.hostOps = []) (hrun : s.run = .busy .walkCdh) : Completes s := by
  induction hn : s.zip.cdLeft using Nat.strongRecOn generalizing s with
  | ind n ih =>
    subst hn
    rcases fetchCdh_cases s with ⟨-, e⟩ | ⟨-, -, e⟩ | ⟨-, -, e⟩
    · exact completes_of_coreStep hops (coreStep_internal hrun e) (completes_of_fail rfl)
    · refine completes_of_body hops (coreStep_run hrun e) (fun t hok => ?_) (fun x hx => (cdhBody_eq_error hx).run)
      obtain ⟨-, rfl⟩ := cdhBody_eq_ok hok
      exact completes_of_checkLfh hops rfl fun u hopsu hrunu hlt => ih _ hlt hopsu hrunu rfl
    · exact completes_of_coreStep hops (coreStep_internal hrun e) (completes_of_fail rfl)

/-- R262: the scan completes, by induction on the candidate offset. -/
theorem completes_of_scanEocd {s : State} (hops : s.hostOps = []) (hrun : s.run = .busy .scanEocd) :
    Completes s := by
  induction hn : s.zip.scanPos using Nat.strongRecOn generalizing s with
  | ind n ih =>
    subst hn
    rcases fetchEocd_cases s with ⟨-, e⟩ | ⟨-, -, e⟩ | ⟨-, hlt, e⟩
    · refine completes_of_body hops (coreStep_run hrun e) (fun t hok => ?_) (fun x hx => (eocdBody_eq_error hx).run)
      obtain ⟨-, rfl⟩ := eocdBody_eq_ok hok
      by_cases hnone : le16 (withEocd s.zip.scanPos s) (s.zip.scanPos + 10) = 0
      · exact completes_of_finish hops (congrArg RunState.busy (if_pos hnone))
      · exact completes_of_walkCdh hops (congrArg RunState.busy (if_neg hnone))
    · exact completes_of_coreStep hops (coreStep_internal hrun e) (completes_of_fail rfl)
    · exact completes_of_coreStep hops (coreStep_internal hrun e) (ih _ (Nat.sub_one_lt (by omega)) hops hrun rfl)

/-! ### The commands (R300) -/

theorem completes_of_startInflate {start stop cap : Nat} {s : State} (hops : s.hostOps = []) :
    Completes (startInflate start stop cap s) :=
  completes_of_treesReady (a := .blockHeader) hops rfl trivial

theorem completes_of_produce {e : Entry} {s t : State} (hops : s.hostOps = []) (h : produce e s = .ok t) :
    Completes t := by
  obtain ⟨-, ⟨-, rfl⟩ | ⟨-, -, u, hu, rfl⟩⟩ := produce_eq_ok h
  · exact completes_of_startInflate hops
  · exact completes_of_finish ((copyIn_eq_ok hu).1.hostOps.trans hops) rfl

/-- R300: the accepted command, by what its body starts. -/
theorem completes_of_command {s : State} (hops : s.hostOps = []) (hrun : s.run = .busy .command) : Completes s := by
  have hstep : coreStep s = exec (decodeCmd (cmdWord s)) s := coreStep_run hrun rfl
  unfold decodeCmd at hstep
  split at hstep
  case h_2 =>
    rcases openBody_cases s with ⟨-, e⟩ | ⟨-, -, e⟩ | ⟨-, -, e⟩
    · exact completes_of_coreStep hops (hstep.trans (congrArg settle e)) (completes_of_fail rfl)
    · exact completes_of_coreStep hops (hstep.trans (congrArg settle e)) (completes_of_fail rfl)
    · exact completes_of_coreStep hops (hstep.trans (congrArg settle e)) (completes_of_scanEocd hops rfl)
  case h_3 =>
    refine completes_of_body hops hstep (fun t hok => ?_) (fun x herror => ?_)
    · obtain ⟨-, -, k, e, -, hproduce⟩ := readBody_eq_ok hok
      exact completes_of_produce (s := withRecord k e s) hops hproduce
    · obtain ⟨r, hfailed⟩ := readBody_eq_error herror
      exact hfailed.run
  case h_4 =>
    rcases inflateBody_cases s with ⟨-, -, -, e⟩ | ⟨-, e⟩
    · exact completes_of_coreStep hops (hstep.trans (congrArg settle e)) (completes_of_startInflate hops)
    · exact completes_of_coreStep hops (hstep.trans (congrArg settle e)) (completes_of_fail rfl)
  case h_5 =>
    rcases crc32Body_cases s with ⟨-, -, e⟩ | ⟨-, e⟩
    · exact completes_of_coreStep hops (hstep.trans (congrArg settle e)) (completes_of_over (.inl rfl))
    · exact completes_of_coreStep hops (hstep.trans (congrArg settle e)) (completes_of_fail rfl)
  all_goals exact completes_of_coreStep hops hstep (completes_of_fail rfl)

/-- Settles O59: by the place that the body has reached. -/
theorem everyCommandCompletes : Obligations.EveryCommandCompletes := by
  intro s hinv hbusy hops
  obtain ⟨a, hrun⟩ := exists_run_of_busy hbusy
  have hplace := hinv.place a hrun
  cases a with
  | command => exact completes_of_command hops hrun
  | scanEocd => exact completes_of_scanEocd hops hrun
  | walkCdh => exact completes_of_walkCdh hops hrun
  | checkLfh => exact completes_of_checkLfh hops hrun fun t hopst hrunt _ => completes_of_walkCdh hopst hrunt
  | blockHeader => exact completes_of_treesReady hops hrun (hplace.treesReady (.inl rfl))
  | codeLength => exact completes_of_treesReady hops hrun (hplace.treesReady (.inr (.inl rfl)))
  | litLen => exact completes_of_treesReady hops hrun (hplace.treesReady (.inr (.inr (.inl rfl))))
  | distance => exact completes_of_treesReady hops hrun (hplace.treesReady (.inr (.inr (.inr rfl))))
  | finish => exact completes_of_finish hops hrun

end Sys2Proof.Machine
end

section
/-! PROOFS. The causes, the ERR word of a cause, and the failure completion (R24, R340, R341, R346). -/

namespace Sys2Proof.Machine

theorem Cause.code_lt (c : Cause) : c.code < 2 ^ 8 := by cases c <;> decide

theorem Cause.classCode_lt (c : Cause) : c.classCode < 2 ^ 4 := by cases c <;> decide

/-- R24: the three fields of ERR do not overlap, so the word is their sum. -/
theorem errWord_toNat (c : Cause) {bit : Nat} (hbit : bit < 8) :
    (errWord c bit).toNat = bit * 2 ^ 12 + c.classCode * 2 ^ 8 + c.code := by
  have hcode := c.code_lt
  have hclass := c.classCode_lt
  have hlow : c.classCode <<< 8 ||| c.code = c.classCode * 2 ^ 8 + c.code := by
    rw [← Nat.shiftLeft_add_eq_or_of_lt hcode, Nat.shiftLeft_eq]
  have hword : bit <<< 12 ||| (c.classCode * 2 ^ 8 + c.code) = bit * 2 ^ 12 + (c.classCode * 2 ^ 8 + c.code) := by
    rw [← Nat.shiftLeft_add_eq_or_of_lt (by omega), Nat.shiftLeft_eq]
  have hfields : (errWord c bit).toNat = bit <<< 12 ||| c.classCode <<< 8 ||| c.code := by
    simp only [errWord, BitVec.toNat_or, BitVec.toNat_shiftLeft, BitVec.toNat_ofNat, Nat.shiftLeft_eq]
    simp (disch := omega) only [Nat.mod_eq_of_lt]
  rw [hfields, Nat.or_assoc, hlow, hword, Nat.add_assoc]

/-- Settles O13: the word is `errWord`, whose fields `errWord_toNat` reads off. -/
theorem failureCompletion : Obligations.FailureCompletion :=
  ⟨fun c _ bit _ => ⟨errWord c bit, rfl, errWord_toNat c⟩, fun _ _ => rfl⟩

/-- Settles O14: the table of R341, row by row. -/
theorem causeTable : Obligations.CauseTable := ⟨rfl, rfl, rfl, rfl⟩

end Sys2Proof.Machine
end

section
/-! PROOFS. The interrupt (R350): a step of a BUSY core leaves the registers alone while the command goes on, and where
the command ends it sets IRQ_PENDING and keeps IE; a host access changes the two bits by STATUS, CTRL and reset only. -/

namespace Sys2Proof.Machine

/-- What a step of a BUSY core whose registers were `r` leaves in them. -/
inductive CoreLeaves (r : Regs) (t : State) : Prop where
  /-- The command goes on, at place `a`. -/
  | goesOn (a : Activity) (hrun : t.run = .busy a) (hregs : t.regs = r)
  /-- R301, R346. -/
  | ends (hrun : t.run = .done ∨ t.run = .fail) (hpending : t.regs.irqPending = true) (hie : t.regs.ie = r.ie)

theorem CoreLeaves.of_regs {s u t : State} (hu : u.regs = s.regs) (h : CoreLeaves u.regs t) :
    CoreLeaves s.regs t := hu ▸ h

theorem fail_leaves {c : Cause} {pos bit : Nat} {s : State} : CoreLeaves s.regs (fail c pos bit s) :=
  .ends (.inr rfl) rfl rfl

theorem failInflate_leaves {c : Cause} {s : State} : CoreLeaves s.regs (failInflate c s) := .ends (.inr rfl) rfl rfl

theorem FailedInflate.leaves {s e : State} (h : FailedInflate s e) : CoreLeaves s.regs e := by
  obtain ⟨c, inf, -, -, -, rfl⟩ := h
  exact .ends (.inr rfl) rfl rfl

theorem FailedAt.leaves {s e : State} (h : FailedAt s e) : CoreLeaves s.regs e := by
  obtain ⟨c, pos, rfl⟩ := h
  exact fail_leaves

/-- A body that settles leaves what its success and its raises leave. -/
theorem settle_leaves {r : Regs} {t : State} {x : Res State} (h : settle x = .next t)
    (hok : x = .ok t → CoreLeaves r t) (herror : x = .error t → CoreLeaves r t) : CoreLeaves r t := by
  cases x with
  | ok u => cases h; exact hok rfl
  | error e => cases h; exact herror rfl

theorem Appended.regs {n : Nat} {s t : State} (h : Appended n s t) : t.regs = s.regs := by rw [h.rest]

/-! ### The stream (R191-R210) -/

theorem endBlock_leaves (s : State) : CoreLeaves s.regs (endBlock s) := .goesOn _ (endBlock_run s) (endBlock_regs s)

theorem storedBody_leaves {s t : State} (h : settle (storedBody s) = .next t) : CoreLeaves s.regs t := by
  refine settle_leaves h (fun hok => ?_) fun herror => (storedBody_eq_error herror).leaves
  obtain ⟨p, len, u, -, -, -, -, hu, rfl⟩ := storedBody_eq_ok hok
  exact .of_regs (copyStored_eq_ok hu).1.regs (endBlock_leaves u)

theorem dynamicHeader_leaves {s t : State} (h : settle (dynamicHeader s) = .next t) : CoreLeaves s.regs t := by
  refine settle_leaves h (fun hok => ?_) fun herror => (dynamicHeader_eq_error herror).leaves
  obtain ⟨rfl, -, -⟩ := dynamicHeader_eq_ok hok
  exact .goesOn _ rfl rfl

theorem matchLength_leaves {i : Nat} {s t : State} (h : settle (matchLength i s) = .next t) :
    CoreLeaves s.regs t := by
  rcases matchLength_cases i s with ⟨-, e⟩ | ⟨-, e⟩ <;> rw [e] at h <;> cases h
  · exact .goesOn _ rfl rfl
  · exact failInflate_leaves

theorem matchDistance_leaves {d : Nat} {s t : State} (h : settle (matchDistance d s) = .next t) :
    CoreLeaves s.regs t := by
  refine settle_leaves h (fun hok => ?_) fun herror => (matchDistance_eq_error herror).leaves
  obtain ⟨u, hu, rfl, -, -⟩ := matchDistance_eq_ok hok
  exact .goesOn _ rfl (copyBack_eq_ok hu).1.regs

theorem appendLengths_leaves (new : List Nat) (s : State) : CoreLeaves s.regs (appendLengths new s) := by
  unfold appendLengths nextLength
  split <;> exact .goesOn _ rfl rfl

theorem appendRun_leaves {v base bits : Nat} {s t : State} (h : settle (appendRun v base bits s) = .next t) :
    CoreLeaves s.regs t := by
  rcases appendRun_cases v base bits s with ⟨-, -, e⟩ | ⟨-, -, e⟩ | ⟨-, e⟩ <;> rw [e] at h <;> cases h
  · exact .of_regs (setBitpos_regs _ s) (appendLengths_leaves _ _)
  · exact .of_regs (setBitpos_regs _ s) failInflate_leaves
  · exact failInflate_leaves

theorem execLit_leaves {byte : Nat} {s t : State} (h : execLit byte s = .next t) : CoreLeaves s.regs t := by
  unfold execLit at h
  by_cases hfull : s.inf.destLen = s.inf.destCap
  · rw [putByte_full hfull] at h
    cases h
    exact failInflate_leaves
  · rw [putByte_ok hfull] at h
    cases h
    exact .goesOn _ rfl rfl

theorem exec_blockHdr_leaves {b : BitVec 3} {s t : State} (h : exec (decodeBlockHdr b) s = .next t) :
    CoreLeaves s.regs t := by
  unfold decodeBlockHdr at h
  split at h
  · exact .of_regs (enterBlock_regs _ _ _ s) (storedBody_leaves h)
  · cases h; exact .goesOn _ rfl rfl
  · exact .of_regs (enterBlock_regs _ _ _ s) (dynamicHeader_leaves h)
  · cases h; exact .of_regs (enterBlock_regs _ _ _ s) failInflate_leaves

theorem exec_codeLen_leaves {v : Nat} {i : Instr} {s t : State} (hi : decode .codeLen v = .ok i)
    (h : exec i s = .next t) : CoreLeaves s.regs t := by
  simp only [decode, decodeCodeLen] at hi
  split at hi
  · cases hi; cases h; exact appendLengths_leaves _ s
  split at hi
  · cases hi
    simp only [exec, execClRepeat] at h
    split at h
    · cases h; exact failInflate_leaves
    · exact appendRun_leaves h
  split at hi
  · cases hi; exact appendRun_leaves h
  split at hi
  · cases hi; exact appendRun_leaves h
  · cases hi

theorem exec_litLen_leaves {v : Nat} {i : Instr} {s t : State} (hi : decode .litLen v = .ok i)
    (h : exec i s = .next t) : CoreLeaves s.regs t := by
  simp only [decode, decodeLitLen] at hi
  split at hi
  · cases hi; exact execLit_leaves h
  split at hi
  · cases hi; cases h; exact endBlock_leaves s
  split at hi
  · cases hi; cases h; exact failInflate_leaves
  split at hi
  · cases hi; cases h; exact failInflate_leaves
  split at hi
  · next hx => cases hi; exact matchLength_leaves (exec_lengthInstr hx s ▸ h)
  · cases hi

theorem exec_dist_leaves {v : Nat} {i : Instr} {s t : State} (hi : decode .dist v = .ok i)
    (h : exec i s = .next t) : CoreLeaves s.regs t := by
  simp only [decode, decodeDist] at hi
  split at hi
  · next hx =>
    cases hi
    by_cases hv : v < 30
    · exact matchDistance_leaves (exec_distInstr hx hv s ▸ h)
    · rw [exec_invalidDist hx (by omega)] at h
      cases h
      exact failInflate_leaves
  · cases hi

/-- R191: reading the three bits of a header leaves the registers alone; what follows is the block's meaning. -/
theorem blockHeader_leaves {s t : State} (hrun : s.run = .busy .blockHeader) (h : coreStep s = .next t) :
    CoreLeaves s.regs t := by
  rcases coreStep_next hrun h with ⟨i, u, hf, hx⟩ | hf
  · simp only [fetch, fetchBlockHdr] at hf
    split at hf
    · cases hf
    · next b v hb =>
      cases hf
      obtain ⟨rfl, -, -⟩ := readBlockHdr_eq_ok hb
      exact .of_regs (u := withBlockHdr s) rfl (exec_blockHdr_leaves hx)
  · exact (fetchBlockHdr_internal hf).leaves

/-- R175: the step at a symbol, for an alphabet each of whose symbols leaves the registers so. -/
theorem symbol_leaves {a : Activity} {f : Format} {tree : Tree} {s t : State} (hrun : s.run = .busy a)
    (hfetch : fetch a s = fetchSymbol f (decodeSym tree s))
    (hexec : ∀ v i u, decode f v = .ok i → exec i u = .next t → CoreLeaves u.regs t)
    (h : coreStep s = .next t) : CoreLeaves s.regs t := by
  rcases coreStep_next hrun h with ⟨i, u, hf, hx⟩ | hf <;> rw [hfetch] at hf
  · obtain ⟨-, ⟨p, rfl⟩, v, hv⟩ := fetchSymbol_inside hf
    exact .of_regs (setBitpos_regs p s) (hexec v i _ hv hx)
  · exact (decodeSym_eq_error (fetchSymbol_eq_internal hf)).leaves

/-! ### The commands (R301-R314) -/

theorem openBody_leaves {s t : State} (h : settle (openBody s) = .next t) : CoreLeaves s.regs t := by
  rcases openBody_cases s with ⟨-, e⟩ | ⟨-, -, e⟩ | ⟨-, -, e⟩ <;> rw [e] at h <;> cases h
  · exact fail_leaves
  · exact fail_leaves
  · exact .goesOn _ rfl rfl

theorem produce_leaves {e : Entry} {s t : State} (h : produce e s = .ok t) : CoreLeaves s.regs t := by
  obtain ⟨-, ⟨-, rfl⟩ | ⟨-, -, u, hu, rfl⟩⟩ := produce_eq_ok h
  · exact .goesOn _ rfl rfl
  · exact .goesOn _ rfl (copyIn_eq_ok hu).1.regs

theorem readBody_leaves {s t : State} (h : settle (readBody s) = .next t) : CoreLeaves s.regs t := by
  refine settle_leaves h (fun hok => ?_) (fun herror => ?_)
  · obtain ⟨-, -, k, e, -, hp⟩ := readBody_eq_ok hok
    exact .of_regs (u := { s with ent := entRegsOf k e }) rfl (produce_leaves hp)
  · obtain ⟨ent, hfailed⟩ := readBody_eq_error herror
    exact .of_regs (u := { s with ent := ent }) rfl hfailed.leaves

theorem inflateBody_leaves {s t : State} (h : settle (inflateBody s) = .next t) : CoreLeaves s.regs t := by
  rcases inflateBody_cases s with ⟨-, -, -, e⟩ | ⟨-, e⟩ <;> rw [e] at h <;> cases h
  · exact .goesOn _ rfl rfl
  · exact fail_leaves

theorem crc32Body_leaves {s t : State} (h : settle (crc32Body s) = .next t) : CoreLeaves s.regs t := by
  rcases crc32Body_cases s with ⟨-, -, e⟩ | ⟨-, e⟩ <;> rw [e] at h <;> cases h
  · exact .ends (.inl rfl) rfl rfl
  · exact fail_leaves

theorem command_leaves {s t : State} (h : exec (decodeCmd (cmdWord s)) s = .next t) : CoreLeaves s.regs t := by
  unfold decodeCmd at h
  split at h
  case h_2 => exact openBody_leaves h
  case h_3 => exact readBody_leaves h
  case h_4 => exact inflateBody_leaves h
  case h_5 => exact crc32Body_leaves h
  all_goals cases h; exact fail_leaves

theorem finishRead_leaves (s : State) : CoreLeaves s.regs (finishRead s) := by
  rcases finishRead_cases s with ⟨-, -, e⟩ | ⟨-, -, e⟩ | ⟨-, -, e⟩ <;> rw [e]
  · exact fail_leaves
  · exact .ends (.inr rfl) rfl rfl
  · exact .ends (.inl rfl) rfl rfl

theorem finishCommand_leaves (s : State) : CoreLeaves s.regs (finishCommand s) := by
  unfold finishCommand
  split
  · exact .ends (.inl rfl) rfl rfl
  · exact finishRead_leaves s
  · exact .ends (.inl rfl) rfl rfl
  · exact .ends (.inl rfl) rfl rfl

/-! ### The ZIP records (R262-R278) -/

theorem scanEocd_leaves {s t : State} (hrun : s.run = .busy .scanEocd) (h : coreStep s = .next t) :
    CoreLeaves s.regs t := by
  rcases fetchEocd_cases s with ⟨-, e⟩ | ⟨-, -, e⟩ | ⟨-, -, e⟩
  · rw [coreStep_run hrun e] at h
    refine settle_leaves h (fun hok => ?_) fun herror => (eocdBody_eq_error herror).leaves
    obtain ⟨-, rfl⟩ := eocdBody_eq_ok hok
    exact .goesOn _ rfl rfl
  · cases (coreStep_internal hrun e).symm.trans h
    exact fail_leaves
  · cases (coreStep_internal hrun e).symm.trans h
    exact .goesOn _ hrun rfl

theorem walkCdh_leaves {s t : State} (hrun : s.run = .busy .walkCdh) (h : coreStep s = .next t) :
    CoreLeaves s.regs t := by
  rcases fetchCdh_cases s with ⟨-, e⟩ | ⟨-, -, e⟩ | ⟨-, -, e⟩
  · cases (coreStep_internal hrun e).symm.trans h
    exact fail_leaves
  · rw [coreStep_run hrun e] at h
    refine settle_leaves h (fun hok => ?_) fun herror => (cdhBody_eq_error herror).leaves
    obtain ⟨-, rfl⟩ := cdhBody_eq_ok hok
    exact .goesOn _ rfl rfl
  · cases (coreStep_internal hrun e).symm.trans h
    exact fail_leaves

theorem checkLfh_leaves {s t : State} (hrun : s.run = .busy .checkLfh) (h : coreStep s = .next t) :
    CoreLeaves s.regs t := by
  rcases fetchLfh_cases s with ⟨-, e⟩ | ⟨-, -, e⟩ | ⟨-, -, e⟩
  · cases (coreStep_internal hrun e).symm.trans h
    exact fail_leaves
  · rw [coreStep_run hrun e] at h
    refine settle_leaves h (fun hok => ?_) fun herror => (lfhBody_eq_error herror).1.leaves
    obtain ⟨-, rfl⟩ := lfhBody_eq_ok hok
    exact .goesOn _ rfl rfl
  · cases (coreStep_internal hrun e).symm.trans h
    exact fail_leaves

/-- R301, R346: everything a step of a BUSY core can do to IRQ_PENDING and IE. -/
theorem coreStep_leaves {a : Activity} {s t : State} (hrun : s.run = .busy a) (h : coreStep s = .next t) :
    CoreLeaves s.regs t := by
  cases a with
  | command => exact command_leaves (coreStep_run hrun rfl ▸ h)
  | scanEocd => exact scanEocd_leaves hrun h
  | walkCdh => exact walkCdh_leaves hrun h
  | checkLfh => exact checkLfh_leaves hrun h
  | blockHeader => exact blockHeader_leaves hrun h
  | codeLength => exact symbol_leaves hrun rfl (fun _ _ _ => exec_codeLen_leaves) h
  | litLen => exact symbol_leaves hrun rfl (fun _ _ _ => exec_litLen_leaves) h
  | distance => exact symbol_leaves hrun rfl (fun _ _ _ => exec_dist_leaves) h
  | finish => cases (coreStep_internal hrun rfl).symm.trans h; exact finishCommand_leaves s

/-! ### A step of the two agents -/

/-- R350: what one step can do to IRQ_PENDING and IE, with what it then does to STATE. -/
inductive InterruptStep (s t : State) : Prop where
  /-- Neither bit changes, and no command ends. -/
  | kept (hbusy : busy s = true → busy t = true) (hpending : t.regs.irqPending = s.regs.irqPending)
      (hie : t.regs.ie = s.regs.ie)
  /-- R301, R346. -/
  | completed (hbusy : busy s = true) (hrun : t.run = .done ∨ t.run = .fail) (hpending : t.regs.irqPending = true)
      (hie : t.regs.ie = s.regs.ie)
  /-- R22: a write to STATUS. -/
  | status (v : Word) (ops : List HostOp) (ho : s.hostOps = .writeReg 0x04 .w32 v :: ops)
      (h : t = writeStatus v { s with hostOps := ops })
  /-- R23: a write to CTRL. -/
  | ctrl (v : Word) (ops : List HostOp) (ho : s.hostOps = .writeReg 0x08 .w32 v :: ops)
      (h : t = writeCtrl v { s with hostOps := ops })
  /-- R380. -/
  | reset (ops : List HostOp) (ho : s.hostOps = .reset :: ops) (hpending : t.regs.irqPending = false)

theorem acceptCommand_irqPending (w : Word) (s : State) :
    (acceptCommand w s).regs.irqPending = s.regs.irqPending := by unfold acceptCommand; split <;> rfl

theorem acceptCommand_ie (w : Word) (s : State) : (acceptCommand w s).regs.ie = s.regs.ie := by
  unfold acceptCommand; split <;> rfl

/-- The core's step, from the state without the move taken from the script. -/
theorem coreStep_interrupt {s t : State} (ops : List HostOp) (h : coreStep { s with hostOps := ops } = .next t) :
    InterruptStep s t := by
  cases hb : busy s with
  | false =>
    cases (coreStep_idle (s := { s with hostOps := ops }) hb).symm.trans h
    exact .kept id rfl rfl
  | true =>
    obtain ⟨a, hrun⟩ := exists_run_of_busy hb
    cases coreStep_leaves (s := { s with hostOps := ops }) hrun h with
    | goesOn b hrunt hregs => exact .kept (fun _ => busy_of_run hrunt) (by rw [hregs]) (by rw [hregs])
    | ends hrunt hpending hie => exact .completed hb hrunt hpending hie

theorem HostEffect.interrupt {op : HostOp} {ops : List HostOp} {s t : State} (ho : s.hostOps = op :: ops)
    (h : HostEffect op { s with hostOps := ops } t) : InterruptStep s t := by
  cases h with
  | status v hop h => exact .status v ops (hop ▸ ho) h
  | ctrl v hop h => exact .ctrl v ops (hop ▸ ho) h
  | reset hop h => exact .reset ops (hop ▸ ho) (by rw [h]; rfl)
  | accepted v hb hop h =>
    rw [h]
    exact .kept (fun _ => busy_of_run (acceptCommand_run v _)) (acceptCommand_irqPending v _) (acceptCommand_ie v _)
  | held d n h => rw [h]; exact .kept id rfl rfl
  | dropped hb h => rw [h]; exact .kept id rfl rfl
  | inLen v hb h => rw [h]; exact .kept id rfl rfl
  | operands n a0 a1 a2 hb h => rw [h]; exact .kept id rfl rfl
  | inByte a v hb ha h => rw [h]; exact .kept id rfl rfl
  | nameByte a v hb ha h => rw [h]; exact .kept id rfl rfl

/-- R350: everything one step can do to IRQ_PENDING and IE. -/
theorem step_interrupt {s t : State} (h : step s = .next t) : InterruptStep s t := by
  rcases nextMove_cases h with ⟨hc, -⟩ | ⟨ops, -, hc⟩ | ⟨ops, -, -, rfl⟩ | ⟨op, ops, ho, -, -, he⟩
  · exact coreStep_interrupt s.hostOps hc
  · exact coreStep_interrupt ops hc
  · exact .kept id rfl rfl
  · exact he.interrupt ho

/-- R301, R346: a step that leaves BUSY leaves IRQ_PENDING set, unless it is a reset. -/
theorem InterruptStep.pending_of_leaves_busy {s t : State} (h : InterruptStep s t) (hs : busy s = true)
    (ht : busy t = false) : t.regs.irqPending = true ∨ ∃ ops, s.hostOps = .reset :: ops := by
  cases h with
  | kept hbusy _ _ => rw [hbusy hs] at ht; cases ht
  | completed _ _ hpending _ => exact .inl hpending
  | status v ops _ h => subst h; exact absurd (hs.symm.trans ht) Bool.noConfusion
  | ctrl v ops _ h => subst h; exact absurd (hs.symm.trans ht) Bool.noConfusion
  | reset ops ho _ => exact .inr ⟨ops, ho⟩

/-- IRQ_PENDING is set only where a command ends. -/
theorem InterruptStep.completes_of_set {s t : State} (h : InterruptStep s t) (hs : s.regs.irqPending = false)
    (ht : t.regs.irqPending = true) : busy s = true ∧ (t.run = .done ∨ t.run = .fail) := by
  cases h with
  | kept _ hpending _ => rw [hpending, hs] at ht; cases ht
  | completed hbusy hrun _ _ => exact ⟨hbusy, hrun⟩
  | status v ops _ h => subst h; simp [hs] at ht
  | ctrl v ops _ h => subst h; simp [hs] at ht
  | reset ops _ hpending => rw [hpending] at ht; cases ht

/-- IRQ_PENDING is cleared only by a 1 written to STATUS bit 4, and by reset. -/
theorem InterruptStep.write_of_cleared {s t : State} (h : InterruptStep s t) (hs : s.regs.irqPending = true)
    (ht : t.regs.irqPending = false) : ∃ ops, s.hostOps = .reset :: ops ∨
      ∃ v : Word, s.hostOps = .writeReg 0x04 .w32 v :: ops ∧ v.getLsbD 4 = true := by
  cases h with
  | kept _ hpending _ => rw [hpending, hs] at ht; cases ht
  | completed _ _ hpending _ => rw [hpending] at ht; cases ht
  | status v ops ho h => subst h; exact ⟨ops, .inr ⟨v, ho, by simpa [hs] using ht⟩⟩
  | ctrl v ops _ h => subst h; simp [hs] at ht
  | reset ops ho _ => exact ⟨ops, .inl ho⟩

theorem InterruptStep.write_of_ie {s t : State} (h : InterruptStep s t) (hne : t.regs.ie ≠ s.regs.ie) :
    ∃ ops, s.hostOps = .reset :: ops ∨ ∃ v : Word, s.hostOps = .writeReg 0x08 .w32 v :: ops := by
  cases h with
  | kept _ _ hie => exact absurd hie hne
  | completed _ _ _ hie => exact absurd hie hne
  | status v ops _ h => subst h; exact absurd rfl hne
  | ctrl v ops ho _ => exact ⟨ops, .inr ⟨v, ho⟩⟩
  | reset ops ho _ => exact ⟨ops, .inl ho⟩

/-- Settles O25: by `step_interrupt`, what any step does to the two bits. -/
theorem interruptIsSticky : Obligations.InterruptIsSticky := fun _ _ h =>
  have hstep := step_interrupt h
  ⟨rfl, hstep.pending_of_leaves_busy, hstep.completes_of_set, hstep.write_of_cleared, hstep.write_of_ie⟩

end Sys2Proof.Machine
end

section
/-! PROOFS. Reset (R380, R382): what it leaves, from any state, and that the state after it is sound. -/

namespace Sys2Proof.Machine

/-- Settles O27: by evaluation, as every memory is empty after reset and so each of its bytes reads as a draw. -/
theorem resetState : Obligations.ResetState :=
  ⟨fun s => ⟨hardReset s, rfl, rfl, rfl, rfl, rfl, rfl, rfl, fun _ => ⟨rfl, rfl, rfl⟩⟩, rfl, rfl, rfl, rfl, rfl, rfl⟩

theorem Memory.below_nil (cap : Nat) : Memory.Below cap [] := ⟨rfl, List.forall_mem_nil _⟩

theorem portsOk_reset : PortsOk State.reset := ⟨Memory.below_nil _, Memory.below_nil _, Memory.below_nil _⟩

theorem handleClear_reset : HandleClear State.reset := ⟨rfl, rfl, rfl, rfl⟩

/-- R380: the file table is empty and OPEN_VALID is 0. -/
theorem handleOk_reset : HandleOk State.reset where
  capacity := Nat.zero_le _
  valid hopen := absurd (handleClear_reset.openValid.symm.trans hopen) Bool.noConfusion
  failedOpen _ _ := handleClear_reset
  runningOpen _ _ := handleClear_reset

/-- R380: STATE is IDLE and every register is 0. -/
theorem resultRegsOk_reset : ResultRegsOk State.reset where
  noError _ := ⟨rfl, rfl⟩
  failed hfail := RunState.noConfusion hfail
  running _ := ⟨rfl, rfl⟩
  fresh _ := ⟨rfl, rfl, rfl, rfl, rfl, handleClear_reset⟩

theorem inv_reset : State.reset.Inv where
  params := rfl
  ports := portsOk_reset
  handle := handleOk_reset
  results := resultRegsOk_reset
  place _ hbusy := RunState.noConfusion hbusy

theorem resultsHold_reset : State.reset.ResultsHold := fun hdone => RunState.noConfusion hdone

/-- Settles O55: by `inv_reset` and `resultsHold_reset`. -/
theorem resetIsSound : Obligations.ResetIsSound := ⟨inv_reset, resultsHold_reset⟩

end Sys2Proof.Machine
end

section
/-! PROOFS. The accesses of the host that R73 does not perform, those that invalidate the handle (R72), and those to a
byte of a port memory (R70, R71, R74). -/

namespace Sys2Proof.Machine

theorem aligned_eq_false {off : BitVec 8} {width : Width} (h : width ≠ .w32 ∨ off.toNat % 4 ≠ 0) :
    aligned off width = false := by
  simpa only [aligned, Bool.and_eq_false_iff, decide_eq_false_iff_not] using h

/-- Settles O20: by `aligned_eq_false`, both accesses take their first branch. -/
theorem misalignedAccess : Obligations.MisalignedAccess := by
  intro off width v s h
  have ha := aligned_eq_false h
  exact ⟨by rw [hostAccess, hostWriteReg, if_pos ha], by rw [hostAccess, hostReadReg, if_pos ha, hostGets]⟩

/-! ### Bytes that the host writes -/

theorem inByte_write_same (s : State) (a : Nat) (v : Byte) : inByte { s with inMem := s.inMem.set a v } a = v := by
  simp [inByte]

theorem inByte_write_ne (s : State) {a x : Nat} (v : Byte) (h : x ≠ a) :
    inByte { s with inMem := s.inMem.set a v } x = inByte s x := by
  simp [inByte, Memory.get?_set_ne _ _ h]

theorem nameByte_write_same (s : State) (a : Nat) (v : Byte) :
    nameByte { s with nameMem := s.nameMem.set a v } a = v := by
  simp [nameByte]

theorem nameByte_write_ne (s : State) {a x : Nat} (v : Byte) (h : x ≠ a) :
    nameByte { s with nameMem := s.nameMem.set a v } x = nameByte s x := by
  simp [nameByte, Memory.get?_set_ne _ _ h]

theorem writeIn_idle {a : Nat} {v : Byte} {s : State} (hb : busy s = false) (ha : a < s.params.inCap) :
    hostAccess (.writeIn a v) s = .next (invalidate { s with inMem := s.inMem.set a v }) :=
  (portAccess_below ha).trans (by rw [hostWriteIn, if_neg (by simp [hb])])

theorem writeName_idle {a : Nat} {v : Byte} {s : State} (hb : busy s = false) (ha : a < s.params.nameCap) :
    hostAccess (.writeName a v) s = .next { s with nameMem := s.nameMem.set a v } :=
  (portAccess_below ha).trans (by rw [hostWriteName, if_neg (by simp [hb])])

/-- R74: while the core is not BUSY a byte of OUT reads as it is. -/
theorem readOut_idle {a : Nat} {s : State} (hb : busy s = false) (ha : a < s.params.outCap) :
    hostAccess (.readOut a) s = .next (hostGets ((outByte s a).setWidth 32) s) :=
  (portAccess_below ha).trans (by rw [hostReadOut, if_neg (by simp [hb])])

/-- Settles O22: the two writes while the core is not BUSY, and the same two dropped. -/
theorem handleInvalidation : Obligations.HandleInvalidation := by
  intro s a b v ha
  refine ⟨fun hb => ⟨writeReg_idle hb rfl (by decide) (by decide), _, writeIn_idle hb ha, rfl,
    inByte_write_same s a b, fun x => inByte_write_ne s b⟩, fun hb => ⟨?_, writeIn_busy hb ha⟩⟩
  exact writeReg_busy_input hb 0x14 (by decide)

/-- R70, R71, R74: a byte at or beyond the capacity does not exist (assumption 11). -/
theorem portAccess_beyond {p : Port} {a : Nat} {s : State} (h : capacity p s ≤ a) (t : State) :
    portAccess p a s t = .fault (.noSuchByte p a) := if_neg (Nat.not_lt.mpr h)

/-- Settles O23: by `portAccess_below` and `portAccess_beyond`. -/
theorem portAccesses : Obligations.PortAccesses := fun a v s =>
  ⟨fun hb ha => ⟨_, writeName_idle hb ha, rfl, nameByte_write_same s a v, fun _ => nameByte_write_ne s v⟩,
    fun ha => portAccess_below ha, fun ha => portAccess_below ha, fun ha => portAccess_below ha, readOut_idle,
    fun h => ⟨portAccess_beyond h _, portAccess_beyond h _⟩, fun h => ⟨portAccess_beyond h _, portAccess_beyond h _⟩,
    fun h => ⟨portAccess_beyond h _, portAccess_beyond h _⟩⟩

end Sys2Proof.Machine
end

section
/-! PROOFS. What an element of the stream does, said once (R190-R210): it fails the inflate, or it consumes bits of the
region, appends bytes to the destination and moves on in the block. -/

namespace Sys2Proof.Machine

/-! ### Bits consumed inside the region -/

/-- `t` is `s` with `n` bytes appended and bits of the region consumed. -/
structure Consumed (n : Nat) (s t : State) : Prop where
  appended : Appended n s t
  inside : s.inf.bitpos ≤ 8 * s.inf.regionEnd → t.inf.bitpos ≤ 8 * s.inf.regionEnd

theorem Consumed.ofRead {n : Nat} {s : State} (h : n = 0 ∨ s.inf.bitpos + n ≤ 8 * s.inf.regionEnd) :
    Consumed 0 s (setBitpos (s.inf.bitpos + n) s) :=
  ⟨.ofSetBitpos (Nat.le_add_right _ n), fun hs => by simp only [setBitpos_inf]; omega⟩

theorem Consumed.ofByte {v : Byte} {s : State} (h : s.inf.destLen ≠ s.inf.destCap) : Consumed 1 s (withByte v s) :=
  ⟨.ofByte h, id⟩

theorem Consumed.trans {m n : Nat} {s t u : State} (h1 : Consumed m s t) (h2 : Consumed n t u) :
    Consumed (m + n) s u where
  appended := h1.appended.trans h2.appended
  inside hs := by
    have hend := h1.appended.regionEnd
    have ht := h2.inside (by rw [hend]; exact h1.inside hs)
    rwa [hend] at ht

theorem Consumed.copyBack {dist n : Nat} {s t : State} (h : Machine.copyBack dist n s = .ok t) : Consumed n s t := by
  obtain ⟨happ, hpos⟩ := copyBack_eq_ok h
  exact ⟨happ, fun hs => hpos ▸ hs⟩

theorem Consumed.copyStored {n : Nat} {s t : State} (h : Machine.copyStored n s = .ok t) : Consumed n s t := by
  obtain ⟨happ, hpos, hin, -⟩ := copyStored_eq_ok h
  refine ⟨happ, fun hs => ?_⟩
  rcases Nat.eq_zero_or_pos n with rfl | hn
  · rwa [hpos]
  · exact hin hn

/-! ### The symbols of an alphabet, by the instruction -/

theorem decode_codeLen_cases {v : Nat} {i : Instr} (h : decode .codeLen v = .ok i) :
    (v ≤ 15 ∧ i = .clLen v) ∨ i = .clRepeat ∨ i = .clZerosShort ∨ i = .clZerosLong := by
  simp only [decode, decodeCodeLen] at h
  split at h
  · next hv => cases h; exact .inl ⟨by omega, rfl⟩
  split at h
  · cases h; exact .inr (.inl rfl)
  split at h
  · cases h; exact .inr (.inr (.inl rfl))
  split at h
  · cases h; exact .inr (.inr (.inr rfl))
  · cases h

theorem decode_litLen_cases {v : Nat} {i : Instr} (h : decode .litLen v = .ok i) :
    i = .lit v ∨ i = .eob ∨ i = .invalidLitLen286 ∨ i = .invalidLitLen287 ∨ ∃ k : Nat, lengthInstrs[k]? = some i := by
  simp only [decode, decodeLitLen] at h
  split at h
  · cases h; exact .inl rfl
  split at h
  · cases h; exact .inr (.inl rfl)
  split at h
  · cases h; exact .inr (.inr (.inl rfl))
  split at h
  · cases h; exact .inr (.inr (.inr (.inl rfl)))
  split at h
  · next hx => cases h; exact .inr (.inr (.inr (.inr ⟨_, hx⟩)))
  · cases h

theorem decode_dist_some {v : Nat} {i : Instr} (h : decode .dist v = .ok i) : distInstrs[v]? = some i := by
  simp only [decode, decodeDist] at h
  split at h
  · next hx => cases h; exact hx
  · cases h

theorem decodeBlockHdr_cases (b : BitVec 3) : ∃ final, decodeBlockHdr b = .storedBlock final ∨
    decodeBlockHdr b = .fixedBlock final ∨ decodeBlockHdr b = .dynamicBlock final ∨
    decodeBlockHdr b = .reservedBlock final := by
  refine ⟨b.getLsbD 0, ?_⟩
  unfold decodeBlockHdr
  split
  · exact .inl rfl
  · exact .inr (.inl rfl)
  · exact .inr (.inr (.inl rfl))
  · exact .inr (.inr (.inr rfl))

/-- R207: `length` of a match. -/
def putMatchLen (len : Nat) (s : State) : State := { s with inf := { s.inf with matchLen := len } }

/-- R107: every length symbol stands for a length of 3..258. -/
theorem lengthBounds : ∀ k < 29, 3 ≤ lenBase.getD k 0 ∧ lenBase.getD k 0 + 2 ^ lenExtra.getD k 0 ≤ 259 := by
  decide

/-! ### What an element does -/

/-- What a step at an element, read at place `a`, does to `s`. -/
inductive ElementStep (a : Activity) (s t : State) : Prop where
  /-- R211. -/
  | failed (h : FailedInflate s t)
  /-- R195: a stored block, read whole. -/
  | storedBlock (ha : a = .blockHeader) (final : Bool) (n : Nat) (u : State)
      (hu : Consumed n (enterBlock final 0 .stored s) u) (ht : t = endBlock u)
  /-- R196. -/
  | fixedBlock (ha : a = .blockHeader) (final : Bool) (u : State) (hu : Consumed 0 (enterBlock final 1 .fixed s) u)
      (ht : t = goTo .litLen u)
  /-- R200, R201. -/
  | dynamicBlock (ha : a = .blockHeader) (final : Bool) (u : State)
      (hu : Consumed 0 (enterBlock final 2 .dynamic s) u) (hhlit : ¬ hlitRejected u)
      (hinside : (withHeader u).inf.bitpos ≤ 8 * u.inf.regionEnd) (ht : t = withHeader u)
  /-- R202-R206. -/
  | lengths (ha : a = .codeLength) (new : List Nat) (u : State) (hu : Consumed 0 s u)
      (hnew : ∀ l ∈ new, l ≤ 15 ∨ l ∈ u.inf.lengths)
      (hfits : new.length = 1 ∨ u.inf.lengths.length + new.length ≤ totalLengths u) (ht : t = appendLengths new u)
  /-- R198, R208: a literal, or the copy of a match. -/
  | bytes (ha : a = .litLen ∨ a = .distance) (n : Nat) (u : State) (hu : Consumed n s u) (ht : t = goTo .litLen u)
  /-- R207: the length half of a match. -/
  | matchLength (ha : a = .litLen) (len : Nat) (u : State) (hu : Consumed 0 s u) (h3 : 3 ≤ len) (h258 : len ≤ 258)
      (ht : t = goTo .distance (putMatchLen len u))
  /-- R199. -/
  | endOfBlock (ha : a = .litLen) (u : State) (hu : Consumed 0 s u) (ht : t = endBlock u)

/-! ### The instructions of each format, run in the state `u` in which `s` has read them -/

section
variable {s u t : State} (hu : Consumed 0 s u)
include hu

theorem elementStep_of_raise {a : Activity} {c : Cause} (hc : c.classCode = 3) (h : t = failInflate c u) :
    ElementStep a s t := h ▸ .failed ((failInflate_failed c u hc).of_appended hu.appended)

theorem appendRun_step {v base bits : Nat} (hv : v ≤ 15 ∨ v ∈ u.inf.lengths)
    (h : settle (appendRun v base bits u) = .next t) : ElementStep .codeLength s t := by
  rcases appendRun_cases v base bits u with ⟨hr, hfits, e⟩ | ⟨hr, -, e⟩ | ⟨-, e⟩ <;> rw [e] at h <;> cases h
  · refine .lengths rfl _ _ (hu.trans (.ofRead hr)) (fun l hl => ?_) (.inr ?_) rfl
    · rwa [List.eq_of_mem_replicate hl]
    · rwa [List.length_replicate]
  · exact elementStep_of_raise (hu.trans (.ofRead hr)) rfl rfl
  · exact elementStep_of_raise hu rfl rfl

theorem exec_codeLen_step {v : Nat} {i : Instr} (hi : decode .codeLen v = .ok i) (h : exec i u = .next t) :
    ElementStep .codeLength s t := by
  rcases decode_codeLen_cases hi with ⟨hv, rfl⟩ | rfl | rfl | rfl
  · cases h
    exact .lengths rfl [v] u hu (fun l hl => .inl (by rwa [List.mem_singleton.mp hl])) (.inl rfl) rfl
  · simp only [exec, execClRepeat] at h
    split at h
    · cases h; exact elementStep_of_raise hu rfl rfl
    · next v hlast => exact appendRun_step hu (.inr (List.mem_of_getLast? hlast)) h
  · exact appendRun_step hu (.inl (Nat.zero_le 15)) h
  · exact appendRun_step hu (.inl (Nat.zero_le 15)) h

theorem execLit_step {byte : Nat} (h : execLit byte u = .next t) : ElementStep .litLen s t := by
  unfold execLit at h
  by_cases hfull : u.inf.destLen = u.inf.destCap
  · rw [putByte_full hfull] at h
    cases h
    exact elementStep_of_raise hu rfl rfl
  · rw [putByte_ok hfull] at h
    cases h
    exact .bytes (.inl rfl) _ _ (hu.trans (.ofByte hfull)) rfl

theorem matchLength_step {k : Nat} (hk : k < 29) (h : settle (matchLength k u) = .next t) :
    ElementStep .litLen s t := by
  rcases matchLength_cases k u with ⟨hr, e⟩ | ⟨-, e⟩ <;> rw [e] at h <;> cases h
  · obtain ⟨hbase, htop⟩ := lengthBounds k hk
    have hextra := bitField_lt u u.inf.bitpos (lenExtra.getD k 0)
    exact .matchLength rfl (lenBase.getD k 0 + bitField u u.inf.bitpos (lenExtra.getD k 0)) _
      (hu.trans (.ofRead hr)) (by omega) (by omega) rfl
  · exact elementStep_of_raise hu rfl rfl

theorem exec_litLen_step {v : Nat} {i : Instr} (hi : decode .litLen v = .ok i) (h : exec i u = .next t) :
    ElementStep .litLen s t := by
  rcases decode_litLen_cases hi with rfl | rfl | rfl | rfl | ⟨k, hk⟩
  · exact execLit_step hu h
  · cases h; exact .endOfBlock rfl u hu rfl
  · cases h; exact elementStep_of_raise hu rfl rfl
  · cases h; exact elementStep_of_raise hu rfl rfl
  · exact matchLength_step hu (List.getElem?_eq_some_iff.mp hk).1 (exec_lengthInstr hk u ▸ h)

theorem exec_dist_step {v : Nat} {i : Instr} (hi : decode .dist v = .ok i) (h : exec i u = .next t) :
    ElementStep .distance s t := by
  have hx := decode_dist_some hi
  rcases Nat.lt_or_ge v 30 with hv | hv
  · rw [exec_distInstr hx hv] at h
    cases hr : matchDistance v u with
    | error e =>
      rw [hr] at h
      cases h
      exact .failed ((matchDistance_eq_error hr).of_appended hu.appended)
    | ok w =>
      rw [hr] at h
      cases h
      obtain ⟨x, hcopy, rfl, -, hread⟩ := matchDistance_eq_ok hr
      exact .bytes (.inr rfl) _ x ((hu.trans (.ofRead hread)).trans (.copyBack hcopy)) rfl
  · rw [exec_invalidDist hx hv] at h
    cases h
    exact elementStep_of_raise hu rfl rfl

end

/-! ### Block headers -/

section
variable {final : Bool} {s u t : State}

theorem storedBody_step (hu : Consumed 0 (enterBlock final 0 .stored s) u) (h : settle (storedBody u) = .next t) :
    ElementStep .blockHeader s t := by
  cases hr : storedBody u with
  | error e =>
    rw [hr] at h
    cases h
    exact .failed (((storedBody_eq_error hr).of_appended hu.appended).of_frame ⟨_, _, rfl⟩ (Nat.le_refl _))
  | ok w =>
    rw [hr] at h
    cases h
    obtain ⟨p, len, x, hp, -, -, hin, hcopy, rfl⟩ := storedBody_eq_ok hr
    have hread : Consumed 0 u (setBitpos (p + 32) u) := ⟨.ofSetBitpos (by omega), fun _ => hin⟩
    exact .storedBlock rfl final _ x ((hu.trans hread).trans (.copyStored hcopy)) rfl

theorem dynamicHeader_step (hu : Consumed 0 (enterBlock final 2 .dynamic s) u)
    (h : settle (dynamicHeader u) = .next t) : ElementStep .blockHeader s t := by
  cases hr : dynamicHeader u with
  | error e =>
    rw [hr] at h
    cases h
    exact .failed (((dynamicHeader_eq_error hr).of_appended hu.appended).of_frame ⟨_, _, rfl⟩ (Nat.le_refl _))
  | ok w =>
    rw [hr] at h
    cases h
    obtain ⟨rfl, hhlit, hin⟩ := dynamicHeader_eq_ok hr
    exact .dynamicBlock rfl final u hu hhlit hin rfl

end

/-- R191: the flags that the header leaves are the ones its block is entered with. -/
theorem exec_blockHdr_step {b : BitVec 3} {s t : State} (hin : s.inf.bitpos + 3 ≤ 8 * s.inf.regionEnd)
    (h : exec (decodeBlockHdr b) (withBlockHdr s) = .next t) : ElementStep .blockHeader s t := by
  have hread : ∀ final type phase,
      Consumed 0 (enterBlock final type phase s) (enterBlock final type phase (withBlockHdr s)) := fun _ _ _ =>
    Consumed.ofRead (s := enterBlock _ _ _ s) (.inr hin)
  obtain ⟨final, e | e | e | e⟩ := decodeBlockHdr_cases b <;> rw [e] at h
  · exact storedBody_step (hread final 0 .stored) h
  · cases h; exact .fixedBlock rfl final _ (hread final 1 .fixed) rfl
  · exact dynamicHeader_step (hread final 2 .dynamic) h
  · cases h
    exact .failed ((failInflate_failed .badBlockType _ rfl).of_frame ⟨_, _, rfl⟩ (Nat.le_add_right _ 3))

/-! ### A step at an element -/

/-- R175: the step at a symbol, for an alphabet whose symbols do `ElementStep` once read. -/
theorem symbol_step {a : Activity} {f : Format} {tree : Tree} {s t : State} (hrun : s.run = .busy a)
    (hfetch : fetch a s = fetchSymbol f (decodeSym tree s))
    (hexec : ∀ v i u, Consumed 0 s u → decode f v = .ok i → exec i u = .next t → ElementStep a s t)
    (h : coreStep s = .next t) : ElementStep a s t := by
  rcases coreStep_next hrun h with ⟨i, u, hf, hx⟩ | hf <;> rw [hfetch] at hf
  · obtain ⟨v, hv, hi⟩ := fetchSymbol_eq_run hf
    obtain ⟨l, -, -, -, -, -, -, rfl, hin⟩ := decodeSym_eq_ok hv
    exact hexec v i _ (.ofRead (.inr hin)) hi hx
  · exact .failed (decodeSym_eq_error (fetchSymbol_eq_internal hf))

theorem blockHeader_step {s t : State} (hrun : s.run = .busy .blockHeader) (h : coreStep s = .next t) :
    ElementStep .blockHeader s t := by
  rcases coreStep_next hrun h with ⟨i, u, hf, hx⟩ | hf
  · simp only [fetch, fetchBlockHdr] at hf
    split at hf
    · cases hf
    · next b v hb =>
      cases hf
      obtain ⟨rfl, hin, -⟩ := readBlockHdr_eq_ok hb
      exact exec_blockHdr_step hin hx
  · exact .failed (fetchBlockHdr_internal hf)

theorem coreStep_elementStep {a : Activity} {s t : State} (ha : StreamPlace a) (hrun : s.run = .busy a)
    (h : coreStep s = .next t) : ElementStep a s t := by
  rcases ha with rfl | rfl | rfl | rfl
  · exact blockHeader_step hrun h
  · exact symbol_step hrun rfl (fun _ _ _ hu => exec_codeLen_step hu) h
  · exact symbol_step hrun rfl (fun _ _ _ hu => exec_litLen_step hu) h
  · exact symbol_step hrun rfl (fun _ _ _ hu => exec_dist_step hu) h

end Sys2Proof.Machine
end

section
/-! PROOFS. Everything a step of a BUSY core can do (R260-R314), said once; and what no step of the core changes (R70,
R71, R85, R88, R390): the parameters, IN, NAME, the registers that the host writes, and the host's own side. -/

namespace Sys2Proof.Machine

/-! ### The effects of a step -/

/-- R346: `t` is the failure completion of a raise in a body that has changed working state, ENT or RES_CRC only. -/
def FailedFrom (s t : State) : Prop :=
  ∃ c pos bit ent inf zip crc resCrc, bit < 8 ∧
    t = fail c pos bit { s with
      ent := ent, inf := inf, zip := zip, crc := crc, regs := { s.regs with resCrc := resCrc } }

theorem FailedInflate.failedFrom {s t : State} (h : FailedInflate s t) : FailedFrom s t := by
  obtain ⟨c, inf, -, -, -, rfl⟩ := h
  exact ⟨c, _, _, s.ent, inf, s.zip, s.crc, s.regs.resCrc, Nat.mod_lt _ (by decide), rfl⟩

theorem fail_failedFrom (c : Cause) (pos : Nat) (s : State) : FailedFrom s (fail c pos 0 s) :=
  ⟨c, pos, 0, s.ent, s.inf, s.zip, s.crc, s.regs.resCrc, by decide, rfl⟩

theorem FailedAt.failedFrom {s t : State} (h : FailedAt s t) : FailedFrom s t := by
  obtain ⟨c, pos, rfl⟩ := h
  exact fail_failedFrom c pos s

/-- READ copies the bytes of the stored record `e`, with index `k`, and `u` is the state after that. -/
structure ReadCopied (k : Nat) (e : Entry) (s u : State) : Prop where
  stored : e.method ≠ 8
  size : e.csize = e.usize
  copied : Appended e.usize (storedStart e (withRecord k e s)) u

/-- What a step of a core that is BUSY at place `a` does to `s`. -/
inductive CoreEffect (a : Activity) (s t : State) : Prop where
  /-- R346. -/
  | failed (h : FailedFrom s t)
  /-- R190-R210. -/
  | element (ha : StreamPlace a) (h : ElementStep a s t)
  /-- R310. -/
  | openStarts (ha : a = .command) (hop : s.regs.cmdOp = 1) (hcap : inLen s ≤ s.params.inCap) (hlen : 22 ≤ inLen s)
      (ht : t = goTo .scanEocd (scanAt (inLen s - 22) s))
  /-- R302-R304: READ of the record `e`, from the start of its inflate, or with its bytes copied. -/
  | reads (ha : a = .command) (hop : s.regs.cmdOp = 2) (hopen : s.regs.openValid = true) (k : Nat) (e : Entry)
      (he : s.ft[k]? = some e) (hsize : e.usize ≤ s.params.outCap)
      (ht : (e.method = 8 ∧ t = startInflate e.dataOff (e.dataOff + e.csize) e.usize (withRecord k e s)) ∨
        ∃ u, ReadCopied k e s u ∧ t = goTo .finish u)
  /-- R312. -/
  | inflateStarts (ha : a = .command) (hop : s.regs.cmdOp = 3) (hcap : inLen s ≤ s.params.inCap)
      (hregion : s.regs.arg0.toNat + s.regs.arg1.toNat ≤ inLen s) (hdest : s.regs.arg2.toNat ≤ s.params.outCap)
      (ht : t = startInflate s.regs.arg0.toNat (s.regs.arg0.toNat + s.regs.arg1.toNat) s.regs.arg2.toNat s)
  /-- R313. -/
  | checksum (ha : a = .command) (ht : t = complete (putCrc (inByte s) s.regs.arg0.toNat s.regs.arg1.toNat s))
  /-- R262: the scan goes on one offset below. -/
  | scanned (ha : a = .scanEocd) (ht : t = scanAt (s.zip.scanPos - 1) s)
  /-- R266-R271. -/
  | walkStarts (ha : a = .scanEocd) (hok : EocdOk s.zip.scanPos s)
      (ht : t = walkStart s.zip.scanPos (withEocd s.zip.scanPos s))
  /-- R272-R275. -/
  | recordChecked (ha : a = .walkCdh) (hok : CdhOk s.zip.cdCursor s) (ht : t = toLfh s.zip.cdCursor s)
  /-- R275-R278. -/
  | recordAppended (ha : a = .checkLfh)
      (hok : contentStart s.zip.lfhPos s + le32 s (s.zip.cdCursor + 20) ≤ inLen s)
      (ht : t = withEntry s.zip.cdCursor s.zip.lfhPos s)
  /-- R260, R306, R312. -/
  | finished (ha : a = .finish) (ht : t = finishCommand s)

section
variable {s t : State}

theorem openBody_effect (hop : s.regs.cmdOp = 1) (h : settle (openBody s) = .next t) : CoreEffect .command s t := by
  rcases openBody_cases s with ⟨-, e⟩ | ⟨-, -, e⟩ | ⟨hcap, hlen, e⟩ <;> rw [e] at h <;> cases h
  · exact .failed (fail_failedFrom _ _ s)
  · exact .failed (fail_failedFrom _ _ s)
  · exact .openStarts rfl hop hcap hlen rfl

theorem readBody_effect (hop : s.regs.cmdOp = 2) (h : settle (readBody s) = .next t) : CoreEffect .command s t := by
  cases hr : readBody s with
  | error x =>
    rw [hr] at h
    cases h
    obtain ⟨ent, c, pos, rfl⟩ := readBody_eq_error hr
    exact .failed ⟨c, pos, 0, ent, s.inf, s.zip, s.crc, s.regs.resCrc, by decide, rfl⟩
  | ok w =>
    rw [hr] at h
    cases h
    obtain ⟨hopen, -, k, e, hlookup, hproduce⟩ := readBody_eq_ok hr
    obtain ⟨hsize, hways⟩ := produce_eq_ok hproduce
    refine .reads rfl hop hopen k e (lookup_eq_some hlookup).1 hsize (hways.imp_right ?_)
    rintro ⟨hstored, hcsize, u, hcopy, rfl⟩
    exact ⟨u, ⟨hstored, hcsize, (copyIn_eq_ok hcopy).1⟩, rfl⟩

theorem inflateBody_effect (hop : s.regs.cmdOp = 3) (h : settle (inflateBody s) = .next t) :
    CoreEffect .command s t := by
  rcases inflateBody_cases s with ⟨hcap, hregion, hdest, e⟩ | ⟨-, e⟩ <;> rw [e] at h <;> cases h
  · exact .inflateStarts rfl hop hcap hregion hdest rfl
  · exact .failed (fail_failedFrom _ _ s)

theorem crc32Body_effect (h : settle (crc32Body s) = .next t) : CoreEffect .command s t := by
  rcases crc32Body_cases s with ⟨-, -, e⟩ | ⟨-, e⟩ <;> rw [e] at h <;> cases h
  · exact .checksum rfl rfl
  · exact .failed (fail_failedFrom _ _ s)

/-- R300: the step that runs the accepted command. -/
theorem command_effect (h : exec (decodeCmd (cmdWord s)) s = .next t) : CoreEffect .command s t := by
  rw [decodeCmd, cmdWord_extract] at h
  split at h
  case h_2 hop => exact openBody_effect (BitVec.eq_of_toNat_eq hop) h
  case h_3 hop => exact readBody_effect (BitVec.eq_of_toNat_eq hop) h
  case h_4 hop => exact inflateBody_effect (BitVec.eq_of_toNat_eq hop) h
  case h_5 => exact crc32Body_effect h
  all_goals cases h; exact .failed (fail_failedFrom _ _ s)

theorem execEocd_effect (h : execEocd s = .next t) : CoreEffect .scanEocd s t := by
  simp only [execEocd] at h
  cases hr : eocdBody s.zip.scanPos (withEocd s.zip.scanPos s) with
  | error x =>
    rw [withEocd] at hr
    rw [hr] at h
    cases h
    obtain ⟨c, pos, rfl⟩ := eocdBody_eq_error hr
    exact .failed ⟨c, pos, 0, s.ent, s.inf, _, s.crc, s.regs.resCrc, by decide, rfl⟩
  | ok w =>
    obtain ⟨hok, rfl⟩ := eocdBody_eq_ok hr
    rw [withEocd] at hr
    rw [hr] at h
    cases h
    exact .walkStarts rfl ⟨hok.disk, hok.startDisk, hok.counts, hok.comment, hok.entries⟩ rfl

theorem scanEocd_effect (hrun : s.run = .busy .scanEocd) (h : coreStep s = .next t) : CoreEffect .scanEocd s t := by
  rcases fetchEocd_cases s with ⟨-, e⟩ | ⟨-, -, e⟩ | ⟨-, -, e⟩
  · exact execEocd_effect ((coreStep_run hrun e).symm.trans h)
  · cases (coreStep_internal hrun e).symm.trans h
    exact .failed (fail_failedFrom _ _ s)
  · cases (coreStep_internal hrun e).symm.trans h
    exact .scanned rfl rfl

theorem walkCdh_effect (hrun : s.run = .busy .walkCdh) (h : coreStep s = .next t) : CoreEffect .walkCdh s t := by
  rcases fetchCdh_cases s with ⟨-, e⟩ | ⟨-, -, e⟩ | ⟨-, -, e⟩
  · cases (coreStep_internal hrun e).symm.trans h
    exact .failed (fail_failedFrom _ _ s)
  · rw [coreStep_run hrun e] at h
    simp only [exec, execCdh] at h
    cases hr : cdhBody s.zip.cdCursor s <;> rw [hr] at h <;> cases h
    · exact .failed (cdhBody_eq_error hr).failedFrom
    · exact .recordChecked rfl (cdhBody_eq_ok hr).1 (cdhBody_eq_ok hr).2
  · cases (coreStep_internal hrun e).symm.trans h
    exact .failed (fail_failedFrom _ _ s)

theorem checkLfh_effect (hrun : s.run = .busy .checkLfh) (h : coreStep s = .next t) : CoreEffect .checkLfh s t := by
  rcases fetchLfh_cases s with ⟨-, e⟩ | ⟨-, -, e⟩ | ⟨-, -, e⟩
  · cases (coreStep_internal hrun e).symm.trans h
    exact .failed (fail_failedFrom _ _ s)
  · rw [coreStep_run hrun e] at h
    simp only [exec, execLfh] at h
    cases hr : lfhBody s.zip.cdCursor s.zip.lfhPos s <;> rw [hr] at h <;> cases h
    · exact .failed (lfhBody_eq_error hr).1.failedFrom
    · exact .recordAppended rfl (lfhBody_eq_ok hr).1 (lfhBody_eq_ok hr).2
  · cases (coreStep_internal hrun e).symm.trans h
    exact .failed (fail_failedFrom _ _ s)

/-- Everything a step of a BUSY core can do. -/
theorem coreStep_effect {a : Activity} (hrun : s.run = .busy a) (h : coreStep s = .next t) : CoreEffect a s t := by
  have helement (ha : StreamPlace a) : CoreEffect a s t := .element ha (coreStep_elementStep ha hrun h)
  cases a with
  | command => exact command_effect (coreStep_run hrun rfl ▸ h)
  | scanEocd => exact scanEocd_effect hrun h
  | walkCdh => exact walkCdh_effect hrun h
  | checkLfh => exact checkLfh_effect hrun h
  | blockHeader => exact helement (.inl rfl)
  | codeLength => exact helement (.inr (.inl rfl))
  | litLen => exact helement (.inr (.inr (.inl rfl)))
  | distance => exact helement (.inr (.inr (.inr rfl)))
  | finish => cases (coreStep_internal hrun rfl).symm.trans h; exact .finished rfl rfl

end

/-! ### What no step of the core changes -/

/-- `t` has the parameters, IN, NAME, the host's registers, CMD.OP and the host's side of `s`. -/
structure CoreKept (s t : State) : Prop where
  params : t.params = s.params
  inMem : t.inMem = s.inMem
  nameMem : t.nameMem = s.nameMem
  memEpoch : t.memEpoch = s.memEpoch
  inLen : t.regs.inLen = s.regs.inLen
  nameLen : t.regs.nameLen = s.regs.nameLen
  arg0 : t.regs.arg0 = s.regs.arg0
  arg1 : t.regs.arg1 = s.regs.arg1
  arg2 : t.regs.arg2 = s.regs.arg2
  ie : t.regs.ie = s.regs.ie
  ignored : t.regs.ignored = s.regs.ignored
  cmdOp : t.regs.cmdOp = s.regs.cmdOp
  hostOps : t.hostOps = s.hostOps
  hostData : t.hostData = s.hostData
  readDraws : t.readDraws = s.readDraws

theorem CoreKept.refl (s : State) : CoreKept s s := by constructor <;> rfl

theorem CoreKept.trans {s t u : State} (h1 : CoreKept s t) (h2 : CoreKept t u) : CoreKept s u where
  params := h2.params.trans h1.params
  inMem := h2.inMem.trans h1.inMem
  nameMem := h2.nameMem.trans h1.nameMem
  memEpoch := h2.memEpoch.trans h1.memEpoch
  inLen := h2.inLen.trans h1.inLen
  nameLen := h2.nameLen.trans h1.nameLen
  arg0 := h2.arg0.trans h1.arg0
  arg1 := h2.arg1.trans h1.arg1
  arg2 := h2.arg2.trans h1.arg2
  ie := h2.ie.trans h1.ie
  ignored := h2.ignored.trans h1.ignored
  cmdOp := h2.cmdOp.trans h1.cmdOp
  hostOps := h2.hostOps.trans h1.hostOps
  hostData := h2.hostData.trans h1.hostData
  readDraws := h2.readDraws.trans h1.readDraws

theorem FailedFrom.kept {s t : State} (h : FailedFrom s t) : CoreKept s t := by
  obtain ⟨c, pos, bit, ent, inf, zip, crc, resCrc, -, rfl⟩ := h
  constructor <;> rfl

theorem Appended.kept {n : Nat} {s t : State} (h : Appended n s t) : CoreKept s t := by
  rw [h.rest]
  constructor <;> rfl

theorem goTo_kept (a : Activity) (s : State) : CoreKept s (goTo a s) := by constructor <;> rfl

theorem enterBlock_kept (final : Bool) (type : BitVec 2) (phase : Phase) (s : State) :
    CoreKept s (enterBlock final type phase s) := by constructor <;> rfl

theorem endBlock_kept (s : State) : CoreKept s (endBlock s) := by constructor <;> simp

theorem appendLengths_kept (new : List Nat) (s : State) : CoreKept s (appendLengths new s) := by
  unfold appendLengths nextLength
  split <;> constructor <;> rfl

theorem ElementStep.kept {a : Activity} {s t : State} (h : ElementStep a s t) : CoreKept s t := by
  cases h with
  | failed h => exact h.failedFrom.kept
  | storedBlock _ final n u hu ht => exact ht ▸ ((enterBlock_kept ..).trans hu.appended.kept).trans (endBlock_kept u)
  | fixedBlock _ final u hu ht => exact ht ▸ ((enterBlock_kept ..).trans hu.appended.kept).trans (goTo_kept _ u)
  | dynamicBlock _ final u hu _ _ ht =>
    have hheader : CoreKept u (withHeader u) := by constructor <;> rfl
    exact ht ▸ ((enterBlock_kept ..).trans hu.appended.kept).trans hheader
  | lengths _ new u hu _ _ ht => exact ht ▸ hu.appended.kept.trans (appendLengths_kept new u)
  | bytes _ n u hu ht => exact ht ▸ hu.appended.kept.trans (goTo_kept _ u)
  | matchLength _ len u hu _ _ ht =>
    have hlen : CoreKept u (putMatchLen len u) := by constructor <;> rfl
    exact ht ▸ (hu.appended.kept.trans hlen).trans (goTo_kept _ _)
  | endOfBlock _ u hu ht => exact ht ▸ hu.appended.kept.trans (endBlock_kept u)

theorem finishRead_kept (s : State) : CoreKept s (finishRead s) := by
  rcases finishRead_cases s with ⟨-, -, e⟩ | ⟨-, -, e⟩ | ⟨-, -, e⟩ <;> rw [e] <;> constructor <;> rfl

theorem finishCommand_kept (s : State) : CoreKept s (finishCommand s) := by
  unfold finishCommand
  split
  · constructor <;> rfl
  · exact finishRead_kept s
  · constructor <;> rfl
  · constructor <;> rfl

theorem CoreEffect.kept {a : Activity} {s t : State} (h : CoreEffect a s t) : CoreKept s t := by
  cases h with
  | failed h => exact h.kept
  | element _ h => exact h.kept
  | openStarts _ _ _ _ ht => subst ht; constructor <;> rfl
  | reads _ _ _ k e _ _ ht =>
    rcases ht with ⟨-, rfl⟩ | ⟨u, hcopied, rfl⟩
    · constructor <;> rfl
    · have hstart : CoreKept s (storedStart e (withRecord k e s)) := by constructor <;> rfl
      exact (hstart.trans hcopied.copied.kept).trans (goTo_kept _ u)
  | inflateStarts _ _ _ _ _ ht => subst ht; constructor <;> rfl
  | checksum _ ht => subst ht; constructor <;> rfl
  | scanned _ ht => subst ht; constructor <;> rfl
  | walkStarts _ _ ht => subst ht; constructor <;> rfl
  | recordChecked _ _ ht => subst ht; constructor <;> rfl
  | recordAppended _ _ ht => subst ht; constructor <;> rfl
  | finished _ ht => exact ht ▸ finishCommand_kept s

theorem coreStep_kept {s t : State} (h : coreStep s = .next t) : CoreKept s t := by
  cases hb : busy s with
  | false => cases (coreStep_idle hb).symm.trans h; exact .refl s
  | true =>
    obtain ⟨a, hrun⟩ := exists_run_of_busy hb
    exact (coreStep_effect hrun h).kept

/-- Settles O28: by `coreStep_kept`, from the effects of a step. -/
theorem coreKeepsInputs : Obligations.CoreKeepsInputs := fun _ _ h =>
  have k := coreStep_kept h
  ⟨k.params, k.inMem, k.nameMem, k.memEpoch, k.inLen, k.nameLen, k.arg0, k.arg1, k.arg2, k.ie, k.ignored, k.cmdOp,
    k.hostOps, k.hostData, k.readDraws⟩

end Sys2Proof.Machine
end

section
/-! PROOFS. Every step keeps the invariant (R76, R31-R43, R24, R280): a failure and a completion leave no place to be
sound at; where the command goes on, the place it goes on at is sound. -/

namespace Sys2Proof.Machine

/-! ### What soundness depends on -/

section
variable {s t : State}

theorem CoreKept.inLen_eq (h : CoreKept s t) : Machine.inLen t = Machine.inLen s := congrArg BitVec.toNat h.inLen

theorem EntryOk.of_inLen {e : Entry} (h : EntryOk s e) (hlen : inLen t = inLen s) : EntryOk t e :=
  { h with name := hlen ▸ h.name, comment := hlen ▸ h.comment, content := hlen ▸ h.content }

theorem TableOk.of_same (h : TableOk s) (hlen : inLen t = inLen s) (hft : t.ft = s.ft) : TableOk t := fun e he =>
  (h e (hft ▸ he)).of_inLen hlen

theorem HandleClear.of_regs (h : HandleClear s) (hregs : t.regs = s.regs) : HandleClear t :=
  ⟨hregs ▸ h.openValid, hregs ▸ h.entryCount, hregs ▸ h.commentOff, hregs ▸ h.commentLen⟩

/-- R42: a handle stays valid while the file table, the lengths and its own registers stay. -/
theorem HandleValid.of_same (h : HandleValid s) (hparams : t.params = s.params) (hft : t.ft = s.ft)
    (hlen : inLen t = inLen s) (hcount : t.regs.entryCount = s.regs.entryCount)
    (hoff : t.regs.commentOff = s.regs.commentOff) (hclen : t.regs.commentLen = s.regs.commentLen) :
    HandleValid t where
  fits := by rw [hlen, hparams]; exact h.fits
  table := h.table.of_same hlen hft
  count := by rw [hcount, hft]; exact h.count
  comment := by rw [hoff, hclen, hlen]; exact h.comment

theorem PortsOk.of_kept (h : PortsOk s) (hkept : CoreKept s t) (hout : Memory.Below s.params.outCap t.outMem) :
    PortsOk t where
  inPort := by rw [hkept.params, hkept.inMem]; exact h.inPort
  namePort := by rw [hkept.params, hkept.nameMem]; exact h.namePort
  outPort := by rw [hkept.params]; exact hout

theorem Memory.Below.set {cap a : Nat} {m : Memory} (h : Memory.Below cap m) (ha : a < cap) (v : Byte) :
    Memory.Below cap (m.set a v) := by
  obtain ⟨hwf, hcells⟩ := h
  refine ⟨Memory.set_wf a v hwf, fun c hc => ?_⟩
  rcases Memory.mem_set hc with rfl | hc
  · exact ha
  · exact hcells c hc

/-! ### The three ways a step of the core ends -/

/-- R346, R280. -/
theorem State.Inv.of_failedFrom (h : s.Inv) (hb : busy s = true) (ht : FailedFrom s t) : t.Inv := by
  have hkept := ht.kept
  obtain ⟨c, pos, bit, ent, inf, zip, crc, resCrc, hbit, rfl⟩ := ht
  have hclear : s.regs.cmdOp = 1 → HandleClear s := h.handle.runningOpen hb
  constructor
  case params => exact h.params
  case ports => exact h.ports.of_kept hkept (Memory.below_nil _)
  case handle =>
    exact ⟨h.handle.capacity, fun hopen => (h.handle.valid hopen).of_same rfl rfl rfl rfl rfl rfl,
      fun _ hop => { hclear hop with }, nofun⟩
  case results => exact ⟨fun hne => absurd rfl hne, fun _ => ⟨rfl, c, bit, hbit, rfl⟩, nofun, nofun⟩
  case place => nofun

/-- R301: where a command completes, its handle must be right, and nothing of OUT has changed. -/
theorem State.Inv.of_done (h : s.Inv) (hb : busy s = true) (ht : t.run = .done) (hkept : CoreKept s t)
    (hft : t.ft = s.ft) (hout : t.outMem = s.outMem) (herr : t.regs.err = s.regs.err ∧ t.regs.errPos = s.regs.errPos)
    (hvalid : t.regs.openValid = true → HandleValid t) : t.Inv := by
  have hnotFail : s.run ≠ .fail := fun hfail => by simp [busy, hfail] at hb
  constructor
  case params => rw [hkept.params]; exact h.params
  case ports => exact h.ports.of_kept hkept (hout ▸ h.ports.outPort)
  case handle =>
    refine ⟨by rw [hft, hkept.params]; exact h.handle.capacity, hvalid, fun hrun => ?_, fun hrun => ?_⟩
    · rw [ht] at hrun; cases hrun
    · simp [busy, ht] at hrun
  case results =>
    refine ⟨fun _ => by rw [herr.1, herr.2]; exact h.results.noError hnotFail, fun hrun => ?_, fun hrun => ?_,
      fun hrun => ?_⟩
    · rw [ht] at hrun; cases hrun
    · simp [busy, ht] at hrun
    · rw [ht] at hrun; cases hrun
  case place => intro b hrun; rw [ht] at hrun; cases hrun

/-- The command of `s` goes on in `t`, at the sound place `b`; the file table changes only in an OPEN. -/
structure GoesOn (b : Activity) (s t : State) : Prop where
  run : t.run = .busy b
  ft : t.ft = s.ft ∨ (s.regs.cmdOp = 1 ∧ t.ft.length ≤ s.params.maxEntries)
  out : Memory.Below s.params.outCap t.outMem
  place : PlaceOk t b

/-- A step after which the command goes on leaves the registers alone. -/
theorem State.Inv.of_goesOn {a b : Activity} (h : s.Inv) (hs : s.run = .busy a) (hstep : coreStep s = .next t)
    (hon : GoesOn b s t) : t.Inv := by
  obtain ⟨ht, hft, hout, hplace⟩ := hon
  have hb := busy_of_run hs
  have hkept := coreStep_kept hstep
  have hregs : t.regs = s.regs := by
    cases coreStep_leaves hs hstep with
    | goesOn _ _ hregs => exact hregs
    | ends hrun => rw [ht] at hrun; rcases hrun with hrun | hrun <;> cases hrun
  have hclear : t.regs.cmdOp = 1 → HandleClear t := fun hop =>
    (h.handle.runningOpen hb (hkept.cmdOp ▸ hop)).of_regs hregs
  constructor
  case params => rw [hkept.params]; exact h.params
  case ports => exact h.ports.of_kept hkept hout
  case handle =>
    refine ⟨?_, fun hopen => ?_, fun _ => hclear, fun _ => hclear⟩
    · rw [hkept.params]
      rcases hft with hft | ⟨-, hcap⟩
      · rw [hft]; exact h.handle.capacity
      · exact hcap
    · rcases hft with hft | ⟨hop, -⟩
      · exact (h.handle.valid (hregs ▸ hopen)).of_same hkept.params hft hkept.inLen_eq (by rw [hregs]) (by rw [hregs])
          (by rw [hregs])
      · rw [(hclear (hkept.cmdOp.trans hop)).openValid] at hopen
        cases hopen
  case results =>
    refine ⟨fun _ => ?_, fun hrun => ?_, fun _ => ?_, fun hrun => ?_⟩
    · rw [hregs]; exact h.results.noError (by rw [hs]; exact RunState.noConfusion)
    · rw [ht] at hrun; cases hrun
    · rw [hregs]; exact h.results.running hb
    · rw [ht] at hrun; cases hrun
  case place => intro c hrun; rw [ht] at hrun; cases hrun; exact hplace

end

/-! ### The datapath of an inflate (R31-R33, R76) -/

section
variable {n : Nat} {s t u : State}

theorem outputWritten_of_appended (h : OutputWritten s.inf.destLen s) (ha : Appended n s t) :
    OutputWritten t.inf.destLen t := by
  intro a hlt
  rw [ha.destLen] at hlt
  rcases Nat.lt_or_ge a s.inf.destLen with hold | hnew
  · rw [ha.others a (.inl hold)]
    exact h a hold
  · exact ha.written a hnew hlt

theorem StreamOk.consumed (h : StreamOk s) (hu : Consumed n s u) : StreamOk u where
  source := by rw [hu.appended.rest]; exact h.source
  start := by
    have hforward := hu.appended.forward
    have hstart : u.inf.regionStart = s.inf.regionStart := by rw [hu.appended.rest]
    have := h.start
    omega
  stop := by rw [hu.appended.regionEnd]; exact hu.inside h.stop
  region := by rw [hu.appended.rest]; exact h.region
  fits := by rw [hu.appended.rest]; exact h.fits
  room := by rw [hu.appended.destLen, hu.appended.destCap]; exact hu.appended.room h.room
  capacity := by rw [hu.appended.rest]; exact h.capacity
  written := outputWritten_of_appended h.written hu.appended

/-- R74: what is appended inside the destination stays below the capacity of OUT. -/
theorem Memory.Below.appended {cap : Nat} (h : Memory.Below cap s.outMem) (hu : Appended n s u)
    (hroom : s.inf.destLen ≤ s.inf.destCap) (hcap : s.inf.destCap ≤ cap) : Memory.Below cap u.outMem := by
  obtain ⟨hwf, hcells⟩ := h
  refine ⟨hu.wf hwf, fun c hc => ?_⟩
  rcases hu.listed c hc with hold | hnew
  · exact hcells c hold
  · have := hu.room hroom
    omega

theorem PlaceOk.stream {a : Activity} (h : PlaceOk s a) (ha : StreamPlace a) : StreamOk s := by
  rcases ha with rfl | rfl | rfl | rfl <;> exact h.1

/-! ### The places of an inflate (R178, R192, R200-R206) -/

theorem endBlock_place (h : StreamOk u) : PlaceOk (endBlock u) (if u.inf.bfinal then .finish else .blockHeader) := by
  unfold endBlock
  split
  · exact .inr (.inl ⟨{ h with }, rfl⟩)
  · exact ⟨{ h with }, rfl⟩

/-- Neither consuming bits nor appending bytes changes the trees, and the length of a match does not either. -/
theorem TreesOk.of_update (h : TreesOk s) (run : RunState) (out : Memory) (pos dest len : Nat) :
    TreesOk { s with
      run := run, outMem := out, inf := { s.inf with bitpos := pos, destLen := dest, matchLen := len } } :=
  h.imp_right fun ⟨hphase, hcounts, htrees⟩ => ⟨hphase, { hcounts with }, htrees⟩

theorem TreesOk.consumed (h : TreesOk s) (hu : Consumed n s u) : TreesOk u := by
  rw [hu.appended.rest]
  exact h.of_update _ _ _ _ _

theorem CodeLengthOk.consumed (h : CodeLengthOk s) (hu : Consumed n s u) : CodeLengthOk u := by
  rw [hu.appended.rest]
  exact { h with counts := { h.counts with } }

theorem CountsOk.pushLengths {new : List Nat} (h : CountsOk u) (hnew : ∀ l ∈ new, l ≤ 15 ∨ l ∈ u.inf.lengths) :
    CountsOk (pushLengths new u) :=
  { h with
    lengths := fun l hl => by
      rcases List.mem_append.mp hl with hold | hl
      · exact h.lengths l hold
      · exact (hnew l hl).elim id (h.lengths l) }

/-- R202, R206: the sequence goes on, or it is complete and the trees are those of the lengths. -/
theorem appendLengths_place {new : List Nat} (hstream : StreamOk u) (h : CodeLengthOk u)
    (hnew : ∀ l ∈ new, l ≤ 15 ∨ l ∈ u.inf.lengths)
    (hfits : new.length = 1 ∨ u.inf.lengths.length + new.length ≤ totalLengths u) :
    ∃ b, (appendLengths new u).run = .busy b ∧ PlaceOk (appendLengths new u) b := by
  have hcounts := h.counts.pushLengths hnew
  rcases Nat.lt_or_ge (u.inf.lengths.length + new.length) (totalLengths u) with hmore | hlast
  · rw [appendLengths_more hmore]
    refine ⟨.codeLength, rfl, { hstream with }, { h with counts := { hcounts with }, more := ?_ }⟩
    exact (List.length_append (as := u.inf.lengths)).trans_lt hmore
  · rw [appendLengths_last hlast]
    have hlength : (u.inf.lengths ++ new).length = totalLengths u := by
      have := h.more
      rw [List.length_append]
      omega
    have hdist : (((u.inf.lengths ++ new).drop u.inf.hlit).take u.inf.hdist) = (u.inf.lengths ++ new).drop u.inf.hlit :=
      List.take_of_length_le (by rw [List.length_drop, hlength, totalLengths]; omega)
    exact ⟨.litLen, rfl, { hstream with },
      .inr ⟨h.phase, { hcounts with }, hlength, rfl, congrArg buildTree hdist⟩⟩

/-- R200: the fields of a dynamic header have the widths that the ranges of its counts come from. -/
theorem withHeader_counts (hhlit : ¬ hlitRejected u) : CountsOk (withHeader u) where
  hlit := by
    have hlit := bitField_lt u u.inf.bitpos 5
    rw [withHeader_hlit]
    omega
  hlitAccepted hreject := by
    rw [withHeader_hlit]
    exact Nat.le_of_not_lt fun hlt => hhlit ⟨hlt, hreject⟩
  hdist := by
    have hdist := bitField_lt u (u.inf.bitpos + 5) 5
    rw [withHeader_hdist]
    omega
  hclen := by
    have hclen := bitField_lt u (u.inf.bitpos + 10) 4
    rw [withHeader_hclen]
    omega
  lengths := by rw [withHeader_lengths]; nofun

/-- R201, R202: the code-length lengths have three bits each, and no length has been decoded yet. -/
theorem withHeader_lengthsOk (hphase : u.inf.phase = .dynamic) (hhlit : ¬ hlitRejected u) :
    CodeLengthOk (withHeader u) where
  phase := hphase
  counts := withHeader_counts hhlit
  more := by
    have hlit := (withHeader_counts hhlit).hlit
    rw [withHeader_lengths, List.length_nil, totalLengths]
    omega
  cl := by
    rw [withHeader_cl]
    refine ⟨by rw [placedLengths_length, List.length_replicate], placedLengths_le u _ _ _ fun x hx => ?_⟩
    rw [List.eq_of_mem_replicate hx]
    decide
  clt := withHeader_clt u

theorem withHeader_stream (h : StreamOk u) (hinside : (withHeader u).inf.bitpos ≤ 8 * u.inf.regionEnd) :
    StreamOk (withHeader u) :=
  { h with
    start := by
      have hstart : 8 * u.inf.regionStart ≤ u.inf.bitpos := h.start
      rw [withHeader_bitpos]
      exact Nat.le_trans hstart (by omega)
    stop := hinside }

theorem Appended.ft {n : Nat} {s t : State} (h : Appended n s t) : t.ft = s.ft := by rw [h.rest]

/-- R190-R210: an element fails, or leaves the inflate at a sound place. -/
theorem ElementStep.sound {a : Activity} (h : ElementStep a s t) (hplace : PlaceOk s a) (hstream : StreamOk s)
    (hout : Memory.Below s.params.outCap s.outMem) : FailedInflate s t ∨ ∃ b, GoesOn b s t := by
  have hentered (final : Bool) (type : BitVec 2) (phase : Phase) : StreamOk (enterBlock final type phase s) :=
    { hstream with }
  have hbelow (n : Nat) (u : State) (hu : Appended n s u) : Memory.Below s.params.outCap u.outMem :=
    hout.appended hu hstream.room hstream.capacity
  have hbelowBlock (n : Nat) (u : State) {final : Bool} {type : BitVec 2} {phase : Phase}
      (hu : Appended n (enterBlock final type phase s) u) : Memory.Below s.params.outCap u.outMem :=
    Memory.Below.appended (s := enterBlock final type phase s) hout hu hstream.room hstream.capacity
  cases h with
  | failed h => exact .inl h
  | storedBlock _ final n u hu ht =>
    refine .inr ⟨_, ht ▸ endBlock_run u, .inl ?_, ?_, ht ▸ endBlock_place ((hentered _ _ _).consumed hu)⟩
    · rw [ht, endBlock_ft]; exact hu.appended.ft
    · rw [ht, endBlock_outMem]; exact hbelowBlock n u hu.appended
  | fixedBlock _ final u hu ht =>
    have hphase : u.inf.phase = .fixed := by rw [hu.appended.rest]; rfl
    subst ht
    exact .inr ⟨.litLen, rfl, .inl hu.appended.ft, hbelowBlock 0 u hu.appended,
      { (hentered _ _ _).consumed hu with }, .inl hphase⟩
  | dynamicBlock _ final u hu hhlit hinside ht =>
    have hphase : u.inf.phase = .dynamic := by rw [hu.appended.rest]; rfl
    subst ht
    exact .inr ⟨.codeLength, rfl, .inl hu.appended.ft, hbelowBlock 0 u hu.appended,
      withHeader_stream ((hentered _ _ _).consumed hu) hinside, withHeader_lengthsOk hphase hhlit⟩
  | lengths ha new u hu hnew hfits ht =>
    subst ha
    obtain ⟨-, hlengths⟩ := hplace
    obtain ⟨b, hrun, hb⟩ := appendLengths_place (hstream.consumed hu) (hlengths.consumed hu) hnew hfits
    have hkeeps : (appendLengths new u).ft = u.ft ∧ (appendLengths new u).outMem = u.outMem := by
      unfold appendLengths nextLength
      split <;> exact ⟨rfl, rfl⟩
    subst ht
    exact .inr ⟨b, hrun, .inl (hkeeps.1.trans hu.appended.ft), hkeeps.2 ▸ hbelow 0 u hu.appended, hb⟩
  | bytes ha n u hu ht =>
    have htrees : TreesOk s := by
      rcases ha with rfl | rfl
      · exact hplace.2
      · exact hplace.2.1
    subst ht
    exact .inr ⟨.litLen, rfl, .inl hu.appended.ft, hbelow n u hu.appended, { hstream.consumed hu with },
      (htrees.consumed hu).of_update _ _ _ _ _⟩
  | matchLength ha len u hu h3 h258 ht =>
    subst ha
    obtain ⟨-, htrees⟩ := hplace
    subst ht
    exact .inr ⟨.distance, rfl, .inl hu.appended.ft, hbelow 0 u hu.appended, { hstream.consumed hu with },
      (htrees.consumed hu).of_update _ _ _ _ _, h3, h258⟩
  | endOfBlock _ u hu ht =>
    refine .inr ⟨_, ht ▸ endBlock_run u, .inl ?_, ?_, ht ▸ endBlock_place (hstream.consumed hu)⟩
    · rw [ht, endBlock_ft]; exact hu.appended.ft
    · rw [ht, endBlock_outMem]; exact hbelow 0 u hu.appended

end

/-! ### The commands (R302-R304, R310, R312) -/

theorem toNat_ofNat_word {n : Nat} (h : n < 2 ^ 32) : (BitVec.ofNat 32 n).toNat = n := by
  rw [BitVec.toNat_ofNat, Nat.mod_eq_of_lt h]

section
variable {s t : State} {k : Nat} {e : Entry}

/-- R303, R304: the ENT registers of a sound record hold its fields, so that the inflate of it reads its content. -/
theorem startRead_stream (hop : s.regs.cmdOp = 2) (hopen : s.regs.openValid = true) (hfits : inLen s ≤ s.params.inCap)
    (he : EntryOk s e) (hsize : e.usize ≤ s.params.outCap) (hmethod : e.method = 8) :
    StreamOk (startInflate e.dataOff (e.dataOff + e.csize) e.usize (withRecord k e s)) := by
  have hcontent := he.content
  have hlt := inLen_lt s
  have hoff : (BitVec.ofNat 32 e.dataOff).toNat = e.dataOff := toNat_ofNat_word (by omega)
  have hcsize : (BitVec.ofNat 32 e.csize).toNat = e.csize := toNat_ofNat_word he.csize
  have husize : (BitVec.ofNat 32 e.usize).toNat = e.usize := toNat_ofNat_word he.usize
  exact {
    source := .inr ⟨hop, hopen, congrArg (BitVec.ofNat 32) hmethod, hoff.symm,
      congrArg₂ (· + ·) hoff.symm hcsize.symm, husize.symm⟩
    start := Nat.le_refl _
    stop := Nat.mul_le_mul_left 8 (Nat.le_add_right _ _)
    region := hcontent
    fits := hfits
    room := Nat.zero_le _
    capacity := hsize
    written := nofun }

theorem startInflate_stream (hop : s.regs.cmdOp = 3) (hcap : inLen s ≤ s.params.inCap)
    (hregion : s.regs.arg0.toNat + s.regs.arg1.toNat ≤ inLen s) (hdest : s.regs.arg2.toNat ≤ s.params.outCap) :
    StreamOk (startInflate s.regs.arg0.toNat (s.regs.arg0.toNat + s.regs.arg1.toNat) s.regs.arg2.toNat s) where
  source := .inl ⟨hop, rfl, rfl, rfl⟩
  start := Nat.le_refl _
  stop := Nat.mul_le_mul_left 8 (Nat.le_add_right _ _)
  region := hregion
  fits := hcap
  room := Nat.zero_le _
  capacity := hdest
  written := nofun

/-- R304: the bytes of a stored record are all copied. -/
theorem ReadCopied.stored_done {u : State} (h : ReadCopied k e s u) (hop : s.regs.cmdOp = 2)
    (hopen : s.regs.openValid = true) (he : EntryOk s e) (hsize : e.usize ≤ s.params.outCap) :
    StoredDone (goTo .finish u) := by
  have hu := h.copied
  have hregs : u.regs = s.regs := hu.regs
  have hent : u.ent = entRegsOf k e := by rw [hu.rest]; rfl
  have hlen : u.inf.destLen = e.usize := hu.destLen.trans (Nat.zero_add _)
  have hwritten := outputWritten_of_appended (s := storedStart e (withRecord k e s)) nofun hu
  exact {
    read := by rw [goTo_regs, hregs]; exact hop
    opened := by rw [goTo_regs, hregs]; exact hopen
    method := by
      rw [goTo_ent, hent]
      exact congrArg (BitVec.ofNat 32) (he.method.resolve_right h.stored)
    destLen := by
      rw [goTo_inf, goTo_ent, hent, hlen]
      exact (toNat_ofNat_word he.usize).symm
    capacity := by rw [goTo_inf, goTo_params, hlen, hu.params]; exact hsize
    written := hwritten }

theorem reads_goesOn (h : s.Inv) (hop : s.regs.cmdOp = 2) (hopen : s.regs.openValid = true) (he : s.ft[k]? = some e)
    (hsize : e.usize ≤ s.params.outCap)
    (ht : (e.method = 8 ∧ t = startInflate e.dataOff (e.dataOff + e.csize) e.usize (withRecord k e s)) ∨
      ∃ u, ReadCopied k e s u ∧ t = goTo .finish u) : ∃ b, GoesOn b s t := by
  have hvalid := h.handle.valid hopen
  have hentry := hvalid.table e (List.mem_of_getElem? he)
  rcases ht with ⟨hmethod, rfl⟩ | ⟨u, hcopied, rfl⟩
  · exact ⟨.blockHeader, rfl, .inl rfl, h.ports.outPort,
      startRead_stream hop hopen hvalid.fits hentry hsize hmethod, rfl⟩
  · have hout := Memory.Below.appended (s := storedStart e (withRecord k e s)) h.ports.outPort hcopied.copied
      (Nat.zero_le _) hsize
    exact ⟨.finish, rfl, .inl hcopied.copied.ft, hout,
      .inr (.inr (hcopied.stored_done hop hopen hentry hsize))⟩

/-! ### OPEN (R260-R278) -/

/-- R271: the walk starts with an empty table and as many records left as the EOCD record says. -/
theorem walkStart_goesOn {e : Nat} (hop : s.regs.cmdOp = 1) (hcap : inLen s ≤ s.params.inCap)
    (hout : Memory.Below s.params.outCap s.outMem) (hok : EocdOk e s) :
    ∃ b, GoesOn b s (walkStart e (withEocd e s)) := by
  have hwalk : WalkOk (walkStart e (withEocd e s)) :=
    { open_ := hop, fits := hcap, table := nofun, comment := hok.comment, count := Nat.zero_add _
      capacity := hok.entries }
  refine ⟨if le16 s (e + 10) = 0 then .finish else .walkCdh, rfl, .inr ⟨hop, Nat.zero_le _⟩, hout, ?_⟩
  split
  · next hnone => exact .inl ⟨hwalk, hnone⟩
  · next hsome => exact ⟨hwalk, Nat.pos_of_ne_zero hsome⟩

theorem toLfh_goesOn (hwalk : WalkOk s) (hleft : 0 < s.zip.cdLeft) (hout : Memory.Below s.params.outCap s.outMem)
    (hok : CdhOk s.zip.cdCursor s) : GoesOn .checkLfh s (toLfh s.zip.cdCursor s) :=
  ⟨rfl, .inl rfl, hout, { hwalk with table := fun e he => { hwalk.table e he with } }, hleft,
    ⟨hok.method, hok.fields, rfl⟩⟩

/-- R274, R276, R277: the record that the checks have passed is sound. -/
theorem entryAt_ok {p h : Nat} (hmethod : le16 s (p + 10) = 0 ∨ le16 s (p + 10) = 8) (hfields : nextCdh p s ≤ inLen s)
    (hcontent : contentStart h s + le32 s (p + 20) ≤ inLen s) : EntryOk s (entryAt p h s) := by
  rw [nextCdh] at hfields
  exact {
    name := show p + 46 + le16 s (p + 28) ≤ inLen s by omega
    comment := hfields
    content := hcontent
    method := hmethod
    nameLen := le16_lt s _
    commentLen := le16_lt s _
    csize := le32_lt s _
    usize := le32_lt s _
    crc := le32_lt s _
    dosTime := le16_lt s _
    dosDate := le16_lt s _ }

/-- R277, R278: one record more in the table, one fewer left. -/
theorem withEntry_goesOn (hwalk : WalkOk s) (hleft : 0 < s.zip.cdLeft) (hrecord : RecordOk s)
    (hout : Memory.Below s.params.outCap s.outMem)
    (hok : contentStart s.zip.lfhPos s + le32 s (s.zip.cdCursor + 20) ≤ inLen s) :
    ∃ b, GoesOn b s (withEntry s.zip.cdCursor s.zip.lfhPos s) := by
  have hentry := entryAt_ok hrecord.method hrecord.fields hok
  have hcount := hwalk.count
  have hcap := hwalk.capacity
  have hlength : (s.ft ++ [entryAt s.zip.cdCursor s.zip.lfhPos s]).length = s.ft.length + 1 := List.length_append
  have hwalk' : WalkOk (withEntry s.zip.cdCursor s.zip.lfhPos s) :=
    { hwalk with
      table := fun e he => by
        rcases List.mem_append.mp he with hold | hnew
        · exact { hwalk.table e hold with }
        · rw [List.mem_singleton.mp hnew]; exact { hentry with }
      count := by
        refine (congrArg (· + (s.zip.cdLeft - 1)) hlength).trans ?_
        exact Eq.trans (by omega) hcount }
  refine ⟨if s.zip.cdLeft ≤ 1 then .finish else .walkCdh, rfl, .inr ⟨hwalk.open_, ?_⟩, hout, ?_⟩
  · exact hlength.trans_le (by omega)
  · split
    · next hlast => exact .inl ⟨hwalk', Nat.sub_eq_zero_of_le hlast⟩
    · next hmore => exact ⟨hwalk', Nat.sub_pos_of_lt (Nat.lt_of_not_le hmore)⟩

end

/-! ### The ends of the bodies (R260, R306, R312) -/

section
variable {s : State}

/-- R260, R280: the handle that OPEN leaves is right. -/
theorem inv_finishOpen (h : s.Inv) (hb : busy s = true) (hwalk : WalkOk s) (hleft : s.zip.cdLeft = 0) :
    (finishOpen s).Inv := by
  have hcomment := hwalk.comment
  have hcount := hwalk.count
  have hlt := inLen_lt s
  have hwide (a : Nat) : (BitVec.ofNat 32 (le16 s a)).toNat = le16 s a :=
    toNat_ofNat_word (Nat.lt_trans (le16_lt s a) (by decide))
  have hoff : (BitVec.ofNat 32 (s.zip.eocdPos + 22)).toNat = s.zip.eocdPos + 22 := toNat_ofNat_word (by omega)
  have hvalid : HandleValid (finishOpen s) :=
    { fits := hwalk.fits
      table := fun e he => { hwalk.table e he with }
      count := (hwide (s.zip.eocdPos + 10)).trans (Eq.trans hcount.symm (by rw [hleft]; rfl))
      comment := (congrArg₂ (· + ·) hoff (hwide (s.zip.eocdPos + 20))).trans_le hcomment }
  exact h.of_done hb rfl (by constructor <;> rfl) rfl rfl ⟨rfl, rfl⟩ fun _ => hvalid

/-- R301, R306, R312: the CRC and the length of the result do not touch the handle. -/
theorem inv_of_results (h : s.Inv) (hb : busy s = true) (outLen resCrc crc : Word) :
    (complete { s with crc := crc, regs := { s.regs with outLen := outLen, resCrc := resCrc } }).Inv :=
  h.of_done hb rfl (by constructor <;> rfl) rfl rfl ⟨rfl, rfl⟩ fun hopen =>
    (h.handle.valid hopen).of_same rfl rfl rfl rfl rfl rfl

theorem inv_finishRead (h : s.Inv) (hb : busy s = true) : (finishRead s).Inv := by
  rcases finishRead_cases s with ⟨-, -, e⟩ | ⟨-, -, e⟩ | ⟨-, -, e⟩ <;> rw [e]
  · exact h.of_failedFrom hb
      ⟨_, _, _, s.ent, s.inf, s.zip, s.crc, s.regs.resCrc, Nat.mod_lt s.inf.bitpos (by decide), rfl⟩
  · exact h.of_failedFrom hb ⟨_, _, _, s.ent, s.inf, s.zip, _, _, by decide, rfl⟩
  · exact inv_of_results h hb _ _ _

theorem inv_finishCommand (h : s.Inv) (hrun : s.run = .busy .finish) : (finishCommand s).Inv := by
  have hb := busy_of_run hrun
  rcases h.place .finish hrun with ⟨hwalk, hleft⟩ | ⟨hstream, -⟩ | hstored
  · rw [finishCommand_open hwalk.open_]
    exact inv_finishOpen h hb hwalk hleft
  · rcases hstream.source with ⟨hop, -⟩ | ⟨hop, -⟩
    · rw [finishCommand_inflate hop]
      exact inv_of_results h hb _ _ _
    · rw [finishCommand_read hop]
      exact inv_finishRead h hb
  · rw [finishCommand_read hstored.read]
    exact inv_finishRead h hb

end

/-! ### Every step -/

theorem coreStep_inv {s t : State} (h : s.Inv) (hstep : coreStep s = .next t) : t.Inv := by
  cases hb : busy s with
  | false => cases (coreStep_idle hb).symm.trans hstep; exact h
  | true =>
    obtain ⟨a, hrun⟩ := exists_run_of_busy hb
    have hplace := h.place a hrun
    have hout := h.ports.outPort
    cases coreStep_effect hrun hstep with
    | failed hf => exact h.of_failedFrom hb hf
    | element ha he =>
      rcases he.sound hplace (hplace.stream ha) hout with hf | ⟨b, hon⟩
      · exact h.of_failedFrom hb hf.failedFrom
      · exact h.of_goesOn hrun hstep hon
    | openStarts ha hop hcap hlen ht =>
      subst ht
      exact h.of_goesOn (b := .scanEocd) hrun hstep
        ⟨rfl, .inl rfl, hout, hop, hcap, Nat.le_of_eq (Nat.sub_add_cancel hlen)⟩
    | reads ha hop hopen k e he hsize ht =>
      obtain ⟨b, hon⟩ := reads_goesOn h hop hopen he hsize ht
      exact h.of_goesOn hrun hstep hon
    | inflateStarts ha hop hcap hregion hdest ht =>
      subst ht
      exact h.of_goesOn (b := .blockHeader) hrun hstep
        ⟨rfl, .inl rfl, hout, startInflate_stream hop hcap hregion hdest, rfl⟩
    | checksum ha ht => rw [ht]; exact inv_of_results h hb s.regs.outLen _ _
    | scanned ha ht =>
      subst ha ht
      obtain ⟨hop, hcap, hpos⟩ := hplace
      exact h.of_goesOn hrun hstep
        ⟨hrun, .inl rfl, hout, hop, hcap, Nat.le_trans (Nat.add_le_add_right (Nat.sub_le _ 1) 22) hpos⟩
    | walkStarts ha hok ht =>
      subst ha ht
      obtain ⟨hop, hcap, -⟩ := hplace
      obtain ⟨b, hon⟩ := walkStart_goesOn hop hcap hout hok
      exact h.of_goesOn hrun hstep hon
    | recordChecked ha hok ht =>
      subst ha ht
      obtain ⟨hwalk, hleft⟩ := hplace
      exact h.of_goesOn hrun hstep (toLfh_goesOn hwalk hleft hout hok)
    | recordAppended ha hok ht =>
      subst ha ht
      obtain ⟨hwalk, hleft, hrecord⟩ := hplace
      obtain ⟨b, hon⟩ := withEntry_goesOn hwalk hleft hrecord hout hok
      exact h.of_goesOn hrun hstep hon
    | finished ha ht => subst ha ht; exact inv_finishCommand h hrun

/-! ### The accesses of the host (R20-R26, R70-R72, R300, R380) -/

section
variable {s : State}

/-- R300: a running command starts with the error and result registers at 0; OPEN has cleared the handle. -/
theorem inv_acceptCommand (h : s.Inv) (w : Word) : (acceptCommand w s).Inv := by
  have hregs : (acceptCommand w s).regs.err = 0 ∧ (acceptCommand w s).regs.errPos = 0 ∧
      (acceptCommand w s).regs.outLen = 0 ∧ (acceptCommand w s).regs.resCrc = 0 := by
    unfold acceptCommand
    split <;> exact ⟨rfl, rfl, rfl, rfl⟩
  obtain ⟨herr, herrPos, houtLen, hresCrc⟩ := hregs
  have hclear (hop : (acceptCommand w s).regs.cmdOp = 1) : HandleClear (acceptCommand w s) := by
    rw [acceptCommand_cmdOp] at hop
    obtain ⟨hregs, -⟩ := acceptCommand_open w s hop
    constructor <;> rw [hregs]
  constructor
  case params => rw [acceptCommand_params]; exact h.params
  case ports =>
    constructor
    · rw [acceptCommand_params, acceptCommand_inMem]; exact h.ports.inPort
    · rw [acceptCommand_params, acceptCommand_nameMem]; exact h.ports.namePort
    · rw [acceptCommand_params, acceptCommand_outMem]; exact h.ports.outPort
  case handle =>
    refine ⟨?_, fun hopen => ?_, fun _ => hclear, fun _ => hclear⟩
    · rw [acceptCommand_params]
      unfold acceptCommand
      split
      · exact Nat.zero_le _
      · exact h.handle.capacity
    · by_cases hop : w.extractLsb' 0 4 = 1
      · rw [(acceptCommand_open w s hop).1] at hopen
        cases hopen
      · obtain ⟨hregs, hft⟩ := acceptCommand_other w s hop
        rw [hregs] at hopen
        exact (h.handle.valid hopen).of_same (acceptCommand_params w s) hft
          (by rw [inLen, hregs]; rfl) (by rw [hregs]) (by rw [hregs]) (by rw [hregs])
  case results =>
    refine ⟨fun _ => ⟨herr, herrPos⟩, fun hrun => ?_, fun _ => ⟨houtLen, hresCrc⟩, fun hrun => ?_⟩
    · rw [acceptCommand_run] at hrun; cases hrun
    · rw [acceptCommand_run] at hrun; cases hrun
  case place =>
    intro a hrun
    rw [acceptCommand_run] at hrun
    cases hrun
    trivial

/-- R25, R26, R70-R72: `s` with other inputs of the host, and OPEN_VALID with them. -/
def State.withInputs (inMem nameMem : Memory) (openValid : Bool) (inLen nameLen arg0 arg1 arg2 : Word) (s : State) :
    State :=
  { s with
    inMem := inMem, nameMem := nameMem
    regs := { s.regs with
      openValid := openValid, inLen := inLen, nameLen := nameLen, arg0 := arg0, arg1 := arg1, arg2 := arg2 } }

/-- R72: while no command runs the host may change its inputs; what the handle describes, only with OPEN_VALID 0. -/
theorem State.Inv.withInputs {inMem nameMem : Memory} {openValid : Bool} {inLen nameLen arg0 arg1 arg2 : Word}
    (h : s.Inv) (hb : busy s = false) (hin : Memory.Below s.params.inCap inMem)
    (hname : Memory.Below s.params.nameCap nameMem)
    (hopen : openValid = false ∨ (openValid = s.regs.openValid ∧ inLen = s.regs.inLen)) :
    (s.withInputs inMem nameMem openValid inLen nameLen arg0 arg1 arg2).Inv := by
  have hclear (hc : HandleClear s) : HandleClear (s.withInputs inMem nameMem openValid inLen nameLen arg0 arg1 arg2) :=
    { hc with openValid := hopen.elim id fun hsame => hsame.1.trans hc.openValid }
  constructor
  case params => exact h.params
  case ports => exact ⟨hin, hname, h.ports.outPort⟩
  case handle =>
    refine ⟨h.handle.capacity, fun hvalid => ?_, fun hrun hop => hclear (h.handle.failedOpen hrun hop), fun hbusy => ?_⟩
    · rcases hopen with hfalse | ⟨hsame, hlen⟩
      · cases hfalse.symm.trans hvalid
      · exact (h.handle.valid (hsame.symm.trans hvalid)).of_same rfl rfl (congrArg BitVec.toNat hlen) rfl rfl rfl
    · cases hb.symm.trans hbusy
  case results =>
    refine ⟨h.results.noError, h.results.failed, h.results.running, fun hrun => ?_⟩
    obtain ⟨hop, houtLen, hresCrc, hent, hft, hc⟩ := h.results.fresh hrun
    exact ⟨hop, houtLen, hresCrc, hent, hft, hclear hc⟩
  case place => intro a hrun; cases hb.symm.trans (busy_of_run (s := s) hrun)

/-- R22, R23: `s` with other flags for the host. -/
def State.withFlags (ignored irqPending ie : Bool) (s : State) : State :=
  { s with regs := { s.regs with ignored := ignored, irqPending := irqPending, ie := ie } }

variable (ignored irqPending ie : Bool)

theorem WalkOk.withFlags (h : WalkOk s) : WalkOk (s.withFlags ignored irqPending ie) :=
  { h with table := fun e he => { h.table e he with } }

theorem TreesOk.withFlags (h : TreesOk s) : TreesOk (s.withFlags ignored irqPending ie) :=
  h.imp_right fun ⟨hphase, hcounts, htrees⟩ => ⟨hphase, { hcounts with }, htrees⟩

theorem PlaceOk.withFlags {a : Activity} (h : PlaceOk s a) : PlaceOk (s.withFlags ignored irqPending ie) a := by
  cases a with
  | command => trivial
  | scanEocd => exact h
  | walkCdh =>
    obtain ⟨hwalk, hleft⟩ := h
    exact ⟨hwalk.withFlags _ _ _, hleft⟩
  | checkLfh =>
    obtain ⟨hwalk, hleft, hrecord⟩ := h
    exact ⟨hwalk.withFlags _ _ _, hleft, { hrecord with }⟩
  | blockHeader =>
    obtain ⟨hstream, hphase⟩ := h
    exact ⟨{ hstream with }, hphase⟩
  | codeLength =>
    obtain ⟨hstream, hlengths⟩ := h
    exact ⟨{ hstream with }, { hlengths with counts := { hlengths.counts with } }⟩
  | litLen =>
    obtain ⟨hstream, htrees⟩ := h
    exact ⟨{ hstream with }, htrees.withFlags _ _ _⟩
  | distance =>
    obtain ⟨hstream, htrees, hlength⟩ := h
    exact ⟨{ hstream with }, htrees.withFlags _ _ _, hlength⟩
  | finish =>
    rcases h with ⟨hwalk, hleft⟩ | ⟨hstream, hphase⟩ | hstored
    · exact .inl ⟨hwalk.withFlags _ _ _, hleft⟩
    · exact .inr (.inl ⟨{ hstream with }, hphase⟩)
    · exact .inr (.inr { hstored with })

/-- The flags of the host are no part of soundness. -/
theorem State.Inv.withFlags (h : s.Inv) : (s.withFlags ignored irqPending ie).Inv where
  params := h.params
  ports := { h.ports with }
  handle := ⟨h.handle.capacity, fun hopen => (h.handle.valid hopen).of_same rfl rfl rfl rfl rfl rfl,
    fun hrun hop => { h.handle.failedOpen hrun hop with }, fun hb hop => { h.handle.runningOpen hb hop with }⟩
  results := ⟨h.results.noError, h.results.failed, h.results.running, fun hrun =>
    have ⟨hop, houtLen, hresCrc, hent, hft, hc⟩ := h.results.fresh hrun
    ⟨hop, houtLen, hresCrc, hent, hft, { hc with }⟩⟩
  place a hrun := (h.place a hrun).withFlags _ _ _

end

/-- R380: reset leaves the state after reset but for the parameters, the host and the draws. -/
theorem inv_hardReset {s : State} (h : s.Inv) : (hardReset s).Inv where
  params := h.params
  ports := ⟨Memory.below_nil _, Memory.below_nil _, Memory.below_nil _⟩
  handle := ⟨Nat.zero_le _, nofun, nofun, nofun⟩
  results := ⟨fun _ => ⟨rfl, rfl⟩, nofun, nofun, fun _ => ⟨rfl, rfl, rfl, rfl, rfl, rfl, rfl, rfl, rfl⟩⟩
  place := nofun

theorem HostEffect.inv {op : HostOp} {s t : State} (he : HostEffect op s t) (h : s.Inv) : t.Inv := by
  have hin := h.ports.inPort
  have hname := h.ports.namePort
  cases he with
  | held d n ht => subst ht; exact h.withHost s.hostOps d n
  | status v _ ht => subst ht; exact h.withFlags _ _ s.regs.ie
  | ctrl v _ ht => subst ht; exact h.withFlags s.regs.ignored s.regs.irqPending _
  | dropped _ ht => subst ht; exact h.withFlags true s.regs.irqPending s.regs.ie
  | accepted v _ _ ht => subst ht; exact inv_acceptCommand h v
  | inLen v hb ht => subst ht; exact h.withInputs hb hin hname (.inl rfl)
  | operands n a0 a1 a2 hb ht => subst ht; exact h.withInputs hb hin hname (.inr ⟨rfl, rfl⟩)
  | inByte a v hb ha ht => subst ht; exact h.withInputs hb (hin.set ha v) hname (.inl rfl)
  | nameByte a v hb ha ht => subst ht; exact h.withInputs hb hin (hname.set ha v) (.inr ⟨rfl, rfl⟩)
  | reset _ ht => subst ht; exact inv_hardReset h

/-- Settles O56: a step of the core by `coreStep_inv`, an access of the host by `HostEffect.inv`. -/
theorem everyStepKeepsInv : Obligations.EveryStepKeepsInv := by
  intro s t h hstep
  have taken (ops : List HostOp) : ({ s with hostOps := ops } : State).Inv := h.withHost ops s.hostData s.readDraws
  rcases nextMove_cases hstep with ⟨hc, -⟩ | ⟨ops, -, hc⟩ | ⟨ops, -, -, rfl⟩ | ⟨op, ops, -, -, -, he⟩
  · exact coreStep_inv h hc
  · exact coreStep_inv (taken ops) hc
  · exact taken ops
  · exact he.inv (taken ops)

end Sys2Proof.Machine
end

section
/-! PROOFS. No command depends on a byte of IN at or beyond IN_LEN (R76, R154): put other bytes there, and each part of
a command body does the same and leaves those bytes where they are. -/

namespace Sys2Proof.Machine

/-! ### IN with other bytes beyond IN_LEN -/

/-- `s` with another IN memory. -/
def State.withIn (m : Memory) (s : State) : State := { s with inMem := m }

/-- `m` has the bytes of IN below IN_LEN. -/
def AgreesBelow (m : Memory) (s : State) : Prop := ∀ a, a < inLen s → inByte (s.withIn m) a = inByte s a

/-- What a part of a body answers, with another IN memory in the state it leaves; `put` puts it into a success. -/
def Res.withIn {α : Type} (put : α → α) (m : Memory) : Res α → Res α
  | .ok a => .ok (put a)
  | .error e => .error (e.withIn m)

/-- A value read, and the state after it, with another IN memory. -/
def putRead {α : Type} (m : Memory) (r : α × State) : α × State := (r.1, r.2.withIn m)

/-- A body that does the same with `m` in its first part, and with `m` in the rest after it, does so as a whole. -/
theorem Res.bind_withIn {α β : Type} {put : α → α} {put' : β → β} {m : Memory} {x x' : Res α} {f : α → Res β}
    (hx : x' = x.withIn put m) (hf : ∀ a, x = .ok a → f (put a) = (f a).withIn put' m) :
    x' >>= f = (x >>= f).withIn put' m := by
  subst hx
  cases x with
  | ok a => exact hf a rfl
  | error e => rfl

theorem Res.ite_withIn {α : Type} {put : α → α} {m : Memory} {c : Prop} [Decidable c] {x x' y y' : Res α}
    (hx : c → x' = x.withIn put m) (hy : ¬ c → y' = y.withIn put m) :
    (if c then x' else y') = (if c then x else y).withIn put m := by
  split
  · next h => exact hx h
  · next h => exact hy h

theorem settle_withIn {m : Memory} {r : Res State} {t : State} (h : settle r = .next t) :
    settle (r.withIn (State.withIn m) m) = .next (t.withIn m) := by
  cases r <;> cases h <;> rfl

section
variable {m : Memory} {s : State} (hm : AgreesBelow m s)
include hm

theorem le16_withIn {a : Nat} (h : a + 2 ≤ inLen s) : le16 (s.withIn m) a = le16 s a := by
  simp only [le16, hm a (by omega), hm (a + 1) (by omega)]

theorem le32_withIn {a : Nat} (h : a + 4 ≤ inLen s) : le32 (s.withIn m) a = le32 s a := by
  simp only [le32, hm a (by omega), hm (a + 1) (by omega), hm (a + 2) (by omega), hm (a + 3) (by omega)]

theorem bitAt_withIn {p : Nat} (h : p < 8 * inLen s) : bitAt (s.withIn m) p = bitAt s p := by
  simp only [bitAt, hm (p / 8) (by omega)]

theorem bitField_withIn {p n : Nat} (h : p + n ≤ 8 * inLen s) : bitField (s.withIn m) p n = bitField s p n := by
  induction n generalizing p with
  | zero => rfl
  | succ n ih => rw [bitField, bitField, bitAt_withIn hm (by omega), ih (by omega)]

end

/-! ### The stream (R150-R210): the region lies below IN_LEN -/

/-- R76, R154: `m` has the bytes that an inflate may read. -/
structure SameRegion (m : Memory) (s : State) : Prop where
  agrees : AgreesBelow m s
  region : s.inf.regionEnd ≤ inLen s

section
variable {m : Memory} {s : State}

theorem readBits_withIn (n : Nat) (h : SameRegion m s) :
    readBits n (s.withIn m) = (readBits n s).withIn (putRead m) m := by
  have hregion := h.region
  rcases readBits_cases n s with ⟨hr, e⟩ | ⟨⟨hn, hover⟩, e⟩
  · have hfield : bitField (s.withIn m) s.inf.bitpos n = bitField s s.inf.bitpos n := by
      rcases hr with rfl | hr
      · rfl
      · exact bitField_withIn h.agrees (by omega)
    rw [e, readBits_ok_of_zero_or_le (s := s.withIn m) hr]
    exact congrArg (fun v => Except.ok (v, _)) hfield
  · rw [e, readBits_overrun (s := s.withIn m) hn hover]
    rfl

theorem SameRegion.setBitpos (h : SameRegion m s) (p : Nat) : SameRegion m (setBitpos p s) := ⟨h.agrees, h.region⟩

theorem putByte_withIn (v : Byte) (s : State) :
    putByte v (s.withIn m) = (putByte v s).withIn (State.withIn m) m := by
  by_cases hfull : s.inf.destLen = s.inf.destCap
  · rw [putByte_full hfull, putByte_full (s := s.withIn m) hfull]; rfl
  · rw [putByte_ok hfull, putByte_ok (s := s.withIn m) hfull]; rfl

theorem copyStored_withIn {n : Nat} (h : SameRegion m s) :
    copyStored n (s.withIn m) = (copyStored n s).withIn (State.withIn m) m := by
  induction n generalizing s with
  | zero => rfl
  | succ n ih =>
    refine Res.bind_withIn (readBits_withIn 8 h) fun ⟨b, u⟩ hu => ?_
    obtain ⟨-, rfl, -⟩ := readBits_eq_ok hu
    refine Res.bind_withIn (putByte_withIn _ _) fun w hw => ?_
    obtain ⟨hroom, rfl⟩ := putByte_eq_ok hw
    exact ih ⟨h.agrees, h.region⟩

theorem copyBack_withIn {dist n : Nat} :
    copyBack dist n (s.withIn m) = (copyBack dist n s).withIn (State.withIn m) m := by
  induction n generalizing s with
  | zero => rfl
  | succ n ih => exact Res.bind_withIn (putByte_withIn _ _) fun w _ => ih

theorem endBlock_withIn (s : State) : endBlock (s.withIn m) = (endBlock s).withIn m := by
  cases hfinal : s.inf.bfinal <;> simp only [endBlock, State.withIn, hfinal] <;> rfl

theorem storedBody_withIn (h : SameRegion m s) :
    storedBody (s.withIn m) = (storedBody s).withIn (State.withIn m) m := by
  have h0 : SameRegion m (alignToByte s) := h.setBitpos _
  refine Res.bind_withIn (readBits_withIn 16 h0) fun ⟨len, u⟩ hu => ?_
  obtain ⟨-, rfl, -⟩ := readBits_eq_ok hu
  refine Res.bind_withIn (readBits_withIn 16 (h0.setBitpos _)) fun ⟨nlen, v⟩ hv => ?_
  obtain ⟨-, rfl, -⟩ := readBits_eq_ok hv
  refine Res.ite_withIn (fun _ => rfl) fun _ =>
    Res.bind_withIn (copyStored_withIn ((h0.setBitpos _).setBitpos _)) fun w _ => ?_
  rw [endBlock_withIn]
  rfl

theorem readCounts_withIn (h : SameRegion m s) :
    readCounts (s.withIn m) = (readCounts s).withIn (State.withIn m) m := by
  refine Res.bind_withIn (readBits_withIn 5 h) fun ⟨hlit, u⟩ hu => ?_
  obtain ⟨-, rfl, -⟩ := readBits_eq_ok hu
  refine Res.bind_withIn (readBits_withIn 5 (h.setBitpos _)) fun ⟨hdist, v⟩ hv => ?_
  obtain ⟨-, rfl, -⟩ := readBits_eq_ok hv
  exact Res.bind_withIn (readBits_withIn 4 ((h.setBitpos _).setBitpos _)) fun ⟨hclen, w⟩ _ => rfl

theorem readCodeLengths_withIn {order : List Nat} (h : SameRegion m s) :
    readCodeLengths order (s.withIn m) = (readCodeLengths order s).withIn (State.withIn m) m := by
  induction order generalizing s with
  | nil => rfl
  | cons c order ih =>
    refine Res.bind_withIn (readBits_withIn 3 h) fun ⟨v, u⟩ hu => ?_
    obtain ⟨-, rfl, -⟩ := readBits_eq_ok hu
    exact ih (s := putCl c v (setBitpos _ s)) ⟨h.agrees, h.region⟩

theorem dynamicHeader_withIn (h : SameRegion m s) :
    dynamicHeader (s.withIn m) = (dynamicHeader s).withIn (State.withIn m) m := by
  refine Res.bind_withIn (readCounts_withIn h) fun u hu => ?_
  obtain ⟨rfl, -⟩ := readCounts_eq_ok hu
  refine Res.bind_withIn (Res.ite_withIn (x := raiseInflate .hlitRange _) (fun _ => rfl) fun _ => rfl) fun v hv => ?_
  have hcounts : SameRegion m v := by
    rcases checkHlit_cases s with ⟨-, e⟩ | ⟨-, e⟩ <;> cases e.symm.trans hv
    exact ⟨h.agrees, h.region⟩
  exact Res.bind_withIn (readCodeLengths_withIn (s := clearCl v) ⟨hcounts.agrees, hcounts.region⟩) fun w _ => rfl

theorem matchLength_withIn (k : Nat) (h : SameRegion m s) :
    matchLength k (s.withIn m) = (matchLength k s).withIn (State.withIn m) m :=
  Res.bind_withIn (readBits_withIn _ h) fun _ _ => rfl

theorem matchDistance_withIn (d : Nat) (h : SameRegion m s) :
    matchDistance d (s.withIn m) = (matchDistance d s).withIn (State.withIn m) m :=
  Res.bind_withIn (readBits_withIn _ h) fun _ _ =>
    Res.ite_withIn (fun _ => rfl) fun _ => Res.bind_withIn copyBack_withIn fun _ _ => rfl

theorem appendLengths_withIn (new : List Nat) (s : State) :
    appendLengths new (s.withIn m) = (appendLengths new s).withIn m := by
  rcases Nat.lt_or_ge (s.inf.lengths.length + new.length) (totalLengths s) with hmore | hlast
  · rw [appendLengths_more hmore, appendLengths_more (s := s.withIn m) hmore]; rfl
  · rw [appendLengths_last hlast, appendLengths_last (s := s.withIn m) hlast]; rfl

theorem appendRun_withIn (v base bits : Nat) (h : SameRegion m s) :
    appendRun v base bits (s.withIn m) = (appendRun v base bits s).withIn (State.withIn m) m := by
  refine Res.bind_withIn (readBits_withIn bits h) fun ⟨extra, u⟩ _ => Res.ite_withIn (fun _ => rfl) fun _ => ?_
  exact congrArg Except.ok (appendLengths_withIn _ u)

theorem decodeSymLoop_withIn {tree : Tree} {fuel len sum : Nat} {cur : Int} (h : SameRegion m s) :
    decodeSymLoop tree fuel len sum cur (s.withIn m) =
      (decodeSymLoop tree fuel len sum cur s).withIn (putRead m) m := by
  induction fuel generalizing len sum cur s with
  | zero => rfl
  | succ fuel ih =>
    rw [decodeSymLoop, decodeSymLoop, readBit_eq_readBits, readBit_eq_readBits]
    refine Res.bind_withIn (readBits_withIn 1 h) fun ⟨b, u⟩ hu => Res.ite_withIn (fun _ => rfl) fun _ => ?_
    obtain ⟨-, rfl, -⟩ := readBits_eq_ok hu
    exact ih (h.setBitpos _)

/-! ### The instructions of the stream -/

variable {t : State}

theorem exec_codeLen_withIn {v : Nat} {i : Instr} (h : SameRegion m s) (hi : decode .codeLen v = .ok i)
    (hx : exec i s = .next t) : exec i (s.withIn m) = .next (t.withIn m) := by
  rcases decode_codeLen_cases hi with ⟨-, rfl⟩ | rfl | rfl | rfl
  · cases hx
    exact congrArg Host.Outcome.next (appendLengths_withIn [v] s)
  · cases hlast : s.inf.lengths.getLast? with
    | none =>
      simp only [exec, execClRepeat, hlast] at hx
      cases hx
      simp only [exec, execClRepeat, State.withIn, hlast]
      rfl
    | some v =>
      have hrun : IsRun .clRepeat 2 3 v s := .inl ⟨rfl, rfl, rfl, hlast⟩
      have hrun' : IsRun .clRepeat 2 3 v (s.withIn m) := .inl ⟨rfl, rfl, rfl, hlast⟩
      rw [hrun.exec_eq] at hx
      rw [hrun'.exec_eq, appendRun_withIn v 3 2 h]
      exact settle_withIn hx
  · exact (congrArg settle (appendRun_withIn 0 3 3 h)).trans (settle_withIn hx)
  · exact (congrArg settle (appendRun_withIn 0 11 7 h)).trans (settle_withIn hx)

theorem exec_litLen_withIn {v : Nat} {i : Instr} (h : SameRegion m s) (hi : decode .litLen v = .ok i)
    (hx : exec i s = .next t) : exec i (s.withIn m) = .next (t.withIn m) := by
  rcases decode_litLen_cases hi with rfl | rfl | rfl | rfl | ⟨k, hk⟩
  · refine Eq.trans (congrArg settle ?_) (settle_withIn hx)
    exact Res.bind_withIn (putByte_withIn _ s) fun _ _ => rfl
  · cases hx
    exact congrArg Host.Outcome.next (endBlock_withIn s)
  · cases hx; rfl
  · cases hx; rfl
  · rw [exec_lengthInstr hk] at hx ⊢
    rw [matchLength_withIn k h]
    exact settle_withIn hx

theorem exec_dist_withIn {v : Nat} {i : Instr} (h : SameRegion m s) (hi : decode .dist v = .ok i)
    (hx : exec i s = .next t) : exec i (s.withIn m) = .next (t.withIn m) := by
  have hv := decode_dist_some hi
  rcases Nat.lt_or_ge v 30 with hlt | hge
  · rw [exec_distInstr hv hlt] at hx ⊢
    rw [matchDistance_withIn v h]
    exact settle_withIn hx
  · rw [exec_invalidDist hv hge] at hx ⊢
    cases hx
    rfl

theorem exec_blockHdr_withIn {b : BitVec 3} (h : SameRegion m s) (hx : exec (decodeBlockHdr b) s = .next t) :
    exec (decodeBlockHdr b) (s.withIn m) = .next (t.withIn m) := by
  obtain ⟨final, e | e | e | e⟩ := decodeBlockHdr_cases b <;> rw [e] at hx ⊢
  · refine Eq.trans (congrArg settle ?_) (settle_withIn hx)
    exact storedBody_withIn (s := enterBlock final 0 .stored s) ⟨h.agrees, h.region⟩
  · cases hx; rfl
  · refine Eq.trans (congrArg settle ?_) (settle_withIn hx)
    exact dynamicHeader_withIn (s := enterBlock final 2 .dynamic s) ⟨h.agrees, h.region⟩
  · cases hx; rfl

theorem readBlockHdr_withIn (h : SameRegion m s) :
    readBlockHdr (s.withIn m) = (readBlockHdr s).withIn (putRead m) m := by
  refine Res.bind_withIn (Res.bind_withIn (put' := State.withIn m) (readBits_withIn 1 h) fun _ _ => rfl) fun u hu => ?_
  have hregion : SameRegion m u := by
    rcases readBfinal_cases s with ⟨-, e⟩ | ⟨-, e⟩ <;> cases e.symm.trans hu
    exact ⟨h.agrees, h.region⟩
  exact Res.bind_withIn (readBits_withIn 2 hregion) fun _ _ => rfl

end

/-! ### What is read next -/

/-- What a step reads, with another IN memory in the state it is read in. -/
def Fetched.withIn (m : Memory) : Fetched → Fetched
  | .run i s => .run i (s.withIn m)
  | .internal s => .internal (s.withIn m)
  | .stop f => .stop f

section
variable {m : Memory} {s t : State}

/-- A step that reads the same with `m` does the same, if what it reads does. -/
theorem coreStep_withIn_of_fetch {a : Activity} (hrun : s.run = .busy a)
    (hfetch : fetch a (s.withIn m) = (fetch a s).withIn m)
    (hexec : ∀ i u, fetch a s = .run i u → exec i u = .next t → exec i (u.withIn m) = .next (t.withIn m))
    (h : coreStep s = .next t) : coreStep (s.withIn m) = .next (t.withIn m) := by
  rcases coreStep_next hrun h with ⟨i, u, hf, hx⟩ | hf
  · exact (coreStep_run (s := s.withIn m) hrun (hfetch.trans (by rw [hf]; rfl))).trans (hexec i u hf hx)
  · exact coreStep_internal (s := s.withIn m) hrun (hfetch.trans (by rw [hf]; rfl))

theorem fetchSymbol_withIn (f : Format) (r : Res (Option Nat × State)) :
    fetchSymbol f (r.withIn (putRead m) m) = (fetchSymbol f r).withIn m := by
  match r with
  | .error e => rfl
  | .ok (none, u) => rfl
  | .ok (some v, u) =>
    simp only [Res.withIn, putRead, fetchSymbol]
    cases decode f v <;> rfl

/-- R175: a symbol of a tree that does not depend on IN. -/
theorem symbol_withIn {a : Activity} {f : Format} {tree : Tree} (h : SameRegion m s) (hrun : s.run = .busy a)
    (hfetch : fetch a s = fetchSymbol f (decodeSym tree s))
    (hfetchIn : fetch a (s.withIn m) = fetchSymbol f (decodeSym tree (s.withIn m)))
    (hexec : ∀ v i u, SameRegion m u → decode f v = .ok i → exec i u = .next t →
      exec i (u.withIn m) = .next (t.withIn m))
    (hstep : coreStep s = .next t) : coreStep (s.withIn m) = .next (t.withIn m) := by
  refine coreStep_withIn_of_fetch hrun ?_ (fun i u hf hx => ?_) hstep
  · rw [hfetch, hfetchIn, decodeSym, decodeSymLoop_withIn h, fetchSymbol_withIn]
    rfl
  · rw [hfetch] at hf
    obtain ⟨-, ⟨p, rfl⟩, v, hi⟩ := fetchSymbol_inside hf
    exact hexec v i _ (h.setBitpos p) hi hx

theorem blockHeader_withIn (h : SameRegion m s) (hrun : s.run = .busy .blockHeader) (hstep : coreStep s = .next t) :
    coreStep (s.withIn m) = .next (t.withIn m) := by
  refine coreStep_withIn_of_fetch hrun ?_ (fun i u hf hx => ?_) hstep
  · simp only [fetch, fetchBlockHdr, readBlockHdr_withIn h]
    cases readBlockHdr s <;> rfl
  · simp only [fetch, fetchBlockHdr] at hf
    split at hf
    · cases hf
    · next b v hb =>
      cases hf
      obtain ⟨rfl, -, -⟩ := readBlockHdr_eq_ok hb
      exact exec_blockHdr_withIn ⟨h.agrees, h.region⟩ hx

theorem stream_withIn {a : Activity} (ha : StreamPlace a) (h : SameRegion m s) (hrun : s.run = .busy a)
    (hstep : coreStep s = .next t) : coreStep (s.withIn m) = .next (t.withIn m) := by
  rcases ha with rfl | rfl | rfl | rfl
  · exact blockHeader_withIn h hrun hstep
  · exact symbol_withIn (tree := s.inf.clt) h hrun rfl rfl (fun _ _ _ => exec_codeLen_withIn) hstep
  · exact symbol_withIn (tree := litLenTree s) h hrun rfl rfl (fun _ _ _ => exec_litLen_withIn) hstep
  · exact symbol_withIn (tree := distTree s) h hrun rfl rfl (fun _ _ _ => exec_dist_withIn) hstep

/-! ### Parts of the commands that do not read IN (R300, R306) -/

theorem decodeCmd_cases (w : Word) : decodeCmd w ∈ reservedInstrs ∨ decodeCmd w = .cmdOpen ∨
    decodeCmd w = .cmdRead ∨ decodeCmd w = .cmdInflate ∨ decodeCmd w = .cmdCrc32 := by
  unfold decodeCmd
  split
  all_goals decide

theorem checkCrc_withIn (s : State) : checkCrc (s.withIn m) = (checkCrc s).withIn m := by
  by_cases hcrc : s.regs.resCrc ≠ s.ent.crc
  · rw [checkCrc, checkCrc, if_pos hcrc]
    exact if_pos hcrc
  · rw [checkCrc, checkCrc, if_neg hcrc]
    exact if_neg hcrc

theorem finishRead_withIn (s : State) : finishRead (s.withIn m) = (finishRead s).withIn m := by
  by_cases hshort : s.ent.method = 8 ∧ s.inf.destLen ≠ s.ent.usize.toNat
  · rw [finishRead, finishRead, if_pos hshort]
    exact if_pos hshort
  · rw [finishRead, finishRead, if_neg hshort]
    exact (if_neg hshort).trans (checkCrc_withIn (putCrc (outByte s) 0 s.inf.destLen s))

end

/-! ### The ZIP records (R262-R278): each read lies inside the record, and the record below IN_LEN -/

section
variable {m : Memory} {s t : State} (hm : AgreesBelow m s)
include hm

theorem eocdBody_withIn {e : Nat} (h : e + 22 ≤ inLen s) :
    eocdBody e (s.withIn m) = (eocdBody e s).withIn (State.withIn m) m := by
  simp (disch := omega) only [eocdBody, le16_withIn hm, le32_withIn hm]
  exact Res.ite_withIn (fun _ => rfl) fun _ => Res.ite_withIn (fun _ => rfl) fun _ =>
    Res.ite_withIn (fun _ => rfl) fun _ => Res.ite_withIn (fun _ => rfl) fun _ => rfl

theorem cdhBody_withIn {p : Nat} (h : p + 46 ≤ inLen s) :
    cdhBody p (s.withIn m) = (cdhBody p s).withIn (State.withIn m) m := by
  simp (disch := omega) only [cdhBody, le16_withIn hm, le32_withIn hm]
  exact Res.ite_withIn (fun _ => rfl) fun _ => Res.ite_withIn (fun _ => rfl) fun _ =>
    Res.ite_withIn (fun _ => rfl) fun _ => Res.ite_withIn (fun _ => rfl) fun _ => rfl

theorem lfhBody_withIn {p h : Nat} (hp : p + 46 ≤ inLen s) (hh : h + 30 ≤ inLen s) :
    lfhBody p h (s.withIn m) = (lfhBody p h s).withIn (State.withIn m) m := by
  simp (disch := omega) only [lfhBody, contentStart, entryAt, nextCdh, le16_withIn hm, le32_withIn hm]
  exact Res.ite_withIn (fun _ => rfl) fun _ => rfl

theorem scanEocd_withIn (hrun : s.run = .busy .scanEocd) (hpos : s.zip.scanPos + 22 ≤ inLen s)
    (h : coreStep s = .next t) : coreStep (s.withIn m) = .next (t.withIn m) := by
  refine coreStep_withIn_of_fetch hrun ?_ (fun i u hf hx => ?_) h
  · have hsig : le32 (s.withIn m) (s.withIn m).zip.scanPos = le32 s s.zip.scanPos :=
      le32_withIn (a := s.zip.scanPos) hm (by omega)
    rw [fetch, fetch, fetchEocd, fetchEocd, hsig]
    split
    · rfl
    · by_cases hfloor : s.zip.scanPos ≤ scanFloor s
      · rw [if_pos hfloor]
        exact if_pos hfloor
      · rw [if_neg hfloor]
        exact if_neg hfloor
  · rcases fetchEocd_cases s with ⟨-, e⟩ | ⟨-, -, e⟩ | ⟨-, -, e⟩ <;> cases e.symm.trans hf
    exact (congrArg settle (eocdBody_withIn (s := withEocd s.zip.scanPos s) hm hpos)).trans (settle_withIn hx)

theorem walkCdh_withIn (hrun : s.run = .busy .walkCdh) (h : coreStep s = .next t) :
    coreStep (s.withIn m) = .next (t.withIn m) := by
  refine coreStep_withIn_of_fetch hrun ?_ (fun i u hf hx => ?_) h
  · rw [fetch, fetch, fetchCdh, fetchCdh]
    by_cases hover : s.zip.cdCursor + 46 > inLen s
    · rw [if_pos hover]
      exact if_pos hover
    · have hsig : le32 (s.withIn m) (s.withIn m).zip.cdCursor = le32 s s.zip.cdCursor :=
        le32_withIn (a := s.zip.cdCursor) hm (by omega)
      rw [if_neg hover, hsig]
      refine (if_neg hover).trans ?_
      split <;> rfl
  · rcases fetchCdh_cases s with ⟨-, e⟩ | ⟨hin, -, e⟩ | ⟨-, -, e⟩ <;> cases e.symm.trans hf
    exact (congrArg settle (cdhBody_withIn hm hin)).trans (settle_withIn hx)

theorem checkLfh_withIn (hrun : s.run = .busy .checkLfh) (hrecord : s.zip.cdCursor + 46 ≤ inLen s)
    (h : coreStep s = .next t) : coreStep (s.withIn m) = .next (t.withIn m) := by
  refine coreStep_withIn_of_fetch hrun ?_ (fun i u hf hx => ?_) h
  · rw [fetch, fetch, fetchLfh, fetchLfh]
    by_cases hover : s.zip.lfhPos + 30 > inLen s
    · rw [if_pos hover]
      exact if_pos hover
    · have hsig : le32 (s.withIn m) (s.withIn m).zip.lfhPos = le32 s s.zip.lfhPos :=
        le32_withIn (a := s.zip.lfhPos) hm (by omega)
      rw [if_neg hover, hsig]
      refine (if_neg hover).trans ?_
      split <;> rfl
  · rcases fetchLfh_cases s with ⟨-, e⟩ | ⟨hin, -, e⟩ | ⟨-, -, e⟩ <;> cases e.symm.trans hf
    exact (congrArg settle (lfhBody_withIn hm hrecord hin)).trans (settle_withIn hx)

/-! ### The commands (R279, R302-R313) -/

theorem bytesMatch_withIn {off j n : Nat} (h : off + j + n ≤ inLen s) :
    bytesMatch (s.withIn m) off j n = bytesMatch s off j n := by
  induction n generalizing j with
  | zero => rfl
  | succ n ih =>
    rw [bytesMatch, bytesMatch, hm (off + j) (by omega), ih (by omega)]
    rfl

/-- R76, R274: the names of sound records lie below IN_LEN. -/
theorem lookupFrom_withIn {k : Nat} {es : List Entry} (h : ∀ e ∈ es, e.nameOff + e.nameLen ≤ inLen s) :
    lookupFrom (s.withIn m) k es = lookupFrom s k es := by
  induction es generalizing k with
  | nil => rfl
  | cons e es ih =>
    obtain ⟨he, hes⟩ := List.forall_mem_cons.mp h
    have hname : nameMatches (s.withIn m) e = nameMatches s e := by
      rw [nameMatches, nameMatches, bytesMatch_withIn hm (by omega)]
      rfl
    rw [lookupFrom, lookupFrom, ih hes, hname]

theorem copyIn_withIn {a n : Nat} (h : a + n ≤ inLen s) :
    copyIn a n (s.withIn m) = (copyIn a n s).withIn (State.withIn m) m := by
  induction n generalizing s a with
  | zero => rfl
  | succ n ih =>
    rw [copyIn, copyIn, hm a (by omega)]
    refine Res.bind_withIn (putByte_withIn _ s) fun u hu => ?_
    obtain ⟨-, rfl⟩ := putByte_eq_ok hu
    exact ih (s := withByte _ s) hm (show a + 1 + n ≤ inLen s by omega)

/-- R304: the content of a sound record lies below IN_LEN. -/
theorem produce_withIn {e : Entry} (h : e.dataOff + e.csize ≤ inLen s) :
    produce e (s.withIn m) = (produce e s).withIn (State.withIn m) m := by
  refine Res.ite_withIn (fun _ => rfl) fun _ => Res.ite_withIn (fun _ => rfl) fun _ =>
    Res.ite_withIn (fun _ => rfl) fun hsize => ?_
  have hcontent : e.dataOff + e.usize ≤ inLen s := Decidable.not_not.mp hsize ▸ h
  exact Res.bind_withIn (copyIn_withIn (s := storedStart e s) hm hcontent) fun _ _ => rfl

theorem readBody_withIn (h : s.regs.openValid = true → TableOk s) :
    readBody (s.withIn m) = (readBody s).withIn (State.withIn m) m := by
  refine Res.ite_withIn (fun _ => rfl) fun hopen => Res.ite_withIn (fun _ => rfl) fun _ => ?_
  have htable := h (Bool.eq_true_of_not_eq_false hopen)
  have hlookup : lookup (s.withIn m) = lookup s := lookupFrom_withIn hm fun e he => (htable e he).name
  rw [hlookup]
  cases hfound : lookup s with
  | none => rfl
  | some r =>
    obtain ⟨k, e⟩ := r
    have he := htable e (List.mem_of_getElem? (lookup_eq_some hfound).1)
    exact produce_withIn (s := withRecord k e s) hm he.content

theorem crc32Body_withIn : crc32Body (s.withIn m) = (crc32Body s).withIn (State.withIn m) m := by
  refine Res.ite_withIn (fun _ => rfl) fun hfits => ?_
  have hrange : s.regs.arg0.toNat + s.regs.arg1.toNat ≤ inLen s := Nat.le_of_not_lt fun hlt => hfits (.inr hlt)
  have hcrc : crcRun (inByte (s.withIn m)) s.regs.arg0.toNat s.regs.arg1.toNat 0xFFFFFFFF =
      crcRun (inByte s) s.regs.arg0.toNat s.regs.arg1.toNat 0xFFFFFFFF :=
    crcRun_congr (fun k hk => hm _ (by omega)) _
  simp only [putCrc, crc32, crcAcc]
  exact congrArg (fun c : Word => Except.ok (complete { s.withIn m with
    crc := c, regs := { s.regs with resCrc := ~~~ c } })) hcrc

/-- R300: the step that runs the accepted command, with what OPEN has left valid. -/
theorem command_withIn (hrun : s.run = .busy .command) (htable : s.regs.openValid = true → TableOk s)
    (h : coreStep s = .next t) : coreStep (s.withIn m) = .next (t.withIn m) := by
  refine coreStep_withIn_of_fetch hrun rfl (fun i u hf hx => ?_) h
  cases hf
  rcases decodeCmd_cases (cmdWord s) with hi | hi | hi | hi | hi
  · rw [exec_reserved _ hi] at hx ⊢
    cases hx
    rfl
  all_goals rw [hi] at hx ⊢
  · refine Eq.trans (congrArg settle ?_) (settle_withIn hx)
    exact Res.ite_withIn (fun _ => rfl) fun _ => Res.ite_withIn (fun _ => rfl) fun _ => rfl
  · exact (congrArg settle (readBody_withIn hm htable)).trans (settle_withIn hx)
  · refine Eq.trans (congrArg settle ?_) (settle_withIn hx)
    exact Res.ite_withIn (fun _ => rfl) fun _ => rfl
  · exact (congrArg settle (crc32Body_withIn hm)).trans (settle_withIn hx)

/-! ### The ends of the bodies (R260, R306, R312) -/

theorem finishOpen_withIn (h : s.zip.eocdPos + 22 ≤ inLen s) : finishOpen (s.withIn m) = (finishOpen s).withIn m := by
  have hcount : le16 (s.withIn m) (s.zip.eocdPos + 10) = le16 s (s.zip.eocdPos + 10) := le16_withIn hm (by omega)
  have hcomment : le16 (s.withIn m) (s.zip.eocdPos + 20) = le16 s (s.zip.eocdPos + 20) := le16_withIn hm (by omega)
  exact congrArg₂ (fun count len : Nat => complete { s.withIn m with regs := { s.regs with
    entryCount := BitVec.ofNat 32 count
    commentOff := BitVec.ofNat 32 (s.zip.eocdPos + 22)
    commentLen := BitVec.ofNat 32 len
    openValid := true } }) hcount hcomment

theorem finishCommand_withIn (h : PlaceOk s .finish) :
    finishCommand (s.withIn m) = (finishCommand s).withIn m := by
  rcases h with ⟨hwalk, -⟩ | ⟨hstream, -⟩ | hstored
  · rw [finishCommand_open hwalk.open_, finishCommand_open (s := s.withIn m) hwalk.open_]
    exact finishOpen_withIn hm (Nat.le_trans (Nat.le_add_right _ _) hwalk.comment)
  · rcases hstream.source with ⟨hop, -⟩ | ⟨hop, -⟩
    · rw [finishCommand_inflate hop, finishCommand_inflate (s := s.withIn m) hop]
      rfl
    · rw [finishCommand_read hop, finishCommand_read (s := s.withIn m) hop]
      exact finishRead_withIn s
  · rw [finishCommand_read hstored.read, finishCommand_read (s := s.withIn m) hstored.read]
    exact finishRead_withIn s

/-! ### Every step of the core -/

/-- R76, R154: from a sound state a step reads no byte of IN at or beyond IN_LEN. -/
theorem coreStep_withIn (h : s.Inv) (hstep : coreStep s = .next t) : coreStep (s.withIn m) = .next (t.withIn m) := by
  cases hb : busy s with
  | false =>
    cases (coreStep_idle hb).symm.trans hstep
    exact coreStep_idle (s := s.withIn m) hb
  | true =>
    obtain ⟨a, hrun⟩ := exists_run_of_busy hb
    have hplace := h.place a hrun
    have hstream (ha : StreamPlace a) : coreStep (s.withIn m) = .next (t.withIn m) :=
      stream_withIn ha ⟨hm, (hplace.stream ha).region⟩ hrun hstep
    cases a with
    | command => exact command_withIn hm hrun (fun hopen => (h.handle.valid hopen).table) hstep
    | scanEocd =>
      obtain ⟨-, -, hpos⟩ := hplace
      exact scanEocd_withIn hm hrun hpos hstep
    | walkCdh => exact walkCdh_withIn hm hrun hstep
    | checkLfh =>
      obtain ⟨-, -, hrecord⟩ := hplace
      have hfields := hrecord.fields
      rw [nextCdh] at hfields
      exact checkLfh_withIn hm hrun (by omega) hstep
    | blockHeader => exact hstream (.inl rfl)
    | codeLength => exact hstream (.inr (.inl rfl))
    | litLen => exact hstream (.inr (.inr (.inl rfl)))
    | distance => exact hstream (.inr (.inr (.inr rfl)))
    | finish =>
      cases (coreStep_internal hrun rfl).symm.trans hstep
      exact (coreStep_internal (s := s.withIn m) hrun rfl).trans
        (congrArg Host.Outcome.next (finishCommand_withIn hm hplace))

end

/-- Settles O60: the step with the other state's IN is `coreStep_withIn`; it leaves IN_LEN and both memories alone. -/
theorem bytesBeyondInLenDoNotMatter : Obligations.BytesBeyondInLenDoNotMatter := by
  intro s t s' h hsame hstep
  obtain ⟨ht, hbytes⟩ := hsame
  have hm : AgreesBelow t.inMem s := fun a ha => (congrArg (inByte · a) ht).symm.trans (hbytes a ha)
  have hkept := coreStep_kept hstep
  refine ⟨s'.withIn t.inMem, ht ▸ coreStep_withIn hm h hstep, rfl, fun a ha => ?_⟩
  calc inByte (s'.withIn t.inMem) a = inByte (s.withIn t.inMem) a :=
      inByte_congr (s := s.withIn t.inMem) (t := s'.withIn t.inMem) rfl hkept.memEpoch a
    _ = inByte s a := hm a (hkept.inLen_eq ▸ ha)
    _ = inByte s' a := (inByte_congr hkept.inMem hkept.memEpoch a).symm

end Sys2Proof.Machine
end
